-- ==== Sys2Proof/Config.lean ====
section
/-! DEFINITION. The implementation's parameters (spec/00_scope.md R5): arguments of `reset`, fixed
while the machine runs (spec/70_reset_and_hazards.md R343). -/

namespace Sys2Proof

/-- The eight parameters of R5. The machine carries them in `State.params`, which no step changes
(notes/assumptions/1.md), so that a statement over all states is a statement over all parameters. -/
structure Params where
  /-- `N`: RAM size in 32-bit words. -/
  ramWords   : Nat
  /-- `DM`: refused requests per RAM transaction. -/
  ramDelay   : Nat
  /-- `S`: cache sets, 0 for bypass. -/
  sets       : Nat
  /-- `W`: cache ways, 0 for bypass. -/
  ways       : Nat
  /-- `L`: words per cache line, 0 for bypass. -/
  lineWords  : Nat
  /-- `DC`: cache service latency. -/
  cacheDelay : Nat
  /-- `SCALAR`: the scalar-mode toggle. -/
  scalar     : Bool
  /-- `DIV_SIGNED`: whether DIV and REM are signed (OPEN, R247). -/
  divSigned  : Bool
deriving DecidableEq, Repr

/-- The cache is present: `S > 0`, `W > 0` and `L > 0` (R5, spec/10_state.md R34). Otherwise it is
bypassed (spec/20_memory.md R75). -/
def Params.cached (p : Params) : Bool :=
  p.sets != 0 && p.ways != 0 && p.lineWords != 0

/-- `n` is a power of two. -/
def isPowerOfTwo (n : Nat) : Bool := n == 2 ^ n.log2

/-- The constraints of R5; `reset` is not defined for other parameters
(spec/93_implementation_defined.md I18). -/
def Params.valid (p : Params) : Bool :=
  isPowerOfTwo p.ramWords && decide (p.ramWords ≤ 2 ^ 32)
    && (p.sets == 0 || isPowerOfTwo p.sets)
    && (p.lineWords == 0 || isPowerOfTwo p.lineWords)
    && (!p.cached || decide (p.lineWords ≤ p.ramWords))

/-- DIV_SIGNED of the machine `State.reset` starts (OPEN, R5, R247 (a): "may prove nothing that
depends on its value"): no body, so nothing can be proved of its value (notes/assumptions/2.md). -/
opaque Config.divSigned : Bool

/-- The process's exit code after a fault, which the source does not give (spec/60_exceptions.md R331,
spec/93_implementation_defined.md I26): no body, so nothing can be proved of it
(notes/assumptions/23.md). -/
opaque Config.faultExitCode : Nat

/-- The parameters `State.reset` starts with. DESIGN CHOICE, unsafe if a claim rests on them
(notes/assumptions/2.md): the spec gives no defaults (D35); these are the ones its test vectors use
where a line does not say otherwise (spec/95_test_vectors.md, Conventions): `N = 1024`, cache
bypassed, `DM = 0`, no scalar mode. -/
def Config.resetParams : Params where
  ramWords := 1024
  ramDelay := 0
  sets := 0
  ways := 0
  lineWords := 0
  cacheDelay := 0
  scalar := false
  divSigned := Config.divSigned

end Sys2Proof
end

