-- ==== Sys2Proof/Word.lean ====
section
/-! DEFINITION. The machine's bit-vector types (spec/00_scope.md R8, spec/10_state.md R21,
spec/30_encoding.md R110 to R115). -/

namespace Sys2Proof

/-- A word: 32 bits (R8). Registers, RAM words, cache data words, `pc` and instruction words. -/
abbrev Word := BitVec 32

/-- A byte of the program image (R62). -/
abbrev Byte := BitVec 8

/-- A register index: a 5-bit instruction field or one of the constants 30 and 31 (R21, R27). -/
abbrev Reg := BitVec 5

/-- The 16-bit two's-complement immediate field (R116). -/
abbrev Imm16 := BitVec 16

/-- The stack pointer's index, 30 (R29). -/
abbrev spReg : Reg := 30#5

/-- The link register's index, 31 (R29). -/
abbrev linkReg : Reg := 31#5

end Sys2Proof
end

