-- ==== Sys2Proof/Syntax.lean ====
section
/-! DEFINITION. The 47 instructions of spec/opcode_table.json, one constructor per row
(spec/30_encoding.md R118, R119, R121, R122, R123). Where one mnemonic has a register-immediate and a
register-register row the constructors end in `I` and `R`. -/

namespace Sys2Proof

/-- An instruction: the tagged op of spec/10_state.md R36. POP and PUSH keep the `RMem` and `Imm`
fields they ignore, and HLT its `CtrlMode` and `CtrlFlag`, as R129's decode function does. -/
inductive Instr where
  -- RegImm: Rd, Imm (R112, R118)
  | addI (rd : Reg) (imm : Imm16)
  | subI (rd : Reg) (imm : Imm16)
  | mulI (rd : Reg) (imm : Imm16)
  | andI (rd : Reg) (imm : Imm16)
  | xorI (rd : Reg) (imm : Imm16)
  | orI (rd : Reg) (imm : Imm16)
  | notI (rd : Reg) (imm : Imm16)
  | negI (rd : Reg) (imm : Imm16)
  | shrI (rd : Reg) (imm : Imm16)
  | sarI (rd : Reg) (imm : Imm16)
  | shlI (rd : Reg) (imm : Imm16)
  | rolI (rd : Reg) (imm : Imm16)
  | ldi (rd : Reg) (imm : Imm16)
  | ldx (rd : Reg) (imm : Imm16)
  | cmpI (rd : Reg) (imm : Imm16)
  -- RegReg: Rd, Rs (R113, R119)
  | addR (rd rs : Reg)
  | subR (rd rs : Reg)
  | mulR (rd rs : Reg)
  | divR (rd rs : Reg)
  | remR (rd rs : Reg)
  | orR (rd rs : Reg)
  | xorR (rd rs : Reg)
  | andR (rd rs : Reg)
  | notR (rd rs : Reg)
  | shlR (rd rs : Reg)
  | shrR (rd rs : Reg)
  | sarR (rd rs : Reg)
  | rolR (rd rs : Reg)
  | cmpR (rd rs : Reg)
  | cpy (rd rs : Reg)
  | nsa (rd rs : Reg)
  -- LoadStore: Rd, RMem, Imm (R114, R121)
  | ldw (rd rm : Reg) (imm : Imm16)
  | pop (rd rm : Reg) (imm : Imm16)
  | push (rd rm : Reg) (imm : Imm16)
  | stw (rd rm : Reg) (imm : Imm16)
  -- Control: RMem, Imm (R115, R122)
  | beq (rm : Reg) (imm : Imm16)
  | bne (rm : Reg) (imm : Imm16)
  | blt (rm : Reg) (imm : Imm16)
  | bge (rm : Reg) (imm : Imm16)
  | blu (rm : Reg) (imm : Imm16)
  | bae (rm : Reg) (imm : Imm16)
  | ba (rm : Reg) (imm : Imm16)
  | bof (rm : Reg) (imm : Imm16)
  | bnf (rm : Reg) (imm : Imm16)
  | bunc (rm : Reg) (imm : Imm16)
  | call (rm : Reg) (imm : Imm16)
  /-- The halt sentinel: RMem = 0, Imm = 0xFFFF, any CtrlMode and CtrlFlag (R123). -/
  | hlt (mode : BitVec 3) (flag : BitVec 4)
deriving DecidableEq, Repr

end Sys2Proof
end

