-- ==== Sys2Proof/Machine/State.lean ====
section
/-! DEFINITION. The state of the machine (spec/10_state.md R20 to R42) and its value after reset (R45,
spec/70_reset_and_hazards.md R340). -/

namespace Sys2Proof.Machine

/-- The five fault kinds (spec/60_exceptions.md R311). A fault is marked on a record and becomes
`State.fault` when Write-Back consumes the record (R312): it is a next state, since R325 gives the whole
state after it, and no step answers `Outcome.fault` (notes/assumptions/6.md). -/
inductive Fault where
  /-- Raised by a fetched non-zero word that is no instruction, marked by Decode (R313). The spec's own
  event: safe. -/
  | malformedInstruction
  /-- Raised by LDX and NSA, marked by Execute (R314). The spec's own event: safe. -/
  | unspecifiedOperation
  /-- Raised by DIV and REM with a zero divisor, marked by Execute (R315). The spec's own event: safe. -/
  | divideByZero
  /-- "OutOfRange" (R316): raised by nothing, since every address is reduced modulo `N`. Kept so that the
  enumeration is the spec's. Safe. -/
  | outOfRange
  /-- "InvalidState" (R317): raised by nothing, since the service rule is total. Safe. -/
  | invalidState
deriving DecidableEq, Repr

/-- Why an instruction has no meaning. -/
inductive Refusal where
  /-- Raised by an arm of `exec` whose instruction is not modelled yet; no arm is one. Safe. -/
  | notModelled (mnemonic : String)
deriving DecidableEq, Repr

/-- What a step or a meaning answers. -/
abbrev Outcome (σ : Type) := Host.Outcome σ Fault Refusal

/-- One register: "value, read_enable, write_enable" (R21). -/
structure RegEntry where
  value       : Word
  readEnable  : Bool
  writeEnable : Bool
deriving DecidableEq, Repr

/-- The register file: 32 entries (R21). Entry 0 is hard-wired by the ports (Machine/Ops.lean, R22). -/
abbrev RegFile := Vector RegEntry 32

/-- The flag register: four named bits (R31). -/
structure Flags where
  cf  : Bool
  ovf : Bool
  zf  : Bool
  sf  : Bool
deriving DecidableEq, Repr

/-- Requester tags (spec/20_memory.md R67). -/
inductive Requester where
  | fetch
  | memory
  | cache
deriving DecidableEq, Repr

/-- The RAM's contents: the bytes of the image's layout, byte `k` (0 least significant) of the word at
word address `a` at key `4 * a + k` (R62, notes/assumptions/3.md), in canonical form: keys strictly
rising and no byte equal to what an unlisted key reads as, 0 (R45, notes/assumptions/4.md). -/
abbrev RamCells := List Host.Cell

/-- RAM with its service slot `ram_req` and counter `ram_left` (R33). -/
structure Ram where
  cells : RamCells
  req   : Option Requester
  left  : Nat
deriving DecidableEq, Repr

/-- A cache line (R34). -/
structure Line where
  valid : Bool
  tag   : Nat
  data  : List Word
  lru   : Nat
deriving DecidableEq, Repr

/-- The cache: `lines[i]` is set `i`, a list of its ways; the service slot `c_req`, the counter `c_left`
and the flag `c_wait_next` (R34). In bypass there are no lines and nothing reads the rest. -/
structure Cache where
  lines    : List (List Line)
  req      : Option Requester
  left     : Nat
  waitNext : Bool
deriving DecidableEq, Repr

/-- The memory state: RAM and cache (R33, R34). -/
structure MemSys where
  ram   : Ram
  cache : Cache
deriving DecidableEq, Repr

/-- The tagged op of a record (R36): filled by Decode. -/
inductive Op where
  | undecoded
  /-- A word with no meaning (spec/30_encoding.md R124). -/
  | invalid
  | instr (i : Instr)
deriving DecidableEq, Repr

/-- The record that moves from stage to stage (R35). `claims` lists the registers Decode blocked for it,
without repeats and without r0, whose blocking is a no-op (notes/assumptions/7.md). -/
structure Record where
  raw         : Word
  op          : Op
  operand     : Word
  result      : Word
  destMemAddr : Word
  branchTaken : Bool
  writeBack   : Bool
  pc          : Word
  auxReg      : Reg
  claims      : List Reg
  fault       : Option Fault
deriving DecidableEq, Repr

/-- `D.state` (R38). -/
inductive DState where
  /-- No record, or a decoded record that waits for Execute. -/
  | free
  /-- Decode has not yet been attempted on the record. -/
  | busy
  /-- The last attempt met a `Blocked` register read. -/
  | awaitingRegRead
deriving DecidableEq, Repr

/-- The stages that work on a decoded instruction, in the order a tick executes them (R140). -/
inductive Stage where
  | writeBack
  | memory
  | execute
  | decode
deriving DecidableEq, Repr

/-- The state (R20), with the parameters of R5 (log 1) and the model's own cursor `stage` (log 5). -/
structure State where
  /-- The parameters of R5: no step changes them (R343). -/
  params      : Params
  regs        : RegFile
  /-- The word address of the next word Fetch will request (R30). -/
  pc          : Word
  flags       : Flags
  mem         : MemSys
  fRec        : Option Record
  fSquashed   : Bool
  dRec        : Option Record
  dState      : DState
  xRec        : Option Record
  xDone       : Bool
  mRec        : Option Record
  mWaiting    : Bool
  mDone       : Bool
  wRec        : Option Record
  /-- The global clock counter, unbounded (R42, R326). -/
  clock       : Nat
  haltPending : Bool
  halted      : Bool
  fault       : Option Fault
  /-- The MODEL's own field: the stage whose work `exec` does (notes/assumptions/5.md). Between ticks it
  is `writeBack`, the stage a tick executes first. -/
  stage       : Stage
deriving DecidableEq, Repr

/-- Way `w` of a set after reset: invalid, tag 0, data 0, rank `w` (R45). -/
def resetLine (p : Params) (w : Nat) : Line where
  valid := false
  tag := 0
  data := List.replicate p.lineWords 0#32
  lru := w

/-- The cache after reset; no lines in bypass (R34, R45). -/
def resetCache (p : Params) : Cache where
  lines := if p.cached then List.replicate p.sets ((List.range p.ways).map (resetLine p)) else []
  req := none
  left := 0
  waitNext := false

/-- Every piece of state at the value of R45 under parameters `p`, with RAM contents `cells`. -/
def State.resetWith (p : Params) (cells : RamCells) : State where
  params := p
  regs := Vector.replicate 32 { value := 0#32, readEnable := true, writeEnable := true }
  pc := 0#32
  flags := { cf := false, ovf := false, zf := false, sf := false }
  mem := { ram := { cells := cells, req := none, left := 0 }, cache := resetCache p }
  fRec := none
  fSquashed := false
  dRec := none
  dState := .free
  xRec := none
  xDone := false
  mRec := none
  mWaiting := false
  mDone := false
  wRec := none
  clock := 0
  haltPending := false
  halted := false
  fault := none
  stage := .writeBack

/-- The machine right after reset with an empty image (R340): the values of R45, under the parameters of
`Config.resetParams` (notes/assumptions/2.md). A program is loaded by `State.load`
(notes/assumptions/10.md). -/
def State.reset : State := State.resetWith Config.resetParams []

end Sys2Proof.Machine
end

