-- ==== Sys2Proof/Machine/Flags.lean ====
section
/-! DEFINITION. The flag computations (spec/41_regimm_alu.md R200 to R215): every RegImm and RegReg
operation that completes writes all four flags (R200), and the eleven conditions of the Control matrix
(spec/30_encoding.md R122). -/

namespace Sys2Proof.Machine

/-- `ZF` and `SF` from the result, with given `CF` and `OVF` (R200). -/
def resultFlags (cf ovf : Bool) (res : Word) : Flags where
  cf := cf
  ovf := ovf
  zf := res == 0#32
  sf := res.msb

/-- The flags of an operation with no carry and no overflow (R200). -/
def logicFlags (res : Word) : Flags := resultFlags false false res

/-- The flags of ADD (R201): carry out of bit 31; operands of one sign and a result of the other. -/
def addFlags (op1 op2 res : Word) : Flags :=
  resultFlags (decide (2 ^ 32 ≤ op1.toNat + op2.toNat))
    (op1.msb == op2.msb && res.msb != op1.msb) res

/-- The flags of SUB, CMP and NEG (R202, R208, R215): borrow; signed overflow of the difference. -/
def subFlags (op1 op2 res : Word) : Flags :=
  resultFlags (decide (op1.toNat < op2.toNat)) (op1.msb != op2.msb && res.msb != op1.msb) res

/-- The flags of MUL (R203): `CF` from the unsigned product, `OVF` from the signed one. -/
def mulFlags (op1 op2 res : Word) : Flags :=
  resultFlags (decide (2 ^ 32 ≤ op1.toNat * op2.toNat))
    (decide (op1.toInt * op2.toInt ≠ res.toInt)) res

/-! ## Branch conditions (R122) -/

/-- `BEQ`: ZF = 1 (spec/44_control.md R283). -/
def Flags.condEq (f : Flags) : Bool := f.zf
/-- `BNE`: ZF = 0 (R284). -/
def Flags.condNe (f : Flags) : Bool := !f.zf
/-- `BLT`: SF ≠ OVF (R285). -/
def Flags.condLt (f : Flags) : Bool := f.sf != f.ovf
/-- `BGE`: SF = OVF (R286). -/
def Flags.condGe (f : Flags) : Bool := f.sf == f.ovf
/-- `BLU`: CF = 1 (R287). -/
def Flags.condLu (f : Flags) : Bool := f.cf
/-- `BAE`: CF = 0 (R288). -/
def Flags.condAe (f : Flags) : Bool := !f.cf
/-- `BA`: CF = 0 and ZF = 0 (R289). -/
def Flags.condA (f : Flags) : Bool := !f.cf && !f.zf
/-- `BOF`: OVF = 1 (R290). -/
def Flags.condOf (f : Flags) : Bool := f.ovf
/-- `BNF`: OVF = 0 (R292). -/
def Flags.condNf (f : Flags) : Bool := !f.ovf
/-- `BUNC` and `CALL`: always (R293, R294). -/
def Flags.condAlways (_ : Flags) : Bool := true

end Sys2Proof.Machine
end

