-- ==== Sys2Proof/Machine/Alu.lean ====
section
/-! DEFINITION. The function `ALU` of spec/41_regimm_alu.md R200, operation by operation: RegImm and
RegReg share one definition per operation (spec/42_regreg_alu.md). -/

namespace Sys2Proof.Machine

/-- What an operation computes: a result with all four flags, or a fault that writes neither (R200). -/
inductive AluOut where
  | done (res : Word) (flags : Flags)
  | fault (kind : Fault)
deriving DecidableEq, Repr

/-- An operation that leaves `CF = OVF = 0` (R200). -/
def logicOut (res : Word) : AluOut := .done res (logicFlags res)

/-- The shift and rotate amount: the low five bits of `op2` (R219). -/
def shiftAmount (op2 : Word) : Nat := op2.toNat % 32

/-- ADD (R201, R231). -/
def aluAdd (op1 op2 : Word) : AluOut :=
  let res := BitVec.ofNat 32 (op1.toNat + op2.toNat)
  .done res (addFlags op1 op2 res)

/-- SUB (R202, R232), and the flags of CMP (R215, R244). -/
def aluSub (op1 op2 : Word) : AluOut :=
  let res := BitVec.ofInt 32 ((op1.toNat : Int) - op2.toNat)
  .done res (subFlags op1 op2 res)

/-- MUL (R203, R233). -/
def aluMul (op1 op2 : Word) : AluOut :=
  let res := BitVec.ofNat 32 (op1.toNat * op2.toNat)
  .done res (mulFlags op1 op2 res)

/-- DIV (R234, R247): signedness is the parameter DIV_SIGNED. -/
def aluDiv (signed : Bool) (op1 op2 : Word) : AluOut :=
  if op2 = 0#32 then .fault .divideByZero
  else if signed then logicOut (BitVec.ofInt 32 (Int.tdiv op1.toInt op2.toInt))
  else logicOut (BitVec.ofNat 32 (op1.toNat / op2.toNat))

/-- REM (R235, R247): signed, the remainder has the sign of the dividend. -/
def aluRem (signed : Bool) (op1 op2 : Word) : AluOut :=
  if op2 = 0#32 then .fault .divideByZero
  else if signed then
    logicOut (BitVec.ofInt 32 (op1.toInt - Int.tdiv op1.toInt op2.toInt * op2.toInt))
  else logicOut (BitVec.ofNat 32 (op1.toNat % op2.toNat))

/-- AND (R204, R238). -/
def aluAnd (op1 op2 : Word) : AluOut := logicOut (op1 &&& op2)
/-- XOR (R205, R237). -/
def aluXor (op1 op2 : Word) : AluOut := logicOut (op1 ^^^ op2)
/-- OR (R206, R236). -/
def aluOr (op1 op2 : Word) : AluOut := logicOut (op1 ||| op2)
/-- NOT (R207, R239): the complement of `op2`; `op1` is ignored (R218). -/
def aluNot (_op1 op2 : Word) : AluOut := logicOut (~~~op2)
/-- NEG (R208): `0 - op2` with the flags of SUB on 0; `op1` is ignored (R218). -/
def aluNeg (_op1 op2 : Word) : AluOut := aluSub 0#32 op2

/-- SHR (R209, R241): logical shift right. -/
def aluShr (op1 op2 : Word) : AluOut :=
  logicOut (BitVec.ofNat 32 (op1.toNat / 2 ^ shiftAmount op2))

/-- SAR (R210, R242): arithmetic shift right, the floor of the signed quotient. -/
def aluSar (op1 op2 : Word) : AluOut :=
  logicOut (BitVec.ofInt 32 (op1.toInt / 2 ^ shiftAmount op2))

/-- SHL (R211, R240). -/
def aluShl (op1 op2 : Word) : AluOut :=
  logicOut (BitVec.ofNat 32 (op1.toNat * 2 ^ shiftAmount op2))

/-- ROL (R212, R243). -/
def aluRol (op1 op2 : Word) : AluOut :=
  let k := shiftAmount op2
  logicOut
    (if k = 0 then op1
     else BitVec.ofNat 32 (op1.toNat * 2 ^ k) ||| BitVec.ofNat 32 (op1.toNat / 2 ^ (32 - k)))

/-- LDI (R213): `op2`; `op1` is ignored (R218). -/
def aluLdi (_op1 op2 : Word) : AluOut := logicOut op2
/-- CPY (R245): `op2`; `op1` is ignored (R218). -/
def aluCpy (_op1 op2 : Word) : AluOut := logicOut op2
/-- LDX and NSA (R214, R246): no operation is given, the record is marked. -/
def aluUnspecified (_op1 _op2 : Word) : AluOut := .fault .unspecifiedOperation

end Sys2Proof.Machine
end

