-- ==== Sys2Proof/WellFormed.lean ====
section
/-! DEFINITION. Which terms of `Instr` are instructions: the field types make every register index and
immediate encodable, so one check is left, on Control. -/

namespace Sys2Proof

/-- A Control word with `RMem = 0` and `Imm = 0xFFFF` is HLT whatever its pair (spec/30_encoding.md
R123), so no branch and no CALL has those operands. -/
def branchOperandOk (rm : Reg) (imm : Imm16) : Bool :=
  !(rm == 0#5 && imm == 0xFFFF#16)

/-- The instruction can be written down as a word of the instruction set. -/
def Instr.wellFormed : Instr → Bool
  | .addI _ _ | .subI _ _ | .mulI _ _ | .andI _ _ | .xorI _ _ | .orI _ _ | .notI _ _ | .negI _ _
  | .shrI _ _ | .sarI _ _ | .shlI _ _ | .rolI _ _ | .ldi _ _ | .ldx _ _ | .cmpI _ _ => true
  | .addR _ _ | .subR _ _ | .mulR _ _ | .divR _ _ | .remR _ _ | .orR _ _ | .xorR _ _ | .andR _ _
  | .notR _ _ | .shlR _ _ | .shrR _ _ | .sarR _ _ | .rolR _ _ | .cmpR _ _ | .cpy _ _ | .nsa _ _ =>
    true
  | .ldw _ _ _ | .pop _ _ _ | .push _ _ _ | .stw _ _ _ => true
  | .beq rm imm | .bne rm imm | .blt rm imm | .bge rm imm | .blu rm imm | .bae rm imm | .ba rm imm
  | .bof rm imm | .bnf rm imm | .bunc rm imm | .call rm imm => branchOperandOk rm imm
  | .hlt _ _ => true

end Sys2Proof
end

