-- ==== Sys2Proof/Decode.lean ====
section
/-! DEFINITION. The codec (spec/30_encoding.md R110 to R129): `decode`, total on any word and rejecting
by name, and `encode`, its right inverse with ignored bits written as 0. -/

namespace Sys2Proof

/-- Why a word is no instruction: the three classes of R124, all decoded to `Invalid` (R36). -/
inductive DecodeError where
  /-- `dtype` is not 01 (R125). -/
  | notIntegerType
  /-- RegImm with `ALU = 1111` (R217). -/
  | regImmAlu15
  /-- Control, not HLT, with a `(CtrlMode, CtrlFlag)` pair that is none of the eleven (R295). -/
  | unlistedControlPair
deriving DecidableEq, Repr

/-! ## Fields of the word, bit 0 the least significant (R111 to R115) -/

/-- `dtype`, bits 1..0 (R111). -/
def fieldDtype (w : Word) : BitVec 2 := w.extractLsb' 0 2
/-- `optype`, bits 3..2 (R111). -/
def fieldOptype (w : Word) : BitVec 2 := w.extractLsb' 2 2
/-- `Rd` of RegImm, RegReg and LoadStore, `RMem` of Control: bits 8..4. -/
def fieldReg (w : Word) : Reg := w.extractLsb' 4 5
/-- `ALU` of RegImm and RegReg, `CtrlFlag` of Control: bits 12..9. -/
def fieldAlu (w : Word) : BitVec 4 := w.extractLsb' 9 4
/-- `Rs` of RegReg: bits 17..13 (R113). -/
def fieldRs (w : Word) : Reg := w.extractLsb' 13 5
/-- `MemMode` of LoadStore: bits 10..9 (R114). -/
def fieldMemMode (w : Word) : BitVec 2 := w.extractLsb' 9 2
/-- `RMem` of LoadStore: bits 15..11 (R114). -/
def fieldRMem (w : Word) : Reg := w.extractLsb' 11 5
/-- `CtrlMode` of Control: bits 15..13 (R115). -/
def fieldCtrlMode (w : Word) : BitVec 3 := w.extractLsb' 13 3
/-- `Imm` of RegImm, LoadStore and Control: bits 31..16. -/
def fieldImm (w : Word) : Imm16 := w.extractLsb' 16 16

/-- `sext_16` (spec/00_scope.md R8, R116). -/
def sext16 (v : Imm16) : Word := v.signExtend 32

/-! ## Decoding -/

/-- RegImm by `ALU` code (R118). -/
def decodeRegImm (alu : BitVec 4) (rd : Reg) (imm : Imm16) : Except DecodeError Instr :=
  match alu.toNat with
  | 0 => .ok (.addI rd imm)
  | 1 => .ok (.subI rd imm)
  | 2 => .ok (.mulI rd imm)
  | 3 => .ok (.andI rd imm)
  | 4 => .ok (.xorI rd imm)
  | 5 => .ok (.orI rd imm)
  | 6 => .ok (.notI rd imm)
  | 7 => .ok (.negI rd imm)
  | 8 => .ok (.shrI rd imm)
  | 9 => .ok (.sarI rd imm)
  | 10 => .ok (.shlI rd imm)
  | 11 => .ok (.rolI rd imm)
  | 12 => .ok (.ldi rd imm)
  | 13 => .ok (.ldx rd imm)
  | 14 => .ok (.cmpI rd imm)
  | _ => .error .regImmAlu15

/-- RegReg by `ALU` code (R119): all sixteen are defined. -/
def decodeRegReg (alu : BitVec 4) (rd rs : Reg) : Instr :=
  match alu.toNat with
  | 0 => .addR rd rs
  | 1 => .subR rd rs
  | 2 => .mulR rd rs
  | 3 => .divR rd rs
  | 4 => .remR rd rs
  | 5 => .orR rd rs
  | 6 => .xorR rd rs
  | 7 => .andR rd rs
  | 8 => .notR rd rs
  | 9 => .shlR rd rs
  | 10 => .shrR rd rs
  | 11 => .sarR rd rs
  | 12 => .rolR rd rs
  | 13 => .cmpR rd rs
  | 14 => .cpy rd rs
  | _ => .nsa rd rs

/-- LoadStore by `MemMode` (R121): all four are defined. -/
def decodeLoadStore (mode : BitVec 2) (rd rm : Reg) (imm : Imm16) : Instr :=
  match mode.toNat with
  | 0 => .ldw rd rm imm
  | 1 => .pop rd rm imm
  | 2 => .push rd rm imm
  | _ => .stw rd rm imm

/-- Control: the HLT test (R123), then the pair as a whole (R122). -/
def decodeControl (mode : BitVec 3) (flag : BitVec 4) (rm : Reg) (imm : Imm16) :
    Except DecodeError Instr :=
  if !branchOperandOk rm imm then .ok (.hlt mode flag)
  else
    match mode.toNat, flag.toNat with
    | 0b000, 0b0001 => .ok (.beq rm imm)
    | 0b000, 0b0000 => .ok (.bne rm imm)
    | 0b001, 0b0110 => .ok (.blt rm imm)
    | 0b011, 0b0110 => .ok (.bge rm imm)
    | 0b100, 0b1000 => .ok (.blu rm imm)
    | 0b000, 0b1000 => .ok (.bae rm imm)
    | 0b010, 0b1000 => .ok (.ba rm imm)
    | 0b100, 0b0100 => .ok (.bof rm imm)
    | 0b000, 0b0100 => .ok (.bnf rm imm)
    | 0b111, 0b0000 => .ok (.bunc rm imm)
    | 0b111, 0b1111 => .ok (.call rm imm)
    | _, _ => .error .unlistedControlPair

/-- `decode : word -> Op` (R129); an error is the tagged op `Invalid` (R124). Reserved and unused bits
are ignored (R126). -/
def decode (w : Word) : Except DecodeError Instr :=
  if fieldDtype w ≠ 0b01#2 then .error .notIntegerType
  else
    match (fieldOptype w).toNat with
    | 0b00 => decodeRegImm (fieldAlu w) (fieldReg w) (fieldImm w)
    | 0b01 => .ok (decodeRegReg (fieldAlu w) (fieldReg w) (fieldRs w))
    | 0b10 => .ok (decodeLoadStore (fieldMemMode w) (fieldReg w) (fieldRMem w) (fieldImm w))
    | _ => decodeControl (fieldCtrlMode w) (fieldAlu w) (fieldReg w) (fieldImm w)

/-! ## Encoding -/

/-- The RegImm format (R112): `Imm`, reserved 0, `ALU`, `Rd`, 00, 01. -/
def packRegImm (alu : BitVec 4) (rd : Reg) (imm : Imm16) : Word :=
  imm ++ (0#3 ++ (alu ++ (rd ++ (0b00#2 ++ 0b01#2))))

/-- The RegReg format (R113): unused 0, `Rs`, `ALU`, `Rd`, 01, 01. -/
def packRegReg (alu : BitVec 4) (rd rs : Reg) : Word :=
  0#14 ++ (rs ++ (alu ++ (rd ++ (0b01#2 ++ 0b01#2))))

/-- The LoadStore format (R114): `Imm`, `RMem`, `MemMode`, `Rd`, 10, 01. -/
def packLoadStore (mode : BitVec 2) (rd rm : Reg) (imm : Imm16) : Word :=
  imm ++ (rm ++ (mode ++ (rd ++ (0b10#2 ++ 0b01#2))))

/-- The Control format (R115): `Imm`, `CtrlMode`, `CtrlFlag`, `RMem`, 11, 01. -/
def packControl (mode : BitVec 3) (flag : BitVec 4) (rm : Reg) (imm : Imm16) : Word :=
  imm ++ (mode ++ (flag ++ (rm ++ (0b11#2 ++ 0b01#2))))

/-- `encode` (R129): the word of an instruction, ignored bits 0. -/
def encode : Instr → Word
  | .addI rd imm => packRegImm 0#4 rd imm
  | .subI rd imm => packRegImm 1#4 rd imm
  | .mulI rd imm => packRegImm 2#4 rd imm
  | .andI rd imm => packRegImm 3#4 rd imm
  | .xorI rd imm => packRegImm 4#4 rd imm
  | .orI rd imm => packRegImm 5#4 rd imm
  | .notI rd imm => packRegImm 6#4 rd imm
  | .negI rd imm => packRegImm 7#4 rd imm
  | .shrI rd imm => packRegImm 8#4 rd imm
  | .sarI rd imm => packRegImm 9#4 rd imm
  | .shlI rd imm => packRegImm 10#4 rd imm
  | .rolI rd imm => packRegImm 11#4 rd imm
  | .ldi rd imm => packRegImm 12#4 rd imm
  | .ldx rd imm => packRegImm 13#4 rd imm
  | .cmpI rd imm => packRegImm 14#4 rd imm
  | .addR rd rs => packRegReg 0#4 rd rs
  | .subR rd rs => packRegReg 1#4 rd rs
  | .mulR rd rs => packRegReg 2#4 rd rs
  | .divR rd rs => packRegReg 3#4 rd rs
  | .remR rd rs => packRegReg 4#4 rd rs
  | .orR rd rs => packRegReg 5#4 rd rs
  | .xorR rd rs => packRegReg 6#4 rd rs
  | .andR rd rs => packRegReg 7#4 rd rs
  | .notR rd rs => packRegReg 8#4 rd rs
  | .shlR rd rs => packRegReg 9#4 rd rs
  | .shrR rd rs => packRegReg 10#4 rd rs
  | .sarR rd rs => packRegReg 11#4 rd rs
  | .rolR rd rs => packRegReg 12#4 rd rs
  | .cmpR rd rs => packRegReg 13#4 rd rs
  | .cpy rd rs => packRegReg 14#4 rd rs
  | .nsa rd rs => packRegReg 15#4 rd rs
  | .ldw rd rm imm => packLoadStore 0b00#2 rd rm imm
  | .pop rd rm imm => packLoadStore 0b01#2 rd rm imm
  | .push rd rm imm => packLoadStore 0b10#2 rd rm imm
  | .stw rd rm imm => packLoadStore 0b11#2 rd rm imm
  | .beq rm imm => packControl 0b000#3 0b0001#4 rm imm
  | .bne rm imm => packControl 0b000#3 0b0000#4 rm imm
  | .blt rm imm => packControl 0b001#3 0b0110#4 rm imm
  | .bge rm imm => packControl 0b011#3 0b0110#4 rm imm
  | .blu rm imm => packControl 0b100#3 0b1000#4 rm imm
  | .bae rm imm => packControl 0b000#3 0b1000#4 rm imm
  | .ba rm imm => packControl 0b010#3 0b1000#4 rm imm
  | .bof rm imm => packControl 0b100#3 0b0100#4 rm imm
  | .bnf rm imm => packControl 0b000#3 0b0100#4 rm imm
  | .bunc rm imm => packControl 0b111#3 0b0000#4 rm imm
  | .call rm imm => packControl 0b111#3 0b1111#4 rm imm
  | .hlt mode flag => packControl mode flag 0#5 0xFFFF#16

/-- The instruction the decoder reads from the bits the opcode table numbers as `w` (bit 0 least
significant): one word, whose bits above `nbits` are 0. -/
def decodeTableWord (nbits w : Nat) : Option Instr :=
  match decode (BitVec.ofNat 32 (w % 2 ^ nbits)) with
  | .ok i => some i
  | .error _ => none

end Sys2Proof
end

