-- ==== Sys2Proof/Machine/Ops.lean ====
section
/-! DEFINITION. The named operations over registers, RAM, cache and latches: the register-file ports
(spec/10_state.md R22 to R28), RAM and its service (spec/20_memory.md R60 to R72), the cache controller
(R74 to R80), squash (spec/40_pipeline.md R187, R188) and taking a fault (R184, spec/60_exceptions.md
R312). There is no return from a fault (R310). -/

namespace Sys2Proof.Machine

/-! ## Register file -/

/-- The stored entry of a register. -/
def RegFile.entry (regs : RegFile) (r : Reg) : RegEntry := regs[r.toNat]'r.isLt

/-- Stores an entry; register 0 is hard-wired and keeps its own (R22). -/
def RegFile.setEntry (regs : RegFile) (r : Reg) (e : RegEntry) : RegFile :=
  if r = 0#5 then regs else regs.set r.toNat e r.isLt

/-- `read_nb(r)`, the non-blocking read port (R25): r0 reads 0. -/
def RegFile.readNb (regs : RegFile) (r : Reg) : Word :=
  if r = 0#5 then 0#32 else (regs.entry r).value

/-- `read(r)`, the blocking read port (R23); `none` is `Blocked`. -/
def RegFile.read (regs : RegFile) (r : Reg) : Option Word :=
  if r = 0#5 then some 0#32
  else if (regs.entry r).readEnable then some (regs.entry r).value else none

/-- `write_nb(r, v)`, the non-blocking write port (R25). -/
def RegFile.writeNb (regs : RegFile) (r : Reg) (v : Word) : RegFile :=
  regs.setEntry r { regs.entry r with value := v }

/-- `write(r, v)`, the blocking write port (R24); `none` is `Blocked`. For r0 it does nothing and
succeeds. -/
def RegFile.write (regs : RegFile) (r : Reg) (v : Word) : Option RegFile :=
  if r = 0#5 then some regs
  else if (regs.entry r).writeEnable then some (regs.writeNb r v) else none

/-- `block(r)` clears both enables (R26). -/
def RegFile.block (regs : RegFile) (r : Reg) : RegFile :=
  regs.setEntry r { regs.entry r with readEnable := false, writeEnable := false }

/-- `unblock(r)` sets both enables (R26). -/
def RegFile.unblock (regs : RegFile) (r : Reg) : RegFile :=
  regs.setEntry r { regs.entry r with readEnable := true, writeEnable := true }

/-- `for r in claims: unblock(r)` (R169, R175, R179, R182, R183). -/
def RegFile.release (regs : RegFile) (claims : List Reg) : RegFile :=
  claims.foldl RegFile.unblock regs

/-- The registers blocked for a record that names `a` and `b` (R161, R162, R165): no repeats, and not
r0, whose blocking is a no-op (R26, notes/assumptions/7.md). -/
def claimSet (a b : Reg) : List Reg :=
  if a = b then [a].filter (· != 0#5) else [a, b].filter (· != 0#5)

/-! ## RAM -/

/-- The byte at a key; an unlisted key reads as 0 (R45). -/
def RamCells.byte : RamCells → Nat → Byte
  | [], _ => 0#8
  | (k, v) :: rest, a => if k = a then v else RamCells.byte rest a

/-- Puts a listed byte in front unless it is 0, which is not listed. -/
def RamCells.cons (a : Nat) (v : Byte) (rest : RamCells) : RamCells :=
  if v = 0#8 then rest else (a, v) :: rest

/-- Stores a byte at a key, keeping the canonical form. -/
def RamCells.setByte : RamCells → Nat → Byte → RamCells
  | [], a, v => RamCells.cons a v []
  | (k, w) :: rest, a, v =>
    if k < a then (k, w) :: RamCells.setByte rest a v
    else if k = a then RamCells.cons a v rest
    else RamCells.cons a v ((k, w) :: rest)

/-- The keys rise strictly from `lo` on and no listed byte is 0. -/
def RamCells.wfFrom : Nat → RamCells → Bool
  | _, [] => true
  | lo, (k, v) :: rest => decide (lo ≤ k) && v != 0#8 && RamCells.wfFrom (k + 1) rest

/-- The canonical form of the RAM's contents. -/
def RamCells.wf (m : RamCells) : Bool := RamCells.wfFrom 0 m

/-- `ram[a]`: the word at a word address, byte 0 least significant (R62). -/
def RamCells.word (m : RamCells) (a : Nat) : Word :=
  m.byte (4 * a + 3) ++ (m.byte (4 * a + 2) ++ (m.byte (4 * a + 1) ++ m.byte (4 * a)))

/-- `ram[a] <- v`. -/
def RamCells.setWord (m : RamCells) (a : Nat) (v : Word) : RamCells :=
  (((m.setByte (4 * a) (v.extractLsb' 0 8)).setByte (4 * a + 1) (v.extractLsb' 8 8)).setByte
    (4 * a + 2) (v.extractLsb' 16 8)).setByte (4 * a + 3) (v.extractLsb' 24 8)

/-- What a service answers its caller (R68, R76). -/
inductive Grant where
  | ready
  | wait
deriving DecidableEq, Repr

/-- What a request answers a stage (R10, R11): `Wait` and `WaitNextLevel` are retried. -/
inductive Answer (α : Type) where
  | wait
  | waitNextLevel
  | success (v : α)
deriving DecidableEq, Repr

/-- `service(who)` of the RAM (R68) with delay `d`. -/
def Ram.service (r : Ram) (d : Nat) (who : Requester) : Grant × Ram :=
  match r.req with
  | none => if d = 0 then (.ready, r) else (.wait, { r with req := some who, left := d })
  | some holder =>
    if holder = who then
      if r.left - 1 = 0 then (.ready, { r with req := none, left := 0 })
      else (.wait, { r with left := r.left - 1 })
    else (.wait, r)

/-- `RamRead(a, who)` (R69). -/
def MemSys.ramRead (p : Params) (m : MemSys) (a : Nat) (who : Requester) : Answer Word × MemSys :=
  match m.ram.service p.ramDelay who with
  | (.wait, r) => (.wait, { m with ram := r })
  | (.ready, r) => (.success (r.cells.word (a % p.ramWords)), { m with ram := r })

/-- `RamReadMulti(a, L, offset, who)` (R70): the line aligned to `a - offset`. -/
def MemSys.ramReadMulti (p : Params) (m : MemSys) (a offset : Nat) (who : Requester) :
    Answer (List Word) × MemSys :=
  match m.ram.service p.ramDelay who with
  | (.wait, r) => (.wait, { m with ram := r })
  | (.ready, r) =>
    (.success ((List.range p.lineWords).map fun i => r.cells.word ((a - offset + i) % p.ramWords)),
      { m with ram := r })

/-- `RamWrite(a, who, v)` (R71). -/
def MemSys.ramWrite (p : Params) (m : MemSys) (a : Nat) (who : Requester) (v : Word) :
    Answer Unit × MemSys :=
  match m.ram.service p.ramDelay who with
  | (.wait, r) => (.wait, { m with ram := r })
  | (.ready, r) =>
    (.success (), { m with ram := { r with cells := r.cells.setWord (a % p.ramWords) v } })

/-! ## Cache -/

/-- `offset(a)` (R74). -/
def offsetOf (p : Params) (a : Nat) : Nat := a % p.lineWords
/-- `index(a)` (R74). -/
def indexOf (p : Params) (a : Nat) : Nat := (a / p.lineWords) % p.sets
/-- `tag(a)` (R74). -/
def tagOf (p : Params) (a : Nat) : Nat := a / (p.lineWords * p.sets)

/-- `cache_service(who)` (R76) with delay `d`. -/
def Cache.service (c : Cache) (d : Nat) (who : Requester) : Grant × Cache :=
  match c.req with
  | none => (if d = 0 then .ready else .wait, { c with req := some who, left := d })
  | some holder =>
    if holder = who then
      if c.waitNext then (.ready, c)
      else (if c.left - 1 = 0 then .ready else .wait, { c with left := c.left - 1 })
    else (.wait, c)

/-- `cache_clear()` (R76). -/
def Cache.clear (c : Cache) : Cache := { c with req := none, left := 0, waitNext := false }

/-- The set selected by index `i`. -/
def Cache.set (c : Cache) (i : Nat) : List Line := c.lines.getD i []

/-- Replaces the set selected by index `i`. -/
def Cache.putSet (c : Cache) (i : Nat) (ways : List Line) : Cache :=
  { c with lines := c.lines.set i ways }

/-- The way of a set that holds tag `t`, if some valid way does (R79 step 2). -/
def hitWay (ways : List Line) (t : Nat) : Option Nat :=
  ways.findIdx? fun l => l.valid && l.tag == t

/-- The rank of way `w`. -/
def rankOf (ways : List Line) (w : Nat) : Nat := ((ways[w]?).map Line.lru).getD 0

/-- `touch(set, w)`, the LRU update (R77). -/
def touch (ways : List Line) (w : Nat) : List Line :=
  if rankOf ways w = 0 then ways
  else
    (ways.map fun l => if l.lru < rankOf ways w then { l with lru := l.lru + 1 } else l).modify w
      fun l => { l with lru := 0 }

/-- The largest LRU rank of a set. -/
def maxRank (ways : List Line) : Nat := ways.foldr (fun l m => max l.lru m) 0

/-- `victim(set)`: the way with the largest LRU rank (R78). -/
def victim (ways : List Line) : Nat := ways.findIdx fun l => l.lru == maxRank ways

/-- Step 4 of a read miss (R79): the victim way takes the line and becomes most recently used. -/
def fillWay (ways : List Line) (t : Nat) (line : List Word) : List Line :=
  touch (ways.modify (victim ways) fun l => { l with valid := true, tag := t, data := line })
    (victim ways)

/-- Step 2 of a write hit (R80). -/
def storeHit (ways : List Line) (w offset : Nat) (v : Word) : List Line :=
  touch (ways.modify w fun l => { l with data := l.data.set offset v }) w

/-- Step 2 of a write miss (R80): only the written word is installed; the victim's other words stay. -/
def storeMiss (ways : List Line) (t offset : Nat) (v : Word) : List Line :=
  touch
    (ways.modify (victim ways) fun l =>
      { l with data := l.data.set offset v, tag := t, valid := true })
    (victim ways)

/-- Step 2 of the write path (R80). -/
def storeWay (ways : List Line) (t offset : Nat) (v : Word) : List Line :=
  match hitWay ways t with
  | some w => storeHit ways w offset v
  | none => storeMiss ways t offset v

/-- The word at an offset of a way. -/
def wordOf (ways : List Line) (w offset : Nat) : Word :=
  ((ways[w]?).map fun l => l.data.getD offset 0#32).getD 0#32

/-- `CacheRead` after the cache's own countdown, steps 2 to 4 of R79, at reduced address `a`. -/
def MemSys.readThrough (p : Params) (m : MemSys) (a : Nat) : Answer Word × MemSys :=
  let i := indexOf p a
  let ways := m.cache.set i
  match hitWay ways (tagOf p a) with
  | some w =>
    (.success (wordOf ways w (offsetOf p a)),
      { m with cache := (m.cache.putSet i (touch ways w)).clear })
  | none =>
    match m.ramReadMulti p a (offsetOf p a) .cache with
    | (.success line, m') =>
      (.success (line.getD (offsetOf p a) 0#32),
        { m' with cache := (m'.cache.putSet i (fillWay ways (tagOf p a) line)).clear })
    | (_, m') => (.waitNextLevel, { m' with cache := { m'.cache with waitNext := true } })

/-- `CacheRead(a0, who)` (R79). -/
def MemSys.cacheRead (p : Params) (m : MemSys) (a0 : Word) (who : Requester) :
    Answer Word × MemSys :=
  let a := a0.toNat % p.ramWords
  if !p.cached then m.ramRead p a who
  else
    match m.cache.service p.cacheDelay who with
    | (.wait, c) => (.wait, { m with cache := c })
    | (.ready, c) => MemSys.readThrough p { m with cache := c } a

/-- `CacheWrite` after the cache's own countdown, steps 2 and 3 of R80, at reduced address `a`. -/
def MemSys.writeThrough (p : Params) (m : MemSys) (a : Nat) (v : Word) : Answer Unit × MemSys :=
  let i := indexOf p a
  let ways := storeWay (m.cache.set i) (tagOf p a) (offsetOf p a) v
  match MemSys.ramWrite p { m with cache := m.cache.putSet i ways } a .cache v with
  | (.success u, m') => (.success u, { m' with cache := m'.cache.clear })
  | (_, m') => (.waitNextLevel, { m' with cache := { m'.cache with waitNext := true } })

/-- `CacheWrite(a0, who, v)` (R80). -/
def MemSys.cacheWrite (p : Params) (m : MemSys) (a0 : Word) (who : Requester) (v : Word) :
    Answer Unit × MemSys :=
  let a := a0.toNat % p.ramWords
  if !p.cached then m.ramWrite p a who v
  else
    match m.cache.service p.cacheDelay who with
    | (.wait, c) => (.wait, { m with cache := c })
    | (.ready, c) => MemSys.writeThrough p { m with cache := c } a v

/-! ## Records -/

/-- The claims of the record a latch holds, if any. -/
def claimsOf (rec : Option Record) : List Reg := (rec.map Record.claims).getD []

/-- A record as Fetch creates it (R35, R151). -/
def newRecord (raw pc : Word) : Record where
  raw := raw
  op := .undecoded
  operand := 0#32
  result := 0#32
  destMemAddr := 0#32
  branchTaken := false
  writeBack := false
  pc := pc
  auxReg := 0#5
  claims := []
  fault := none

/-! ## Squash (R187) -/

/-- Fetch's squash (R154). -/
def State.squashFetch (s : State) : State := { s with fRec := none, fSquashed := true }

/-- Decode's squash (R169). -/
def State.squashDecode (s : State) : State :=
  { s with regs := s.regs.release (claimsOf s.dRec), dRec := none, dState := .free }

/-- Execute's squash (R175). -/
def State.squashExecute (s : State) : State :=
  { s with regs := s.regs.release (claimsOf s.xRec), xRec := none, xDone := false }

/-- Memory's squash (R179). -/
def State.squashMemory (s : State) : State :=
  { s with regs := s.regs.release (claimsOf s.mRec), mRec := none, mDone := false, mWaiting := false }

/-- `SquashAll()` (R188): M, X, D and F, and a pending halt is cancelled. -/
def State.squashAll (s : State) : State :=
  { s.squashMemory.squashExecute.squashDecode.squashFetch with haltPending := false }

/-! ## Faults -/

/-- The detecting stage marks the record (R312): it will write nothing back. -/
def Record.markFault (rec : Record) (kind : Fault) : Record :=
  { rec with fault := some kind, writeBack := false }

/-- Taking a fault, at Write-Back (R184): `fault <- rec.fault`. The claims of the record are not
released and nothing is written (R325); `tick` skips the rest of the tick (R140). -/
def State.takeFault (s : State) (kind : Fault) : State := { s with fault := some kind }

end Sys2Proof.Machine
end

