-- ==== Sys2Proof/Machine/Operands.lean ====
section
/-! DEFINITION. Every operand form: the Decode stage's work on a decoded record (spec/40_pipeline.md R160
to R166, spec/30_encoding.md R116, R117). Each form finishes (`D.state` is `Free`, the registers are
claimed) or meets a `Blocked` read (`D.state` is `AwaitingRegRead`, nothing is claimed). -/

namespace Sys2Proof.Machine

/-- Decode's guard (R160): nothing to do without a record, or when it is already decoded. -/
def State.onDecode (s : State) (work : Record → State) : State :=
  match s.dRec with
  | none => s
  | some rec => if s.dState = .free then s else work rec

/-- A `Blocked` read: the whole arm is repeated on the next tick (R160). -/
def State.awaitRead (s : State) (rec : Record) : State :=
  { s with dState := .awaitingRegRead, dRec := some rec }

/-- The decode is complete: the record waits for Execute (R160, R168). -/
def State.decoded (s : State) (regs : RegFile) (rec : Record) : State :=
  { s with regs := regs, dState := .free, dRec := some rec }

/-- RegImm: `Rd` and the sign-extended immediate (R161). -/
def State.decodeRegImm (s : State) (rd : Reg) (imm : Imm16) : State :=
  s.onDecode fun rec =>
    match s.regs.read rd with
    | none => s.awaitRead rec
    | some v =>
      s.decoded (s.regs.block rd)
        { rec with
          claims := claimSet rd rd, result := v, operand := sext16 imm,
          writeBack := rd != 0#5, auxReg := 0#5 }

/-- RegReg: `Rd` and `Rs`, both read before either is blocked (R162). -/
def State.decodeRegReg (s : State) (rd rs : Reg) : State :=
  s.onDecode fun rec =>
    match s.regs.read rd, s.regs.read rs with
    | some v1, some v2 =>
      s.decoded ((s.regs.block rd).block rs)
        { rec with
          claims := claimSet rd rs, result := v1, operand := v2,
          writeBack := rd != 0#5, auxReg := 0#5 }
    | _, _ => s.awaitRead rec

/-- The base of a Control instruction (R163): its own address for `RMem = 0`, else the register. -/
def State.controlBase (s : State) (rec : Record) (rm : Reg) : Option Word :=
  if rm = 0#5 then some rec.pc else s.regs.read rm

/-- Control other than the halt sentinel (R163): no register is claimed; `aux` is 31 for CALL, else 0. -/
def State.decodeBranch (s : State) (rm : Reg) (imm : Imm16) (aux : Reg) : State :=
  s.onDecode fun rec =>
    match s.controlBase rec rm with
    | none => s.awaitRead rec
    | some v =>
      s.decoded s.regs
        { rec with
          destMemAddr := v, operand := sext16 imm, writeBack := true, auxReg := aux, claims := [] }

/-- The halt sentinel (R164): supply stops, Fetch is squashed, the sentinel's record is dropped. -/
def State.decodeHalt (s : State) : State :=
  s.onDecode fun _ =>
    { s.squashFetch with haltPending := true, dRec := none, dState := .free }

/-- LoadStore (R165): `rd` and the base register `m`, which Decode has already replaced by 30 in the
record's op `i` for PUSH and POP; `loads` is `MemMode in {LDW, POP}`; `aux` is 30 for PUSH and POP. -/
def State.decodeLoadStore (s : State) (i : Instr) (rd m : Reg) (imm : Imm16) (loads : Bool)
    (aux : Reg) : State :=
  s.onDecode fun rec =>
    match s.regs.read rd, s.regs.read m with
    | some v1, some v2 =>
      s.decoded ((s.regs.block rd).block m)
        { rec with
          op := .instr i, claims := claimSet rd m, result := v1, destMemAddr := v2,
          operand := sext16 imm, writeBack := loads, auxReg := aux }
    | _, _ => s.awaitRead { rec with op := .instr i }

/-- A word with no meaning (R166): the record is marked and claims nothing. -/
def State.decodeInvalid (s : State) : State :=
  s.onDecode fun rec =>
    s.decoded s.regs { (rec.markFault .malformedInstruction) with op := .invalid, claims := [] }

end Sys2Proof.Machine
end

