-- ==== Sys2Proof/Machine/Stages.lean ====
section
/-! DEFINITION. The work of Execute, Memory and Write-Back on a record (spec/40_pipeline.md R170 to R184),
and the four-stage shape of an instruction's meaning. -/

namespace Sys2Proof.Machine

/-! ## Execute -/

/-- Execute's guard (R170): a record is executed once, and a faulted record does nothing. -/
def State.onExecute (s : State) (work : Record → State → State) : State :=
  match s.xRec with
  | none => s
  | some rec =>
    if s.xDone then s
    else if rec.fault.isSome then { s with xDone := true }
    else work rec { s with xDone := true }

/-- RegImm and RegReg (R171); `compare` is CMP, which writes only flags. -/
def State.executeAlu (s : State) (alu : Word → Word → AluOut) (compare : Bool) : State :=
  s.onExecute fun rec s =>
    match alu rec.result rec.operand with
    | .fault kind => { s with xRec := some (rec.markFault kind) }
    | .done res flags =>
      { s with
        flags := flags
        xRec := some { rec with result := res, writeBack := rec.writeBack && !compare } }

/-- A 32-bit wrapping sum reduced modulo `N` (R172, R173, spec/43_loadstore.md R265). -/
def effectiveAddress (p : Params) (base disp : Word) : Word :=
  BitVec.ofNat 32 ((base + disp).toNat % p.ramWords)

/-- LDW and STW: the effective address (R172). -/
def State.executeAddress (s : State) : State :=
  s.onExecute fun rec s =>
    { s with
      xRec := some
        { rec with destMemAddr := effectiveAddress s.params rec.destMemAddr rec.operand } }

/-- PUSH and POP: nothing (R172). -/
def State.executeNothing (s : State) : State := s.onExecute fun _ s => s

/-- Control (R173): the condition on the flags as they are, and the target. -/
def State.executeBranch (s : State) (cond : Flags → Bool) : State :=
  s.onExecute fun rec s =>
    if cond s.flags then
      { s with
        xRec := some
          { rec with
            branchTaken := true
            destMemAddr := effectiveAddress s.params rec.destMemAddr rec.operand } }
    else { s with xRec := some { rec with branchTaken := false, writeBack := false } }

/-! ## Memory -/

/-- Memory's guard (R176): a record's memory work is done once, and a faulted record passes. -/
def State.onMemory (s : State) (work : Record → State) : State :=
  match s.mRec with
  | none => s
  | some rec =>
    if s.mDone then s
    else if rec.fault.isSome then { s with mDone := true }
    else work rec

/-- Pass-through of records that are not LoadStore (R176). -/
def State.memoryPass (s : State) : State := s.onMemory fun _ => { s with mDone := true }

/-- LDW and POP (R177): `next` is what becomes of `dest_mem_addr` once the word has been read. -/
def State.memoryLoad (s : State) (next : Word → Word) : State :=
  s.onMemory fun rec =>
    match s.mem.cacheRead s.params rec.destMemAddr .memory with
    | (.success v, m) =>
      { s with
        mem := m, mWaiting := false, mDone := true
        mRec := some { rec with result := v, destMemAddr := next rec.destMemAddr } }
    | (_, m) => { s with mem := m, mWaiting := true }

/-- STW and PUSH (R178): `next` is what becomes of `dest_mem_addr` once the word has been stored. -/
def State.memoryStore (s : State) (next : Word → Word) : State :=
  s.onMemory fun rec =>
    match s.mem.cacheWrite s.params rec.destMemAddr .memory rec.result with
    | (.success _, m) =>
      { s with
        mem := m, mWaiting := false, mDone := true
        mRec := some { rec with destMemAddr := next rec.destMemAddr } }
    | (_, m) => { s with mem := m, mWaiting := true }

/-! ## Write-Back -/

/-- Write-Back's frame (R180): the record is consumed in every case, and a faulted one takes its fault
(R184). -/
def State.onWriteBack (s : State) (work : Record → State → State) : State :=
  match s.wRec with
  | none => s
  | some rec =>
    match rec.fault with
    | some kind => State.takeFault { s with wRec := none } kind
    | none => work rec { s with wRec := none }

/-- A write through the blocking port; a refused one changes nothing (R24). -/
def RegFile.writeOrKeep (regs : RegFile) (r : Reg) (v : Word) : RegFile :=
  (regs.write r v).getD regs

/-- The auxiliary write of R182 and R183: the new SP of PUSH and POP. -/
def RegFile.writeAux (regs : RegFile) (rec : Record) : RegFile :=
  if rec.auxReg = 0#5 then regs else regs.writeOrKeep rec.auxReg rec.destMemAddr

/-- The release of a record's claims with no write of a result (R183). -/
def State.commitNone (s : State) : State :=
  s.onWriteBack fun rec s => { s with regs := (s.regs.release rec.claims).writeAux rec }

/-- Write-Back of a non-Control record whose `Rd` is `rd` (R182 with `write_back`, else R183). -/
def State.commitResult (s : State) (rd : Reg) : State :=
  s.onWriteBack fun rec s =>
    if rec.writeBack then
      { s with
        regs := ((s.regs.release rec.claims).writeOrKeep rd rec.result).writeAux rec }
    else { s with regs := (s.regs.release rec.claims).writeAux rec }

/-- Write-Back of a Control record (R181): the link through the non-blocking port, the jump, SquashAll. -/
def State.commitBranch (s : State) : State :=
  s.onWriteBack fun rec s =>
    if rec.branchTaken then
      State.squashAll
        { s with
          regs := if rec.auxReg = 0#5 then s.regs else s.regs.writeNb rec.auxReg (rec.pc + 1#32)
          pc := rec.destMemAddr }
    else s

/-! ## The shape of a meaning -/

/-- An instruction's work at the stage whose turn it is (notes/assumptions/5.md): the lines D, X, M, W
that spec/43_loadstore.md R261 to R264 write for an instruction. -/
def State.atStage (s : State) (decode execute memory writeBack : State) : Outcome State :=
  match s.stage with
  | .decode => .next decode
  | .execute => .next execute
  | .memory => .next memory
  | .writeBack => .next writeBack

/-- The life of a RegImm instruction (spec/41_regimm_alu.md R216) with operation `alu`. -/
def State.regImm (s : State) (rd : Reg) (imm : Imm16) (alu : Word → Word → AluOut)
    (compare : Bool) : Outcome State :=
  s.atStage (s.decodeRegImm rd imm) (s.executeAlu alu compare) s.memoryPass (s.commitResult rd)

/-- The life of a RegReg instruction (spec/42_regreg_alu.md R230) with operation `alu`. -/
def State.regReg (s : State) (rd rs : Reg) (alu : Word → Word → AluOut) (compare : Bool) :
    Outcome State :=
  s.atStage (s.decodeRegReg rd rs) (s.executeAlu alu compare) s.memoryPass (s.commitResult rd)

/-- The life of a Control instruction (spec/44_control.md R282) with condition `cond`. -/
def State.branch (s : State) (rm : Reg) (imm : Imm16) (aux : Reg) (cond : Flags → Bool) :
    Outcome State :=
  s.atStage (s.decodeBranch rm imm aux) (s.executeBranch cond) s.memoryPass s.commitBranch

end Sys2Proof.Machine
end

