-- ==== Sys2Proof/Machine/Control.lean ====
section
/-! DEFINITION. The meanings of the nine conditional branches, BUNC, CALL and HLT (spec/44_control.md). -/

namespace Sys2Proof.Machine

/-- `BEQ [rM + imm]` (R283): taken when ZF = 1. -/
def execBeq (rm : Reg) (imm : Imm16) (s : State) : Outcome State :=
  s.branch rm imm 0#5 Flags.condEq

/-- `BNE [rM + imm]` (R284): taken when ZF = 0. -/
def execBne (rm : Reg) (imm : Imm16) (s : State) : Outcome State :=
  s.branch rm imm 0#5 Flags.condNe

/-- `BLT [rM + imm]` (R285): taken when SF ≠ OVF. -/
def execBlt (rm : Reg) (imm : Imm16) (s : State) : Outcome State :=
  s.branch rm imm 0#5 Flags.condLt

/-- `BGE [rM + imm]` (R286): taken when SF = OVF. -/
def execBge (rm : Reg) (imm : Imm16) (s : State) : Outcome State :=
  s.branch rm imm 0#5 Flags.condGe

/-- `BLU [rM + imm]` (R287): taken when CF = 1. -/
def execBlu (rm : Reg) (imm : Imm16) (s : State) : Outcome State :=
  s.branch rm imm 0#5 Flags.condLu

/-- `BAE [rM + imm]` (R288): taken when CF = 0. -/
def execBae (rm : Reg) (imm : Imm16) (s : State) : Outcome State :=
  s.branch rm imm 0#5 Flags.condAe

/-- `BA [rM + imm]` (R289): taken when CF = 0 and ZF = 0. -/
def execBa (rm : Reg) (imm : Imm16) (s : State) : Outcome State :=
  s.branch rm imm 0#5 Flags.condA

/-- `BOF [rM + imm]` (R290): taken when OVF = 1. -/
def execBof (rm : Reg) (imm : Imm16) (s : State) : Outcome State :=
  s.branch rm imm 0#5 Flags.condOf

/-- `BNF [rM + imm]` (R292): taken when OVF = 0. -/
def execBnf (rm : Reg) (imm : Imm16) (s : State) : Outcome State :=
  s.branch rm imm 0#5 Flags.condNf

/-- `BUNC [rM + imm]` (R293): always taken. -/
def execBunc (rm : Reg) (imm : Imm16) (s : State) : Outcome State :=
  s.branch rm imm 0#5 Flags.condAlways

/-- `CALL [rM + imm]` (R294): always taken; writes the link. -/
def execCall (rm : Reg) (imm : Imm16) (s : State) : Outcome State :=
  s.branch rm imm linkReg Flags.condAlways

/-- `HLT` (R296), whatever its pair: all its work is Decode's. Its record never reaches Execute; the later
stages pass one as a record with no effect (notes/assumptions/8.md). -/
def execHlt (_mode : BitVec 3) (_flag : BitVec 4) (s : State) : Outcome State :=
  s.atStage s.decodeHalt s.executeNothing s.memoryPass s.commitBranch

end Sys2Proof.Machine
end

