-- ==== Sys2Proof/Machine/LoadStore.lean ====
section
/-! DEFINITION. The meanings of LDW, POP, PUSH and STW (spec/43_loadstore.md). -/

namespace Sys2Proof.Machine

/-- `LDW rD, [rM + imm]` (R261). -/
def execLdw (rd rm : Reg) (imm : Imm16) (s : State) : Outcome State :=
  s.atStage (s.decodeLoadStore (.ldw rd rm imm) rd rm imm true 0#5) s.executeAddress
    (s.memoryLoad fun a => a) (s.commitResult rd)

/-- `POP rD` (R262): `rm` is replaced by 30 and `imm` is not added; the word is read at the old SP. -/
def execPop (rd _rm : Reg) (imm : Imm16) (s : State) : Outcome State :=
  s.atStage (s.decodeLoadStore (.pop rd spReg imm) rd spReg imm true spReg) s.executeNothing
    (s.memoryLoad fun a => a - 1#32) (s.commitResult rd)

/-- `PUSH rD` (R264): `rm` is replaced by 30 and `imm` is not added; the word is stored at the old SP. -/
def execPush (rd _rm : Reg) (imm : Imm16) (s : State) : Outcome State :=
  s.atStage (s.decodeLoadStore (.push rd spReg imm) rd spReg imm false spReg) s.executeNothing
    (s.memoryStore fun a => a + 1#32) (s.commitResult rd)

/-- `STW rD, [rM + imm]` (R263): `rD` names the register whose value is stored. -/
def execStw (rd rm : Reg) (imm : Imm16) (s : State) : Outcome State :=
  s.atStage (s.decodeLoadStore (.stw rd rm imm) rd rm imm false 0#5) s.executeAddress
    (s.memoryStore fun a => a) (s.commitResult rd)

end Sys2Proof.Machine
end

