-- ==== Sys2Proof/Machine/RegImm.lean ====
section
/-! DEFINITION. The meanings of the fifteen register-immediate instructions (spec/41_regimm_alu.md). -/

namespace Sys2Proof.Machine

/-- `ADD rD, imm` (R201). -/
def execAddI (rd : Reg) (imm : Imm16) (s : State) : Outcome State :=
  s.regImm rd imm aluAdd false

/-- `SUB rD, imm` (R202). -/
def execSubI (rd : Reg) (imm : Imm16) (s : State) : Outcome State :=
  s.regImm rd imm aluSub false

/-- `MUL rD, imm` (R203). -/
def execMulI (rd : Reg) (imm : Imm16) (s : State) : Outcome State :=
  s.regImm rd imm aluMul false

/-- `AND rD, imm` (R204). -/
def execAndI (rd : Reg) (imm : Imm16) (s : State) : Outcome State :=
  s.regImm rd imm aluAnd false

/-- `XOR rD, imm` (R205). -/
def execXorI (rd : Reg) (imm : Imm16) (s : State) : Outcome State :=
  s.regImm rd imm aluXor false

/-- `OR rD, imm` (R206). -/
def execOrI (rd : Reg) (imm : Imm16) (s : State) : Outcome State :=
  s.regImm rd imm aluOr false

/-- `NOT rD, imm` (R207). -/
def execNotI (rd : Reg) (imm : Imm16) (s : State) : Outcome State :=
  s.regImm rd imm aluNot false

/-- `NEG rD, imm` (R208). -/
def execNegI (rd : Reg) (imm : Imm16) (s : State) : Outcome State :=
  s.regImm rd imm aluNeg false

/-- `SHR rD, imm` (R209). -/
def execShrI (rd : Reg) (imm : Imm16) (s : State) : Outcome State :=
  s.regImm rd imm aluShr false

/-- `SAR rD, imm` (R210). -/
def execSarI (rd : Reg) (imm : Imm16) (s : State) : Outcome State :=
  s.regImm rd imm aluSar false

/-- `SHL rD, imm` (R211). -/
def execShlI (rd : Reg) (imm : Imm16) (s : State) : Outcome State :=
  s.regImm rd imm aluShl false

/-- `ROL rD, imm` (R212). -/
def execRolI (rd : Reg) (imm : Imm16) (s : State) : Outcome State :=
  s.regImm rd imm aluRol false

/-- `LDI rD, imm` (R213): load immediate. -/
def execLdi (rd : Reg) (imm : Imm16) (s : State) : Outcome State :=
  s.regImm rd imm aluLdi false

/-- `LDX rD, imm` (R214): the encoding is recognised, Execute marks the record `UnspecifiedOperation`. -/
def execLdx (rd : Reg) (imm : Imm16) (s : State) : Outcome State :=
  s.regImm rd imm aluUnspecified false

/-- `CMP rD, imm` (R215): the flags of SUB, no result written. -/
def execCmpI (rd : Reg) (imm : Imm16) (s : State) : Outcome State :=
  s.regImm rd imm aluSub true

end Sys2Proof.Machine
end

