-- ==== Sys2Proof/Machine/RegReg.lean ====
section
/-! DEFINITION. The meanings of the sixteen register-register instructions (spec/42_regreg_alu.md). -/

namespace Sys2Proof.Machine

/-- `ADD rD, rS` (R231). -/
def execAddR (rd rs : Reg) (s : State) : Outcome State :=
  s.regReg rd rs aluAdd false

/-- `SUB rD, rS` (R232). -/
def execSubR (rd rs : Reg) (s : State) : Outcome State :=
  s.regReg rd rs aluSub false

/-- `MUL rD, rS` (R233). -/
def execMulR (rd rs : Reg) (s : State) : Outcome State :=
  s.regReg rd rs aluMul false

/-- `DIV rD, rS` (R234), signed or unsigned as DIV_SIGNED says; a zero divisor faults (R247). -/
def execDivR (rd rs : Reg) (s : State) : Outcome State :=
  s.regReg rd rs (aluDiv s.params.divSigned) false

/-- `REM rD, rS` (R235), signed or unsigned as DIV_SIGNED says; a zero divisor faults (R247). -/
def execRemR (rd rs : Reg) (s : State) : Outcome State :=
  s.regReg rd rs (aluRem s.params.divSigned) false

/-- `OR rD, rS` (R236). -/
def execOrR (rd rs : Reg) (s : State) : Outcome State :=
  s.regReg rd rs aluOr false

/-- `XOR rD, rS` (R237). -/
def execXorR (rd rs : Reg) (s : State) : Outcome State :=
  s.regReg rd rs aluXor false

/-- `AND rD, rS` (R238). -/
def execAndR (rd rs : Reg) (s : State) : Outcome State :=
  s.regReg rd rs aluAnd false

/-- `NOT rD, rS` (R239). -/
def execNotR (rd rs : Reg) (s : State) : Outcome State :=
  s.regReg rd rs aluNot false

/-- `SHL rD, rS` (R240). -/
def execShlR (rd rs : Reg) (s : State) : Outcome State :=
  s.regReg rd rs aluShl false

/-- `SHR rD, rS` (R241). -/
def execShrR (rd rs : Reg) (s : State) : Outcome State :=
  s.regReg rd rs aluShr false

/-- `SAR rD, rS` (R242). -/
def execSarR (rd rs : Reg) (s : State) : Outcome State :=
  s.regReg rd rs aluSar false

/-- `ROL rD, rS` (R243). -/
def execRolR (rd rs : Reg) (s : State) : Outcome State :=
  s.regReg rd rs aluRol false

/-- `CMP rD, rS` (R244): the flags of SUB, no register written. -/
def execCmpR (rd rs : Reg) (s : State) : Outcome State :=
  s.regReg rd rs aluSub true

/-- `CPY rD, rS` (R245). -/
def execCpy (rd rs : Reg) (s : State) : Outcome State :=
  s.regReg rd rs aluCpy false

/-- `NSA rD, rS` (R246): the encoding is recognised, Execute marks the record `UnspecifiedOperation`. -/
def execNsa (rd rs : Reg) (s : State) : Outcome State :=
  s.regReg rd rs aluUnspecified false

end Sys2Proof.Machine
end

