-- ==== Sys2Proof/Machine/Dispatch.lean ====
section
/-! DEFINITION. The meaning of every instruction, one arm per constructor: the work of the stage whose turn
it is (State.stage) on that instruction's record. -/

namespace Sys2Proof.Machine

def exec (i : Instr) (s : State) : Host.Outcome State Fault Refusal :=
  match i with
  | .addI rd imm => Sys2Proof.Machine.execAddI rd imm s
  | .subI rd imm => Sys2Proof.Machine.execSubI rd imm s
  | .mulI rd imm => Sys2Proof.Machine.execMulI rd imm s
  | .andI rd imm => Sys2Proof.Machine.execAndI rd imm s
  | .xorI rd imm => Sys2Proof.Machine.execXorI rd imm s
  | .orI rd imm => Sys2Proof.Machine.execOrI rd imm s
  | .notI rd imm => Sys2Proof.Machine.execNotI rd imm s
  | .negI rd imm => Sys2Proof.Machine.execNegI rd imm s
  | .shrI rd imm => Sys2Proof.Machine.execShrI rd imm s
  | .sarI rd imm => Sys2Proof.Machine.execSarI rd imm s
  | .shlI rd imm => Sys2Proof.Machine.execShlI rd imm s
  | .rolI rd imm => Sys2Proof.Machine.execRolI rd imm s
  | .ldi rd imm => Sys2Proof.Machine.execLdi rd imm s
  | .ldx rd imm => Sys2Proof.Machine.execLdx rd imm s
  | .cmpI rd imm => Sys2Proof.Machine.execCmpI rd imm s
  | .addR rd rs => Sys2Proof.Machine.execAddR rd rs s
  | .subR rd rs => Sys2Proof.Machine.execSubR rd rs s
  | .mulR rd rs => Sys2Proof.Machine.execMulR rd rs s
  | .divR rd rs => Sys2Proof.Machine.execDivR rd rs s
  | .remR rd rs => Sys2Proof.Machine.execRemR rd rs s
  | .orR rd rs => Sys2Proof.Machine.execOrR rd rs s
  | .xorR rd rs => Sys2Proof.Machine.execXorR rd rs s
  | .andR rd rs => Sys2Proof.Machine.execAndR rd rs s
  | .notR rd rs => Sys2Proof.Machine.execNotR rd rs s
  | .shlR rd rs => Sys2Proof.Machine.execShlR rd rs s
  | .shrR rd rs => Sys2Proof.Machine.execShrR rd rs s
  | .sarR rd rs => Sys2Proof.Machine.execSarR rd rs s
  | .rolR rd rs => Sys2Proof.Machine.execRolR rd rs s
  | .cmpR rd rs => Sys2Proof.Machine.execCmpR rd rs s
  | .cpy rd rs => Sys2Proof.Machine.execCpy rd rs s
  | .nsa rd rs => Sys2Proof.Machine.execNsa rd rs s
  | .ldw rd rm imm => Sys2Proof.Machine.execLdw rd rm imm s
  | .pop rd rm imm => Sys2Proof.Machine.execPop rd rm imm s
  | .push rd rm imm => Sys2Proof.Machine.execPush rd rm imm s
  | .stw rd rm imm => Sys2Proof.Machine.execStw rd rm imm s
  | .beq rm imm => Sys2Proof.Machine.execBeq rm imm s
  | .bne rm imm => Sys2Proof.Machine.execBne rm imm s
  | .blt rm imm => Sys2Proof.Machine.execBlt rm imm s
  | .bge rm imm => Sys2Proof.Machine.execBge rm imm s
  | .blu rm imm => Sys2Proof.Machine.execBlu rm imm s
  | .bae rm imm => Sys2Proof.Machine.execBae rm imm s
  | .ba rm imm => Sys2Proof.Machine.execBa rm imm s
  | .bof rm imm => Sys2Proof.Machine.execBof rm imm s
  | .bnf rm imm => Sys2Proof.Machine.execBnf rm imm s
  | .bunc rm imm => Sys2Proof.Machine.execBunc rm imm s
  | .call rm imm => Sys2Proof.Machine.execCall rm imm s
  | .hlt mode flag => Sys2Proof.Machine.execHlt mode flag s

end Sys2Proof.Machine
end

