-- ==== Sys2Proof/Machine/Pipeline.lean ====
section
/-! DEFINITION. The clock tick (spec/40_pipeline.md R140 to R154, R190, R192): Fetch, the stages' calls of
`exec`, the advance phase and the controller; and the placing of a fetched word for `withFetchWord`. -/

namespace Sys2Proof.Machine

/-- Continues with a next state; a fault or a refusal ends the tick. -/
def andThen (o : Outcome State) (f : State → Outcome State) : Outcome State :=
  match o with
  | .next s => f s
  | .fault r => .fault r
  | .refused r => .refused r

/-! ## The stages, in the order a tick executes them (R140) -/

/-- `W_execute` (R180): the record's instruction does its Write-Back work. A record with no instruction
(an `Invalid` word, R166) carries its fault. -/
def State.writeBackExecute (s : State) : Outcome State :=
  match s.wRec with
  | none => .next s
  | some rec =>
    match rec.op with
    | .instr i => exec i { s with stage := .writeBack }
    | .invalid | .undecoded => .next (State.commitNone { s with stage := .writeBack })

/-- `M_execute` (R176). -/
def State.memoryExecute (s : State) : Outcome State :=
  match s.mRec with
  | none => .next s
  | some rec =>
    match rec.op with
    | .instr i => exec i { s with stage := .memory }
    | .invalid | .undecoded => .next (State.memoryPass { s with stage := .memory })

/-- `X_execute` (R170). -/
def State.executeExecute (s : State) : Outcome State :=
  match s.xRec with
  | none => .next s
  | some rec =>
    match rec.op with
    | .instr i => exec i { s with stage := .execute }
    | .invalid | .undecoded => .next (State.executeNothing { s with stage := .execute })

/-- `D_execute` (R160): `rec.op <- decode(rec.raw)`, then the instruction's Decode work. -/
def State.decodeExecute (s : State) : Outcome State :=
  match s.dRec with
  | none => .next s
  | some rec =>
    if s.dState = .free then .next s
    else
      match decode rec.raw with
      | .ok i => exec i { s with dRec := some { rec with op := .instr i }, stage := .decode }
      | .error _ => .next (State.decodeInvalid { s with stage := .decode })

/-- Scalar mode holds Fetch back while D, X or M holds a record (R192). -/
def State.scalarHold (s : State) : Bool :=
  s.params.scalar && (s.dRec.isSome || s.xRec.isSome || s.mRec.isSome)

/-- What holds Fetch back besides its squash (R150): a record it has not handed on, a pending halt, scalar
mode. -/
def State.fetchHeld (s : State) : Bool := s.fRec.isSome || s.haltPending || s.scalarHold

/-- What Fetch does with its request's answer (R151): a zero word makes no record. -/
def State.acceptFetch (s : State) (r : Answer Word × MemSys) : State :=
  match r with
  | (.success v, m) =>
    if v = 0#32 then { s with mem := m }
    else { s with mem := m, fRec := some (newRecord v s.pc), pc := s.pc + 1#32 }
  | (_, m) => { s with mem := m }

/-- `F_execute` (R150, R151, R152). -/
def State.fetchExecute (s : State) : State :=
  if s.fSquashed then { s with fSquashed := false }
  else if s.fetchHeld then s
  else s.acceptFetch (s.mem.cacheRead s.params s.pc .fetch)

/-- The work of a tick between Write-Back's and Fetch's: Memory, Execute, Decode (R140). -/
def State.middleExecute (s : State) : Outcome State :=
  andThen s.memoryExecute fun s => andThen s.executeExecute fun s => s.decodeExecute

/-! ## Advance (R142), tail first -/

/-- M to W (R179). -/
def State.advanceMemory (s : State) : State :=
  if s.mRec.isSome && s.mDone && s.wRec.isNone then
    { s with wRec := s.mRec, mRec := none, mDone := false, mWaiting := false }
  else s

/-- X to M (R175). -/
def State.advanceExecute (s : State) : State :=
  if s.xRec.isSome && s.xDone && s.mRec.isNone then
    { s with mRec := s.xRec, xRec := none, xDone := false, mDone := false, mWaiting := false }
  else s

/-- D to X (R168). -/
def State.advanceDecode (s : State) : State :=
  if s.dRec.isSome && s.dState == .free && s.xRec.isNone then
    { s with xRec := s.dRec, dRec := none, xDone := false }
  else s

/-- F to D (R153). -/
def State.advanceFetch (s : State) : State :=
  if s.fRec.isSome && s.dRec.isNone then { s with dRec := s.fRec, fRec := none, dState := .busy }
  else s

/-- `advance()` (R142). -/
def State.advance (s : State) : State :=
  s.advanceMemory.advanceExecute.advanceDecode.advanceFetch

/-! ## The controller -/

/-- X, M and W hold no record: the drained condition of a halt (R190). -/
def State.drained (s : State) : Bool := s.xRec.isNone && s.mRec.isNone && s.wRec.isNone

/-- The end of a tick (R140): the clock counts, and a pending halt takes effect once X, M and W are
empty (R190). The turn goes back to Write-Back. -/
def State.endTick (s : State) : State :=
  { s with
    clock := s.clock + 1
    halted := s.halted || (s.haltPending && s.drained)
    stage := .writeBack }

/-- The machine is stopped: halted or faulted (R146). -/
def State.stopped (s : State) : Bool := s.halted || s.fault.isSome

/-- `tick()` (R140). -/
def State.tick (s : State) : Outcome State :=
  if s.stopped then .next s
  else
    andThen s.writeBackExecute fun s =>
      if s.fault.isSome then .next s
      else andThen s.middleExecute fun s => .next s.fetchExecute.advance.endTick

/-! ## Placing a fetched word -/

/-- The state in which Fetch has just obtained the word `w` from the address `pc` and handed it to Decode
(R151, R153): RAM holds it there and, unless it is the zero word, Decode holds its fresh record and `pc`
has moved on. The next tick's Decode works on exactly this word (notes/assumptions/10.md). -/
def State.placeFetched (s : State) (w : Word) : State :=
  let cells := s.mem.ram.cells.setWord (s.pc.toNat % s.params.ramWords) w
  let s := { s with mem := { s.mem with ram := { s.mem.ram with cells := cells } } }
  if w = 0#32 then s
  else { s with dRec := some (newRecord w s.pc), dState := .busy, pc := s.pc + 1#32 }

end Sys2Proof.Machine
end

