-- ==== Sys2Proof/Machine/Step.lean ====
section
/-! DEFINITION. One step of the machine: one tick (spec/00_scope.md R6). -/

namespace Sys2Proof.Machine

/-- One step is one tick (R6, spec/40_pipeline.md R140). -/
def step (s : State) : Host.Outcome State Fault Refusal := s.tick

/-- `s` with the word whose low `nbits` bits are those of `w` fetched from `pc` and waiting in Decode, so
that the very next step runs it (notes/assumptions/10.md). -/
def State.withFetchWord (s : State) (nbits w : Nat) : State :=
  s.placeFetched (BitVec.ofNat 32 (w % 2 ^ nbits))

end Sys2Proof.Machine
end

