-- ==== Sys2Proof/Machine/HostPort.lean ====
section
/-! DEFINITION. The host's commands, which act between ticks (spec/60_exceptions.md R330): load, which is
reset with an image (spec/70_reset_and_hazards.md R340 to R343), and Halt (spec/40_pipeline.md R191). Step
is `step` and run is `Host.Core.run`. -/

namespace Sys2Proof.Machine

/-- One 32-bit little-endian word (spec/20_memory.md R62). -/
def wordOfBytes (b0 b1 b2 b3 : Byte) : Word := b3 ++ (b2 ++ (b1 ++ b0))

/-- The words of an image file (R342); `none` when its length is no multiple of four bytes, which is a
matter outside the core. -/
def imageWords : List Byte → Option (List Word)
  | [] => some []
  | b0 :: b1 :: b2 :: b3 :: rest => (imageWords rest).map (wordOfBytes b0 b1 b2 b3 :: ·)
  | _ => none

/-- `ram[a + i] <- image[i]`. -/
def RamCells.loadWords (m : RamCells) (a : Nat) : List Word → RamCells
  | [] => m
  | w :: rest => RamCells.loadWords (m.setWord a w) (a + 1) rest

/-- `reset(image, params)` (R340): the state of R45 with the image in RAM from word 0 on; `none` where
reset is undefined, for parameters outside R5's constraints (spec/93_implementation_defined.md I18) and
for an image longer than the RAM (I19, R342). -/
def State.load (p : Params) (image : List Word) : Option State :=
  if p.valid && decide (image.length ≤ p.ramWords) then
    some (State.resetWith p (RamCells.loadWords [] 0 image))
  else none

/-- The host's Halt, between two ticks (R191): idempotent; records in flight stay where they are. -/
def State.hostHalt (s : State) : State := { s with halted := true }

/-- The process result (R331): 0 on halt; after a fault a value the source leaves open
(notes/assumptions/23.md); none while the machine runs. -/
def State.exitCode (s : State) : Option Nat :=
  if s.fault.isSome then some Config.faultExitCode
  else if s.halted then some 0
  else none

end Sys2Proof.Machine
end

