-- ==== Sys2Proof/Safety.lean ====
section
/-! DEFINITION. The terms the statements use: what a safe run is, the invariants of the state, the
situations in which a stage works, and the instructions of one shape. -/

namespace Sys2Proof

/-- An instruction of the RegImm or RegReg format: each that completes writes all four flags
(spec/41_regimm_alu.md R200). -/
def Instr.isAlu : Instr → Bool
  | .addI _ _ | .subI _ _ | .mulI _ _ | .andI _ _ | .xorI _ _ | .orI _ _ | .notI _ _ | .negI _ _
  | .shrI _ _ | .sarI _ _ | .shlI _ _ | .rolI _ _ | .ldi _ _ | .ldx _ _ | .cmpI _ _ => true
  | .addR _ _ | .subR _ _ | .mulR _ _ | .divR _ _ | .remR _ _ | .orR _ _ | .xorR _ _ | .andR _ _
  | .notR _ _ | .shlR _ _ | .shrR _ _ | .sarR _ _ | .rolR _ _ | .cmpR _ _ | .cpy _ _ | .nsa _ _ =>
    true
  | _ => false

/-- A branch that reads the flags: all but BUNC and CALL (spec/30_encoding.md R122). -/
def Instr.readsFlags : Instr → Bool
  | .beq _ _ | .bne _ _ | .blt _ _ | .bge _ _ | .blu _ _ | .bae _ _ | .ba _ _ | .bof _ _
  | .bnf _ _ => true
  | _ => false

/-- An instruction of the Control format, HLT among them (spec/30_encoding.md R115). -/
def Instr.isControl : Instr → Bool
  | .beq _ _ | .bne _ _ | .blt _ _ | .bge _ _ | .blu _ _ | .bae _ _ | .ba _ _ | .bof _ _ | .bnf _ _
  | .bunc _ _ | .call _ _ | .hlt _ _ => true
  | _ => false

/-- HLT, whatever its mode and flag bits (R123). -/
def Instr.isHalt : Instr → Bool
  | .hlt _ _ => true
  | _ => false

/-- Memory's instructions that store: STW and PUSH (spec/43_loadstore.md R263, R264). -/
def Instr.isStore : Instr → Bool
  | .stw _ _ _ | .push _ _ _ => true
  | _ => false

/-- Memory's instructions that load: LDW and POP (spec/43_loadstore.md R261, R262). -/
def Instr.isLoad : Instr → Bool
  | .ldw _ _ _ | .pop _ _ _ => true
  | _ => false

/-- The register a non-Control instruction names as `Rd`; `none` for Control (R115). -/
def Instr.destination : Instr → Option Reg
  | .addI rd _ | .subI rd _ | .mulI rd _ | .andI rd _ | .xorI rd _ | .orI rd _ | .notI rd _
  | .negI rd _ | .shrI rd _ | .sarI rd _ | .shlI rd _ | .rolI rd _ | .ldi rd _ | .ldx rd _
  | .cmpI rd _ => some rd
  | .addR rd _ | .subR rd _ | .mulR rd _ | .divR rd _ | .remR rd _ | .orR rd _ | .xorR rd _
  | .andR rd _ | .notR rd _ | .shlR rd _ | .shrR rd _ | .sarR rd _ | .rolR rd _ | .cmpR rd _
  | .cpy rd _ | .nsa rd _ => some rd
  | .ldw rd _ _ | .pop rd _ _ | .push rd _ _ | .stw rd _ _ => some rd
  | _ => none

/-- The condition of a Control instruction on the flags, written out from R122; `true` for BUNC and
CALL, `none` for an instruction that is no branch. -/
def Instr.takenWhen (f : Machine.Flags) : Instr → Option Bool
  | .beq _ _ => some f.zf
  | .bne _ _ => some (!f.zf)
  | .blt _ _ => some (f.sf ^^ f.ovf)
  | .bge _ _ => some (!(f.sf ^^ f.ovf))
  | .blu _ _ => some f.cf
  | .bae _ _ => some (!f.cf)
  | .ba _ _ => some (!(f.cf || f.zf))
  | .bof _ _ => some f.ovf
  | .bnf _ _ => some (!f.ovf)
  | .bunc _ _ => some true
  | .call _ _ => some true
  | _ => none

/-- The same machine with no delay, no cache and one instruction in flight. The hazards of R351 to R353
cannot arise in it (spec/40_pipeline.md R192, spec/20_memory.md R92), so its run says what a program's
committed results are. -/
def Params.oneAtATime (p : Params) : Params :=
  { p with ramDelay := 0, sets := 0, ways := 0, lineWords := 0, cacheDelay := 0, scalar := true }

/-- The bits of a word that its instruction reads: all but RegImm's 15..13 and RegReg's 31..18 (R126). -/
def significantBits (w : Word) : Word :=
  if fieldOptype w = 0b00#2 then 0xFFFF1FFF#32
  else if fieldOptype w = 0b01#2 then 0x0003FFFF#32
  else 0xFFFFFFFF#32

/-- The eleven `(CtrlMode, CtrlFlag)` pairs as bits 15..9 of the word, in the order of R122. -/
def controlPairs : List (BitVec 7) :=
  [0b0000001#7, 0b0000000#7, 0b0010110#7, 0b0110110#7, 0b1001000#7, 0b0001000#7, 0b0101000#7,
    0b1000100#7, 0b0000100#7, 0b1110000#7, 0b1111111#7]

end Sys2Proof

namespace Sys2Proof.Machine

/-! ## Safe runs -/

/-- The machine has not stopped with a fault (spec/60_exceptions.md R310). A run is safe while this
holds: no step answers a fault or a refusal of the host's, so `fault` is the only stop that is an error. -/
def State.safe (s : State) : Prop := s.fault = none

/-- `k` ticks from `s` end in a next state that is safe. -/
def State.runsSafely (k : Nat) (s : State) : Prop :=
  ∃ t, Host.Core.run core k s = .next t ∧ t.safe

/-! ## Invariants -/

/-- Register 0 is hard-wired (spec/10_state.md R22) and a register's enables are equal (R28). -/
def RegFile.Inv (regs : RegFile) : Prop :=
  regs.entry 0#5 = { value := 0#32, readEnable := true, writeEnable := true } ∧
  ∀ r : Reg, (regs.entry r).readEnable = (regs.entry r).writeEnable

/-- RAM: canonical contents; the counter is at most `DM` and runs exactly while the slot is held (R33,
spec/20_memory.md R68, R72); behind a cache only the cache asks (R67). -/
def Ram.Inv (p : Params) (r : Ram) : Prop :=
  r.cells.wf = true ∧ r.left ≤ p.ramDelay ∧ (r.req = none ↔ r.left = 0) ∧
  (r.req = some .cache → p.cached = true) ∧
  (p.cached = true → r.req = none ∨ r.req = some .cache)

/-- A set of the cache: `W` ways of `L` words whose LRU ranks are a permutation of `0 .. W-1` (R77), tags
below 2^32 (R34), and no tag in two valid ways (R79). -/
def waysInv (p : Params) (ways : List Line) : Prop :=
  ways.length = p.ways ∧ (ways.map Line.lru).Perm (List.range p.ways) ∧
  (∀ l ∈ ways, l.data.length = p.lineWords ∧ l.tag < 2 ^ 32) ∧
  ways.Pairwise fun a b => a.valid = true → b.valid = true → a.tag ≠ b.tag

/-- The cache: `S` sets, none in bypass; the service slot and counter of R34 and R76. -/
def Cache.Inv (p : Params) (c : Cache) : Prop :=
  c.lines.length = (if p.cached = true then p.sets else 0) ∧ (∀ ways ∈ c.lines, waysInv p ways) ∧
  c.left ≤ p.cacheDelay ∧ (c.req = none → c.left = 0 ∧ c.waitNext = false) ∧
  (c.waitNext = true → c.left = 0) ∧ c.req ≠ some .cache ∧
  (p.cached = false → c.req = none)

/-- The memory state is well-formed. -/
def MemSys.Inv (p : Params) (m : MemSys) : Prop := m.ram.Inv p ∧ m.cache.Inv p

/-- A record not yet decoded claims nothing, carries no mark and is no taken branch (R35). -/
def Record.Undecoded (rec : Record) : Prop :=
  rec.claims = [] ∧ rec.fault = none ∧ rec.branchTaken = false

/-- A decoded record: its op is an instruction other than HLT (spec/44_control.md R296), and then a
Control record claims nothing (spec/40_pipeline.md R163), or `Invalid`, and then it is marked and claims
nothing (R166). Only a Control record is a taken branch, and its target lies in RAM (R281). -/
def Record.Decoded (p : Params) (rec : Record) : Prop :=
  (rec.branchTaken = true →
    rec.destMemAddr.toNat < p.ramWords ∧ ∃ i, rec.op = .instr i ∧ i.isControl = true) ∧
  match rec.op with
  | .undecoded => False
  | .invalid => rec.fault = some .malformedInstruction ∧ rec.claims = []
  | .instr i => i.isHalt = false ∧ (i.isControl = true → rec.claims = [])

/-- The stage latches and their flags between two ticks (spec/10_state.md R37 to R42). -/
def State.LatchInv (s : State) : Prop :=
  s.stage = .writeBack ∧ s.fSquashed = false ∧ s.mDone = false ∧
  (s.dRec = none → s.dState = .free) ∧ (s.xRec = none → s.xDone = false) ∧
  (s.mRec = none → s.mWaiting = false) ∧ (s.xDone = true → s.mWaiting = true) ∧
  (s.haltPending = true → s.fRec = none ∧ s.dRec = none) ∧
  (∀ rec, s.fRec = some rec → rec.Undecoded) ∧
  (∀ rec, s.dRec = some rec → s.dState ≠ .free → rec.Undecoded) ∧
  (∀ rec, s.dRec = some rec → s.dState = .free → rec.Decoded s.params) ∧
  (∀ rec, s.xRec = some rec → rec.Decoded s.params) ∧
  (∀ rec, s.mRec = some rec → rec.Decoded s.params) ∧
  (∀ rec, s.wRec = some rec → rec.Decoded s.params)

/-- The invariant of the machine between two ticks: valid parameters (R5) and the above. -/
def State.Inv (s : State) : Prop :=
  s.params.valid = true ∧ s.regs.Inv ∧ s.mem.Inv s.params ∧ s.LatchInv

/-- The records in flight, oldest first (R43 (7)). -/
def State.inFlight (s : State) : List Record :=
  s.wRec.toList ++ s.mRec.toList ++ s.xRec.toList ++ s.dRec.toList ++ s.fRec.toList

/-- The claims of all records in flight. -/
def State.allClaims (s : State) : List Reg := s.inFlight.flatMap Record.claims

/-- R43 (3): no two records in flight claim one register, and a register is blocked exactly when some
record in flight claims it. After a fault the faulting record is gone and its claims stay (R325), so
nothing is said of a faulted machine. -/
def State.ClaimsOk (s : State) : Prop :=
  s.fault = none →
    s.allClaims.Nodup ∧ ∀ r : Reg, (s.regs.entry r).readEnable = false ↔ r ∈ s.allClaims

/-- Each address is the one before plus one. -/
def Consecutive : List Word → Prop
  | [] => True
  | [_] => True
  | a :: b :: rest => b = a + 1#32 ∧ Consecutive (b :: rest)

/-- R43 (7): the records in flight were fetched from consecutive addresses, oldest first, and unless a
halt is pending the next word to be requested follows them. -/
def State.InOrder (s : State) : Prop :=
  Consecutive (s.inFlight.map Record.pc) ∧
  (s.haltPending = false → Consecutive (s.inFlight.map Record.pc ++ [s.pc]))

/-! ## Situations -/

/-- It is Decode's turn, with `rec` to decode (spec/40_pipeline.md R160). -/
structure AtDecode (s : State) (rec : Record) : Prop where
  turn : s.stage = .decode
  holds : s.dRec = some rec
  pending : s.dState ≠ .free

/-- It is Execute's turn, with the unmarked record `rec` to execute (R170). -/
structure AtExecute (s : State) (rec : Record) : Prop where
  turn : s.stage = .execute
  holds : s.xRec = some rec
  fresh : s.xDone = false
  unmarked : rec.fault = none

/-- It is Memory's turn, with the unmarked record `rec` to work on (R176). -/
structure AtMemory (s : State) (rec : Record) : Prop where
  turn : s.stage = .memory
  holds : s.mRec = some rec
  fresh : s.mDone = false
  unmarked : rec.fault = none

/-- It is Write-Back's turn, with the unmarked record `rec` to consume (R180). -/
structure AtWriteBack (s : State) (rec : Record) : Prop where
  turn : s.stage = .writeBack
  holds : s.wRec = some rec
  unmarked : rec.fault = none

/-- A running machine with nothing in flight, on any memory. -/
structure Empty (s : State) : Prop where
  running : s.stopped = false
  turn : s.stage = .writeBack
  noHalt : s.haltPending = false
  noSquash : s.fSquashed = false
  fetchEmpty : s.fRec = none
  decodeEmpty : s.dRec = none
  decodeFree : s.dState = .free
  executeEmpty : s.xRec = none
  executeFresh : s.xDone = false
  memoryEmpty : s.mRec = none
  memoryFresh : s.mDone = false
  memoryReady : s.mWaiting = false
  writeBackEmpty : s.wRec = none

/-- An empty machine with every register free (R26), on the simplest memory: cache bypassed
(spec/20_memory.md R75) and no RAM delay. -/
structure Idle (s : State) : Prop extends Empty s where
  free : ∀ r : Reg, (s.regs.entry r).readEnable = true ∧ (s.regs.entry r).writeEnable = true
  bypass : s.params.cached = false
  noDelay : s.params.ramDelay = 0
  noRequest : s.mem.ram.req = none

/-- The word Fetch would request next (spec/10_state.md R30, spec/20_memory.md R61). -/
def State.nextWord (s : State) : Word := s.mem.ram.cells.word (s.pc.toNat % s.params.ramWords)

/-- The RAM word at an address, reduced modulo `N` (R61). -/
def State.ramWord (s : State) (a : Word) : Word :=
  s.mem.ram.cells.word (a.toNat % s.params.ramWords)

/-- After `k` ticks the machine runs on with these registers, flags and RAM contents, and nothing is left in
Execute, Memory or Write-Back. -/
def State.Commits (k : Nat) (s : State) (regs : RegFile) (flags : Flags) (cells : RamCells) : Prop :=
  ∃ t, Host.Core.run core k s = .next t ∧ t.fault = none ∧ t.halted = false ∧
    t.regs = regs ∧ t.flags = flags ∧ t.mem.ram.cells = cells ∧
    t.xRec = none ∧ t.mRec = none ∧ t.wRec = none

/-- After `k` ticks a taken branch has committed: `pc` is the target and nothing is in flight. -/
def State.Jumps (k : Nat) (s : State) (regs : RegFile) (target : Word) : Prop :=
  ∃ t, Host.Core.run core k s = .next t ∧ t.fault = none ∧ t.halted = false ∧
    t.regs = regs ∧ t.flags = s.flags ∧ t.mem = s.mem ∧ t.pc = target ∧ t.inFlight = []

/-- The state Execute leaves when the record `rec` has computed `res` and `flags`; `writeBack` is what its
mark becomes (R171). -/
def State.afterAlu (s : State) (rec : Record) (res : Word) (flags : Flags) (writeBack : Bool) : State :=
  { s with
    xDone := true
    flags := flags
    xRec := some { rec with result := res, writeBack := writeBack } }

/-- The state Execute leaves when it has marked the record `rec` (R312). -/
def State.afterMark (s : State) (rec : Record) (kind : Fault) : State :=
  { s with xDone := true, xRec := some { rec with fault := some kind, writeBack := false } }

/-! ## Transactions: one call a tick, by one requester (spec/20_memory.md R81) -/

/-- The memory after `k` calls of `CacheRead(a, who)`. -/
def MemSys.afterReads (p : Params) (a : Word) (who : Requester) : Nat → MemSys → MemSys
  | 0, m => m
  | k + 1, m => MemSys.afterReads p a who k (m.cacheRead p a who).2

/-- What the call after `k` calls of `CacheRead(a, who)` answers. -/
def MemSys.readAnswer (p : Params) (a : Word) (who : Requester) (k : Nat) (m : MemSys) :
    Answer Word :=
  ((m.afterReads p a who k).cacheRead p a who).1

/-- The memory after `k` calls of `CacheWrite(a, who, v)`. -/
def MemSys.afterWrites (p : Params) (a : Word) (who : Requester) (v : Word) : Nat → MemSys → MemSys
  | 0, m => m
  | k + 1, m => MemSys.afterWrites p a who v k (m.cacheWrite p a who v).2

/-- What the call after `k` calls of `CacheWrite(a, who, v)` answers. -/
def MemSys.writeAnswer (p : Params) (a : Word) (who : Requester) (v : Word) (k : Nat) (m : MemSys) :
    Answer Unit :=
  ((m.afterWrites p a who v k).cacheWrite p a who v).1

/-- No transaction is under way. -/
def MemSys.quiet (m : MemSys) : Prop :=
  m.ram.req = none ∧ m.cache.req = none ∧ m.cache.waitNext = false

/-- The way in which address `a` hits in its set, if it does (R79). -/
def MemSys.hit (p : Params) (m : MemSys) (a : Word) : Option Nat :=
  hitWay (m.cache.set (indexOf p (a.toNat % p.ramWords))) (tagOf p (a.toNat % p.ramWords))

/-! ## Independence of timing (spec/70_reset_and_hazards.md R360) -/

/-- The states before each of the next `k` ticks. -/
def State.trace : Nat → State → List State
  | 0, _ => []
  | k + 1, s =>
    s :: match step s with
      | .next t => State.trace k t
      | _ => []

/-- The record that ends its life in this tick: the one Write-Back consumes, or else the HLT Decode drops
(R164). With one instruction in flight these are the executed instructions in program order. -/
def State.retired (s : State) : Option Record :=
  if s.stopped then none
  else
    match s.wRec, s.dRec with
    | some rec, _ => some rec
    | none, some rec =>
      match decode rec.raw with
      | .ok i => if i.isHalt then some rec else none
      | .error _ => none
    | none, none => none

/-- A record of an instruction of which `f` holds. -/
def Record.isOf (f : Instr → Bool) (rec : Record) : Bool :=
  match rec.op with
  | .instr i => f i
  | .invalid | .undecoded => false

/-- The address a store has stored to, from its record in Write-Back: PUSH has moved on to the new SP
(R178). -/
def Record.stored (rec : Record) : Option Word :=
  match rec.op with
  | .instr (.stw _ _ _) => some rec.destMemAddr
  | .instr (.push _ _ _) => some (rec.destMemAddr - 1#32)
  | _ => none

/-- Two addresses name one word (R61). -/
def sameWord (p : Params) (a b : Word) : Bool := a.toNat % p.ramWords == b.toNat % p.ramWords

/-- Two addresses lie in one line of `L` words (R74). -/
def sameLine (p : Params) (a b : Word) : Bool :=
  a.toNat % p.ramWords / p.lineWords == b.toNat % p.ramWords / p.lineWords

/-- The word is a RegImm or RegReg instruction. -/
def isAluWord (w : Word) : Bool :=
  match decode w with
  | .ok i => i.isAlu
  | .error _ => false

/-- No branch reads the flags before an instruction has written them. -/
def writesBeforeReads : List Record → Bool
  | [] => true
  | rec :: rest =>
    rec.isOf Instr.isAlu || (!rec.isOf Instr.readsFlags && writesBeforeReads rest)

/-- The software rule of R351 on the executed instructions: after a taken branch the flags are written
before they are read, unless the word after the branch is `calm`. -/
def flagsNotCarried (calm : Record → Bool) : List Record → Bool
  | [] => true
  | rec :: rest =>
    (!rec.branchTaken || calm rec || writesBeforeReads rest) && flagsNotCarried calm rest

/-- None of the next `n` executed instructions, up to a taken branch, is the word at `a`. -/
def notAmongNext (p : Params) (a : Word) : Nat → List Record → Bool
  | 0, _ => true
  | _ + 1, [] => true
  | n + 1, rec :: rest =>
    !sameWord p a rec.pc && (rec.branchTaken || notAmongNext p a n rest)

/-- The software rule of R352 on the executed instructions: three others, or a taken branch, stand between
a store and the instruction it stores to. -/
def storesFarAhead (p : Params) : List Record → Bool
  | [] => true
  | rec :: rest =>
    (match rec.stored with
      | some a => notAmongNext p a 3 rest
      | none => true) && storesFarAhead p rest

/-- The instruction and record on which Memory works in this tick, if Write-Back neither squashes it nor
ends the tick. -/
def State.memoryWork (s : State) : Option (Instr × Record) :=
  if s.stopped || s.wRec.any fun w => w.branchTaken || w.fault.isSome then none
  else
    match s.mRec with
    | some rec =>
      match rec.op, rec.fault with
      | .instr i, none => some (i, rec)
      | _, _ => none
    | none => none

/-- The address of a store that in this tick misses and installs its word's line (R80). -/
def State.missingStore (s : State) : Option Word :=
  match s.memoryWork with
  | some (i, rec) =>
    if i.isStore && (s.mem.hit s.params rec.destMemAddr).isNone &&
        ((s.mem.cacheWrite s.params rec.destMemAddr .memory rec.result).2.hit s.params
          rec.destMemAddr).isSome then
      some rec.destMemAddr
    else none
  | none => none

/-- The address of a load in Memory in this tick. -/
def State.loadAddress (s : State) : Option Word :=
  match s.memoryWork with
  | some (i, rec) => if i.isLoad then some rec.destMemAddr else none
  | none => none

/-- The address Fetch requests in this tick, if it makes a request (R150). -/
def State.fetchAddress (s : State) : Option Word :=
  if s.stopped then none
  else
    match andThen s.writeBackExecute fun s =>
        if s.fault.isSome then .next s else s.middleExecute with
    | .next u =>
      if u.fault.isSome || u.fSquashed || u.fetchHeld then none else some u.pc
    | _ => none

/-- From here until the line of `a` leaves the cache, no word of that line is read but those in `written`
and those a store has written since (R92). A fetch on a wrong path is a read. -/
def neighboursUnread (p : Params) (a : Word) : List Word → List State → Bool
  | _, [] => true
  | written, s :: rest =>
    (s.mem.hit p a).isNone ||
      (let written := (s.wRec.bind Record.stored).toList ++ written
       ((s.loadAddress.toList ++ s.fetchAddress.toList).all fun b =>
          !sameLine p a b || written.any (sameWord p b)) &&
        neighboursUnread p a written rest)

/-- The software rule of R353 on a machine's own run: after a store that misses, the neighbouring words of
its line are not read. -/
def linesReadable (p : Params) : List State → Bool
  | [] => true
  | s :: rest =>
    (match s.missingStore with
      | some a =>
        (s.fetchAddress.toList.all fun b => !sameLine p a b || sameWord p a b) &&
          neighboursUnread p a [a] rest
      | none => true) && linesReadable p rest

/-- The program that `s` is about to run keeps the software rules of R351 and R352 in its next `k`
ticks. -/
def State.KeepsCodeRules (k : Nat) (s : State) : Prop :=
  let run := s.trace k
  let executed := run.filterMap State.retired
  flagsNotCarried (fun rec => run.all fun u => !isAluWord (u.ramWord (rec.pc + 1#32))) executed =
    true ∧
  storesFarAhead s.params executed = true

/-- The program that `s` is about to run keeps the software rule of R353 (for a cache with `L > 1`). -/
def State.KeepsLineRule (s : State) : Prop :=
  ∀ k, linesReadable s.params (s.trace k) = true

/-! ## Instructions of one shape -/

/-- The fifteen RegImm instructions (spec/30_encoding.md R118). -/
def regImmInstrs (rd : Reg) (imm : Imm16) : List Instr :=
  [.addI rd imm, .subI rd imm, .mulI rd imm, .andI rd imm, .xorI rd imm, .orI rd imm, .notI rd imm,
    .negI rd imm, .shrI rd imm, .sarI rd imm, .shlI rd imm, .rolI rd imm, .ldi rd imm, .ldx rd imm,
    .cmpI rd imm]

/-- The sixteen RegReg instructions (R119). -/
def regRegInstrs (rd rs : Reg) : List Instr :=
  [.addR rd rs, .subR rd rs, .mulR rd rs, .divR rd rs, .remR rd rs, .orR rd rs, .xorR rd rs,
    .andR rd rs, .notR rd rs, .shlR rd rs, .shrR rd rs, .sarR rd rs, .rolR rd rs, .cmpR rd rs,
    .cpy rd rs, .nsa rd rs]

/-- BEQ, BNE, BLT, BGE, BLU, BAE, BA, BOF, BNF and BUNC (R122): the Control instructions that write no
link. -/
def plainBranches (rm : Reg) (imm : Imm16) : List Instr :=
  [.beq rm imm, .bne rm imm, .blt rm imm, .bge rm imm, .blu rm imm, .bae rm imm, .ba rm imm,
    .bof rm imm, .bnf rm imm, .bunc rm imm]

end Sys2Proof.Machine
end

