-- ==== Sys2Proof/Certificates/Slice0/Obligations.lean ====
section
/-! DEFINITION. The statements for the provers, from the numbered rules of spec/. Every `step` is one tick
(R6) and `exec i s` is the work on instruction `i` of the stage whose turn it is in `s`. -/

open Sys2Proof Sys2Proof.Machine

/-! ## Encoding (spec/30_encoding.md) -/

/-- R129: every instruction that can be written down decodes to itself, with every operand at every value
its fields admit. -/
def Obligations.DecodeOfEncode : Prop :=
  ∀ i : Instr, i.wellFormed = true → decode (encode i) = .ok i

/-- R126, R129: encoding what a word decodes to gives the word back but for the bits its format ignores,
so no other bit is dropped. Rests on the spec's own decision D19 (spec/92_eei_decisions.md). -/
def Obligations.EncodeOfDecode : Prop :=
  ∀ (w : Word) (i : Instr), decode w = .ok i →
    i.wellFormed = true ∧ encode i = w &&& significantBits w

/-- R313 (a), (b), (c): exactly three classes of word have no meaning. Rests on the spec's own decision
D12 (spec/92_eei_decisions.md). -/
def Obligations.DecodeRejects : Prop :=
  ∀ w : Word, (∃ e, decode w = .error e) ↔
    (w.extractLsb' 0 2 ≠ 0b01#2 ∨
      (w.extractLsb' 0 4 = 0b0001#4 ∧ w.extractLsb' 9 4 = 0b1111#4) ∨
      (w.extractLsb' 0 4 = 0b1101#4 ∧ w &&& 0xFFFF01FF#32 ≠ 0xFFFF000D#32 ∧
        w.extractLsb' 9 7 ∉ controlPairs))

/-- Words the spec spells out, one or two of each format and with ignored bits set, decode to the
instructions it says (R213, R201, R126, R233, R261, R264, R283, R294, R296). Rests on the spec's own
decisions D12 and D19 (spec/92_eei_decisions.md). -/
def Obligations.SpecWordsDecode : Prop :=
  decode 0x234518B1#32 = .ok (.ldi 11#5 0x2345#16) ∧
  decode 0x02001C61#32 = .ok (.cmpI 6#5 0x200#16) ∧
  decode 0x0000A445#32 = .ok (.mulR 4#5 5#5) ∧
  decode 0x02002869#32 = .ok (.ldw 6#5 5#5 0x200#16) ∧
  decode 0x02002E49#32 = .ok (.stw 4#5 5#5 0x200#16) ∧
  decode 0x12344C79#32 = .ok (.push 7#5 9#5 0x1234#16) ∧
  decode 0x0003020D#32 = .ok (.beq 0#5 3#16) ∧
  decode 0x0003FE0D#32 = .ok (.call 0#5 3#16) ∧
  decode 0xFFFFE00D#32 = .ok (.hlt 0b111#3 0b0000#4) ∧
  decode 0x0000200D#32 = .error .unlistedControlPair

/-! ## Register file (spec/10_state.md) -/

/-- R22, R25: after any sequence of writes a register holds the last value written to it, and register 0
reads 0. -/
def Obligations.RegisterHoldsLastWrite : Prop :=
  ∀ (writes : List (Reg × Word)) (regs : RegFile) (r : Reg),
    (writes.foldl (fun g w => g.writeNb w.1 w.2) regs).readNb r =
      if r = 0#5 then 0#32
      else ((writes.reverse.find? fun w => w.1 == r).map Prod.snd).getD (regs.readNb r)

/-! ## RAM, its service and the cache (spec/20_memory.md) -/

/-- R69, R71: a read or write of the RAM answers `Wait` when the service does and changes no word;
granted, a read answers the word `a mod N` and a write changes that word alone. -/
def Obligations.RamPorts : Prop :=
  ∀ (p : Params) (m : MemSys) (a : Nat) (who : Requester) (v : Word), m.ram.cells.wf = true →
    ((m.ram.service p.ramDelay who).1 = .wait →
      (m.ramRead p a who).1 = .wait ∧ (m.ramWrite p a who v).1 = .wait ∧
      (m.ramWrite p a who v).2.ram.cells = m.ram.cells) ∧
    ((m.ram.service p.ramDelay who).1 = .ready →
      (m.ramRead p a who).1 = .success (m.ram.cells.word (a % p.ramWords)) ∧
      (m.ramWrite p a who v).1 = .success () ∧
      ∀ b, (m.ramWrite p a who v).2.ram.cells.word b =
        if b = a % p.ramWords then v else m.ram.cells.word b) ∧
    (m.ramRead p a who).2.ram.cells = m.ram.cells

/-- R68, R75, R81: with the cache bypassed a transaction is refused `DM` times and granted on the next
call; a store's word reaches the RAM at that call and not before, and the slot is free again. Another
requester's call meanwhile, a read or a write of any address, is refused with no change of state. Rests on
the spec's own decision D6 (spec/92_eei_decisions.md). -/
def Obligations.BypassTransaction : Prop :=
  ∀ (p : Params) (m : MemSys) (a v : Word) (who other : Requester),
    p.cached = false → m.ram.req = none →
    (∀ k < p.ramDelay, m.readAnswer p a who k = .wait ∧ m.writeAnswer p a who v k = .wait ∧
      (m.afterWrites p a who v k).ram.cells = m.ram.cells) ∧
    m.readAnswer p a who p.ramDelay =
      .success (m.ram.cells.word (a.toNat % p.ramWords)) ∧
    m.writeAnswer p a who v p.ramDelay = .success () ∧
    (m.afterReads p a who (p.ramDelay + 1)).ram.cells = m.ram.cells ∧
    (m.afterReads p a who (p.ramDelay + 1)).ram.req = none ∧
    (m.afterWrites p a who v (p.ramDelay + 1)).ram.cells =
      m.ram.cells.setWord (a.toNat % p.ramWords) v ∧
    (m.afterWrites p a who v (p.ramDelay + 1)).ram.req = none ∧
    (other ≠ who → ∀ k < p.ramDelay, ∀ (b u : Word),
      ∀ m' ∈ ([m.afterReads p a who (k + 1), m.afterWrites p a who v (k + 1)] : List MemSys),
        m'.cacheRead p b other = (.wait, m') ∧ m'.cacheWrite p b other u = (.wait, m'))

/-- R77, R79, R81: a read hit is refused `DC` times and granted on the next call with the cache's word; it
touches the way hit, leaves the other sets, asks the RAM for nothing and ends with no transaction under
way. Rests on the spec's own decision D24 (spec/92_eei_decisions.md). -/
def Obligations.CacheReadHit : Prop :=
  ∀ (p : Params) (m : MemSys) (a : Word) (who : Requester) (w : Nat),
    p.cached = true → m.quiet → m.hit p a = some w →
    let idx := indexOf p (a.toNat % p.ramWords)
    let after := m.afterReads p a who (p.cacheDelay + 1)
    (∀ k < p.cacheDelay, m.readAnswer p a who k = .wait) ∧
    m.readAnswer p a who p.cacheDelay =
      .success (wordOf (m.cache.set idx) w (offsetOf p (a.toNat % p.ramWords))) ∧
    after.ram = m.ram ∧ after.quiet ∧
    ∀ i, after.cache.set i = if i = idx then touch (m.cache.set idx) w else m.cache.set i

/-- R78, R79, R81, R96: a read miss is answered `Wait` `DC` times, `WaitNextLevel` `DM` times, and then
the RAM's word; the RAM's contents stay and no transaction is left under way. The victim way then holds
the line, most recently used: every address of the line hits there and reads as its RAM word after `DC`
refusals. The other ways keep their lines and the other sets stay. Rests on the spec's own decisions D6,
D24 and D26 (spec/92_eei_decisions.md). -/
def Obligations.CacheReadMiss : Prop :=
  ∀ (p : Params) (m : MemSys) (a : Word) (who : Requester),
    p.cached = true → m.quiet → m.hit p a = none →
    let idx := indexOf p (a.toNat % p.ramWords)
    let way := victim (m.cache.set idx)
    let after := m.afterReads p a who (p.cacheDelay + p.ramDelay + 1)
    (∀ k < p.cacheDelay, m.readAnswer p a who k = .wait) ∧
    (∀ k, p.cacheDelay ≤ k → k < p.cacheDelay + p.ramDelay →
      m.readAnswer p a who k = .waitNextLevel) ∧
    m.readAnswer p a who (p.cacheDelay + p.ramDelay) =
      .success (m.ram.cells.word (a.toNat % p.ramWords)) ∧
    after.ram.cells = m.ram.cells ∧ after.quiet ∧
    (∀ i ≠ idx, after.cache.set i = m.cache.set i) ∧
    (m.Inv p →
      rankOf (after.cache.set idx) way = 0 ∧
      (∀ b who', sameLine p a b = true → after.hit p b = some way ∧
        (∀ k < p.cacheDelay, after.readAnswer p b who' k = .wait) ∧
        after.readAnswer p b who' p.cacheDelay =
          .success (m.ram.cells.word (b.toNat % p.ramWords))) ∧
      ∀ w ≠ way, ((after.cache.set idx)[w]?).map (fun l => (l.valid, l.tag, l.data)) =
        ((m.cache.set idx)[w]?).map fun l => (l.valid, l.tag, l.data))

/-- R77, R78, R80, R81: a cache write, hit or miss, is answered `Wait` `DC` times, `WaitNextLevel` `DM`
times, and then granted; only the granted call stores in RAM, and no transaction is left under way. A hit
stores the word in the way hit and touches it, and every other word of the set stays; a miss installs tag
and word in the victim way and touches that. The other sets stay. Rests on the spec's own decisions D6,
D24 and D26 (spec/92_eei_decisions.md). -/
def Obligations.CacheWriteTransaction : Prop :=
  ∀ (p : Params) (m : MemSys) (a v : Word) (who : Requester),
    p.cached = true → m.quiet →
    let idx := indexOf p (a.toNat % p.ramWords)
    let off := offsetOf p (a.toNat % p.ramWords)
    let ways := m.cache.set idx
    let after := m.afterWrites p a who v (p.cacheDelay + p.ramDelay + 1)
    (∀ k < p.cacheDelay, m.writeAnswer p a who v k = .wait) ∧
    (∀ k, p.cacheDelay ≤ k → k < p.cacheDelay + p.ramDelay →
      m.writeAnswer p a who v k = .waitNextLevel) ∧
    m.writeAnswer p a who v (p.cacheDelay + p.ramDelay) = .success () ∧
    (∀ k ≤ p.cacheDelay + p.ramDelay,
      (m.afterWrites p a who v k).ram.cells = m.ram.cells) ∧
    after.ram.cells = m.ram.cells.setWord (a.toNat % p.ramWords) v ∧ after.quiet ∧
    (∀ i ≠ idx, after.cache.set i = m.cache.set i) ∧
    (∀ w, m.hit p a = some w →
      after.cache.set idx =
        touch (ways.modify w fun l => { l with data := l.data.set off v }) w ∧
      (m.Inv p → wordOf (after.cache.set idx) w off = v) ∧
      ∀ w' o, w' ≠ w ∨ o ≠ off → wordOf (after.cache.set idx) w' o = wordOf ways w' o) ∧
    (m.hit p a = none →
      after.cache.set idx =
        touch
          (ways.modify (victim ways) fun l =>
            { l with
              valid := true, tag := tagOf p (a.toNat % p.ramWords)
              data := l.data.set off v })
          (victim ways))

/-- R90: once a write of `v` to `a` has been granted, a read of `a` by any requester answers `v`, after
`DC` refusals with the cache and `DM` in bypass. Rests on the spec's own decision D24
(spec/92_eei_decisions.md). -/
def Obligations.LoadAfterStore : Prop :=
  ∀ (p : Params) (m m' : MemSys) (a v : Word) (who who' : Requester),
    m.Inv p → m.cacheWrite p a who v = (.success (), m') →
    m'.readAnswer p a who' (if p.cached = true then p.cacheDelay else p.ramDelay) = .success v

/-- R92, R353: after a write miss at `a`, a read of another word `b` of the same line hits and answers
what the victim way held there, not the RAM's word. Rests on the spec's own decision D24
(spec/92_eei_decisions.md). -/
def Obligations.StaleNeighbour : Prop :=
  ∀ (p : Params) (m : MemSys) (a b v : Word) (who who' : Requester),
    p.cached = true → m.Inv p → m.quiet → m.hit p a = none →
    indexOf p (b.toNat % p.ramWords) = indexOf p (a.toNat % p.ramWords) →
    tagOf p (b.toNat % p.ramWords) = tagOf p (a.toNat % p.ramWords) →
    offsetOf p (b.toNat % p.ramWords) ≠ offsetOf p (a.toNat % p.ramWords) →
    (m.afterWrites p a who v (p.cacheDelay + p.ramDelay + 1)).readAnswer p b who' p.cacheDelay =
      .success (wordOf (m.cache.set (indexOf p (a.toNat % p.ramWords)))
        (victim (m.cache.set (indexOf p (a.toNat % p.ramWords))))
        (offsetOf p (b.toNat % p.ramWords)))

/-- R77, R78: `touch` maps a permutation of `0 .. W-1` to a permutation, the way touched takes rank 0, and
the other ways keep their order; the victim is the one way with rank `W-1`. -/
def Obligations.LruIsPermutation : Prop :=
  ∀ (ways : List Line) (w : Nat), w < ways.length →
    (ways.map Line.lru).Perm (List.range ways.length) →
    ((touch ways w).map Line.lru).Perm (List.range ways.length) ∧ rankOf (touch ways w) w = 0 ∧
    (∀ i j, i < ways.length → j < ways.length → i ≠ w → j ≠ w →
      (rankOf (touch ways w) i < rankOf (touch ways w) j ↔ rankOf ways i < rankOf ways j)) ∧
    victim ways < ways.length ∧ (rankOf ways w = ways.length - 1 ↔ w = victim ways)

/-! ## Decode (spec/40_pipeline.md R160 to R165) -/

/-- R161, R162: RegImm reads and claims `Rd` and takes the sign-extended immediate; RegReg reads `Rd` and
`Rs`, both before it claims either. That register 0 and a repeated register are left out of the claims,
where R161 and R162 write the set of the registers named, is the model's deduction from R22 and R26
(notes/assumptions/7.md). -/
def Obligations.AluDecode : Prop :=
  ∀ (s : State) (rec : Record) (rd rs : Reg) (imm : Imm16) (v1 v2 : Word),
    AtDecode s rec → s.regs.read rd = some v1 →
    (∀ i ∈ regImmInstrs rd imm,
      exec i s = .next
        { s with
          regs := s.regs.block rd
          dState := .free
          dRec := some
            { rec with
              claims := if rd = 0#5 then [] else [rd]
              result := v1, operand := imm.signExtend 32, writeBack := decide (rd ≠ 0#5)
              auxReg := 0#5 } }) ∧
    (s.regs.read rs = some v2 → ∀ i ∈ regRegInstrs rd rs,
      exec i s = .next
        { s with
          regs := (s.regs.block rd).block rs
          dState := .free
          dRec := some
            { rec with
              claims := claimSet rd rs
              result := v1, operand := v2, writeBack := decide (rd ≠ 0#5), auxReg := 0#5 } })

/-- R163, R117 (b): a branch takes its own address as base for `RMem = 0` and the register otherwise, and
claims nothing; CALL also names register 31. Rests on the spec's own decisions D2 and D3
(spec/92_eei_decisions.md). -/
def Obligations.ControlDecode : Prop :=
  ∀ (s : State) (rec : Record) (rm : Reg) (imm : Imm16) (v : Word),
    AtDecode s rec → (if rm = 0#5 then some rec.pc else s.regs.read rm) = some v →
    (∀ i ∈ plainBranches rm imm,
      exec i s = .next
        { s with
          dState := .free
          dRec := some
            { rec with
              claims := [], destMemAddr := v, operand := imm.signExtend 32, writeBack := true
              auxReg := 0#5 } }) ∧
    exec (.call rm imm) s = .next
      { s with
        dState := .free
        dRec := some
          { rec with
            claims := [], destMemAddr := v, operand := imm.signExtend 32, writeBack := true
            auxReg := 31#5 } }

/-- R164, R296: HLT, whatever its pair, stops the supply of instructions: its record and Fetch's are
dropped. Rests on the spec's own decision D1 (spec/92_eei_decisions.md). -/
def Obligations.HaltDecode : Prop :=
  ∀ (s : State) (rec : Record) (mode : BitVec 3) (flag : BitVec 4), AtDecode s rec →
    exec (.hlt mode flag) s = .next
      { s with
        haltPending := true, fRec := none, fSquashed := true, dRec := none, dState := .free }

/-- R165, R117 (a): LDW and STW read `Rd` and `RMem`, POP and PUSH `Rd` and register 30 in place of
`RMem`; both are claimed. That register 0 and a repeated register are left out of the claims, where R165
writes the set of the registers named, is the model's deduction from R22 and R26 (notes/assumptions/7.md).
Rests on the spec's own decision D8 (spec/92_eei_decisions.md). -/
def Obligations.LoadStoreDecode : Prop :=
  ∀ (s : State) (rec : Record) (rd rm : Reg) (imm : Imm16) (v1 v2 : Word),
    AtDecode s rec → s.regs.read rd = some v1 →
    (s.regs.read rm = some v2 →
      exec (.ldw rd rm imm) s = .next
        { s with
          regs := (s.regs.block rd).block rm
          dState := .free
          dRec := some
            { rec with
              op := .instr (.ldw rd rm imm), claims := claimSet rd rm, result := v1
              destMemAddr := v2, operand := imm.signExtend 32, writeBack := true
              auxReg := 0#5 } } ∧
      exec (.stw rd rm imm) s = .next
        { s with
          regs := (s.regs.block rd).block rm
          dState := .free
          dRec := some
            { rec with
              op := .instr (.stw rd rm imm), claims := claimSet rd rm, result := v1
              destMemAddr := v2, operand := imm.signExtend 32, writeBack := false
              auxReg := 0#5 } }) ∧
    (s.regs.read 30#5 = some v2 →
      exec (.pop rd rm imm) s = .next
        { s with
          regs := (s.regs.block rd).block 30#5
          dState := .free
          dRec := some
            { rec with
              op := .instr (.pop rd 30#5 imm), claims := claimSet rd 30#5, result := v1
              destMemAddr := v2, operand := imm.signExtend 32, writeBack := true
              auxReg := 30#5 } } ∧
      exec (.push rd rm imm) s = .next
        { s with
          regs := (s.regs.block rd).block 30#5
          dState := .free
          dRec := some
            { rec with
              op := .instr (.push rd 30#5 imm), claims := claimSet rd 30#5, result := v1
              destMemAddr := v2, operand := imm.signExtend 32, writeBack := false
              auxReg := 30#5 } })

/-- R160 to R165: an instruction that meets a `Blocked` register waits in Decode and claims nothing. Rests
on the spec's own decision D8 (spec/92_eei_decisions.md). -/
def Obligations.BlockedReadWaits : Prop :=
  ∀ (s : State) (rec : Record) (rd rs : Reg) (imm : Imm16), AtDecode s rec →
    (s.regs.read rd = none → ∀ i ∈ regImmInstrs rd imm,
      exec i s = .next { s with dState := .awaitingRegRead }) ∧
    (s.regs.read rd = none ∨ s.regs.read rs = none → ∀ i ∈ regRegInstrs rd rs,
      exec i s = .next { s with dState := .awaitingRegRead }) ∧
    (rd ≠ 0#5 → s.regs.read rd = none → ∀ i ∈ .call rd imm :: plainBranches rd imm,
      exec i s = .next { s with dState := .awaitingRegRead }) ∧
    (s.regs.read rd = none ∨ s.regs.read rs = none →
      ∀ i ∈ ([.ldw rd rs imm, .stw rd rs imm] : List Instr),
      exec i s = .next
        { s with dState := .awaitingRegRead, dRec := some { rec with op := .instr i } }) ∧
    (s.regs.read rd = none ∨ s.regs.read 30#5 = none →
      exec (.pop rd rs imm) s = .next
        { s with
          dState := .awaitingRegRead, dRec := some { rec with op := .instr (.pop rd 30#5 imm) } } ∧
      exec (.push rd rs imm) s = .next
        { s with
          dState := .awaitingRegRead, dRec := some { rec with op := .instr (.push rd 30#5 imm) } })

/-! ## Execute (R170 to R173, spec/41_regimm_alu.md, spec/42_regreg_alu.md) -/

/-- R201 to R203, R208, R215, R231 to R233, R244: ADD, SUB, MUL, NEG and CMP compute modulo 2^32 and write
all four flags; CMP gives up its write-back. That NEG is the two's complement negation is presumed
(notes/assumptions/16.md): R200 marks it as general knowledge, not in the source. Rests on the spec's own
decisions D16, D17 and D18 (spec/92_eei_decisions.md). -/
def Obligations.ArithmeticExecute : Prop :=
  ∀ (s : State) (rec : Record) (rd rs : Reg) (imm : Imm16), AtExecute s rec →
    let a := rec.result
    let b := rec.operand
    (∀ i ∈ ([.addI rd imm, .addR rd rs] : List Instr),
      exec i s = .next (s.afterAlu rec (a + b)
        { cf := decide (2 ^ 32 ≤ a.toNat + b.toNat)
          ovf := decide (a.msb = b.msb ∧ (a + b).msb ≠ a.msb)
          zf := decide (a + b = 0#32), sf := (a + b).msb } rec.writeBack)) ∧
    (∀ i ∈ ([.subI rd imm, .subR rd rs] : List Instr),
      exec i s = .next (s.afterAlu rec (a - b)
        { cf := decide (a.toNat < b.toNat)
          ovf := decide (a.msb ≠ b.msb ∧ (a - b).msb ≠ a.msb)
          zf := decide (a - b = 0#32), sf := (a - b).msb } rec.writeBack)) ∧
    (∀ i ∈ ([.cmpI rd imm, .cmpR rd rs] : List Instr),
      exec i s = .next (s.afterAlu rec (a - b)
        { cf := decide (a.toNat < b.toNat)
          ovf := decide (a.msb ≠ b.msb ∧ (a - b).msb ≠ a.msb)
          zf := decide (a - b = 0#32), sf := (a - b).msb } false)) ∧
    (∀ i ∈ ([.mulI rd imm, .mulR rd rs] : List Instr),
      exec i s = .next (s.afterAlu rec (a * b)
        { cf := decide (2 ^ 32 ≤ a.toNat * b.toNat)
          ovf := decide (a.toInt * b.toInt ≠ (a * b).toInt)
          zf := decide (a * b = 0#32), sf := (a * b).msb } rec.writeBack)) ∧
    exec (.negI rd imm) s = .next (s.afterAlu rec (-b)
      { cf := decide (b ≠ 0#32), ovf := decide (b = 0x80000000#32)
        zf := decide (-b = 0#32), sf := (-b).msb } rec.writeBack)

/-- R204 to R207, R213, R236 to R239, R245: AND, XOR, OR, NOT, LDI and CPY, with CF = OVF = 0. That AND,
XOR, OR and NOT are the bitwise operations, LDI loads the immediate and CPY copies the register is
presumed (notes/assumptions/16.md): R200 marks it as general knowledge, not in the source. Rests on the
spec's own decisions D15 and D18 (spec/92_eei_decisions.md). -/
def Obligations.LogicExecute : Prop :=
  ∀ (s : State) (rec : Record) (rd rs : Reg) (imm : Imm16), AtExecute s rec →
    let a := rec.result
    let b := rec.operand
    let out := fun res : Word => Host.Outcome.next (φ := Fault) (ρ := Refusal)
      (s.afterAlu rec res
        { cf := false, ovf := false, zf := decide (res = 0#32), sf := res.msb } rec.writeBack)
    exec (.andI rd imm) s = out (a &&& b) ∧ exec (.andR rd rs) s = out (a &&& b) ∧
    exec (.xorI rd imm) s = out (a ^^^ b) ∧ exec (.xorR rd rs) s = out (a ^^^ b) ∧
    exec (.orI rd imm) s = out (a ||| b) ∧ exec (.orR rd rs) s = out (a ||| b) ∧
    exec (.notI rd imm) s = out (~~~b) ∧ exec (.notR rd rs) s = out (~~~b) ∧
    exec (.ldi rd imm) s = out b ∧ exec (.cpy rd rs) s = out b

/-- R209 to R212, R219, R240 to R243: the shifts and ROL, by the low five bits of the second operand, with
CF = OVF = 0. That SHR is the logical and SAR the arithmetic right shift, SHL the left shift and ROL the
rotation left is presumed (notes/assumptions/16.md): R200 marks it as general knowledge, not in the
source. Rests on the spec's own decisions D15 and D28 (spec/92_eei_decisions.md). -/
def Obligations.ShiftExecute : Prop :=
  ∀ (s : State) (rec : Record) (rd rs : Reg) (imm : Imm16), AtExecute s rec →
    let a := rec.result
    let k := (rec.operand.extractLsb' 0 5).toNat
    let out := fun res : Word => Host.Outcome.next (φ := Fault) (ρ := Refusal)
      (s.afterAlu rec res
        { cf := false, ovf := false, zf := decide (res = 0#32), sf := res.msb } rec.writeBack)
    exec (.shrI rd imm) s = out (a >>> k) ∧ exec (.shrR rd rs) s = out (a >>> k) ∧
    exec (.sarI rd imm) s = out (a.sshiftRight k) ∧
    exec (.sarR rd rs) s = out (a.sshiftRight k) ∧
    exec (.shlI rd imm) s = out (a <<< k) ∧ exec (.shlR rd rs) s = out (a <<< k) ∧
    exec (.rolI rd imm) s = out (a.rotateLeft k) ∧ exec (.rolR rd rs) s = out (a.rotateLeft k)

/-- R234, R235, R247: DIV and REM by a divisor other than 0, signed or not as DIV_SIGNED says, with CF =
OVF = 0. That DIV is the quotient and REM the remainder is presumed (notes/assumptions/16.md): R200 marks
it as general knowledge, not in the source. Rests on the spec's own decisions D14 and D15
(spec/92_eei_decisions.md). -/
def Obligations.DivideExecute : Prop :=
  ∀ (s : State) (rec : Record) (rd rs : Reg), AtExecute s rec → rec.operand ≠ 0#32 →
    let a := rec.result
    let b := rec.operand
    let out := fun res : Word => Host.Outcome.next (φ := Fault) (ρ := Refusal)
      (s.afterAlu rec res
        { cf := false, ovf := false, zf := decide (res = 0#32), sf := res.msb } rec.writeBack)
    exec (.divR rd rs) s = out (if s.params.divSigned = true then a.sdiv b else a / b) ∧
    exec (.remR rd rs) s = out (if s.params.divSigned = true then a.srem b else a % b)

/-- R235: under either setting DIV and REM of the same operands satisfy `op1 = q * op2 + r`. That DIV is
the quotient and REM the remainder is presumed (notes/assumptions/16.md). Rests on the spec's own decision
D14 (spec/92_eei_decisions.md). -/
def Obligations.DivideIdentity : Prop :=
  ∀ (s t u : State) (rec recQ recR : Record) (rd rs : Reg),
    AtExecute s rec → rec.operand ≠ 0#32 →
    exec (.divR rd rs) s = .next t → exec (.remR rd rs) s = .next u →
    t.xRec = some recQ → u.xRec = some recR →
    rec.result = recQ.result * rec.operand + recR.result

/-- R247 (b), R315, R214, R246, R314: DIV and REM by 0 and, always, LDX and NSA mark the record, and
change no flag and no result. Rests on the spec's own decisions D13 and D14 (spec/92_eei_decisions.md). -/
def Obligations.MarkedInExecute : Prop :=
  ∀ (s : State) (rec : Record) (rd rs : Reg) (imm : Imm16), AtExecute s rec →
    (rec.operand = 0#32 →
      exec (.divR rd rs) s = .next (s.afterMark rec .divideByZero) ∧
      exec (.remR rd rs) s = .next (s.afterMark rec .divideByZero)) ∧
    exec (.ldx rd imm) s = .next (s.afterMark rec .unspecifiedOperation) ∧
    exec (.nsa rd rs) s = .next (s.afterMark rec .unspecifiedOperation)

/-- R172, R265: LDW and STW form the exact sum of base and displacement modulo `N`; PUSH and POP do
nothing in Execute. -/
def Obligations.AddressExecute : Prop :=
  ∀ (s : State) (rec : Record) (rd rm : Reg) (imm : Imm16), AtExecute s rec →
    (s.params.valid = true → ∀ i ∈ ([.ldw rd rm imm, .stw rd rm imm] : List Instr),
      exec i s = .next
        { s with
          xDone := true
          xRec := some
            { rec with
              destMemAddr := BitVec.ofNat 32
                ((rec.destMemAddr.toNat + rec.operand.toNat) % s.params.ramWords) } }) ∧
    ∀ i ∈ ([.push rd rm imm, .pop rd rm imm] : List Instr),
      exec i s = .next { s with xDone := true }

/-- R122, R173, R281: each of the eleven branches evaluates its condition on the flags; taken, it forms
the target, modulo `N`; not taken, it gives up its write-back. No flag changes. -/
def Obligations.BranchExecute : Prop :=
  ∀ (s : State) (rec : Record) (i : Instr), AtExecute s rec → s.params.valid = true →
    (i.takenWhen s.flags = some true →
      exec i s = .next
        { s with
          xDone := true
          xRec := some
            { rec with
              branchTaken := true
              destMemAddr := BitVec.ofNat 32
                ((rec.destMemAddr.toNat + rec.operand.toNat) % s.params.ramWords) } }) ∧
    (i.takenWhen s.flags = some false →
      exec i s = .next
        { s with
          xDone := true
          xRec := some { rec with branchTaken := false, writeBack := false } })

/-- R283 to R292: after CMP or SUB of `a` and `b`, BEQ, BNE, BLT, BGE, BLU, BAE and BA are taken exactly
when a = b, a ≠ b, a < b and a ≥ b signed, a < b, a ≥ b and a > b unsigned, and BOF and BNF when the exact
signed difference does not fit a word and when it does; after ADD, BOF when the exact signed sum does not
fit, and BLU when the unsigned sum carries. Rests on the spec's own decision D16
(spec/92_eei_decisions.md). -/
def Obligations.CompareThenBranch : Prop :=
  ∀ (s t : State) (rec : Record) (rd rs rm : Reg) (imm disp : Imm16), AtExecute s rec →
    let a := rec.result
    let b := rec.operand
    (∀ i ∈ ([.cmpI rd imm, .cmpR rd rs, .subI rd imm, .subR rd rs] : List Instr),
      exec i s = .next t →
      (Instr.beq rm disp).takenWhen t.flags = some (decide (a = b)) ∧
      (Instr.bne rm disp).takenWhen t.flags = some (decide (a ≠ b)) ∧
      (Instr.blt rm disp).takenWhen t.flags = some (decide (a.toInt < b.toInt)) ∧
      (Instr.bge rm disp).takenWhen t.flags = some (decide (b.toInt ≤ a.toInt)) ∧
      (Instr.blu rm disp).takenWhen t.flags = some (decide (a.toNat < b.toNat)) ∧
      (Instr.bae rm disp).takenWhen t.flags = some (decide (b.toNat ≤ a.toNat)) ∧
      (Instr.ba rm disp).takenWhen t.flags = some (decide (b.toNat < a.toNat)) ∧
      (Instr.bof rm disp).takenWhen t.flags = some (decide ((a - b).toInt ≠ a.toInt - b.toInt)) ∧
      (Instr.bnf rm disp).takenWhen t.flags =
        some (decide ((a - b).toInt = a.toInt - b.toInt))) ∧
    (∀ i ∈ ([.addI rd imm, .addR rd rs] : List Instr), exec i s = .next t →
      (Instr.bof rm disp).takenWhen t.flags = some (decide ((a + b).toInt ≠ a.toInt + b.toInt)) ∧
      (Instr.blu rm disp).takenWhen t.flags = some (decide (2 ^ 32 ≤ a.toNat + b.toNat)))

/-! ## Memory (R176 to R178, spec/43_loadstore.md) -/

/-- R176: for every instruction but LDW, POP, PUSH and STW Memory is a pass-through. Rests on the spec's
own decision D10 (spec/92_eei_decisions.md). -/
def Obligations.MemoryPassThrough : Prop :=
  ∀ (s : State) (rec : Record) (rd rs : Reg) (imm : Imm16), AtMemory s rec →
    ∀ i ∈ regImmInstrs rd imm ++ regRegInstrs rd rs ++ .call rd imm :: plainBranches rd imm,
    exec i s = .next { s with mDone := true }

/-- R177, R261, R262: LDW and POP put the word read into `result`; POP then forms SP - 1; while the memory
answers `Wait` or `WaitNextLevel` the record is held. -/
def Obligations.LoadMemory : Prop :=
  ∀ (s : State) (rec : Record) (rd rm : Reg) (imm : Imm16) (r : Answer Word) (m : MemSys),
    AtMemory s rec → s.mem.cacheRead s.params rec.destMemAddr .memory = (r, m) →
    (∀ v, r = .success v →
      exec (.ldw rd rm imm) s = .next
        { s with
          mem := m, mWaiting := false, mDone := true, mRec := some { rec with result := v } } ∧
      exec (.pop rd rm imm) s = .next
        { s with
          mem := m, mWaiting := false, mDone := true
          mRec := some { rec with result := v, destMemAddr := rec.destMemAddr - 1#32 } }) ∧
    (r = .wait ∨ r = .waitNextLevel → ∀ i ∈ ([.ldw rd rm imm, .pop rd rm imm] : List Instr),
      exec i s = .next { s with mem := m, mWaiting := true })

/-- R178, R263, R264: STW and PUSH write `result` to memory; PUSH then forms SP + 1; while the memory
answers `Wait` or `WaitNextLevel` the record is held. -/
def Obligations.StoreMemory : Prop :=
  ∀ (s : State) (rec : Record) (rd rm : Reg) (imm : Imm16) (r : Answer Unit) (m : MemSys),
    AtMemory s rec →
    s.mem.cacheWrite s.params rec.destMemAddr .memory rec.result = (r, m) →
    (r = .success () →
      exec (.stw rd rm imm) s = .next { s with mem := m, mWaiting := false, mDone := true } ∧
      exec (.push rd rm imm) s = .next
        { s with
          mem := m, mWaiting := false, mDone := true
          mRec := some { rec with destMemAddr := rec.destMemAddr + 1#32 } }) ∧
    (r = .wait ∨ r = .waitNextLevel → ∀ i ∈ ([.stw rd rm imm, .push rd rm imm] : List Instr),
      exec i s = .next { s with mem := m, mWaiting := true })

/-! ## Write-Back (R180 to R184) -/

/-- R182: RegImm, RegReg and LDW records with their write-back release their claims and write `result` to
`Rd` and to no other register; a write to register 0 is ignored. Rests on the spec's own decision D9
(spec/92_eei_decisions.md). -/
def Obligations.ResultCommits : Prop :=
  ∀ (s : State) (rec : Record) (rd rs : Reg) (imm : Imm16), AtWriteBack s rec →
    rec.writeBack = true → rec.auxReg = 0#5 → (rd ≠ 0#5 → rd ∈ rec.claims) →
    ∀ i ∈ .ldw rd rs imm :: (regImmInstrs rd imm ++ regRegInstrs rd rs),
    ∃ regs, exec i s = .next { s with wRec := none, regs := regs } ∧
      ∀ q, regs.readNb q = (if q = rd ∧ q ≠ 0#5 then rec.result else s.regs.readNb q) ∧
        regs.read q =
          if q ∈ rec.claims ∨ s.regs.read q ≠ none then some (regs.readNb q) else none

/-- R183: records without write-back (CMP, STW, and RegImm and RegReg with `Rd = 0`) release their claims
and write no register. Rests on the spec's own decision D9 (spec/92_eei_decisions.md). -/
def Obligations.NothingCommits : Prop :=
  ∀ (s : State) (rec : Record) (rd rs : Reg) (imm : Imm16), AtWriteBack s rec →
    rec.writeBack = false → rec.auxReg = 0#5 →
    ∀ i ∈ .stw rd rs imm :: (regImmInstrs rd imm ++ regRegInstrs rd rs),
    ∃ regs, exec i s = .next { s with wRec := none, regs := regs } ∧
      ∀ q, regs.readNb q = s.regs.readNb q ∧
        regs.read q =
          if q ∈ rec.claims ∨ s.regs.read q ≠ none then some (s.regs.readNb q) else none

/-- R182, R183, R262, R264: POP writes the word read to `Rd` and then the new SP to register 30, which
wins for `POP r30`; PUSH writes the new SP alone. Both release their claims. Rests on the spec's own
decisions D4 and D9 (spec/92_eei_decisions.md). -/
def Obligations.StackCommits : Prop :=
  ∀ (s : State) (rec : Record) (rd rm : Reg) (imm : Imm16), AtWriteBack s rec →
    rec.auxReg = 30#5 → 30#5 ∈ rec.claims → (rd ≠ 0#5 → rd ∈ rec.claims) →
    (rec.writeBack = true →
      ∃ regs, exec (.pop rd rm imm) s = .next { s with wRec := none, regs := regs } ∧
        ∀ q, regs.readNb q =
            (if q = 30#5 then rec.destMemAddr
            else if q = rd ∧ q ≠ 0#5 then rec.result
            else s.regs.readNb q) ∧
          regs.read q =
            if q ∈ rec.claims ∨ s.regs.read q ≠ none then some (regs.readNb q) else none) ∧
    (rec.writeBack = false →
      ∃ regs, exec (.push rd rm imm) s = .next { s with wRec := none, regs := regs } ∧
        ∀ q, regs.readNb q = (if q = 30#5 then rec.destMemAddr else s.regs.readNb q) ∧
          regs.read q =
            if q ∈ rec.claims ∨ s.regs.read q ≠ none then some (regs.readNb q) else none)

/-- R181, R187, R188: a branch not taken is discarded; a taken one jumps to its target and empties M, X, D
and F, releasing their claims; CALL writes the address after its own to register 31, blocked or not. No
other register's value changes. Rests on the spec's own decisions D1 and D3 (spec/92_eei_decisions.md). -/
def Obligations.BranchCommits : Prop :=
  ∀ (s : State) (rec : Record) (rm : Reg) (imm : Imm16), AtWriteBack s rec →
    (rec.branchTaken = false → ∀ i ∈ .call rm imm :: plainBranches rm imm,
      exec i s = .next { s with wRec := none }) ∧
    (rec.branchTaken = true → ∀ i ∈ .call rm imm :: plainBranches rm imm,
      rec.auxReg = (if i = .call rm imm then 31#5 else 0#5) →
      ∃ regs, exec i s = .next
          { s with
            wRec := none, mRec := none, mDone := false, mWaiting := false
            xRec := none, xDone := false, dRec := none, dState := .free
            fRec := none, fSquashed := true, haltPending := false
            pc := rec.destMemAddr, regs := regs } ∧
        ∀ q, regs.readNb q =
            (if q = 31#5 ∧ i = .call rm imm then rec.pc + 1#32 else s.regs.readNb q) ∧
          (regs.read q = none ↔ s.regs.read q = none ∧
            q ∉ claimsOf s.mRec ∧ q ∉ claimsOf s.xRec ∧ q ∉ claimsOf s.dRec))

/-- R170, R176, R184, R312: a marked record, whatever its instruction, does nothing in Execute and in
Memory, and stops the machine at Write-Back; its claims are not released. For HLT, whose record never gets
there, this is the model's choice (notes/assumptions/8.md). Rests on the spec's own decision D11
(spec/92_eei_decisions.md). -/
def Obligations.MarkedRecord : Prop :=
  ∀ (s : State) (rec : Record) (kind : Fault) (i : Instr), rec.fault = some kind →
    (s.stage = .execute → s.xRec = some rec → s.xDone = false →
      exec i s = .next { s with xDone := true }) ∧
    (s.stage = .memory → s.mRec = some rec → s.mDone = false →
      exec i s = .next { s with mDone := true }) ∧
    (s.stage = .writeBack → s.wRec = some rec →
      exec i s = .next { s with wRec := none, fault := some kind })

/-! ## Frames -/

/-- R47, R160 to R165: at Decode an instruction changes the enables of registers it names, its record,
and, for HLT alone, Fetch's latch and `haltPending`; no register's value and nothing else. Rests on the
spec's own decisions D1 and D8 (spec/92_eei_decisions.md). -/
def Obligations.DecodeFrame : Prop :=
  ∀ (s t : State) (i : Instr), s.stage = .decode → exec i s = .next t →
    t = { s with
          regs := t.regs, dRec := t.dRec, dState := t.dState
          fRec := t.fRec, fSquashed := t.fSquashed, haltPending := t.haltPending } ∧
    (i.isHalt = false →
      t.fRec = s.fRec ∧ t.fSquashed = s.fSquashed ∧ t.haltPending = s.haltPending) ∧
    (i.isControl = true → t.regs = s.regs) ∧
    ∀ q, t.regs.readNb q = s.regs.readNb q ∧
      (t.regs.entry q ≠ s.regs.entry q → t.dState = .free ∧ q ∈ claimsOf t.dRec)

/-- R31, R170 to R173: at Execute an instruction changes its record and, if it is RegImm or RegReg, the
flags; no register, no memory and nothing else. Rests on the spec's own decision D10
(spec/92_eei_decisions.md). -/
def Obligations.ExecuteFrame : Prop :=
  ∀ (s t : State) (i : Instr), s.stage = .execute → exec i s = .next t →
    t = { s with xDone := t.xDone, flags := t.flags, xRec := t.xRec } ∧
    (i.isControl = true ∨ (∃ rd rm imm, i ∈ ([.ldw rd rm imm, .pop rd rm imm, .push rd rm imm,
      .stw rd rm imm] : List Instr)) → t.flags = s.flags)

/-- R176 to R178: at Memory an instruction changes its record and the memory's service and cache state,
and only STW and PUSH the RAM: every byte (RAM words held as bytes, notes/assumptions/3.md) outside the
stored word reads as before, whichever the address the record gives, and for every other instruction all
bytes do. Rests on the spec's own decision D10 (spec/92_eei_decisions.md). -/
def Obligations.MemoryFrame : Prop :=
  ∀ (s t : State) (i : Instr), s.stage = .memory → s.mem.ram.cells.wf = true →
    exec i s = .next t →
    t = { s with mem := t.mem, mWaiting := t.mWaiting, mDone := t.mDone, mRec := t.mRec } ∧
    (s.mRec = none → t = s) ∧
    (i.isStore = false → ∀ k, t.mem.ram.cells.byte k = s.mem.ram.cells.byte k) ∧
    (i.isStore = true → ∀ rec, s.mRec = some rec →
      ∀ k, k / 4 ≠ rec.destMemAddr.toNat % s.params.ramWords →
        t.mem.ram.cells.byte k = s.mem.ram.cells.byte k)

/-- R47, R181 to R183: at Write-Back a non-Control instruction changes the register file and `fault`
alone, and the value of no register but `Rd`, where the record writes back, and the auxiliary register.
Rests on the spec's own decisions D4, D9 and D11 (spec/92_eei_decisions.md). -/
def Obligations.WriteBackFrame : Prop :=
  ∀ (s t : State) (i : Instr) (rd : Reg) (rec : Record), s.stage = .writeBack →
    s.wRec = some rec → i.destination = some rd → exec i s = .next t →
    t = { s with wRec := none, regs := t.regs, fault := t.fault } ∧
    (rec.fault ≠ none → t.regs = s.regs) ∧
    ∀ q, q ≠ rec.auxReg → (q = rd → rec.writeBack = false) →
      t.regs.readNb q = s.regs.readNb q

/-! ## The tick (R140 to R154, R184 to R193) -/

/-- R140, R151, R160: a tick runs the decoded instruction. If the word at `pc` decodes to `i`, an idle
machine's second tick is `exec i` on the record Fetch made of it, at Decode's turn, then Fetch, the
advance phase and the end of the tick; with X, M and W empty the same holds of the record Decode holds;
and when W, M, X and D hold instructions, the tick calls `exec` for each in that order. -/
def Obligations.StepRunsDecodedInstruction : Prop :=
  (∀ (s t : State) (i : Instr), Idle s → decode s.nextWord = .ok i →
    exec i
      { s with
        dRec := some { newRecord s.nextWord s.pc with op := .instr i }, dState := .busy
        pc := s.pc + 1#32, clock := s.clock + 1, stage := .decode } = .next t →
    Host.Core.run core 2 s = .next t.fetchExecute.advance.endTick) ∧
  (∀ (s t : State) (rec : Record) (i : Instr), s.stopped = false →
    s.wRec = none → s.mRec = none → s.xRec = none → s.dRec = some rec → s.dState ≠ .free →
    decode rec.raw = .ok i →
    exec i { s with dRec := some { rec with op := .instr i }, stage := .decode } = .next t →
    step s = .next t.fetchExecute.advance.endTick) ∧
  (∀ (s s1 s2 s3 s4 : State) (rw rm rx rd : Record) (iw im ix id : Instr), s.stopped = false →
    s.wRec = some rw → rw.op = .instr iw →
    exec iw { s with stage := .writeBack } = .next s1 → s1.fault = none →
    s1.mRec = some rm → rm.op = .instr im →
    exec im { s1 with stage := .memory } = .next s2 →
    s2.xRec = some rx → rx.op = .instr ix →
    exec ix { s2 with stage := .execute } = .next s3 →
    s3.dRec = some rd → s3.dState ≠ .free → decode rd.raw = .ok id →
    exec id { s3 with dRec := some { rd with op := .instr id }, stage := .decode } = .next s4 →
    step s = .next s4.fetchExecute.advance.endTick)

/-- R150, R151, R152, R153, R192, R355: Fetch's work. Squashed in this tick it clears the bit and makes no
request; held back by its own record, by a pending halt or by scalar mode it does nothing; otherwise it
makes one request, of the word at `pc`: refused, or answered with a zero word, it makes no record and
leaves `pc`; any other word becomes a fresh record and `pc` goes on by one. An empty machine's tick is
that request and hands the record to Decode; on the simplest memory it is granted at once. Rests on the
spec's own decisions D5, D6 and D23 (spec/92_eei_decisions.md). -/
def Obligations.FetchDelivers : Prop :=
  ∀ s : State,
    let held := s.fRec ≠ none ∨ s.haltPending = true ∨
      s.params.scalar = true ∧ (s.dRec ≠ none ∨ s.xRec ≠ none ∨ s.mRec ≠ none)
    (s.fSquashed = true → s.fetchExecute = { s with fSquashed := false }) ∧
    (s.fSquashed = false → held → s.fetchExecute = s) ∧
    (∀ r m, s.mem.cacheRead s.params s.pc .fetch = (r, m) →
      (s.fSquashed = false → ¬held →
        (r = .wait ∨ r = .waitNextLevel ∨ r = .success 0#32 →
          s.fetchExecute = { s with mem := m }) ∧
        ∀ v, v ≠ 0#32 → r = .success v →
          s.fetchExecute =
            { s with mem := m, fRec := some (newRecord v s.pc), pc := s.pc + 1#32 }) ∧
      (Empty s →
        (r = .wait ∨ r = .waitNextLevel ∨ r = .success 0#32 →
          step s = .next { s with mem := m, clock := s.clock + 1 }) ∧
        ∀ v, v ≠ 0#32 → r = .success v →
          step s = .next
            { s with
              mem := m, dRec := some (newRecord v s.pc), dState := .busy
              pc := s.pc + 1#32, clock := s.clock + 1 })) ∧
    (Idle s →
      (s.nextWord ≠ 0#32 → step s = .next
        { s with
          dRec := some (newRecord s.nextWord s.pc), dState := .busy
          pc := s.pc + 1#32, clock := s.clock + 1 }) ∧
      (s.nextWord = 0#32 → step s = .next { s with clock := s.clock + 1 }))

/-- R6, R310, R343, R140, R326: one step of the machine always answers a next state: a fault of the spec's
is a state with `fault` set (the model's choice, notes/assumptions/6.md). No step changes the parameters,
and a running machine's step counts the clock by one unless it raises a fault. Rests on the spec's own
decisions D23 and D31 (spec/92_eei_decisions.md). -/
def Obligations.StepAnswersNext : Prop :=
  ∀ s : State, ∃ t, step s = .next t ∧ t.params = s.params ∧
    (s.stopped = false → t.clock = if t.fault = none then s.clock + 1 else s.clock)

/-- R146: a halted or faulted machine's tick changes nothing. -/
def Obligations.StoppedStepIsIdentity : Prop :=
  ∀ s : State, s.halted = true ∨ s.fault ≠ none → step s = .next s

/-- R191: the host's Halt sets `halted`, leaves the records in flight where they are, and is idempotent;
after it no tick changes anything, so they never commit. Rests on the spec's own decision D30
(spec/92_eei_decisions.md). -/
def Obligations.HostHaltStops : Prop :=
  ∀ s : State, s.hostHalt = { s with halted := true } ∧ s.hostHalt.hostHalt = s.hostHalt ∧
    step s.hostHalt = .next s.hostHalt

/-- R184, R140, R325: when Write-Back holds a marked record the tick raises the fault and ends there; the
next one changes nothing. Rests on the spec's own decisions D11 and D31 (spec/92_eei_decisions.md). -/
def Obligations.FaultStep : Prop :=
  ∀ (s : State) (rec : Record) (kind : Fault), s.stopped = false → s.stage = .writeBack →
    s.wRec = some rec → rec.fault = some kind →
    step s = .next { s with wRec := none, fault := some kind } ∧
    step { s with wRec := none, fault := some kind } =
      .next { s with wRec := none, fault := some kind }

/-- R181, R152, R188, R189, R193: the tick in which a taken branch is in Write-Back leaves all five
latches empty, every register free, `pc` at the target and no memory request made; the flags stay. Rests
on the spec's own decisions D1, D3 and D5 (spec/92_eei_decisions.md). -/
def Obligations.TakenBranchStep : Prop :=
  ∀ (s : State) (rec : Record), s.Inv → s.ClaimsOk → s.stopped = false → s.wRec = some rec →
    rec.fault = none → rec.branchTaken = true →
    ∃ t, step s = .next t ∧ t.inFlight = [] ∧ t.pc = rec.destMemAddr ∧ t.mem = s.mem ∧
      t.flags = s.flags ∧ t.haltPending = false ∧ t.halted = false ∧ t.clock = s.clock + 1 ∧
      ∀ q, t.regs.read q ≠ none ∧
        t.regs.readNb q =
          if q = rec.auxReg ∧ q ≠ 0#5 then rec.pc + 1#32 else s.regs.readNb q

/-- R190: a running machine's step ends halted exactly when a halt is then pending and X, M and W are
empty, and never in the tick of a fault. Rests on the spec's own decisions D1 and D31
(spec/92_eei_decisions.md). -/
def Obligations.HaltWhenDrained : Prop :=
  ∀ s t : State, s.stopped = false → step s = .next t →
    (t.halted = true ↔
      t.fault = none ∧ t.haltPending = true ∧ t.xRec = none ∧ t.mRec = none ∧ t.wRec = none)

/-- R30: only Fetch's increment and a taken branch's commit write `pc`: a step leaves it, adds one, or
sets the target of the branch it commits. Rests on the spec's own decision D20 (spec/92_eei_decisions.md).
-/
def Obligations.PcWrites : Prop :=
  ∀ s t : State, step s = .next t →
    t.pc = s.pc ∨ t.pc = s.pc + 1#32 ∨
      ∃ rec, s.wRec = some rec ∧ rec.branchTaken = true ∧ t.pc = rec.destMemAddr

/-- R64, R71, R178: a step changes the RAM's contents only by the store of an unmarked STW or PUSH that
Memory holds, and then one word of it. -/
def Obligations.StoresChangeRam : Prop :=
  ∀ s t : State, step s = .next t →
    t.mem.ram.cells = s.mem.ram.cells ∨
      ∃ rec i, s.mRec = some rec ∧ rec.op = .instr i ∧ i.isStore = true ∧ rec.fault = none ∧
        t.mem.ram.cells =
          s.mem.ram.cells.setWord (rec.destMemAddr.toNat % s.params.ramWords) rec.result

/-! ## Invariants (spec/10_state.md R43) -/

/-- R22, R28, R43 (1), (5), (6): every step keeps the invariant of the registers, the memory and the
latches. Rests on the spec's own decisions D10 and D24 (spec/92_eei_decisions.md). -/
def Obligations.StepKeepsInvariant : Prop :=
  ∀ s t : State, s.Inv → step s = .next t → t.Inv

/-- R43 (3): every step keeps the claims disjoint and the enables in step with them. Rests on the spec's
own decisions D8, D9 and D11 (spec/92_eei_decisions.md). -/
def Obligations.StepKeepsClaims : Prop :=
  ∀ s t : State, s.Inv → s.ClaimsOk → step s = .next t → t.ClaimsOk

/-- R43 (7): every step keeps the records in program order, with consecutive addresses. Rests on the
spec's own decisions D1 and D7 (spec/92_eei_decisions.md). -/
def Obligations.StepKeepsOrder : Prop :=
  ∀ s t : State, s.Inv → s.InOrder → step s = .next t → t.InOrder

/-- R43: the three invariants hold after reset, for every image and all valid parameters, and at
`State.reset`, whose parameters are the model's choice (notes/assumptions/2.md). Rests on the spec's own
decisions D21 and D25 (spec/92_eei_decisions.md). -/
def Obligations.InvariantsAfterReset : Prop :=
  (∀ (p : Params) (image : List Word) (s : State), State.load p image = some s →
    s.Inv ∧ s.ClaimsOk ∧ s.InOrder) ∧
  State.reset.Inv ∧ State.reset.ClaimsOk ∧ State.reset.InOrder

/-! ## Reset (R340 to R343, R45) -/

/-- R45, R340, R62, R342: what load leaves: the image in RAM from word 0 on and 0 beyond it, every cache
line invalid with tag 0, words 0 and way w at rank w, and every other piece of state at its reset value.
Load is refused exactly for parameters outside R5 and for an over-long image (the model's choice for I18
and I19, notes/assumptions/13.md); in bypass the cache's field is there with no lines (the model's choice,
notes/assumptions/19.md). Rests on the spec's own decisions D21 and D25 (spec/92_eei_decisions.md). -/
def Obligations.LoadResets : Prop :=
  ∀ (p : Params) (image : List Word),
    (State.load p image = none ↔ p.valid = false ∨ p.ramWords < image.length) ∧
    ∀ s, State.load p image = some s →
      (∀ a, s.mem.ram.cells.word a = image.getD a 0#32) ∧ s.mem.ram.req = none ∧
      s.mem.ram.left = 0 ∧ s.mem.cache.req = none ∧ s.mem.cache.left = 0 ∧
      s.mem.cache.waitNext = false ∧ (p.cached = false → s.mem.cache.lines = []) ∧
      (p.cached = true → s.mem.cache.lines.length = p.sets ∧
        ∀ i < p.sets, (s.mem.cache.set i).length = p.ways ∧
          ∀ w < p.ways, (s.mem.cache.set i)[w]? = some
            { valid := false, tag := 0, data := List.replicate p.lineWords 0#32, lru := w }) ∧
      s.params = p ∧ s.pc = 0#32 ∧
      (∀ r, s.regs.entry r = { value := 0#32, readEnable := true, writeEnable := true }) ∧
      s.flags = { cf := false, ovf := false, zf := false, sf := false } ∧ s.inFlight = [] ∧
      s.dState = .free ∧ s.fSquashed = false ∧ s.xDone = false ∧ s.mDone = false ∧
      s.mWaiting = false ∧ s.clock = 0 ∧ s.haltPending = false ∧ s.halted = false ∧
      s.fault = none

/-! ## One instruction from fetch to commit -/

/-- R141, R143, R192, R201 to R247: in scalar mode on the simplest memory an idle machine commits, in five
ticks, the RegImm or RegReg instruction whose word stands at `pc`: `Rd` takes the result (CMP writes
none), the flags are the operation's, and nothing else that a program reads changes. The operations other
than ADD, SUB, MUL and CMP are presumed (notes/assumptions/16.md): R200 marks them as general knowledge.
LDX, NSA and division by 0 end in a fault: see FaultCommits. Rests on the spec's own decisions D9, D14,
D15, D16, D17, D18, D23 and D28 (spec/92_eei_decisions.md). -/
def Obligations.AluCommits : Prop :=
  ∀ (s : State) (i : Instr) (rd rs : Reg) (imm : Imm16), Idle s → s.params.scalar = true →
    decode s.nextWord = .ok i →
    let a := s.regs.readNb rd
    let b := s.regs.readNb rs
    let c := imm.signExtend 32
    let done := fun (v : Word) (f : Flags) =>
      s.Commits 5 (s.regs.writeNb rd v) f s.mem.ram.cells
    (i = .addI rd imm → done (a + c) (addFlags a c (a + c))) ∧
    (i = .addR rd rs → done (a + b) (addFlags a b (a + b))) ∧
    (i = .subI rd imm → done (a - c) (subFlags a c (a - c))) ∧
    (i = .subR rd rs → done (a - b) (subFlags a b (a - b))) ∧
    (i = .cmpI rd imm → s.Commits 5 s.regs (subFlags a c (a - c)) s.mem.ram.cells) ∧
    (i = .cmpR rd rs → s.Commits 5 s.regs (subFlags a b (a - b)) s.mem.ram.cells) ∧
    (i = .mulI rd imm → done (a * c) (mulFlags a c (a * c))) ∧
    (i = .mulR rd rs → done (a * b) (mulFlags a b (a * b))) ∧
    (i = .negI rd imm → done (-c) (subFlags 0#32 c (-c))) ∧
    (i = .andI rd imm → done (a &&& c) (logicFlags (a &&& c))) ∧
    (i = .andR rd rs → done (a &&& b) (logicFlags (a &&& b))) ∧
    (i = .orI rd imm → done (a ||| c) (logicFlags (a ||| c))) ∧
    (i = .orR rd rs → done (a ||| b) (logicFlags (a ||| b))) ∧
    (i = .xorI rd imm → done (a ^^^ c) (logicFlags (a ^^^ c))) ∧
    (i = .xorR rd rs → done (a ^^^ b) (logicFlags (a ^^^ b))) ∧
    (i = .notI rd imm → done (~~~c) (logicFlags (~~~c))) ∧
    (i = .notR rd rs → done (~~~b) (logicFlags (~~~b))) ∧
    (i = .ldi rd imm → done c (logicFlags c)) ∧
    (i = .cpy rd rs → done b (logicFlags b)) ∧
    (i = .shrI rd imm → done (a >>> (c.toNat % 32)) (logicFlags (a >>> (c.toNat % 32)))) ∧
    (i = .shrR rd rs → done (a >>> (b.toNat % 32)) (logicFlags (a >>> (b.toNat % 32)))) ∧
    (i = .shlI rd imm → done (a <<< (c.toNat % 32)) (logicFlags (a <<< (c.toNat % 32)))) ∧
    (i = .shlR rd rs → done (a <<< (b.toNat % 32)) (logicFlags (a <<< (b.toNat % 32)))) ∧
    (i = .sarI rd imm →
      done (a.sshiftRight (c.toNat % 32)) (logicFlags (a.sshiftRight (c.toNat % 32)))) ∧
    (i = .sarR rd rs →
      done (a.sshiftRight (b.toNat % 32)) (logicFlags (a.sshiftRight (b.toNat % 32)))) ∧
    (i = .rolI rd imm →
      done (a.rotateLeft (c.toNat % 32)) (logicFlags (a.rotateLeft (c.toNat % 32)))) ∧
    (i = .rolR rd rs →
      done (a.rotateLeft (b.toNat % 32)) (logicFlags (a.rotateLeft (b.toNat % 32)))) ∧
    (i = .divR rd rs → b ≠ 0#32 →
      let q := if s.params.divSigned = true then a.sdiv b else a / b
      done q (logicFlags q)) ∧
    (i = .remR rd rs → b ≠ 0#32 →
      let r := if s.params.divSigned = true then a.srem b else a % b
      done r (logicFlags r))

/-- R261 to R265: the same for LDW, STW, POP and PUSH; the flags stay. Rests on the spec's own decisions
D4, D6, D8, D9, D23 and D33 (spec/92_eei_decisions.md). -/
def Obligations.LoadStoreCommits : Prop :=
  ∀ (s : State) (i : Instr) (rd rm : Reg) (imm : Imm16), Idle s → s.params.scalar = true →
    decode s.nextWord = .ok i →
    let v := s.regs.readNb rd
    let ea := (s.regs.readNb rm + imm.signExtend 32).toNat % s.params.ramWords
    let sp := s.regs.readNb 30#5
    (i = .ldw rd rm imm →
      s.Commits 5 (s.regs.writeNb rd (s.mem.ram.cells.word ea)) s.flags s.mem.ram.cells) ∧
    (i = .stw rd rm imm → s.Commits 5 s.regs s.flags (s.mem.ram.cells.setWord ea v)) ∧
    (i = .pop rd rm imm →
      s.Commits 5 ((s.regs.writeNb rd (s.ramWord sp)).writeNb 30#5 (sp - 1#32)) s.flags
        s.mem.ram.cells) ∧
    (i = .push rd rm imm →
      s.Commits 5 (s.regs.writeNb 30#5 (sp + 1#32)) s.flags
        (s.mem.ram.cells.setWord (sp.toNat % s.params.ramWords) v))

/-- R281 to R294, R193: the same for the eleven branches: taken, `pc` is the target modulo `N`, and CALL
has linked the address after its own; not taken, no register, flag or RAM word changes. Rests on the
spec's own decisions D2, D3, D5 and D23 (spec/92_eei_decisions.md). -/
def Obligations.BranchCommitsWhole : Prop :=
  ∀ (s : State) (i : Instr) (rm : Reg) (imm : Imm16), Idle s → s.params.scalar = true →
    decode s.nextWord = .ok i → i ∈ .call rm imm :: plainBranches rm imm →
    let base := if rm = 0#5 then s.pc else s.regs.readNb rm
    let target := BitVec.ofNat 32 ((base + imm.signExtend 32).toNat % s.params.ramWords)
    (i.takenWhen s.flags = some true →
      s.Jumps 5 (if i = .call rm imm then s.regs.writeNb 31#5 (s.pc + 1#32) else s.regs) target) ∧
    (i.takenWhen s.flags = some false → s.Commits 5 s.regs s.flags s.mem.ram.cells)

/-- R360: what a program commits does not depend on timing. Take any image and any valid parameters; if on
the machine with no delay, no cache and one instruction in flight the program stops within `k` ticks, and
it keeps the software rules R351 and R352 there and R353 on the machine of these parameters, then on that
machine it stops too, by halt or by the same fault, with the same register values and RAM contents, and
after a halt the same `pc`; only `clock` differs. So any two such machines of one `N` and DIV_SIGNED
agree. The rules are stated on runs as the model reads them (notes/assumptions/24.md). The spec does not
prove this and asks a model to state it. -/
def Obligations.TimingIndependence : Prop :=
  ∀ (p : Params) (image : List Word) (s r r' : State) (k : Nat),
    State.load p image = some s → State.load p.oneAtATime image = some r →
    Host.Core.run core k r = .next r' → r'.stopped = true →
    r.KeepsCodeRules k → s.KeepsLineRule →
    ∃ n t, Host.Core.run core n s = .next t ∧ t.halted = r'.halted ∧ t.fault = r'.fault ∧
      (∀ q, t.regs.readNb q = r'.regs.readNb q) ∧ t.mem.ram.cells = r'.mem.ram.cells ∧
      (r'.fault = none → t.pc = r'.pc)

/-- R164, R190, R296: an idle machine with HLT at `pc` is halted two ticks later, with `pc` one past the
HLT and nothing else changed. Rests on the spec's own decision D1 (spec/92_eei_decisions.md). -/
def Obligations.HaltCommits : Prop :=
  ∀ (s : State) (mode : BitVec 3) (flag : BitVec 4), Idle s →
    decode s.nextWord = .ok (.hlt mode flag) →
    Host.Core.run core 2 s = .next
      { s with
        pc := s.pc + 1#32, clock := s.clock + 2, haltPending := true, halted := true }

/-- R312 to R315, R325: LDX, NSA, DIV and REM by 0 and a non-zero word with no meaning stop the machine in
the fifth tick with their fault; no register value, flag or RAM word has changed, and `pc` is the next
address to request. Rests on the spec's own decisions D11, D12, D13, D14, D23 and D31
(spec/92_eei_decisions.md). -/
def Obligations.FaultCommits : Prop :=
  ∀ (s : State) (kind : Fault), Idle s → s.params.scalar = true → s.nextWord ≠ 0#32 →
    ((∃ e, decode s.nextWord = .error e) ∧ kind = .malformedInstruction ∨
      (∃ rd imm, decode s.nextWord = .ok (.ldx rd imm)) ∧ kind = .unspecifiedOperation ∨
      (∃ rd rs, decode s.nextWord = .ok (.nsa rd rs)) ∧ kind = .unspecifiedOperation ∨
      (∃ rd rs, (decode s.nextWord = .ok (.divR rd rs) ∨ decode s.nextWord = .ok (.remR rd rs)) ∧
        s.regs.readNb rs = 0#32) ∧ kind = .divideByZero) →
    ∃ t, Host.Core.run core 5 s = .next t ∧ t.fault = some kind ∧ t.halted = false ∧
      (∀ q, t.regs.readNb q = s.regs.readNb q) ∧ t.flags = s.flags ∧ t.mem = s.mem ∧
      t.pc = s.pc + 1#32 ∧ t.clock = s.clock + 4
end

