-- ==== Sys2Proof/Laws/Alu.lean ====
section
/-! SUPPORT. The results of the ALU operations as bit-vector operations: spec/41_regimm_alu.md computes them
in the integers and narrows at the end (R200). -/

namespace Sys2Proof.Machine

theorem ofNat_toNat_add (a b : Word) : BitVec.ofNat 32 (a.toNat + b.toNat) = a + b := by
  apply BitVec.eq_of_toNat_eq; simp

theorem ofInt_toNat_sub (a b : Word) : BitVec.ofInt 32 ((a.toNat : Int) - b.toNat) = a - b := by
  apply BitVec.eq_of_toNat_eq
  rw [BitVec.toNat_ofInt, BitVec.toNat_sub]
  omega

theorem ofNat_toNat_mul (a b : Word) : BitVec.ofNat 32 (a.toNat * b.toNat) = a * b := by
  apply BitVec.eq_of_toNat_eq; simp

theorem ofNat_toNat_div (a b : Word) : BitVec.ofNat 32 (a.toNat / b.toNat) = a / b := by
  apply BitVec.eq_of_toNat_eq
  rw [BitVec.toNat_ofNat, BitVec.toNat_udiv]
  exact Nat.mod_eq_of_lt (Nat.lt_of_le_of_lt (Nat.div_le_self _ _) a.isLt)

theorem ofNat_toNat_mod (a b : Word) : BitVec.ofNat 32 (a.toNat % b.toNat) = a % b := by
  apply BitVec.eq_of_toNat_eq
  rw [BitVec.toNat_ofNat, BitVec.toNat_umod]
  exact Nat.mod_eq_of_lt (Nat.lt_of_le_of_lt (Nat.mod_le _ _) a.isLt)

theorem ofInt_tdiv (a b : Word) : BitVec.ofInt 32 (a.toInt.tdiv b.toInt) = a.sdiv b := by
  apply BitVec.eq_of_toInt_eq
  rw [BitVec.toInt_sdiv]
  simp

theorem ofInt_tmod (a b : Word) :
    BitVec.ofInt 32 (a.toInt - a.toInt.tdiv b.toInt * b.toInt) = a.srem b := by
  have h : a.toInt - a.toInt.tdiv b.toInt * b.toInt = (a.srem b).toInt := by
    rw [BitVec.toInt_srem, Int.tmod_def, Int.mul_comm]
  rw [h, BitVec.ofInt_toInt]

theorem ofNat_div_two_pow (a : Word) (k : Nat) : BitVec.ofNat 32 (a.toNat / 2 ^ k) = a >>> k := by
  apply BitVec.eq_of_toNat_eq
  rw [BitVec.toNat_ofNat, BitVec.toNat_ushiftRight, Nat.shiftRight_eq_div_pow]
  exact Nat.mod_eq_of_lt (Nat.lt_of_le_of_lt (Nat.div_le_self _ _) a.isLt)

theorem ofNat_mul_two_pow (a : Word) (k : Nat) : BitVec.ofNat 32 (a.toNat * 2 ^ k) = a <<< k := by
  apply BitVec.eq_of_toNat_eq
  rw [BitVec.toNat_ofNat, BitVec.toNat_shiftLeft, Nat.shiftLeft_eq]

theorem ofInt_div_two_pow (a : Word) (k : Nat) :
    BitVec.ofInt 32 (a.toInt / 2 ^ k) = a.sshiftRight k := by
  rw [BitVec.sshiftRight, Int.shiftRight_eq_div_pow]
  rfl

theorem shiftAmount_lt (op2 : Word) : shiftAmount op2 < 32 := Nat.mod_lt _ (by decide)

theorem shiftAmount_eq (op2 : Word) : shiftAmount op2 = (op2.extractLsb' 0 5).toNat := by
  simp [shiftAmount]

theorem rotate_eq (a : Word) {k : Nat} (h : k < 32) :
    (if k = 0 then a else a <<< k ||| a >>> (32 - k)) = a.rotateLeft k := by
  rw [BitVec.rotateLeft_def, Nat.mod_eq_of_lt h]
  split
  · next h0 =>
    subst h0
    rw [BitVec.ushiftRight_eq_zero (Nat.le_refl 32)]
    simp
  · rfl

end Sys2Proof.Machine
end

