-- ==== Sys2Proof/Laws/State.lean ====
section
/-! SUPPORT. One lemma per field per named update of the state, and the one-line facts about the records and
the cache's named updates. -/

namespace Sys2Proof.Machine

/-! `State.awaitRead` -/

@[simp] theorem State.awaitRead_params (s : State) (rec : Record) :
    (s.awaitRead rec).params = s.params := rfl
@[simp] theorem State.awaitRead_regs (s : State) (rec : Record) :
    (s.awaitRead rec).regs = s.regs := rfl
@[simp] theorem State.awaitRead_pc (s : State) (rec : Record) :
    (s.awaitRead rec).pc = s.pc := rfl
@[simp] theorem State.awaitRead_flags (s : State) (rec : Record) :
    (s.awaitRead rec).flags = s.flags := rfl
@[simp] theorem State.awaitRead_mem (s : State) (rec : Record) :
    (s.awaitRead rec).mem = s.mem := rfl
@[simp] theorem State.awaitRead_fRec (s : State) (rec : Record) :
    (s.awaitRead rec).fRec = s.fRec := rfl
@[simp] theorem State.awaitRead_fSquashed (s : State) (rec : Record) :
    (s.awaitRead rec).fSquashed = s.fSquashed := rfl
@[simp] theorem State.awaitRead_dRec (s : State) (rec : Record) :
    (s.awaitRead rec).dRec = some rec := rfl
@[simp] theorem State.awaitRead_dState (s : State) (rec : Record) :
    (s.awaitRead rec).dState = .awaitingRegRead := rfl
@[simp] theorem State.awaitRead_xRec (s : State) (rec : Record) :
    (s.awaitRead rec).xRec = s.xRec := rfl
@[simp] theorem State.awaitRead_xDone (s : State) (rec : Record) :
    (s.awaitRead rec).xDone = s.xDone := rfl
@[simp] theorem State.awaitRead_mRec (s : State) (rec : Record) :
    (s.awaitRead rec).mRec = s.mRec := rfl
@[simp] theorem State.awaitRead_mWaiting (s : State) (rec : Record) :
    (s.awaitRead rec).mWaiting = s.mWaiting := rfl
@[simp] theorem State.awaitRead_mDone (s : State) (rec : Record) :
    (s.awaitRead rec).mDone = s.mDone := rfl
@[simp] theorem State.awaitRead_wRec (s : State) (rec : Record) :
    (s.awaitRead rec).wRec = s.wRec := rfl
@[simp] theorem State.awaitRead_clock (s : State) (rec : Record) :
    (s.awaitRead rec).clock = s.clock := rfl
@[simp] theorem State.awaitRead_haltPending (s : State) (rec : Record) :
    (s.awaitRead rec).haltPending = s.haltPending := rfl
@[simp] theorem State.awaitRead_halted (s : State) (rec : Record) :
    (s.awaitRead rec).halted = s.halted := rfl
@[simp] theorem State.awaitRead_fault (s : State) (rec : Record) :
    (s.awaitRead rec).fault = s.fault := rfl
@[simp] theorem State.awaitRead_stage (s : State) (rec : Record) :
    (s.awaitRead rec).stage = s.stage := rfl

/-! `State.decoded` -/

@[simp] theorem State.decoded_params (s : State) (regs : RegFile) (rec : Record) :
    (s.decoded regs rec).params = s.params := rfl
@[simp] theorem State.decoded_regs (s : State) (regs : RegFile) (rec : Record) :
    (s.decoded regs rec).regs = regs := rfl
@[simp] theorem State.decoded_pc (s : State) (regs : RegFile) (rec : Record) :
    (s.decoded regs rec).pc = s.pc := rfl
@[simp] theorem State.decoded_flags (s : State) (regs : RegFile) (rec : Record) :
    (s.decoded regs rec).flags = s.flags := rfl
@[simp] theorem State.decoded_mem (s : State) (regs : RegFile) (rec : Record) :
    (s.decoded regs rec).mem = s.mem := rfl
@[simp] theorem State.decoded_fRec (s : State) (regs : RegFile) (rec : Record) :
    (s.decoded regs rec).fRec = s.fRec := rfl
@[simp] theorem State.decoded_fSquashed (s : State) (regs : RegFile) (rec : Record) :
    (s.decoded regs rec).fSquashed = s.fSquashed := rfl
@[simp] theorem State.decoded_dRec (s : State) (regs : RegFile) (rec : Record) :
    (s.decoded regs rec).dRec = some rec := rfl
@[simp] theorem State.decoded_dState (s : State) (regs : RegFile) (rec : Record) :
    (s.decoded regs rec).dState = .free := rfl
@[simp] theorem State.decoded_xRec (s : State) (regs : RegFile) (rec : Record) :
    (s.decoded regs rec).xRec = s.xRec := rfl
@[simp] theorem State.decoded_xDone (s : State) (regs : RegFile) (rec : Record) :
    (s.decoded regs rec).xDone = s.xDone := rfl
@[simp] theorem State.decoded_mRec (s : State) (regs : RegFile) (rec : Record) :
    (s.decoded regs rec).mRec = s.mRec := rfl
@[simp] theorem State.decoded_mWaiting (s : State) (regs : RegFile) (rec : Record) :
    (s.decoded regs rec).mWaiting = s.mWaiting := rfl
@[simp] theorem State.decoded_mDone (s : State) (regs : RegFile) (rec : Record) :
    (s.decoded regs rec).mDone = s.mDone := rfl
@[simp] theorem State.decoded_wRec (s : State) (regs : RegFile) (rec : Record) :
    (s.decoded regs rec).wRec = s.wRec := rfl
@[simp] theorem State.decoded_clock (s : State) (regs : RegFile) (rec : Record) :
    (s.decoded regs rec).clock = s.clock := rfl
@[simp] theorem State.decoded_haltPending (s : State) (regs : RegFile) (rec : Record) :
    (s.decoded regs rec).haltPending = s.haltPending := rfl
@[simp] theorem State.decoded_halted (s : State) (regs : RegFile) (rec : Record) :
    (s.decoded regs rec).halted = s.halted := rfl
@[simp] theorem State.decoded_fault (s : State) (regs : RegFile) (rec : Record) :
    (s.decoded regs rec).fault = s.fault := rfl
@[simp] theorem State.decoded_stage (s : State) (regs : RegFile) (rec : Record) :
    (s.decoded regs rec).stage = s.stage := rfl

/-! `State.squashFetch` -/

@[simp] theorem State.squashFetch_params (s : State) :
    (s.squashFetch).params = s.params := rfl
@[simp] theorem State.squashFetch_regs (s : State) :
    (s.squashFetch).regs = s.regs := rfl
@[simp] theorem State.squashFetch_pc (s : State) :
    (s.squashFetch).pc = s.pc := rfl
@[simp] theorem State.squashFetch_flags (s : State) :
    (s.squashFetch).flags = s.flags := rfl
@[simp] theorem State.squashFetch_mem (s : State) :
    (s.squashFetch).mem = s.mem := rfl
@[simp] theorem State.squashFetch_fRec (s : State) :
    (s.squashFetch).fRec = none := rfl
@[simp] theorem State.squashFetch_fSquashed (s : State) :
    (s.squashFetch).fSquashed = true := rfl
@[simp] theorem State.squashFetch_dRec (s : State) :
    (s.squashFetch).dRec = s.dRec := rfl
@[simp] theorem State.squashFetch_dState (s : State) :
    (s.squashFetch).dState = s.dState := rfl
@[simp] theorem State.squashFetch_xRec (s : State) :
    (s.squashFetch).xRec = s.xRec := rfl
@[simp] theorem State.squashFetch_xDone (s : State) :
    (s.squashFetch).xDone = s.xDone := rfl
@[simp] theorem State.squashFetch_mRec (s : State) :
    (s.squashFetch).mRec = s.mRec := rfl
@[simp] theorem State.squashFetch_mWaiting (s : State) :
    (s.squashFetch).mWaiting = s.mWaiting := rfl
@[simp] theorem State.squashFetch_mDone (s : State) :
    (s.squashFetch).mDone = s.mDone := rfl
@[simp] theorem State.squashFetch_wRec (s : State) :
    (s.squashFetch).wRec = s.wRec := rfl
@[simp] theorem State.squashFetch_clock (s : State) :
    (s.squashFetch).clock = s.clock := rfl
@[simp] theorem State.squashFetch_haltPending (s : State) :
    (s.squashFetch).haltPending = s.haltPending := rfl
@[simp] theorem State.squashFetch_halted (s : State) :
    (s.squashFetch).halted = s.halted := rfl
@[simp] theorem State.squashFetch_fault (s : State) :
    (s.squashFetch).fault = s.fault := rfl
@[simp] theorem State.squashFetch_stage (s : State) :
    (s.squashFetch).stage = s.stage := rfl

/-! `State.squashDecode` -/

@[simp] theorem State.squashDecode_params (s : State) :
    (s.squashDecode).params = s.params := rfl
@[simp] theorem State.squashDecode_regs (s : State) :
    (s.squashDecode).regs = s.regs.release (claimsOf s.dRec) := rfl
@[simp] theorem State.squashDecode_pc (s : State) :
    (s.squashDecode).pc = s.pc := rfl
@[simp] theorem State.squashDecode_flags (s : State) :
    (s.squashDecode).flags = s.flags := rfl
@[simp] theorem State.squashDecode_mem (s : State) :
    (s.squashDecode).mem = s.mem := rfl
@[simp] theorem State.squashDecode_fRec (s : State) :
    (s.squashDecode).fRec = s.fRec := rfl
@[simp] theorem State.squashDecode_fSquashed (s : State) :
    (s.squashDecode).fSquashed = s.fSquashed := rfl
@[simp] theorem State.squashDecode_dRec (s : State) :
    (s.squashDecode).dRec = none := rfl
@[simp] theorem State.squashDecode_dState (s : State) :
    (s.squashDecode).dState = .free := rfl
@[simp] theorem State.squashDecode_xRec (s : State) :
    (s.squashDecode).xRec = s.xRec := rfl
@[simp] theorem State.squashDecode_xDone (s : State) :
    (s.squashDecode).xDone = s.xDone := rfl
@[simp] theorem State.squashDecode_mRec (s : State) :
    (s.squashDecode).mRec = s.mRec := rfl
@[simp] theorem State.squashDecode_mWaiting (s : State) :
    (s.squashDecode).mWaiting = s.mWaiting := rfl
@[simp] theorem State.squashDecode_mDone (s : State) :
    (s.squashDecode).mDone = s.mDone := rfl
@[simp] theorem State.squashDecode_wRec (s : State) :
    (s.squashDecode).wRec = s.wRec := rfl
@[simp] theorem State.squashDecode_clock (s : State) :
    (s.squashDecode).clock = s.clock := rfl
@[simp] theorem State.squashDecode_haltPending (s : State) :
    (s.squashDecode).haltPending = s.haltPending := rfl
@[simp] theorem State.squashDecode_halted (s : State) :
    (s.squashDecode).halted = s.halted := rfl
@[simp] theorem State.squashDecode_fault (s : State) :
    (s.squashDecode).fault = s.fault := rfl
@[simp] theorem State.squashDecode_stage (s : State) :
    (s.squashDecode).stage = s.stage := rfl

/-! `State.squashExecute` -/

@[simp] theorem State.squashExecute_params (s : State) :
    (s.squashExecute).params = s.params := rfl
@[simp] theorem State.squashExecute_regs (s : State) :
    (s.squashExecute).regs = s.regs.release (claimsOf s.xRec) := rfl
@[simp] theorem State.squashExecute_pc (s : State) :
    (s.squashExecute).pc = s.pc := rfl
@[simp] theorem State.squashExecute_flags (s : State) :
    (s.squashExecute).flags = s.flags := rfl
@[simp] theorem State.squashExecute_mem (s : State) :
    (s.squashExecute).mem = s.mem := rfl
@[simp] theorem State.squashExecute_fRec (s : State) :
    (s.squashExecute).fRec = s.fRec := rfl
@[simp] theorem State.squashExecute_fSquashed (s : State) :
    (s.squashExecute).fSquashed = s.fSquashed := rfl
@[simp] theorem State.squashExecute_dRec (s : State) :
    (s.squashExecute).dRec = s.dRec := rfl
@[simp] theorem State.squashExecute_dState (s : State) :
    (s.squashExecute).dState = s.dState := rfl
@[simp] theorem State.squashExecute_xRec (s : State) :
    (s.squashExecute).xRec = none := rfl
@[simp] theorem State.squashExecute_xDone (s : State) :
    (s.squashExecute).xDone = false := rfl
@[simp] theorem State.squashExecute_mRec (s : State) :
    (s.squashExecute).mRec = s.mRec := rfl
@[simp] theorem State.squashExecute_mWaiting (s : State) :
    (s.squashExecute).mWaiting = s.mWaiting := rfl
@[simp] theorem State.squashExecute_mDone (s : State) :
    (s.squashExecute).mDone = s.mDone := rfl
@[simp] theorem State.squashExecute_wRec (s : State) :
    (s.squashExecute).wRec = s.wRec := rfl
@[simp] theorem State.squashExecute_clock (s : State) :
    (s.squashExecute).clock = s.clock := rfl
@[simp] theorem State.squashExecute_haltPending (s : State) :
    (s.squashExecute).haltPending = s.haltPending := rfl
@[simp] theorem State.squashExecute_halted (s : State) :
    (s.squashExecute).halted = s.halted := rfl
@[simp] theorem State.squashExecute_fault (s : State) :
    (s.squashExecute).fault = s.fault := rfl
@[simp] theorem State.squashExecute_stage (s : State) :
    (s.squashExecute).stage = s.stage := rfl

/-! `State.squashMemory` -/

@[simp] theorem State.squashMemory_params (s : State) :
    (s.squashMemory).params = s.params := rfl
@[simp] theorem State.squashMemory_regs (s : State) :
    (s.squashMemory).regs = s.regs.release (claimsOf s.mRec) := rfl
@[simp] theorem State.squashMemory_pc (s : State) :
    (s.squashMemory).pc = s.pc := rfl
@[simp] theorem State.squashMemory_flags (s : State) :
    (s.squashMemory).flags = s.flags := rfl
@[simp] theorem State.squashMemory_mem (s : State) :
    (s.squashMemory).mem = s.mem := rfl
@[simp] theorem State.squashMemory_fRec (s : State) :
    (s.squashMemory).fRec = s.fRec := rfl
@[simp] theorem State.squashMemory_fSquashed (s : State) :
    (s.squashMemory).fSquashed = s.fSquashed := rfl
@[simp] theorem State.squashMemory_dRec (s : State) :
    (s.squashMemory).dRec = s.dRec := rfl
@[simp] theorem State.squashMemory_dState (s : State) :
    (s.squashMemory).dState = s.dState := rfl
@[simp] theorem State.squashMemory_xRec (s : State) :
    (s.squashMemory).xRec = s.xRec := rfl
@[simp] theorem State.squashMemory_xDone (s : State) :
    (s.squashMemory).xDone = s.xDone := rfl
@[simp] theorem State.squashMemory_mRec (s : State) :
    (s.squashMemory).mRec = none := rfl
@[simp] theorem State.squashMemory_mWaiting (s : State) :
    (s.squashMemory).mWaiting = false := rfl
@[simp] theorem State.squashMemory_mDone (s : State) :
    (s.squashMemory).mDone = false := rfl
@[simp] theorem State.squashMemory_wRec (s : State) :
    (s.squashMemory).wRec = s.wRec := rfl
@[simp] theorem State.squashMemory_clock (s : State) :
    (s.squashMemory).clock = s.clock := rfl
@[simp] theorem State.squashMemory_haltPending (s : State) :
    (s.squashMemory).haltPending = s.haltPending := rfl
@[simp] theorem State.squashMemory_halted (s : State) :
    (s.squashMemory).halted = s.halted := rfl
@[simp] theorem State.squashMemory_fault (s : State) :
    (s.squashMemory).fault = s.fault := rfl
@[simp] theorem State.squashMemory_stage (s : State) :
    (s.squashMemory).stage = s.stage := rfl

/-! `State.squashAll` -/

@[simp] theorem State.squashAll_params (s : State) :
    (s.squashAll).params = s.params := rfl
@[simp] theorem State.squashAll_regs (s : State) :
    (s.squashAll).regs = ((s.regs.release (claimsOf s.mRec)).release (claimsOf s.xRec)).release (claimsOf s.dRec) := rfl
@[simp] theorem State.squashAll_pc (s : State) :
    (s.squashAll).pc = s.pc := rfl
@[simp] theorem State.squashAll_flags (s : State) :
    (s.squashAll).flags = s.flags := rfl
@[simp] theorem State.squashAll_mem (s : State) :
    (s.squashAll).mem = s.mem := rfl
@[simp] theorem State.squashAll_fRec (s : State) :
    (s.squashAll).fRec = none := rfl
@[simp] theorem State.squashAll_fSquashed (s : State) :
    (s.squashAll).fSquashed = true := rfl
@[simp] theorem State.squashAll_dRec (s : State) :
    (s.squashAll).dRec = none := rfl
@[simp] theorem State.squashAll_dState (s : State) :
    (s.squashAll).dState = .free := rfl
@[simp] theorem State.squashAll_xRec (s : State) :
    (s.squashAll).xRec = none := rfl
@[simp] theorem State.squashAll_xDone (s : State) :
    (s.squashAll).xDone = false := rfl
@[simp] theorem State.squashAll_mRec (s : State) :
    (s.squashAll).mRec = none := rfl
@[simp] theorem State.squashAll_mWaiting (s : State) :
    (s.squashAll).mWaiting = false := rfl
@[simp] theorem State.squashAll_mDone (s : State) :
    (s.squashAll).mDone = false := rfl
@[simp] theorem State.squashAll_wRec (s : State) :
    (s.squashAll).wRec = s.wRec := rfl
@[simp] theorem State.squashAll_clock (s : State) :
    (s.squashAll).clock = s.clock := rfl
@[simp] theorem State.squashAll_haltPending (s : State) :
    (s.squashAll).haltPending = false := rfl
@[simp] theorem State.squashAll_halted (s : State) :
    (s.squashAll).halted = s.halted := rfl
@[simp] theorem State.squashAll_fault (s : State) :
    (s.squashAll).fault = s.fault := rfl
@[simp] theorem State.squashAll_stage (s : State) :
    (s.squashAll).stage = s.stage := rfl

/-! `State.takeFault` -/

@[simp] theorem State.takeFault_params (s : State) (kind : Fault) :
    (s.takeFault kind).params = s.params := rfl
@[simp] theorem State.takeFault_regs (s : State) (kind : Fault) :
    (s.takeFault kind).regs = s.regs := rfl
@[simp] theorem State.takeFault_pc (s : State) (kind : Fault) :
    (s.takeFault kind).pc = s.pc := rfl
@[simp] theorem State.takeFault_flags (s : State) (kind : Fault) :
    (s.takeFault kind).flags = s.flags := rfl
@[simp] theorem State.takeFault_mem (s : State) (kind : Fault) :
    (s.takeFault kind).mem = s.mem := rfl
@[simp] theorem State.takeFault_fRec (s : State) (kind : Fault) :
    (s.takeFault kind).fRec = s.fRec := rfl
@[simp] theorem State.takeFault_fSquashed (s : State) (kind : Fault) :
    (s.takeFault kind).fSquashed = s.fSquashed := rfl
@[simp] theorem State.takeFault_dRec (s : State) (kind : Fault) :
    (s.takeFault kind).dRec = s.dRec := rfl
@[simp] theorem State.takeFault_dState (s : State) (kind : Fault) :
    (s.takeFault kind).dState = s.dState := rfl
@[simp] theorem State.takeFault_xRec (s : State) (kind : Fault) :
    (s.takeFault kind).xRec = s.xRec := rfl
@[simp] theorem State.takeFault_xDone (s : State) (kind : Fault) :
    (s.takeFault kind).xDone = s.xDone := rfl
@[simp] theorem State.takeFault_mRec (s : State) (kind : Fault) :
    (s.takeFault kind).mRec = s.mRec := rfl
@[simp] theorem State.takeFault_mWaiting (s : State) (kind : Fault) :
    (s.takeFault kind).mWaiting = s.mWaiting := rfl
@[simp] theorem State.takeFault_mDone (s : State) (kind : Fault) :
    (s.takeFault kind).mDone = s.mDone := rfl
@[simp] theorem State.takeFault_wRec (s : State) (kind : Fault) :
    (s.takeFault kind).wRec = s.wRec := rfl
@[simp] theorem State.takeFault_clock (s : State) (kind : Fault) :
    (s.takeFault kind).clock = s.clock := rfl
@[simp] theorem State.takeFault_haltPending (s : State) (kind : Fault) :
    (s.takeFault kind).haltPending = s.haltPending := rfl
@[simp] theorem State.takeFault_halted (s : State) (kind : Fault) :
    (s.takeFault kind).halted = s.halted := rfl
@[simp] theorem State.takeFault_fault (s : State) (kind : Fault) :
    (s.takeFault kind).fault = some kind := rfl
@[simp] theorem State.takeFault_stage (s : State) (kind : Fault) :
    (s.takeFault kind).stage = s.stage := rfl

/-! `State.endTick` -/

@[simp] theorem State.endTick_params (s : State) :
    (s.endTick).params = s.params := rfl
@[simp] theorem State.endTick_regs (s : State) :
    (s.endTick).regs = s.regs := rfl
@[simp] theorem State.endTick_pc (s : State) :
    (s.endTick).pc = s.pc := rfl
@[simp] theorem State.endTick_flags (s : State) :
    (s.endTick).flags = s.flags := rfl
@[simp] theorem State.endTick_mem (s : State) :
    (s.endTick).mem = s.mem := rfl
@[simp] theorem State.endTick_fRec (s : State) :
    (s.endTick).fRec = s.fRec := rfl
@[simp] theorem State.endTick_fSquashed (s : State) :
    (s.endTick).fSquashed = s.fSquashed := rfl
@[simp] theorem State.endTick_dRec (s : State) :
    (s.endTick).dRec = s.dRec := rfl
@[simp] theorem State.endTick_dState (s : State) :
    (s.endTick).dState = s.dState := rfl
@[simp] theorem State.endTick_xRec (s : State) :
    (s.endTick).xRec = s.xRec := rfl
@[simp] theorem State.endTick_xDone (s : State) :
    (s.endTick).xDone = s.xDone := rfl
@[simp] theorem State.endTick_mRec (s : State) :
    (s.endTick).mRec = s.mRec := rfl
@[simp] theorem State.endTick_mWaiting (s : State) :
    (s.endTick).mWaiting = s.mWaiting := rfl
@[simp] theorem State.endTick_mDone (s : State) :
    (s.endTick).mDone = s.mDone := rfl
@[simp] theorem State.endTick_wRec (s : State) :
    (s.endTick).wRec = s.wRec := rfl
@[simp] theorem State.endTick_clock (s : State) :
    (s.endTick).clock = s.clock + 1 := rfl
@[simp] theorem State.endTick_haltPending (s : State) :
    (s.endTick).haltPending = s.haltPending := rfl
@[simp] theorem State.endTick_halted (s : State) :
    (s.endTick).halted = (s.halted || (s.haltPending && s.drained)) := rfl
@[simp] theorem State.endTick_fault (s : State) :
    (s.endTick).fault = s.fault := rfl
@[simp] theorem State.endTick_stage (s : State) :
    (s.endTick).stage = .writeBack := rfl

/-! Records -/

@[simp] theorem Record.markFault_fault (rec : Record) (k : Fault) : (rec.markFault k).fault = some k := rfl
@[simp] theorem Record.markFault_writeBack (rec : Record) (k : Fault) :
    (rec.markFault k).writeBack = false := rfl
@[simp] theorem Record.markFault_op (rec : Record) (k : Fault) : (rec.markFault k).op = rec.op := rfl
@[simp] theorem Record.markFault_claims (rec : Record) (k : Fault) :
    (rec.markFault k).claims = rec.claims := rfl
@[simp] theorem Record.markFault_result (rec : Record) (k : Fault) :
    (rec.markFault k).result = rec.result := rfl
@[simp] theorem newRecord_raw (w pc : Word) : (newRecord w pc).raw = w := rfl
@[simp] theorem newRecord_op (w pc : Word) : (newRecord w pc).op = .undecoded := rfl
@[simp] theorem newRecord_pc (w pc : Word) : (newRecord w pc).pc = pc := rfl
@[simp] theorem newRecord_claims (w pc : Word) : (newRecord w pc).claims = [] := rfl
@[simp] theorem newRecord_fault (w pc : Word) : (newRecord w pc).fault = none := rfl
@[simp] theorem claimsOf_none : claimsOf none = [] := rfl
@[simp] theorem claimsOf_some (rec : Record) : claimsOf (some rec) = rec.claims := rfl

/-! The cache's named updates -/

@[simp] theorem Cache.clear_lines (c : Cache) : c.clear.lines = c.lines := rfl
@[simp] theorem Cache.clear_req (c : Cache) : c.clear.req = none := rfl
@[simp] theorem Cache.clear_left (c : Cache) : c.clear.left = 0 := rfl
@[simp] theorem Cache.clear_waitNext (c : Cache) : c.clear.waitNext = false := rfl
@[simp] theorem Cache.putSet_lines (c : Cache) (i : Nat) (ways : List Line) :
    (c.putSet i ways).lines = c.lines.set i ways := rfl
@[simp] theorem Cache.putSet_req (c : Cache) (i : Nat) (ways : List Line) :
    (c.putSet i ways).req = c.req := rfl
@[simp] theorem Cache.putSet_left (c : Cache) (i : Nat) (ways : List Line) :
    (c.putSet i ways).left = c.left := rfl
@[simp] theorem Cache.putSet_waitNext (c : Cache) (i : Nat) (ways : List Line) :
    (c.putSet i ways).waitNext = c.waitNext := rfl

end Sys2Proof.Machine
end

