-- ==== Sys2Proof/Laws/Memory.lean ====
section
/-! SUPPORT. RAM: reading after storing, the canonical form, the service rule, and what each request of the
RAM can do (spec/20_memory.md R60 to R72). -/

namespace Sys2Proof.Machine

/-! ## Bytes -/

theorem RamCells.wfFrom_mono {lo lo' : Nat} {m : RamCells} (h : RamCells.wfFrom lo m = true)
    (hl : lo' ≤ lo) : RamCells.wfFrom lo' m = true := by
  cases m with
  | nil => rfl
  | cons c rest =>
    obtain ⟨k, v⟩ := c
    simp only [RamCells.wfFrom, Bool.and_eq_true, decide_eq_true_eq] at h ⊢
    exact ⟨⟨by omega, h.1.2⟩, h.2⟩

/-- A key below the first listed one reads as 0. -/
theorem RamCells.byte_of_lt {lo a : Nat} {m : RamCells} (h : RamCells.wfFrom lo m = true)
    (ha : a < lo) : m.byte a = 0#8 := by
  induction m generalizing lo with
  | nil => rfl
  | cons c rest ih =>
    obtain ⟨k, v⟩ := c
    simp only [RamCells.wfFrom, Bool.and_eq_true, decide_eq_true_eq] at h
    simp only [RamCells.byte]
    rw [if_neg (by omega)]
    exact ih h.2 (by omega)

theorem RamCells.wfFrom_cons {lo a : Nat} {rest : RamCells} (v : Byte)
    (h : RamCells.wfFrom (a + 1) rest = true) (hl : lo ≤ a) :
    RamCells.wfFrom lo (RamCells.cons a v rest) = true := by
  unfold RamCells.cons
  by_cases hv : v = 0#8
  · rw [if_pos hv]; exact wfFrom_mono h (by omega)
  · rw [if_neg hv]
    simp only [RamCells.wfFrom, Bool.and_eq_true, decide_eq_true_eq, bne_iff_ne]
    exact ⟨⟨hl, hv⟩, h⟩

theorem RamCells.byte_cons {a : Nat} {rest : RamCells} (v : Byte)
    (h : RamCells.wfFrom (a + 1) rest = true) (b : Nat) :
    (RamCells.cons a v rest).byte b = if b = a then v else rest.byte b := by
  unfold RamCells.cons
  by_cases hv : v = 0#8
  · rw [if_pos hv]
    by_cases hb : b = a
    · subst hb; rw [if_pos rfl, hv]; exact byte_of_lt h (by omega)
    · rw [if_neg hb]
  · rw [if_neg hv]
    simp only [RamCells.byte, eq_comm]

/-- A store keeps the canonical form. -/
theorem RamCells.wfFrom_setByte {lo a : Nat} {m : RamCells} (v : Byte)
    (h : RamCells.wfFrom lo m = true) (hl : lo ≤ a) :
    RamCells.wfFrom lo (m.setByte a v) = true := by
  induction m generalizing lo with
  | nil => exact wfFrom_cons v (rest := []) rfl hl
  | cons c rest ih =>
    obtain ⟨k, w⟩ := c
    simp only [RamCells.wfFrom, Bool.and_eq_true, decide_eq_true_eq] at h
    simp only [RamCells.setByte]
    split
    · next hk =>
      simp only [RamCells.wfFrom, Bool.and_eq_true, decide_eq_true_eq]
      exact ⟨⟨h.1.1, h.1.2⟩, ih h.2 (by omega)⟩
    · split
      · next hk => subst hk; exact wfFrom_cons v h.2 hl
      · refine wfFrom_cons v ?_ hl
        simp only [RamCells.wfFrom, Bool.and_eq_true, decide_eq_true_eq]
        exact ⟨⟨by omega, h.1.2⟩, h.2⟩

/-- A byte reads what was last stored at its key, and every other byte is left alone. -/
theorem RamCells.byte_setByte {lo : Nat} {m : RamCells} (a : Nat) (v : Byte)
    (h : RamCells.wfFrom lo m = true) (b : Nat) :
    (m.setByte a v).byte b = if b = a then v else m.byte b := by
  induction m generalizing lo with
  | nil => exact byte_cons v (rest := []) rfl b
  | cons c rest ih =>
    obtain ⟨k, w⟩ := c
    simp only [RamCells.wfFrom, Bool.and_eq_true, decide_eq_true_eq] at h
    simp only [RamCells.setByte]
    split
    · next hk =>
      simp only [RamCells.byte, ih h.2]
      by_cases hb : b = a
      · rw [if_pos hb, if_pos hb, if_neg (by omega)]
      · rw [if_neg hb, if_neg hb]
    · split
      · next hk =>
        subst hk
        rw [byte_cons v h.2]
        by_cases hb : b = k
        · rw [if_pos hb, if_pos hb]
        · rw [if_neg hb, if_neg hb]; simp only [RamCells.byte]; rw [if_neg (Ne.symm hb)]
      · refine byte_cons v ?_ b
        simp only [RamCells.wfFrom, Bool.and_eq_true, decide_eq_true_eq]
        exact ⟨⟨by omega, h.1.2⟩, h.2⟩

/-- Equal memories are equal data: the canonical form is unique. -/
theorem RamCells.eq_of_byte {lo : Nat} {m n : RamCells} (hm : RamCells.wfFrom lo m = true)
    (hn : RamCells.wfFrom lo n = true) (h : ∀ a, m.byte a = n.byte a) : m = n := by
  induction m generalizing lo n with
  | nil =>
    cases n with
    | nil => rfl
    | cons c rest =>
      obtain ⟨k, v⟩ := c
      simp only [RamCells.wfFrom, Bool.and_eq_true, bne_iff_ne] at hn
      have := h k
      simp only [RamCells.byte, if_true] at this
      exact absurd this.symm hn.1.2
  | cons c rest ih =>
    obtain ⟨k, v⟩ := c
    cases n with
    | nil =>
      simp only [RamCells.wfFrom, Bool.and_eq_true, bne_iff_ne] at hm
      have := h k
      simp only [RamCells.byte, if_true] at this
      exact absurd this hm.1.2
    | cons d rest' =>
      obtain ⟨k', v'⟩ := d
      simp only [RamCells.wfFrom, Bool.and_eq_true, bne_iff_ne, decide_eq_true_eq] at hm hn
      have hk : k = k' := by
        by_contra hne
        rcases Nat.lt_or_gt_of_ne hne with hlt | hlt
        · have := h k
          simp only [RamCells.byte, if_true] at this
          rw [if_neg (by omega), byte_of_lt hn.2 (by omega)] at this
          exact hm.1.2 this
        · have := h k'
          simp only [RamCells.byte, if_true] at this
          rw [if_neg (by omega), byte_of_lt hm.2 (by omega)] at this
          exact hn.1.2 this.symm
      subst hk
      have hv : v = v' := by simpa [RamCells.byte] using h k
      subst hv
      congr 1
      refine ih hm.2 hn.2 fun a => ?_
      have := h a
      simp only [RamCells.byte] at this
      by_cases ha : k = a
      · subst ha; rw [byte_of_lt hm.2 (by omega), byte_of_lt hn.2 (by omega)]
      · simpa [ha] using this

/-! ## Words -/

theorem RamCells.wf_setByte {m : RamCells} (h : m.wf = true) (a : Nat) (v : Byte) :
    (m.setByte a v).wf = true := wfFrom_setByte v h (Nat.zero_le a)

theorem RamCells.wf_setWord {m : RamCells} (h : m.wf = true) (a : Nat) (v : Word) :
    (m.setWord a v).wf = true :=
  wf_setByte (wf_setByte (wf_setByte (wf_setByte h _ _) _ _) _ _) _ _

/-- A word's bytes put back together (R62). -/
theorem word_of_bytes (v : Word) :
    (v.extractLsb' 24 8 ++ (v.extractLsb' 16 8 ++ (v.extractLsb' 8 8 ++ v.extractLsb' 0 8)) : Word)
      = v := by
  ext i hi
  simp only [BitVec.getElem_append, BitVec.getElem_extractLsb']
  rw [← BitVec.getLsbD_eq_getElem]
  split_ifs <;> first | rfl | (congr 1; omega)

/-- The byte at a key after storing a word. -/
theorem RamCells.byte_setWord {m : RamCells} (h : m.wf = true) (a : Nat) (v : Word) (b : Nat) :
    (m.setWord a v).byte b =
      if b = 4 * a + 3 then v.extractLsb' 24 8
      else if b = 4 * a + 2 then v.extractLsb' 16 8
      else if b = 4 * a + 1 then v.extractLsb' 8 8
      else if b = 4 * a then v.extractLsb' 0 8
      else m.byte b := by
  have h0 := wf_setByte h (4 * a) (v.extractLsb' 0 8)
  have h1 := wf_setByte h0 (4 * a + 1) (v.extractLsb' 8 8)
  have h2 := wf_setByte h1 (4 * a + 2) (v.extractLsb' 16 8)
  unfold RamCells.setWord
  rw [byte_setByte _ _ h2, byte_setByte _ _ h1, byte_setByte _ _ h0, byte_setByte _ _ h]

/-- A word reads what was last stored at its address, and every other word is left alone (R71). -/
theorem RamCells.word_setWord {m : RamCells} (h : m.wf = true) (a b : Nat) (v : Word) :
    (m.setWord a v).word b = if b = a then v else m.word b := by
  unfold RamCells.word
  simp only [byte_setWord h]
  by_cases hb : b = a
  · subst hb
    simp only [if_true]
    rw [if_neg (show ¬4 * b + 2 = 4 * b + 3 by omega), if_neg (show ¬4 * b + 1 = 4 * b + 3 by omega),
      if_neg (show ¬4 * b + 1 = 4 * b + 2 by omega), if_neg (show ¬4 * b = 4 * b + 3 by omega),
      if_neg (show ¬4 * b = 4 * b + 2 by omega), if_neg (show ¬4 * b = 4 * b + 1 by omega)]
    exact word_of_bytes v
  · rw [if_neg hb]
    have hne : ∀ i j, i < 4 → j < 4 → ¬4 * b + i = 4 * a + j := by intro i j hi hj; omega
    have h3 := hne 3; have h2 := hne 2; have h1 := hne 1; have h0 := hne 0
    simp only [Nat.add_zero] at h0
    rw [if_neg (h3 3 (by omega) (by omega)), if_neg (h3 2 (by omega) (by omega)),
      if_neg (h3 1 (by omega) (by omega)), if_neg (by simpa using h3 0 (by omega) (by omega)),
      if_neg (h2 3 (by omega) (by omega)), if_neg (h2 2 (by omega) (by omega)),
      if_neg (h2 1 (by omega) (by omega)), if_neg (by simpa using h2 0 (by omega) (by omega)),
      if_neg (h1 3 (by omega) (by omega)), if_neg (h1 2 (by omega) (by omega)),
      if_neg (h1 1 (by omega) (by omega)), if_neg (by simpa using h1 0 (by omega) (by omega)),
      if_neg (h0 3 (by omega) (by omega)), if_neg (h0 2 (by omega) (by omega)),
      if_neg (h0 1 (by omega) (by omega)), if_neg (by simpa using h0 0 (by omega) (by omega))]

/-- Reset's empty memory is in canonical form, and reads 0 everywhere. -/
theorem reset_cells_wf : State.reset.mem.ram.cells.wf = true := rfl

@[simp] theorem RamCells.word_nil (a : Nat) : RamCells.word [] a = 0#32 := by
  unfold RamCells.word; simp only [RamCells.byte]; decide

/-- Loading an image keeps the canonical form. -/
theorem RamCells.wf_loadWords {m : RamCells} (h : m.wf = true) (a : Nat) (ws : List Word) :
    (m.loadWords a ws).wf = true := by
  induction ws generalizing m a with
  | nil => exact h
  | cons w rest ih => exact ih (wf_setWord h a w) (a + 1)

/-! ## The service rule -/

/-- All that a RAM request can do to the service slot (R68). -/
theorem Ram.service_cases {r r' : Ram} {d : Nat} {who : Requester} {g : Grant}
    (h : r.service d who = (g, r')) :
    (g = .ready ∧ r.req = none ∧ d = 0 ∧ r' = r) ∨
    (g = .wait ∧ r.req = none ∧ d ≠ 0 ∧ r' = { r with req := some who, left := d }) ∨
    (g = .ready ∧ r.req = some who ∧ r.left ≤ 1 ∧ r' = { r with req := none, left := 0 }) ∨
    (g = .wait ∧ r.req = some who ∧ 1 < r.left ∧ r' = { r with left := r.left - 1 }) ∨
    (g = .wait ∧ r.req ≠ none ∧ r.req ≠ some who ∧ r' = r) := by
  unfold Ram.service at h
  split at h
  · next hq =>
    split at h
    · next hd => cases h; exact .inl ⟨rfl, hq, hd, rfl⟩
    · next hd => cases h; exact .inr (.inl ⟨rfl, hq, hd, rfl⟩)
  · next holder hq =>
    split at h
    · next hw =>
      subst hw
      split at h
      · cases h; exact .inr (.inr (.inl ⟨rfl, hq, by omega, rfl⟩))
      · cases h; exact .inr (.inr (.inr (.inl ⟨rfl, hq, by omega, rfl⟩)))
    · next hw =>
      cases h
      exact .inr (.inr (.inr (.inr ⟨rfl, by simp [hq], by simp [hq, hw], rfl⟩)))

/-- The service rule never touches the RAM's contents. -/
theorem Ram.service_cells (r : Ram) (d : Nat) (who : Requester) :
    (r.service d who).2.cells = r.cells := by
  unfold Ram.service; repeat' split
  all_goals rfl

/-- All that a cache request can do to the cache's service slot (R76). -/
theorem Cache.service_cases {c c' : Cache} {d : Nat} {who : Requester} {g : Grant}
    (h : c.service d who = (g, c')) :
    (c.req = none ∧ g = (if d = 0 then .ready else .wait) ∧
      c' = { c with req := some who, left := d }) ∨
    (c.req = some who ∧ c.waitNext = true ∧ g = .ready ∧ c' = c) ∨
    (c.req = some who ∧ c.waitNext = false ∧ g = (if c.left ≤ 1 then .ready else .wait) ∧
      c' = { c with left := c.left - 1 }) ∨
    (c.req ≠ none ∧ c.req ≠ some who ∧ g = .wait ∧ c' = c) := by
  unfold Cache.service at h
  split at h
  · next hq => cases h; exact .inl ⟨hq, rfl, rfl⟩
  · next holder hq =>
    split at h
    · next hw =>
      subst hw
      split at h
      · next hn => cases h; exact .inr (.inl ⟨hq, hn, rfl, rfl⟩)
      · next hn =>
        cases h
        refine .inr (.inr (.inl ⟨hq, by simpa using hn, ?_, rfl⟩))
        by_cases hl : c.left ≤ 1
        · rw [if_pos (by omega), if_pos hl]
        · rw [if_neg (by omega), if_neg hl]
    · next hw => cases h; exact .inr (.inr (.inr ⟨by simp [hq], by simp [hq, hw], rfl, rfl⟩))

/-- The cache's service rule never touches its lines. -/
theorem Cache.service_lines (c : Cache) (d : Nat) (who : Requester) :
    (c.service d who).2.lines = c.lines := by
  unfold Cache.service; repeat' split
  all_goals rfl

/-! ## RAM requests -/

/-- `RamRead` (R69): it waits, or it answers the word; RAM contents and cache are left alone. -/
theorem MemSys.ramRead_cases {p : Params} {m m' : MemSys} {a : Nat} {who : Requester}
    {r : Answer Word} (h : m.ramRead p a who = (r, m')) :
    m'.cache = m.cache ∧ m'.ram.cells = m.ram.cells ∧
      (r = .wait ∨ r = .success (m.ram.cells.word (a % p.ramWords))) := by
  unfold MemSys.ramRead at h
  have hc := m.ram.service_cells p.ramDelay who
  split at h <;> next hs => cases h; rw [hs] at hc; simp_all

/-- `RamReadMulti` (R70). -/
theorem MemSys.ramReadMulti_cases {p : Params} {m m' : MemSys} {a offset : Nat} {who : Requester}
    {r : Answer (List Word)} (h : m.ramReadMulti p a offset who = (r, m')) :
    m'.cache = m.cache ∧ m'.ram.cells = m.ram.cells ∧
      (r = .wait ∨
        r = .success
          ((List.range p.lineWords).map fun i => m.ram.cells.word ((a - offset + i) % p.ramWords))) := by
  unfold MemSys.ramReadMulti at h
  have hc := m.ram.service_cells p.ramDelay who
  split at h <;> next hs => cases h; rw [hs] at hc; simp_all

/-- `RamWrite` (R71): it waits and leaves RAM alone, or it stores the word. -/
theorem MemSys.ramWrite_cases {p : Params} {m m' : MemSys} {a : Nat} {who : Requester} {v : Word}
    {r : Answer Unit} (h : m.ramWrite p a who v = (r, m')) :
    m'.cache = m.cache ∧
      ((r = .wait ∧ m'.ram.cells = m.ram.cells) ∨
        (r = .success () ∧ m'.ram.cells = m.ram.cells.setWord (a % p.ramWords) v)) := by
  unfold MemSys.ramWrite at h
  have hc := m.ram.service_cells p.ramDelay who
  split at h <;> next hs => cases h; rw [hs] at hc; simp_all

end Sys2Proof.Machine
end

