-- ==== Sys2Proof/Laws/Cache.lean ====
section
/-! SUPPORT. The cache controller: what looking up, touching and choosing a victim give, and what each cache
request can do (spec/20_memory.md R74 to R80). -/

namespace Sys2Proof.Machine

/-! ## Ways of a set -/

@[simp] theorem touch_length (ways : List Line) (w : Nat) : (touch ways w).length = ways.length := by
  unfold touch; split <;> simp

/-- `touch` changes ranks only. -/
theorem touch_getElem? (ways : List Line) (w i : Nat) :
    ((touch ways w)[i]?).map (fun l => (l.valid, l.tag, l.data)) =
      (ways[i]?).map (fun l => (l.valid, l.tag, l.data)) := by
  unfold touch
  split
  · rfl
  · rw [List.getElem?_modify, List.getElem?_map]
    cases ways[i]? with
    | none => simp
    | some l =>
      simp only [Option.map_some, Option.map_eq_map]
      split <;> split <;> rfl

/-- The rank of every way after `touch` (R77): the touched way has 0, the ways that ranked below it move
up by one, the others stay. -/
theorem rankOf_touch {ways : List Line} {w i : Nat} (hi : i < ways.length) :
    rankOf (touch ways w) i =
      if i = w then 0
      else if rankOf ways i < rankOf ways w then rankOf ways i + 1 else rankOf ways i := by
  unfold touch
  by_cases h0 : rankOf ways w = 0
  · rw [if_pos h0]
    by_cases hw : i = w
    · subst hw; rw [if_pos rfl, h0]
    · rw [if_neg hw, h0, if_neg (by omega)]
  · rw [if_neg h0]
    generalize rankOf ways w = p at *
    simp only [rankOf, List.getElem?_modify, List.getElem?_map, List.getElem?_eq_getElem hi,
      Option.map_some, Option.getD_some, Option.map_eq_map]
    by_cases hw : i = w
    · subst hw; simp
    · rw [if_neg hw, if_neg (fun h : w = i => hw h.symm)]
      split <;> rfl

theorem wordOf_touch (ways : List Line) (w i offset : Nat) :
    wordOf (touch ways w) i offset = wordOf ways i offset := by
  have h := touch_getElem? ways w i
  unfold wordOf
  cases h1 : (touch ways w)[i]? <;> cases h2 : ways[i]? <;> simp [h1, h2] at h
  · rfl
  · simp [h.2.2]

/-- Whether a way holds a tag does not depend on ranks. -/
theorem hitWay_touch (ways : List Line) (w t : Nat) : hitWay (touch ways w) t = hitWay ways t := by
  have h := touch_getElem? ways w
  have key : ∀ (a b : List Line),
      (∀ i : Nat, (a[i]?).map (fun l : Line => (l.valid, l.tag, l.data)) =
        (b[i]?).map (fun l : Line => (l.valid, l.tag, l.data))) → hitWay a t = hitWay b t := by
    intro a
    induction a with
    | nil =>
      intro b hb
      cases b with
      | nil => rfl
      | cons l rest => have := hb 0; simp at this
    | cons x xs ih =>
      intro b hb
      cases b with
      | nil => have := hb 0; simp at this
      | cons y ys =>
        have h0 := hb 0
        simp only [List.getElem?_cons_zero, Option.map_some, Option.some.injEq, Prod.mk.injEq] at h0
        have ht := ih ys fun i => by simpa using hb (i + 1)
        unfold hitWay at ht ⊢
        simp only [List.findIdx?_cons, h0.1, h0.2.1, ht]
  exact key _ _ h

/-- A hit names a way of the set that is valid and holds the tag (R79 step 2). -/
theorem hitWay_some {ways : List Line} {t w : Nat} (h : hitWay ways t = some w) :
    ∃ l, ways[w]? = some l ∧ l.valid = true ∧ l.tag = t := by
  unfold hitWay at h
  rw [List.findIdx?_eq_some_iff_getElem] at h
  obtain ⟨hlt, hp, _⟩ := h
  refine ⟨ways[w], List.getElem?_eq_getElem hlt, ?_⟩
  simpa using hp

theorem hitWay_lt {ways : List Line} {t w : Nat} (h : hitWay ways t = some w) : w < ways.length := by
  obtain ⟨l, hl, _⟩ := hitWay_some h
  exact (List.getElem?_eq_some_iff.1 hl).1

/-- No way holds the tag. -/
theorem hitWay_none {ways : List Line} {t : Nat} :
    hitWay ways t = none ↔ ∀ l ∈ ways, ¬(l.valid = true ∧ l.tag = t) := by
  unfold hitWay; simp [List.findIdx?_eq_none_iff]

theorem exists_maxRank {ways : List Line} (h : ways ≠ []) : ∃ l ∈ ways, l.lru = maxRank ways := by
  induction ways with
  | nil => exact absurd rfl h
  | cons l rest ih =>
    simp only [maxRank, List.foldr_cons]
    by_cases hr : rest = []
    · subst hr; exact ⟨l, by simp, by simp⟩
    · obtain ⟨k, hk, he⟩ := ih hr
      rcases Nat.le_total l.lru (rest.foldr (fun l m => max l.lru m) 0) with hle | hle
      · exact ⟨k, List.mem_cons_of_mem _ hk, by rw [Nat.max_eq_right hle]; exact he⟩
      · exact ⟨l, List.mem_cons_self, by rw [Nat.max_eq_left hle]⟩

/-- A set with a way has a victim (R78). -/
theorem victim_lt {ways : List Line} (h : ways ≠ []) : victim ways < ways.length := by
  obtain ⟨l, hl, he⟩ := exists_maxRank h
  exact List.findIdx_lt_length_of_exists ⟨l, hl, by simp [he]⟩

/-- The victim has the largest rank (R78). -/
theorem victim_rank {ways : List Line} (h : ways ≠ []) :
    (ways[victim ways]'(victim_lt h)).lru = maxRank ways := by
  have := List.findIdx_getElem (xs := ways) (p := fun l : Line => l.lru == maxRank ways) (w := victim_lt h)
  simp only [beq_iff_eq] at this
  exact this

@[simp] theorem fillWay_length (ways : List Line) (t : Nat) (line : List Word) :
    (fillWay ways t line).length = ways.length := by unfold fillWay; simp

@[simp] theorem storeWay_length (ways : List Line) (t offset : Nat) (v : Word) :
    (storeWay ways t offset v).length = ways.length := by
  unfold storeWay storeHit storeMiss; split <;> simp

/-! ## Requests -/

/-- `readThrough` (R79 steps 2 to 4): a hit, a refused fill, or a fill; the RAM's contents stay. -/
theorem MemSys.readThrough_cases {p : Params} {m m' : MemSys} {a : Nat} {r : Answer Word}
    (h : m.readThrough p a = (r, m')) :
    m'.ram.cells = m.ram.cells ∧
    ((∃ w, hitWay (m.cache.set (indexOf p a)) (tagOf p a) = some w ∧
        r = .success (wordOf (m.cache.set (indexOf p a)) w (offsetOf p a)) ∧
        m' = { m with
          cache := (m.cache.putSet (indexOf p a) (touch (m.cache.set (indexOf p a)) w)).clear }) ∨
     (hitWay (m.cache.set (indexOf p a)) (tagOf p a) = none ∧ r = .waitNextLevel ∧
        m'.cache = { m.cache with waitNext := true }) ∨
     (hitWay (m.cache.set (indexOf p a)) (tagOf p a) = none ∧
        ∃ line, line = ((List.range p.lineWords).map fun i =>
            m.ram.cells.word ((a - offsetOf p a + i) % p.ramWords)) ∧
          r = .success (line.getD (offsetOf p a) 0#32) ∧
          m'.cache = (m.cache.putSet (indexOf p a)
            (fillWay (m.cache.set (indexOf p a)) (tagOf p a) line)).clear)) := by
  unfold MemSys.readThrough at h
  simp only at h
  split at h
  · next w hw => cases h; exact ⟨rfl, .inl ⟨w, hw, rfl, rfl⟩⟩
  · next hw =>
    rcases hm : m.ramReadMulti p a (offsetOf p a) .cache with ⟨ans, m1⟩
    obtain ⟨hc, hr, hans⟩ := MemSys.ramReadMulti_cases hm
    rw [hm] at h
    rcases hans with rfl | rfl
    · cases h; exact ⟨hr, .inr (.inl ⟨hw, rfl, by rw [hc]⟩)⟩
    · cases h; exact ⟨hr, .inr (.inr ⟨hw, _, rfl, rfl, by rw [hc]⟩)⟩

/-- `writeThrough` (R80 steps 2 and 3): the line is updated at once, the RAM word when the RAM grants it. -/
theorem MemSys.writeThrough_cases {p : Params} {m m' : MemSys} {a : Nat} {v : Word}
    {r : Answer Unit} (h : m.writeThrough p a v = (r, m')) :
    m'.cache.lines =
        m.cache.lines.set (indexOf p a)
          (storeWay (m.cache.set (indexOf p a)) (tagOf p a) (offsetOf p a) v) ∧
    ((r = .waitNextLevel ∧ m'.ram.cells = m.ram.cells ∧ m'.cache.waitNext = true ∧
        m'.cache.req = m.cache.req) ∨
     (r = .success () ∧ m'.ram.cells = m.ram.cells.setWord (a % p.ramWords) v ∧
        m'.cache.req = none ∧ m'.cache.left = 0 ∧ m'.cache.waitNext = false)) := by
  unfold MemSys.writeThrough at h
  simp only at h
  generalize hb : MemSys.ramWrite p _ a .cache v = res at h
  obtain ⟨ans, m1⟩ := res
  obtain ⟨hc, hans⟩ := MemSys.ramWrite_cases hb
  rcases hans with ⟨rfl, hr⟩ | ⟨rfl, hr⟩
  · cases h; simp [hc, hr]
  · cases h; simp [hc, hr]

/-- No read changes the RAM's contents (R64, R79). -/
theorem MemSys.cacheRead_cells {p : Params} {m m' : MemSys} {a : Word} {who : Requester}
    {r : Answer Word} (h : m.cacheRead p a who = (r, m')) : m'.ram.cells = m.ram.cells := by
  unfold MemSys.cacheRead at h
  simp only at h
  split at h
  · exact (MemSys.ramRead_cases h).2.1
  · split at h
    · cases h; rfl
    · exact (MemSys.readThrough_cases h).1

/-- A write changes the RAM's contents exactly when it is granted, and then the one word (R71, R80). -/
theorem MemSys.cacheWrite_cells {p : Params} {m m' : MemSys} {a : Word} {who : Requester}
    {v : Word} {r : Answer Unit} (h : m.cacheWrite p a who v = (r, m')) :
    (r = .success () ∧ m'.ram.cells = m.ram.cells.setWord (a.toNat % p.ramWords) v) ∨
    (r ≠ .success () ∧ m'.ram.cells = m.ram.cells) := by
  unfold MemSys.cacheWrite at h
  simp only at h
  split at h
  · rcases (MemSys.ramWrite_cases h).2 with ⟨rfl, hr⟩ | ⟨rfl, hr⟩
    · exact .inr ⟨by simp, hr⟩
    · exact .inl ⟨rfl, by simpa using hr⟩
  · split at h
    · cases h; exact .inr ⟨by simp, rfl⟩
    · rcases (MemSys.writeThrough_cases h).2 with ⟨rfl, hr, _⟩ | ⟨rfl, hr, _⟩
      · exact .inr ⟨by simp, hr⟩
      · exact .inl ⟨rfl, by simpa using hr⟩

/-- A write keeps the RAM's canonical form. -/
theorem MemSys.cacheWrite_wf {p : Params} {m m' : MemSys} {a : Word} {who : Requester} {v : Word}
    {r : Answer Unit} (h : m.cacheWrite p a who v = (r, m')) (hw : m.ram.cells.wf = true) :
    m'.ram.cells.wf = true := by
  rcases MemSys.cacheWrite_cells h with ⟨_, hc⟩ | ⟨_, hc⟩ <;> rw [hc]
  · exact RamCells.wf_setWord hw _ _
  · exact hw

/-- A read keeps the RAM's canonical form. -/
theorem MemSys.cacheRead_wf {p : Params} {m m' : MemSys} {a : Word} {who : Requester}
    {r : Answer Word} (h : m.cacheRead p a who = (r, m')) (hw : m.ram.cells.wf = true) :
    m'.ram.cells.wf = true := by
  rw [MemSys.cacheRead_cells h]; exact hw

/-- In bypass a request reaches the RAM with the caller's own tag (R75). -/
theorem MemSys.cacheRead_bypass {p : Params} (h : p.cached = false) (m : MemSys) (a : Word)
    (who : Requester) : m.cacheRead p a who = m.ramRead p (a.toNat % p.ramWords) who := by
  unfold MemSys.cacheRead; simp [h]

theorem MemSys.cacheWrite_bypass {p : Params} (h : p.cached = false) (m : MemSys) (a : Word)
    (who : Requester) (v : Word) :
    m.cacheWrite p a who v = m.ramWrite p (a.toNat % p.ramWords) who v := by
  unfold MemSys.cacheWrite; simp [h]

end Sys2Proof.Machine
end

