-- ==== Sys2Proof/Laws/Codec.lean ====
section
/-! SUPPORT. The fields of the four formats' words (spec/30_encoding.md R111 to R115): what each `pack`
function puts into a field, the field function reads back. -/

namespace Sys2Proof

/-- A field inside the low part of an appended word. -/
theorem extractLsb'_append_low {n m : Nat} (a : BitVec n) (b : BitVec m) (start len : Nat)
    (h : start + len ≤ m) : (a ++ b).extractLsb' start len = b.extractLsb' start len := by
  apply BitVec.eq_of_getLsbD_eq
  intro i hi
  simp only [BitVec.getLsbD_extractLsb', BitVec.getLsbD_append, hi, decide_true, Bool.true_and]
  rw [if_pos (by omega)]

/-- A field inside the high part of an appended word. -/
theorem extractLsb'_append_high {n m : Nat} (a : BitVec n) (b : BitVec m) (start len : Nat)
    (h : m ≤ start) : (a ++ b).extractLsb' start len = a.extractLsb' (start - m) len := by
  apply BitVec.eq_of_getLsbD_eq
  intro i hi
  simp only [BitVec.getLsbD_extractLsb', BitVec.getLsbD_append, hi, decide_true, Bool.true_and]
  rw [if_neg (by omega), show start + i - m = start - m + i by omega]

/-- The whole of a bit vector as a field. -/
theorem extractLsb'_all {n : Nat} (a : BitVec n) : a.extractLsb' 0 n = a := by
  apply BitVec.eq_of_getLsbD_eq
  intro i hi
  simp [hi]

/-- The low part of an appended word as a field. -/
theorem extractLsb'_append_first {n m : Nat} (a : BitVec n) (b : BitVec m) :
    (a ++ b).extractLsb' 0 m = b := by
  rw [extractLsb'_append_low a b 0 m (by omega), extractLsb'_all]

/-! ## RegImm (R112) -/

@[simp] theorem fieldDtype_packRegImm (alu : BitVec 4) (rd : Reg) (imm : Imm16) :
    fieldDtype (packRegImm alu rd imm) = 0b01#2 := by
  unfold fieldDtype packRegImm
  repeat rw [extractLsb'_append_low _ _ _ _ (by decide)]
  rfl

@[simp] theorem fieldOptype_packRegImm (alu : BitVec 4) (rd : Reg) (imm : Imm16) :
    fieldOptype (packRegImm alu rd imm) = 0b00#2 := by
  unfold fieldOptype packRegImm
  repeat rw [extractLsb'_append_low _ _ _ _ (by decide)]
  rfl

@[simp] theorem fieldReg_packRegImm (alu : BitVec 4) (rd : Reg) (imm : Imm16) :
    fieldReg (packRegImm alu rd imm) = rd := by
  unfold fieldReg packRegImm
  repeat rw [extractLsb'_append_low _ _ _ _ (by decide)]
  rw [extractLsb'_append_high _ _ _ _ (by decide)]
  exact extractLsb'_all rd

@[simp] theorem fieldAlu_packRegImm (alu : BitVec 4) (rd : Reg) (imm : Imm16) :
    fieldAlu (packRegImm alu rd imm) = alu := by
  unfold fieldAlu packRegImm
  repeat rw [extractLsb'_append_low _ _ _ _ (by decide)]
  rw [extractLsb'_append_high _ _ _ _ (by decide)]
  exact extractLsb'_all alu

@[simp] theorem fieldImm_packRegImm (alu : BitVec 4) (rd : Reg) (imm : Imm16) :
    fieldImm (packRegImm alu rd imm) = imm := by
  unfold fieldImm packRegImm
  rw [extractLsb'_append_high _ _ _ _ (by decide)]
  exact extractLsb'_all imm

/-! ## RegReg (R113) -/

@[simp] theorem fieldDtype_packRegReg (alu : BitVec 4) (rd rs : Reg) :
    fieldDtype (packRegReg alu rd rs) = 0b01#2 := by
  unfold fieldDtype packRegReg
  repeat rw [extractLsb'_append_low _ _ _ _ (by decide)]
  rfl

@[simp] theorem fieldOptype_packRegReg (alu : BitVec 4) (rd rs : Reg) :
    fieldOptype (packRegReg alu rd rs) = 0b01#2 := by
  unfold fieldOptype packRegReg
  repeat rw [extractLsb'_append_low _ _ _ _ (by decide)]
  rfl

@[simp] theorem fieldReg_packRegReg (alu : BitVec 4) (rd rs : Reg) :
    fieldReg (packRegReg alu rd rs) = rd := by
  unfold fieldReg packRegReg
  repeat rw [extractLsb'_append_low _ _ _ _ (by decide)]
  rw [extractLsb'_append_high _ _ _ _ (by decide)]
  exact extractLsb'_all rd

@[simp] theorem fieldAlu_packRegReg (alu : BitVec 4) (rd rs : Reg) :
    fieldAlu (packRegReg alu rd rs) = alu := by
  unfold fieldAlu packRegReg
  repeat rw [extractLsb'_append_low _ _ _ _ (by decide)]
  rw [extractLsb'_append_high _ _ _ _ (by decide)]
  exact extractLsb'_all alu

@[simp] theorem fieldRs_packRegReg (alu : BitVec 4) (rd rs : Reg) :
    fieldRs (packRegReg alu rd rs) = rs := by
  unfold fieldRs packRegReg
  repeat rw [extractLsb'_append_low _ _ _ _ (by decide)]
  rw [extractLsb'_append_high _ _ _ _ (by decide)]
  exact extractLsb'_all rs

/-! ## LoadStore (R114) -/

@[simp] theorem fieldDtype_packLoadStore (mode : BitVec 2) (rd rm : Reg) (imm : Imm16) :
    fieldDtype (packLoadStore mode rd rm imm) = 0b01#2 := by
  unfold fieldDtype packLoadStore
  repeat rw [extractLsb'_append_low _ _ _ _ (by decide)]
  rfl

@[simp] theorem fieldOptype_packLoadStore (mode : BitVec 2) (rd rm : Reg) (imm : Imm16) :
    fieldOptype (packLoadStore mode rd rm imm) = 0b10#2 := by
  unfold fieldOptype packLoadStore
  repeat rw [extractLsb'_append_low _ _ _ _ (by decide)]
  rfl

@[simp] theorem fieldReg_packLoadStore (mode : BitVec 2) (rd rm : Reg) (imm : Imm16) :
    fieldReg (packLoadStore mode rd rm imm) = rd := by
  unfold fieldReg packLoadStore
  repeat rw [extractLsb'_append_low _ _ _ _ (by decide)]
  rw [extractLsb'_append_high _ _ _ _ (by decide)]
  exact extractLsb'_all rd

@[simp] theorem fieldMemMode_packLoadStore (mode : BitVec 2) (rd rm : Reg) (imm : Imm16) :
    fieldMemMode (packLoadStore mode rd rm imm) = mode := by
  unfold fieldMemMode packLoadStore
  repeat rw [extractLsb'_append_low _ _ _ _ (by decide)]
  rw [extractLsb'_append_high _ _ _ _ (by decide)]
  exact extractLsb'_all mode

@[simp] theorem fieldRMem_packLoadStore (mode : BitVec 2) (rd rm : Reg) (imm : Imm16) :
    fieldRMem (packLoadStore mode rd rm imm) = rm := by
  unfold fieldRMem packLoadStore
  repeat rw [extractLsb'_append_low _ _ _ _ (by decide)]
  rw [extractLsb'_append_high _ _ _ _ (by decide)]
  exact extractLsb'_all rm

@[simp] theorem fieldImm_packLoadStore (mode : BitVec 2) (rd rm : Reg) (imm : Imm16) :
    fieldImm (packLoadStore mode rd rm imm) = imm := by
  unfold fieldImm packLoadStore
  rw [extractLsb'_append_high _ _ _ _ (by decide)]
  exact extractLsb'_all imm

/-! ## Control (R115) -/

@[simp] theorem fieldDtype_packControl (mode : BitVec 3) (flag : BitVec 4) (rm : Reg) (imm : Imm16) :
    fieldDtype (packControl mode flag rm imm) = 0b01#2 := by
  unfold fieldDtype packControl
  repeat rw [extractLsb'_append_low _ _ _ _ (by decide)]
  rfl

@[simp] theorem fieldOptype_packControl (mode : BitVec 3) (flag : BitVec 4) (rm : Reg)
    (imm : Imm16) : fieldOptype (packControl mode flag rm imm) = 0b11#2 := by
  unfold fieldOptype packControl
  repeat rw [extractLsb'_append_low _ _ _ _ (by decide)]
  rfl

@[simp] theorem fieldReg_packControl (mode : BitVec 3) (flag : BitVec 4) (rm : Reg) (imm : Imm16) :
    fieldReg (packControl mode flag rm imm) = rm := by
  unfold fieldReg packControl
  repeat rw [extractLsb'_append_low _ _ _ _ (by decide)]
  rw [extractLsb'_append_high _ _ _ _ (by decide)]
  exact extractLsb'_all rm

@[simp] theorem fieldAlu_packControl (mode : BitVec 3) (flag : BitVec 4) (rm : Reg) (imm : Imm16) :
    fieldAlu (packControl mode flag rm imm) = flag := by
  unfold fieldAlu packControl
  repeat rw [extractLsb'_append_low _ _ _ _ (by decide)]
  rw [extractLsb'_append_high _ _ _ _ (by decide)]
  exact extractLsb'_all flag

@[simp] theorem fieldCtrlMode_packControl (mode : BitVec 3) (flag : BitVec 4) (rm : Reg)
    (imm : Imm16) : fieldCtrlMode (packControl mode flag rm imm) = mode := by
  unfold fieldCtrlMode packControl
  repeat rw [extractLsb'_append_low _ _ _ _ (by decide)]
  rw [extractLsb'_append_high _ _ _ _ (by decide)]
  exact extractLsb'_all mode

@[simp] theorem fieldImm_packControl (mode : BitVec 3) (flag : BitVec 4) (rm : Reg) (imm : Imm16) :
    fieldImm (packControl mode flag rm imm) = imm := by
  unfold fieldImm packControl
  rw [extractLsb'_append_high _ _ _ _ (by decide)]
  exact extractLsb'_all imm

end Sys2Proof
end

