-- ==== Sys2Proof/Laws/PerInstr.lean ====
section
/-! SUPPORT. Facts stated per instruction: every instruction's word is odd, so none is the zero word that
Fetch skips (spec/30_encoding.md R127, spec/70_reset_and_hazards.md R355). -/

namespace Sys2Proof

/-- Bit 0 of a word is bit 0 of its `dtype` field (R111). -/
theorem getLsbD_zero_of_dtype {w : Word} (h : fieldDtype w = 0b01#2) : w.getLsbD 0 = true := by
  have h0 := congrArg (BitVec.getLsbD · 0) h
  simpa [fieldDtype, BitVec.getLsbD_extractLsb'] using h0

end Sys2Proof

/-- The word of the instruction has bit 0 set. -/
def Sys2Proof.Laws.EncodedWordOdd.Statement (i : Sys2Proof.Instr) : Prop :=
  (Sys2Proof.encode i).getLsbD 0 = true

namespace Sys2Proof.Laws

theorem EncodedWordOdd.addI (rd : Reg) (imm : Imm16) :
    EncodedWordOdd.Statement (.addI rd imm) :=
  getLsbD_zero_of_dtype (fieldDtype_packRegImm ..)

theorem EncodedWordOdd.subI (rd : Reg) (imm : Imm16) :
    EncodedWordOdd.Statement (.subI rd imm) :=
  getLsbD_zero_of_dtype (fieldDtype_packRegImm ..)

theorem EncodedWordOdd.mulI (rd : Reg) (imm : Imm16) :
    EncodedWordOdd.Statement (.mulI rd imm) :=
  getLsbD_zero_of_dtype (fieldDtype_packRegImm ..)

theorem EncodedWordOdd.andI (rd : Reg) (imm : Imm16) :
    EncodedWordOdd.Statement (.andI rd imm) :=
  getLsbD_zero_of_dtype (fieldDtype_packRegImm ..)

theorem EncodedWordOdd.xorI (rd : Reg) (imm : Imm16) :
    EncodedWordOdd.Statement (.xorI rd imm) :=
  getLsbD_zero_of_dtype (fieldDtype_packRegImm ..)

theorem EncodedWordOdd.orI (rd : Reg) (imm : Imm16) :
    EncodedWordOdd.Statement (.orI rd imm) :=
  getLsbD_zero_of_dtype (fieldDtype_packRegImm ..)

theorem EncodedWordOdd.notI (rd : Reg) (imm : Imm16) :
    EncodedWordOdd.Statement (.notI rd imm) :=
  getLsbD_zero_of_dtype (fieldDtype_packRegImm ..)

theorem EncodedWordOdd.negI (rd : Reg) (imm : Imm16) :
    EncodedWordOdd.Statement (.negI rd imm) :=
  getLsbD_zero_of_dtype (fieldDtype_packRegImm ..)

theorem EncodedWordOdd.shrI (rd : Reg) (imm : Imm16) :
    EncodedWordOdd.Statement (.shrI rd imm) :=
  getLsbD_zero_of_dtype (fieldDtype_packRegImm ..)

theorem EncodedWordOdd.sarI (rd : Reg) (imm : Imm16) :
    EncodedWordOdd.Statement (.sarI rd imm) :=
  getLsbD_zero_of_dtype (fieldDtype_packRegImm ..)

theorem EncodedWordOdd.shlI (rd : Reg) (imm : Imm16) :
    EncodedWordOdd.Statement (.shlI rd imm) :=
  getLsbD_zero_of_dtype (fieldDtype_packRegImm ..)

theorem EncodedWordOdd.rolI (rd : Reg) (imm : Imm16) :
    EncodedWordOdd.Statement (.rolI rd imm) :=
  getLsbD_zero_of_dtype (fieldDtype_packRegImm ..)

theorem EncodedWordOdd.ldi (rd : Reg) (imm : Imm16) :
    EncodedWordOdd.Statement (.ldi rd imm) :=
  getLsbD_zero_of_dtype (fieldDtype_packRegImm ..)

theorem EncodedWordOdd.ldx (rd : Reg) (imm : Imm16) :
    EncodedWordOdd.Statement (.ldx rd imm) :=
  getLsbD_zero_of_dtype (fieldDtype_packRegImm ..)

theorem EncodedWordOdd.cmpI (rd : Reg) (imm : Imm16) :
    EncodedWordOdd.Statement (.cmpI rd imm) :=
  getLsbD_zero_of_dtype (fieldDtype_packRegImm ..)

theorem EncodedWordOdd.addR (rd : Reg) (rs : Reg) :
    EncodedWordOdd.Statement (.addR rd rs) :=
  getLsbD_zero_of_dtype (fieldDtype_packRegReg ..)

theorem EncodedWordOdd.subR (rd : Reg) (rs : Reg) :
    EncodedWordOdd.Statement (.subR rd rs) :=
  getLsbD_zero_of_dtype (fieldDtype_packRegReg ..)

theorem EncodedWordOdd.mulR (rd : Reg) (rs : Reg) :
    EncodedWordOdd.Statement (.mulR rd rs) :=
  getLsbD_zero_of_dtype (fieldDtype_packRegReg ..)

theorem EncodedWordOdd.divR (rd : Reg) (rs : Reg) :
    EncodedWordOdd.Statement (.divR rd rs) :=
  getLsbD_zero_of_dtype (fieldDtype_packRegReg ..)

theorem EncodedWordOdd.remR (rd : Reg) (rs : Reg) :
    EncodedWordOdd.Statement (.remR rd rs) :=
  getLsbD_zero_of_dtype (fieldDtype_packRegReg ..)

theorem EncodedWordOdd.orR (rd : Reg) (rs : Reg) :
    EncodedWordOdd.Statement (.orR rd rs) :=
  getLsbD_zero_of_dtype (fieldDtype_packRegReg ..)

theorem EncodedWordOdd.xorR (rd : Reg) (rs : Reg) :
    EncodedWordOdd.Statement (.xorR rd rs) :=
  getLsbD_zero_of_dtype (fieldDtype_packRegReg ..)

theorem EncodedWordOdd.andR (rd : Reg) (rs : Reg) :
    EncodedWordOdd.Statement (.andR rd rs) :=
  getLsbD_zero_of_dtype (fieldDtype_packRegReg ..)

theorem EncodedWordOdd.notR (rd : Reg) (rs : Reg) :
    EncodedWordOdd.Statement (.notR rd rs) :=
  getLsbD_zero_of_dtype (fieldDtype_packRegReg ..)

theorem EncodedWordOdd.shlR (rd : Reg) (rs : Reg) :
    EncodedWordOdd.Statement (.shlR rd rs) :=
  getLsbD_zero_of_dtype (fieldDtype_packRegReg ..)

theorem EncodedWordOdd.shrR (rd : Reg) (rs : Reg) :
    EncodedWordOdd.Statement (.shrR rd rs) :=
  getLsbD_zero_of_dtype (fieldDtype_packRegReg ..)

theorem EncodedWordOdd.sarR (rd : Reg) (rs : Reg) :
    EncodedWordOdd.Statement (.sarR rd rs) :=
  getLsbD_zero_of_dtype (fieldDtype_packRegReg ..)

theorem EncodedWordOdd.rolR (rd : Reg) (rs : Reg) :
    EncodedWordOdd.Statement (.rolR rd rs) :=
  getLsbD_zero_of_dtype (fieldDtype_packRegReg ..)

theorem EncodedWordOdd.cmpR (rd : Reg) (rs : Reg) :
    EncodedWordOdd.Statement (.cmpR rd rs) :=
  getLsbD_zero_of_dtype (fieldDtype_packRegReg ..)

theorem EncodedWordOdd.cpy (rd : Reg) (rs : Reg) :
    EncodedWordOdd.Statement (.cpy rd rs) :=
  getLsbD_zero_of_dtype (fieldDtype_packRegReg ..)

theorem EncodedWordOdd.nsa (rd : Reg) (rs : Reg) :
    EncodedWordOdd.Statement (.nsa rd rs) :=
  getLsbD_zero_of_dtype (fieldDtype_packRegReg ..)

theorem EncodedWordOdd.ldw (rd : Reg) (rm : Reg) (imm : Imm16) :
    EncodedWordOdd.Statement (.ldw rd rm imm) :=
  getLsbD_zero_of_dtype (fieldDtype_packLoadStore ..)

theorem EncodedWordOdd.pop (rd : Reg) (rm : Reg) (imm : Imm16) :
    EncodedWordOdd.Statement (.pop rd rm imm) :=
  getLsbD_zero_of_dtype (fieldDtype_packLoadStore ..)

theorem EncodedWordOdd.push (rd : Reg) (rm : Reg) (imm : Imm16) :
    EncodedWordOdd.Statement (.push rd rm imm) :=
  getLsbD_zero_of_dtype (fieldDtype_packLoadStore ..)

theorem EncodedWordOdd.stw (rd : Reg) (rm : Reg) (imm : Imm16) :
    EncodedWordOdd.Statement (.stw rd rm imm) :=
  getLsbD_zero_of_dtype (fieldDtype_packLoadStore ..)

theorem EncodedWordOdd.beq (rm : Reg) (imm : Imm16) :
    EncodedWordOdd.Statement (.beq rm imm) :=
  getLsbD_zero_of_dtype (fieldDtype_packControl ..)

theorem EncodedWordOdd.bne (rm : Reg) (imm : Imm16) :
    EncodedWordOdd.Statement (.bne rm imm) :=
  getLsbD_zero_of_dtype (fieldDtype_packControl ..)

theorem EncodedWordOdd.blt (rm : Reg) (imm : Imm16) :
    EncodedWordOdd.Statement (.blt rm imm) :=
  getLsbD_zero_of_dtype (fieldDtype_packControl ..)

theorem EncodedWordOdd.bge (rm : Reg) (imm : Imm16) :
    EncodedWordOdd.Statement (.bge rm imm) :=
  getLsbD_zero_of_dtype (fieldDtype_packControl ..)

theorem EncodedWordOdd.blu (rm : Reg) (imm : Imm16) :
    EncodedWordOdd.Statement (.blu rm imm) :=
  getLsbD_zero_of_dtype (fieldDtype_packControl ..)

theorem EncodedWordOdd.bae (rm : Reg) (imm : Imm16) :
    EncodedWordOdd.Statement (.bae rm imm) :=
  getLsbD_zero_of_dtype (fieldDtype_packControl ..)

theorem EncodedWordOdd.ba (rm : Reg) (imm : Imm16) :
    EncodedWordOdd.Statement (.ba rm imm) :=
  getLsbD_zero_of_dtype (fieldDtype_packControl ..)

theorem EncodedWordOdd.bof (rm : Reg) (imm : Imm16) :
    EncodedWordOdd.Statement (.bof rm imm) :=
  getLsbD_zero_of_dtype (fieldDtype_packControl ..)

theorem EncodedWordOdd.bnf (rm : Reg) (imm : Imm16) :
    EncodedWordOdd.Statement (.bnf rm imm) :=
  getLsbD_zero_of_dtype (fieldDtype_packControl ..)

theorem EncodedWordOdd.bunc (rm : Reg) (imm : Imm16) :
    EncodedWordOdd.Statement (.bunc rm imm) :=
  getLsbD_zero_of_dtype (fieldDtype_packControl ..)

theorem EncodedWordOdd.call (rm : Reg) (imm : Imm16) :
    EncodedWordOdd.Statement (.call rm imm) :=
  getLsbD_zero_of_dtype (fieldDtype_packControl ..)

theorem EncodedWordOdd.hlt (mode : BitVec 3) (flag : BitVec 4) :
    EncodedWordOdd.Statement (.hlt mode flag) :=
  getLsbD_zero_of_dtype (fieldDtype_packControl ..)

end Sys2Proof.Laws
end

