-- ==== Sys2Proof/Laws/Registers.lean ====
section
/-! SUPPORT. The register file: what each port reads after each port or reservation has acted. -/

namespace Sys2Proof.Machine

theorem Reg.toNat_ne {q r : Reg} (h : q ≠ r) : r.toNat ≠ q.toNat := fun e =>
  h (BitVec.eq_of_toNat_eq e.symm)

@[simp] theorem RegFile.setEntry_zero (regs : RegFile) (e : RegEntry) :
    regs.setEntry 0#5 e = regs := by
  simp [RegFile.setEntry]

/-- Reading an entry after storing one: register 0 keeps its own. -/
theorem RegFile.entry_setEntry (regs : RegFile) (r q : Reg) (e : RegEntry) :
    (regs.setEntry r e).entry q = if q = r ∧ r ≠ 0#5 then e else regs.entry q := by
  by_cases hr : r = 0#5
  · subst hr; simp
  · unfold RegFile.setEntry RegFile.entry
    rw [if_neg hr]
    by_cases hq : q = r
    · subst hq; simp [hr]
    · simp [hq, Reg.toNat_ne hq]

/-- Two register files with the same entries are equal. -/
theorem RegFile.ext_entry {a b : RegFile} (h : ∀ r, a.entry r = b.entry r) : a = b := by
  apply Vector.ext
  intro i hi
  have := h (BitVec.ofNat 5 i)
  simpa [RegFile.entry, Nat.mod_eq_of_lt hi] using this

/-! ## Values -/

@[simp] theorem RegFile.readNb_zero (regs : RegFile) : regs.readNb 0#5 = 0#32 := by
  simp [RegFile.readNb]

/-- A register reads what was last written to it; r0 stays 0 (R22, R25). -/
theorem RegFile.readNb_writeNb (regs : RegFile) (r q : Reg) (v : Word) :
    (regs.writeNb r v).readNb q = if q = r ∧ r ≠ 0#5 then v else regs.readNb q := by
  unfold RegFile.readNb RegFile.writeNb
  rw [RegFile.entry_setEntry]
  by_cases hr : q = r
  · subst hr
    by_cases h0 : q = 0#5
    · subst h0; simp
    · rw [if_neg h0, if_pos ⟨rfl, h0⟩, if_pos ⟨rfl, h0⟩]
  · simp [hr]

@[simp] theorem RegFile.writeNb_zero (regs : RegFile) (v : Word) : regs.writeNb 0#5 v = regs := by
  simp [RegFile.writeNb]

@[simp] theorem RegFile.block_zero (regs : RegFile) : regs.block 0#5 = regs := by
  simp [RegFile.block]

@[simp] theorem RegFile.unblock_zero (regs : RegFile) : regs.unblock 0#5 = regs := by
  simp [RegFile.unblock]

@[simp] theorem RegFile.readNb_block (regs : RegFile) (r q : Reg) :
    (regs.block r).readNb q = regs.readNb q := by
  unfold RegFile.readNb RegFile.block
  rw [RegFile.entry_setEntry]
  by_cases h : q = r ∧ r ≠ 0#5
  · rw [if_pos h, h.1]
  · rw [if_neg h]

@[simp] theorem RegFile.readNb_unblock (regs : RegFile) (r q : Reg) :
    (regs.unblock r).readNb q = regs.readNb q := by
  unfold RegFile.readNb RegFile.unblock
  rw [RegFile.entry_setEntry]
  by_cases h : q = r ∧ r ≠ 0#5
  · rw [if_pos h, h.1]
  · rw [if_neg h]

@[simp] theorem RegFile.release_nil (regs : RegFile) : regs.release [] = regs := rfl

@[simp] theorem RegFile.release_cons (regs : RegFile) (c : Reg) (rest : List Reg) :
    regs.release (c :: rest) = (regs.unblock c).release rest := rfl

@[simp] theorem RegFile.readNb_release (regs : RegFile) (claims : List Reg) (q : Reg) :
    (regs.release claims).readNb q = regs.readNb q := by
  induction claims generalizing regs with
  | nil => rfl
  | cons c rest ih => rw [RegFile.release_cons, ih, RegFile.readNb_unblock]

/-! ## Enables -/

theorem RegFile.readEnable_block (regs : RegFile) (r q : Reg) :
    ((regs.block r).entry q).readEnable =
      if q = r ∧ r ≠ 0#5 then false else (regs.entry q).readEnable := by
  unfold RegFile.block; rw [RegFile.entry_setEntry]; split <;> rfl

theorem RegFile.writeEnable_block (regs : RegFile) (r q : Reg) :
    ((regs.block r).entry q).writeEnable =
      if q = r ∧ r ≠ 0#5 then false else (regs.entry q).writeEnable := by
  unfold RegFile.block; rw [RegFile.entry_setEntry]; split <;> rfl

theorem RegFile.readEnable_unblock (regs : RegFile) (r q : Reg) :
    ((regs.unblock r).entry q).readEnable =
      if q = r ∧ r ≠ 0#5 then true else (regs.entry q).readEnable := by
  unfold RegFile.unblock; rw [RegFile.entry_setEntry]; split <;> rfl

theorem RegFile.writeEnable_unblock (regs : RegFile) (r q : Reg) :
    ((regs.unblock r).entry q).writeEnable =
      if q = r ∧ r ≠ 0#5 then true else (regs.entry q).writeEnable := by
  unfold RegFile.unblock; rw [RegFile.entry_setEntry]; split <;> rfl

@[simp] theorem RegFile.readEnable_writeNb (regs : RegFile) (r q : Reg) (v : Word) :
    ((regs.writeNb r v).entry q).readEnable = (regs.entry q).readEnable := by
  unfold RegFile.writeNb; rw [RegFile.entry_setEntry]; split
  · next h => rw [h.1]
  · rfl

@[simp] theorem RegFile.writeEnable_writeNb (regs : RegFile) (r q : Reg) (v : Word) :
    ((regs.writeNb r v).entry q).writeEnable = (regs.entry q).writeEnable := by
  unfold RegFile.writeNb; rw [RegFile.entry_setEntry]; split
  · next h => rw [h.1]
  · rfl

/-- After a release the claimed registers are free and the others are as before. -/
theorem RegFile.readEnable_release (regs : RegFile) (claims : List Reg) (q : Reg) :
    ((regs.release claims).entry q).readEnable =
      if q ∈ claims ∧ q ≠ 0#5 then true else (regs.entry q).readEnable := by
  induction claims generalizing regs with
  | nil => simp
  | cons c rest ih =>
    rw [RegFile.release_cons, ih, RegFile.readEnable_unblock]
    by_cases h1 : q ∈ rest ∧ q ≠ 0#5
    · rw [if_pos h1, if_pos ⟨List.mem_cons_of_mem _ h1.1, h1.2⟩]
    · rw [if_neg h1]
      by_cases h2 : q = c ∧ c ≠ 0#5
      · rw [if_pos h2, if_pos ⟨h2.1 ▸ List.mem_cons_self, h2.1 ▸ h2.2⟩]
      · rw [if_neg h2, if_neg]
        rintro ⟨hm, h0⟩
        rcases List.mem_cons.1 hm with rfl | hm
        · exact h2 ⟨rfl, h0⟩
        · exact h1 ⟨hm, h0⟩

theorem RegFile.writeEnable_release (regs : RegFile) (claims : List Reg) (q : Reg) :
    ((regs.release claims).entry q).writeEnable =
      if q ∈ claims ∧ q ≠ 0#5 then true else (regs.entry q).writeEnable := by
  induction claims generalizing regs with
  | nil => simp
  | cons c rest ih =>
    rw [RegFile.release_cons, ih, RegFile.writeEnable_unblock]
    by_cases h1 : q ∈ rest ∧ q ≠ 0#5
    · rw [if_pos h1, if_pos ⟨List.mem_cons_of_mem _ h1.1, h1.2⟩]
    · rw [if_neg h1]
      by_cases h2 : q = c ∧ c ≠ 0#5
      · rw [if_pos h2, if_pos ⟨h2.1 ▸ List.mem_cons_self, h2.1 ▸ h2.2⟩]
      · rw [if_neg h2, if_neg]
        rintro ⟨hm, h0⟩
        rcases List.mem_cons.1 hm with rfl | hm
        · exact h2 ⟨rfl, h0⟩
        · exact h1 ⟨hm, h0⟩

/-! ## Ports -/

/-- What the blocking read port answers (R23). -/
theorem RegFile.read_eq_some {regs : RegFile} {r : Reg} {v : Word} :
    regs.read r = some v ↔
      v = regs.readNb r ∧ (r = 0#5 ∨ (regs.entry r).readEnable = true) := by
  unfold RegFile.read RegFile.readNb
  by_cases h0 : r = 0#5
  · rw [if_pos h0, if_pos h0, Option.some.injEq]
    exact ⟨fun h => ⟨h.symm, .inl h0⟩, fun h => h.1.symm⟩
  · rw [if_neg h0, if_neg h0]
    by_cases hb : (regs.entry r).readEnable = true
    · rw [if_pos hb, Option.some.injEq]
      exact ⟨fun h => ⟨h.symm, .inr hb⟩, fun h => h.1.symm⟩
    · rw [if_neg hb]
      exact ⟨fun h => absurd h (by simp), fun h => (h.2.elim h0 hb).elim⟩

theorem RegFile.read_eq_none {regs : RegFile} {r : Reg} :
    regs.read r = none ↔ r ≠ 0#5 ∧ (regs.entry r).readEnable = false := by
  unfold RegFile.read
  by_cases h0 : r = 0#5
  · simp [h0]
  · rw [if_neg h0]
    by_cases hb : (regs.entry r).readEnable = true <;> simp [h0, hb]

/-- A write through the blocking port to a register whose write enable is set (R24). -/
theorem RegFile.writeOrKeep_of_enabled {regs : RegFile} {r : Reg}
    (h : r = 0#5 ∨ (regs.entry r).writeEnable = true) (v : Word) :
    regs.writeOrKeep r v = regs.writeNb r v := by
  unfold RegFile.writeOrKeep RegFile.write
  by_cases h0 : r = 0#5
  · subst h0; simp
  · rw [if_neg h0, if_pos (h.resolve_left h0)]; rfl

/-- A write through the blocking port is refused or is the non-blocking one. -/
theorem RegFile.writeOrKeep_cases (regs : RegFile) (r : Reg) (v : Word) :
    regs.writeOrKeep r v = regs ∨ regs.writeOrKeep r v = regs.writeNb r v := by
  unfold RegFile.writeOrKeep RegFile.write
  by_cases h0 : r = 0#5
  · rw [if_pos h0]; exact .inl rfl
  · rw [if_neg h0]
    by_cases hb : (regs.entry r).writeEnable = true
    · rw [if_pos hb]; exact .inr rfl
    · rw [if_neg hb]; exact .inl rfl

/-- No write changes an enable. -/
@[simp] theorem RegFile.readEnable_writeOrKeep (regs : RegFile) (r q : Reg) (v : Word) :
    ((regs.writeOrKeep r v).entry q).readEnable = (regs.entry q).readEnable := by
  rcases regs.writeOrKeep_cases r v with h | h <;> rw [h]
  exact regs.readEnable_writeNb r q v

@[simp] theorem RegFile.writeEnable_writeOrKeep (regs : RegFile) (r q : Reg) (v : Word) :
    ((regs.writeOrKeep r v).entry q).writeEnable = (regs.entry q).writeEnable := by
  rcases regs.writeOrKeep_cases r v with h | h <;> rw [h]
  exact regs.writeEnable_writeNb r q v

@[simp] theorem RegFile.readEnable_writeAux (regs : RegFile) (rec : Record) (q : Reg) :
    ((regs.writeAux rec).entry q).readEnable = (regs.entry q).readEnable := by
  unfold RegFile.writeAux; split <;> simp

@[simp] theorem RegFile.writeEnable_writeAux (regs : RegFile) (rec : Record) (q : Reg) :
    ((regs.writeAux rec).entry q).writeEnable = (regs.entry q).writeEnable := by
  unfold RegFile.writeAux; split <;> simp

/-- The claimed registers of a record that names `a` and `b`. -/
theorem mem_claimSet {a b r : Reg} : r ∈ claimSet a b ↔ r ≠ 0#5 ∧ (r = a ∨ r = b) := by
  unfold claimSet
  by_cases h : a = b
  · subst h
    simp only [if_true, List.mem_filter, List.mem_singleton, bne_iff_ne, or_self, and_comm]
  · simp only [if_neg h, List.mem_filter, List.mem_cons, List.not_mem_nil, or_false, bne_iff_ne,
      and_comm]

theorem claimSet_nodup (a b : Reg) : (claimSet a b).Nodup := by
  unfold claimSet
  by_cases h : a = b
  · rw [if_pos h]; exact (List.nodup_singleton a).filter _
  · rw [if_neg h]; exact List.Nodup.filter _ (by simp [h])

end Sys2Proof.Machine
end

