-- ==== Sys2Proof/Laws/Stages.lean ====
section
/-! SUPPORT. What each stage operation, and `exec` at each stage, can do: said once, with guards, so that
later proofs cite these lemmas instead of unfolding the meanings (spec/40_pipeline.md R160 to R184). -/

namespace Sys2Proof.Machine

/-! ## The guards -/

theorem State.onDecode_cases (s : State) (work : Record → State) :
    (s.onDecode work = s ∧ (s.dRec = none ∨ s.dState = .free)) ∨
    ∃ rec, s.dRec = some rec ∧ s.dState ≠ .free ∧ s.onDecode work = work rec := by
  unfold State.onDecode
  split
  · next h => exact .inl ⟨rfl, .inl h⟩
  · next rec h =>
    split
    · next hf => exact .inl ⟨rfl, .inr hf⟩
    · next hf => exact .inr ⟨rec, h, hf, rfl⟩

theorem State.onDecode_of {s : State} {rec : Record} (h : s.dRec = some rec) (hf : s.dState ≠ .free)
    (work : Record → State) : s.onDecode work = work rec := by
  unfold State.onDecode; rw [h]; simp [hf]

theorem State.onExecute_cases (s : State) (work : Record → State → State) :
    (s.onExecute work = s ∧ (s.xRec = none ∨ s.xDone = true)) ∨
    ∃ rec, s.xRec = some rec ∧ s.xDone = false ∧
      ((rec.fault ≠ none ∧ s.onExecute work = { s with xDone := true }) ∨
        (rec.fault = none ∧ s.onExecute work = work rec { s with xDone := true })) := by
  unfold State.onExecute
  split
  · next h => exact .inl ⟨rfl, .inl h⟩
  · next rec h =>
    split
    · next hd => exact .inl ⟨rfl, .inr hd⟩
    · next hd =>
      refine .inr ⟨rec, h, by simpa using hd, ?_⟩
      split
      · next hf => exact .inl ⟨fun e => by simp [e] at hf, rfl⟩
      · next hf => exact .inr ⟨by simpa using hf, rfl⟩

theorem State.onExecute_of {s : State} {rec : Record} (h : s.xRec = some rec)
    (hd : s.xDone = false) (hf : rec.fault = none) (work : Record → State → State) :
    s.onExecute work = work rec { s with xDone := true } := by
  unfold State.onExecute; rw [h]; simp [hd, hf]

theorem State.onMemory_cases (s : State) (work : Record → State) :
    (s.onMemory work = s ∧ (s.mRec = none ∨ s.mDone = true)) ∨
    ∃ rec, s.mRec = some rec ∧ s.mDone = false ∧
      ((rec.fault ≠ none ∧ s.onMemory work = { s with mDone := true }) ∨
        (rec.fault = none ∧ s.onMemory work = work rec)) := by
  unfold State.onMemory
  split
  · next h => exact .inl ⟨rfl, .inl h⟩
  · next rec h =>
    split
    · next hd => exact .inl ⟨rfl, .inr hd⟩
    · next hd =>
      refine .inr ⟨rec, h, by simpa using hd, ?_⟩
      split
      · next hf => exact .inl ⟨fun e => by simp [e] at hf, rfl⟩
      · next hf => exact .inr ⟨by simpa using hf, rfl⟩

theorem State.onMemory_of {s : State} {rec : Record} (h : s.mRec = some rec)
    (hd : s.mDone = false) (hf : rec.fault = none) (work : Record → State) :
    s.onMemory work = work rec := by
  unfold State.onMemory; rw [h]; simp [hd, hf]

theorem State.onWriteBack_cases (s : State) (work : Record → State → State) :
    (s.onWriteBack work = s ∧ s.wRec = none) ∨
    ∃ rec, s.wRec = some rec ∧
      ((∃ k, rec.fault = some k ∧
          s.onWriteBack work = { s with wRec := none, fault := some k }) ∨
        (rec.fault = none ∧ s.onWriteBack work = work rec { s with wRec := none })) := by
  unfold State.onWriteBack
  split
  · next h => exact .inl ⟨rfl, h⟩
  · next rec h =>
    refine .inr ⟨rec, h, ?_⟩
    split
    · next k hk => exact .inl ⟨k, hk, rfl⟩
    · next hk => exact .inr ⟨hk, rfl⟩

theorem State.onWriteBack_of {s : State} {rec : Record} (h : s.wRec = some rec)
    (hf : rec.fault = none) (work : Record → State → State) :
    s.onWriteBack work = work rec { s with wRec := none } := by
  unfold State.onWriteBack; rw [h]; simp [hf]

/-! ## Decode -/

/-- What Decode's work on a record can do: finish with some registers claimed, having read them free;
finish with nothing claimed; wait; or, for the halt sentinel, drop the record (R161 to R165). -/
inductive DecodeStep (s : State) (rec : Record) (t : State) : Prop where
  /-- Both named registers read; both are claimed. -/
  | claims (a b : Reg) (rec' : Record)
      (readA : s.regs.read a = some (s.regs.readNb a))
      (readB : s.regs.read b = some (s.regs.readNb b))
      (eq : t = s.decoded ((s.regs.block a).block b) rec')
      (hclaims : rec'.claims = claimSet a b) (hfault : rec'.fault = rec.fault)
      (hpc : rec'.pc = rec.pc) (hraw : rec'.raw = rec.raw)
  /-- Control: nothing is claimed. -/
  | noClaims (rec' : Record) (eq : t = s.decoded s.regs rec') (hclaims : rec'.claims = [])
      (hfault : rec'.fault = rec.fault) (hpc : rec'.pc = rec.pc) (hraw : rec'.raw = rec.raw)
  /-- A `Blocked` read. -/
  | waits (rec' : Record) (eq : t = s.awaitRead rec') (hclaims : rec'.claims = rec.claims)
      (hfault : rec'.fault = rec.fault) (hpc : rec'.pc = rec.pc) (hraw : rec'.raw = rec.raw)
  /-- The halt sentinel. -/
  | halts (eq : t = { s.squashFetch with haltPending := true, dRec := none, dState := .free })

theorem RegFile.block_block (regs : RegFile) (r : Reg) : (regs.block r).block r = regs.block r := by
  apply RegFile.ext_entry
  intro q
  unfold RegFile.block
  rw [RegFile.entry_setEntry, RegFile.entry_setEntry, RegFile.entry_setEntry]
  by_cases h : q = r ∧ r ≠ 0#5
  · rw [if_pos h, if_pos h, if_pos ⟨rfl, h.2⟩]
  · rw [if_neg h, if_neg h]

theorem RegFile.read_of_some {regs : RegFile} {r : Reg} {v : Word} (h : regs.read r = some v) :
    regs.read r = some (regs.readNb r) := by
  rw [h, (RegFile.read_eq_some.1 h).1]

theorem State.decodeRegImm_cases (s : State) (rd : Reg) (imm : Imm16) :
    (s.decodeRegImm rd imm = s ∧ (s.dRec = none ∨ s.dState = .free)) ∨
    ∃ rec, s.dRec = some rec ∧ s.dState ≠ .free ∧ DecodeStep s rec (s.decodeRegImm rd imm) := by
  unfold State.decodeRegImm
  rcases s.onDecode_cases _ with ⟨h, h0⟩ | ⟨rec, hr, hf, h⟩
  · exact .inl ⟨h, h0⟩
  · refine .inr ⟨rec, hr, hf, ?_⟩
    rw [h]
    split
    · exact .waits rec rfl rfl rfl rfl rfl
    · next v hv =>
      exact .claims rd rd
        { rec with
          claims := claimSet rd rd, result := v, operand := sext16 imm,
          writeBack := rd != 0#5, auxReg := 0#5 }
        (RegFile.read_of_some hv) (RegFile.read_of_some hv)
        (by rw [RegFile.block_block]) rfl rfl rfl rfl

theorem State.decodeRegReg_cases (s : State) (rd rs : Reg) :
    (s.decodeRegReg rd rs = s ∧ (s.dRec = none ∨ s.dState = .free)) ∨
    ∃ rec, s.dRec = some rec ∧ s.dState ≠ .free ∧ DecodeStep s rec (s.decodeRegReg rd rs) := by
  unfold State.decodeRegReg
  rcases s.onDecode_cases _ with ⟨h, h0⟩ | ⟨rec, hr, hf, h⟩
  · exact .inl ⟨h, h0⟩
  · refine .inr ⟨rec, hr, hf, ?_⟩
    rw [h]
    split
    · next h1 h2 =>
      exact .claims rd rs _ (RegFile.read_of_some h1) (RegFile.read_of_some h2) rfl rfl rfl rfl rfl
    · exact .waits rec rfl rfl rfl rfl rfl

theorem State.decodeBranch_cases (s : State) (rm : Reg) (imm : Imm16) (aux : Reg) :
    (s.decodeBranch rm imm aux = s ∧ (s.dRec = none ∨ s.dState = .free)) ∨
    ∃ rec, s.dRec = some rec ∧ s.dState ≠ .free ∧ DecodeStep s rec (s.decodeBranch rm imm aux) := by
  unfold State.decodeBranch
  rcases s.onDecode_cases _ with ⟨h, h0⟩ | ⟨rec, hr, hf, h⟩
  · exact .inl ⟨h, h0⟩
  · refine .inr ⟨rec, hr, hf, ?_⟩
    rw [h]
    split
    · exact .waits rec rfl rfl rfl rfl rfl
    · exact .noClaims _ rfl rfl rfl rfl rfl

theorem State.decodeLoadStore_cases (s : State) (i : Instr) (rd m : Reg) (imm : Imm16)
    (loads : Bool) (aux : Reg) :
    (s.decodeLoadStore i rd m imm loads aux = s ∧ (s.dRec = none ∨ s.dState = .free)) ∨
    ∃ rec, s.dRec = some rec ∧ s.dState ≠ .free ∧
      DecodeStep s rec (s.decodeLoadStore i rd m imm loads aux) := by
  unfold State.decodeLoadStore
  rcases s.onDecode_cases _ with ⟨h, h0⟩ | ⟨rec, hr, hf, h⟩
  · exact .inl ⟨h, h0⟩
  · refine .inr ⟨rec, hr, hf, ?_⟩
    rw [h]
    split
    · next h1 h2 =>
      exact .claims rd m _ (RegFile.read_of_some h1) (RegFile.read_of_some h2) rfl rfl rfl rfl rfl
    · exact .waits _ rfl rfl rfl rfl rfl

theorem State.decodeHalt_cases (s : State) :
    (s.decodeHalt = s ∧ (s.dRec = none ∨ s.dState = .free)) ∨
    ∃ rec, s.dRec = some rec ∧ s.dState ≠ .free ∧ DecodeStep s rec s.decodeHalt := by
  unfold State.decodeHalt
  rcases s.onDecode_cases _ with ⟨h, h0⟩ | ⟨rec, hr, hf, h⟩
  · exact .inl ⟨h, h0⟩
  · exact .inr ⟨rec, hr, hf, .halts h⟩

/-! ## Execute -/

/-- What Execute's work on a record can do (R171, R172, R173): rewrite its result, address and marks, and
the flags; its claims, op and auxiliary register stay. -/
def ExecuteStep (s : State) (rec : Record) (t : State) : Prop :=
  ∃ rec' flags, t = { s with xDone := true, flags := flags, xRec := some rec' } ∧
    rec'.claims = rec.claims ∧ rec'.op = rec.op ∧ rec'.auxReg = rec.auxReg ∧ rec'.pc = rec.pc

theorem State.executeAlu_cases (s : State) (alu : Word → Word → AluOut) (compare : Bool) :
    (s.executeAlu alu compare = s ∧ (s.xRec = none ∨ s.xDone = true)) ∨
    ∃ rec, s.xRec = some rec ∧ s.xDone = false ∧ ExecuteStep s rec (s.executeAlu alu compare) := by
  unfold State.executeAlu
  rcases s.onExecute_cases _ with ⟨h, h0⟩ | ⟨rec, hr, hd, ⟨_, h⟩ | ⟨_, h⟩⟩
  · exact .inl ⟨h, h0⟩
  · exact .inr ⟨rec, hr, hd, rec, s.flags, by rw [h, ← hr], rfl, rfl, rfl, rfl⟩
  · refine .inr ⟨rec, hr, hd, ?_⟩
    rw [h]
    split
    · exact ⟨_, _, rfl, rfl, rfl, rfl, rfl⟩
    · exact ⟨_, _, rfl, rfl, rfl, rfl, rfl⟩

theorem State.executeAddress_cases (s : State) :
    (s.executeAddress = s ∧ (s.xRec = none ∨ s.xDone = true)) ∨
    ∃ rec, s.xRec = some rec ∧ s.xDone = false ∧ ExecuteStep s rec s.executeAddress ∧
      s.executeAddress.flags = s.flags := by
  unfold State.executeAddress
  rcases s.onExecute_cases _ with ⟨h, h0⟩ | ⟨rec, hr, hd, ⟨_, h⟩ | ⟨_, h⟩⟩
  · exact .inl ⟨h, h0⟩
  · exact .inr ⟨rec, hr, hd, ⟨rec, s.flags, by rw [h, ← hr], rfl, rfl, rfl, rfl⟩, by rw [h]⟩
  · exact .inr ⟨rec, hr, hd, ⟨_, _, h, rfl, rfl, rfl, rfl⟩, by rw [h]⟩

theorem State.executeNothing_cases (s : State) :
    (s.executeNothing = s ∧ (s.xRec = none ∨ s.xDone = true)) ∨
    ∃ rec, s.xRec = some rec ∧ s.xDone = false ∧ ExecuteStep s rec s.executeNothing ∧
      s.executeNothing.flags = s.flags := by
  unfold State.executeNothing
  rcases s.onExecute_cases _ with ⟨h, h0⟩ | ⟨rec, hr, hd, ⟨_, h⟩ | ⟨_, h⟩⟩
  · exact .inl ⟨h, h0⟩
  · exact .inr ⟨rec, hr, hd, ⟨rec, s.flags, by rw [h, ← hr], rfl, rfl, rfl, rfl⟩, by rw [h]⟩
  · exact .inr ⟨rec, hr, hd, ⟨rec, s.flags, by rw [h, ← hr], rfl, rfl, rfl, rfl⟩, by rw [h]⟩

theorem State.executeBranch_cases (s : State) (cond : Flags → Bool) :
    (s.executeBranch cond = s ∧ (s.xRec = none ∨ s.xDone = true)) ∨
    ∃ rec, s.xRec = some rec ∧ s.xDone = false ∧ ExecuteStep s rec (s.executeBranch cond) ∧
      (s.executeBranch cond).flags = s.flags := by
  unfold State.executeBranch
  rcases s.onExecute_cases _ with ⟨h, h0⟩ | ⟨rec, hr, hd, ⟨_, h⟩ | ⟨_, h⟩⟩
  · exact .inl ⟨h, h0⟩
  · exact .inr ⟨rec, hr, hd, ⟨rec, s.flags, by rw [h, ← hr], rfl, rfl, rfl, rfl⟩, by rw [h]⟩
  · refine .inr ⟨rec, hr, hd, ?_⟩
    rw [h]
    split
    · exact ⟨⟨_, _, rfl, rfl, rfl, rfl, rfl⟩, rfl⟩
    · exact ⟨⟨_, _, rfl, rfl, rfl, rfl, rfl⟩, rfl⟩

/-! ## Memory -/

/-- What Memory's work on a record can do (R176, R177, R178): pass it, or make one request of the memory
and note its answer; claims, op and auxiliary register stay. -/
def MemoryStep (s : State) (rec : Record) (t : State) : Prop :=
  ∃ rec' mem waiting done,
    t = { s with mem := mem, mWaiting := waiting, mDone := done, mRec := some rec' } ∧
    rec'.claims = rec.claims ∧ rec'.op = rec.op ∧ rec'.auxReg = rec.auxReg ∧ rec'.pc = rec.pc ∧
    rec'.fault = rec.fault ∧ (done = true ∨ waiting = true) ∧
    (mem = s.mem ∨ (∃ r, s.mem.cacheRead s.params rec.destMemAddr .memory = (r, mem)) ∨
      ∃ r, s.mem.cacheWrite s.params rec.destMemAddr .memory rec.result = (r, mem))

theorem State.memoryPass_cases (s : State) :
    (s.memoryPass = s ∧ (s.mRec = none ∨ s.mDone = true)) ∨
    ∃ rec, s.mRec = some rec ∧ s.mDone = false ∧ MemoryStep s rec s.memoryPass ∧
      s.memoryPass.mem = s.mem := by
  unfold State.memoryPass
  rcases s.onMemory_cases _ with ⟨h, h0⟩ | ⟨rec, hr, hd, ⟨_, h⟩ | ⟨_, h⟩⟩
  · exact .inl ⟨h, h0⟩
  all_goals
    exact .inr ⟨rec, hr, hd, ⟨rec, s.mem, s.mWaiting, true, by rw [h, ← hr], rfl, rfl, rfl, rfl, rfl,
      .inl rfl, .inl rfl⟩, by rw [h]⟩

theorem State.memoryLoad_cases (s : State) (next : Word → Word) :
    (s.memoryLoad next = s ∧ (s.mRec = none ∨ s.mDone = true)) ∨
    ∃ rec, s.mRec = some rec ∧ s.mDone = false ∧ MemoryStep s rec (s.memoryLoad next) ∧
      (s.memoryLoad next).mem.ram.cells = s.mem.ram.cells := by
  unfold State.memoryLoad
  rcases s.onMemory_cases _ with ⟨h, h0⟩ | ⟨rec, hr, hd, ⟨_, h⟩ | ⟨_, h⟩⟩
  · exact .inl ⟨h, h0⟩
  · exact .inr ⟨rec, hr, hd, ⟨rec, s.mem, s.mWaiting, true, by rw [h, ← hr], rfl, rfl, rfl, rfl, rfl,
      .inl rfl, .inl rfl⟩, by rw [h]⟩
  · refine .inr ⟨rec, hr, hd, ?_⟩
    rw [h]
    rcases hm : s.mem.cacheRead s.params rec.destMemAddr .memory with ⟨r, m⟩
    have hc := MemSys.cacheRead_cells hm
    cases r with
    | success v =>
      exact ⟨⟨_, _, _, _, rfl, rfl, rfl, rfl, rfl, rfl, .inl rfl, .inr (.inl ⟨_, hm⟩)⟩, hc⟩
    | wait =>
      exact ⟨⟨rec, m, true, s.mDone, by rw [← hr], rfl, rfl, rfl, rfl, rfl, .inr rfl,
        .inr (.inl ⟨_, hm⟩)⟩, hc⟩
    | waitNextLevel =>
      exact ⟨⟨rec, m, true, s.mDone, by rw [← hr], rfl, rfl, rfl, rfl, rfl, .inr rfl,
        .inr (.inl ⟨_, hm⟩)⟩, hc⟩

theorem State.memoryStore_cases (s : State) (next : Word → Word) :
    (s.memoryStore next = s ∧ (s.mRec = none ∨ s.mDone = true)) ∨
    ∃ rec, s.mRec = some rec ∧ s.mDone = false ∧ MemoryStep s rec (s.memoryStore next) ∧
      ((s.memoryStore next).mem.ram.cells = s.mem.ram.cells ∨
        (s.memoryStore next).mem.ram.cells =
          s.mem.ram.cells.setWord (rec.destMemAddr.toNat % s.params.ramWords) rec.result) := by
  unfold State.memoryStore
  rcases s.onMemory_cases _ with ⟨h, h0⟩ | ⟨rec, hr, hd, ⟨_, h⟩ | ⟨_, h⟩⟩
  · exact .inl ⟨h, h0⟩
  · exact .inr ⟨rec, hr, hd, ⟨rec, s.mem, s.mWaiting, true, by rw [h, ← hr], rfl, rfl, rfl, rfl, rfl,
      .inl rfl, .inl rfl⟩, by rw [h]; exact .inl rfl⟩
  · refine .inr ⟨rec, hr, hd, ?_⟩
    rw [h]
    rcases hm : s.mem.cacheWrite s.params rec.destMemAddr .memory rec.result with ⟨r, m⟩
    have hc := MemSys.cacheWrite_cells hm
    cases r with
    | success v =>
      exact ⟨⟨_, _, _, _, rfl, rfl, rfl, rfl, rfl, rfl, .inl rfl, .inr (.inr ⟨_, hm⟩)⟩,
        hc.elim (fun h => .inr h.2) (fun h => .inl h.2)⟩
    | wait =>
      exact ⟨⟨rec, m, true, s.mDone, by rw [← hr], rfl, rfl, rfl, rfl, rfl, .inr rfl,
        .inr (.inr ⟨_, hm⟩)⟩,
        hc.elim (fun h => .inr h.2) (fun h => .inl h.2)⟩
    | waitNextLevel =>
      exact ⟨⟨rec, m, true, s.mDone, by rw [← hr], rfl, rfl, rfl, rfl, rfl, .inr rfl,
        .inr (.inr ⟨_, hm⟩)⟩,
        hc.elim (fun h => .inr h.2) (fun h => .inl h.2)⟩

/-! ## Write-Back -/

/-- What Write-Back's work on a record can do (R181 to R184). -/
inductive WriteBackStep (s : State) (rec : Record) (t : State) : Prop where
  | faults (k : Fault) (hk : rec.fault = some k) (eq : t = { s with wRec := none, fault := some k })
  /-- A non-Control record: its claims are released and at most two registers are written. -/
  | commits (regs : RegFile)
      (hregs : regs = (s.regs.release rec.claims).writeAux rec ∨
        ∃ rd, regs = ((s.regs.release rec.claims).writeOrKeep rd rec.result).writeAux rec)
      (hf : rec.fault = none) (eq : t = { s with wRec := none, regs := regs })
  /-- A Control record that is not taken. -/
  | notTaken (hf : rec.fault = none) (hb : rec.branchTaken = false) (eq : t = { s with wRec := none })
  /-- A Control record that is taken. -/
  | jumps (hf : rec.fault = none) (hb : rec.branchTaken = true)
      (eq : t = State.squashAll
        { s with
          wRec := none
          regs := if rec.auxReg = 0#5 then s.regs else s.regs.writeNb rec.auxReg (rec.pc + 1#32)
          pc := rec.destMemAddr })

theorem State.commitNone_cases (s : State) :
    (s.commitNone = s ∧ s.wRec = none) ∨
    ∃ rec, s.wRec = some rec ∧ WriteBackStep s rec s.commitNone := by
  unfold State.commitNone
  rcases s.onWriteBack_cases _ with h | ⟨rec, hr, ⟨k, hk, h⟩ | ⟨hf, h⟩⟩
  · exact .inl h
  · exact .inr ⟨rec, hr, .faults k hk h⟩
  · exact .inr ⟨rec, hr, .commits _ (.inl rfl) hf h⟩

theorem State.commitResult_cases (s : State) (rd : Reg) :
    (s.commitResult rd = s ∧ s.wRec = none) ∨
    ∃ rec, s.wRec = some rec ∧ WriteBackStep s rec (s.commitResult rd) := by
  unfold State.commitResult
  rcases s.onWriteBack_cases _ with h | ⟨rec, hr, ⟨k, hk, h⟩ | ⟨hf, h⟩⟩
  · exact .inl h
  · exact .inr ⟨rec, hr, .faults k hk h⟩
  · refine .inr ⟨rec, hr, ?_⟩
    rw [h]
    split
    · exact .commits _ (.inr ⟨rd, rfl⟩) hf rfl
    · exact .commits _ (.inl rfl) hf rfl

theorem State.commitBranch_cases (s : State) :
    (s.commitBranch = s ∧ s.wRec = none) ∨
    ∃ rec, s.wRec = some rec ∧ WriteBackStep s rec s.commitBranch := by
  unfold State.commitBranch
  rcases s.onWriteBack_cases _ with h | ⟨rec, hr, ⟨k, hk, h⟩ | ⟨hf, h⟩⟩
  · exact .inl h
  · exact .inr ⟨rec, hr, .faults k hk h⟩
  · refine .inr ⟨rec, hr, ?_⟩
    rw [h]
    split
    · next hb => exact .jumps hf hb rfl
    · next hb => exact .notTaken hf (by simpa using hb) rfl

/-! ## `exec` at each stage -/

/-- A meaning answers a next state, the work of the stage whose turn it is. -/
theorem State.atStage_eq (s d x m w : State) :
    s.atStage d x m w =
      .next (match s.stage with
        | .decode => d
        | .execute => x
        | .memory => m
        | .writeBack => w) := by
  unfold State.atStage; cases s.stage <;> rfl

/-- A meaning always answers a next state. -/
theorem exec_answers (i : Instr) (s : State) : ∃ t, exec i s = .next t := by
  cases i <;> exact ⟨_, State.atStage_eq ..⟩

/-- At Decode's turn (R160 to R165). -/
theorem exec_decode {s t : State} {i : Instr} (hs : s.stage = .decode) (h : exec i s = .next t) :
    (t = s ∧ (s.dRec = none ∨ s.dState = .free)) ∨
      ∃ rec, s.dRec = some rec ∧ s.dState ≠ .free ∧ DecodeStep s rec t := by
  cases i <;>
    simp only [exec, execAddI, execSubI, execMulI, execAndI, execXorI, execOrI, execNotI, execNegI,
      execShrI, execSarI, execShlI, execRolI, execLdi, execLdx, execCmpI, execAddR, execSubR,
      execMulR, execDivR, execRemR, execOrR, execXorR, execAndR, execNotR, execShlR, execShrR,
      execSarR, execRolR, execCmpR, execCpy, execNsa, execLdw, execPop, execPush, execStw, execBeq,
      execBne, execBlt, execBge, execBlu, execBae, execBa, execBof, execBnf, execBunc, execCall,
      execHlt, State.regImm, State.regReg, State.branch, State.atStage, hs,
      Host.Outcome.next.injEq] at h <;>
    subst h <;>
    first
      | exact s.decodeRegImm_cases _ _
      | exact s.decodeRegReg_cases _ _
      | exact s.decodeLoadStore_cases _ _ _ _ _ _
      | exact s.decodeBranch_cases _ _ _
      | exact s.decodeHalt_cases

/-- At Decode's turn with a record to decode the work is never empty (R160). -/
theorem exec_decode_step {s t : State} {rec : Record} {i : Instr} (hs : s.stage = .decode)
    (hr : s.dRec = some rec) (hf : s.dState ≠ .free) (h : exec i s = .next t) :
    DecodeStep s rec t := by
  rcases exec_decode hs h with ⟨_, hn | hn⟩ | ⟨rec', hr', _, hd⟩
  · rw [hr] at hn; cases hn
  · exact absurd hn hf
  · rw [hr] at hr'; cases hr'; exact hd

/-- At Execute's turn (R170 to R173). -/
theorem exec_execute {s t : State} {i : Instr} (hs : s.stage = .execute) (h : exec i s = .next t) :
    (t = s ∧ (s.xRec = none ∨ s.xDone = true)) ∨
      ∃ rec, s.xRec = some rec ∧ s.xDone = false ∧ ExecuteStep s rec t := by
  have weaken : ∀ {u : State}, ((u = s ∧ (s.xRec = none ∨ s.xDone = true)) ∨ ∃ rec, s.xRec = some rec ∧ s.xDone = false ∧
      ExecuteStep s rec u ∧ u.flags = s.flags) →
      ((u = s ∧ (s.xRec = none ∨ s.xDone = true)) ∨ ∃ rec, s.xRec = some rec ∧ s.xDone = false ∧ ExecuteStep s rec u) := by
    rintro u (h | ⟨rec, h1, h2, h3, _⟩)
    · exact .inl h
    · exact .inr ⟨rec, h1, h2, h3⟩
  cases i <;>
    simp only [exec, execAddI, execSubI, execMulI, execAndI, execXorI, execOrI, execNotI, execNegI,
      execShrI, execSarI, execShlI, execRolI, execLdi, execLdx, execCmpI, execAddR, execSubR,
      execMulR, execDivR, execRemR, execOrR, execXorR, execAndR, execNotR, execShlR, execShrR,
      execSarR, execRolR, execCmpR, execCpy, execNsa, execLdw, execPop, execPush, execStw, execBeq,
      execBne, execBlt, execBge, execBlu, execBae, execBa, execBof, execBnf, execBunc, execCall,
      execHlt, State.regImm, State.regReg, State.branch, State.atStage, hs,
      Host.Outcome.next.injEq] at h <;>
    subst h <;>
    first
      | exact s.executeAlu_cases _ _
      | exact weaken s.executeAddress_cases
      | exact weaken s.executeNothing_cases
      | exact weaken (s.executeBranch_cases _)

/-- At Memory's turn (R176 to R178). -/
theorem exec_memory {s t : State} {i : Instr} (hs : s.stage = .memory) (h : exec i s = .next t) :
    (t = s ∧ (s.mRec = none ∨ s.mDone = true)) ∨
      ∃ rec, s.mRec = some rec ∧ s.mDone = false ∧ MemoryStep s rec t := by
  have weaken : ∀ {u : State} {P : Record → Prop}, ((u = s ∧ (s.mRec = none ∨ s.mDone = true)) ∨ ∃ rec, s.mRec = some rec ∧
      s.mDone = false ∧ MemoryStep s rec u ∧ P rec) →
      ((u = s ∧ (s.mRec = none ∨ s.mDone = true)) ∨ ∃ rec, s.mRec = some rec ∧ s.mDone = false ∧ MemoryStep s rec u) := by
    rintro u P (h | ⟨rec, h1, h2, h3, _⟩)
    · exact .inl h
    · exact .inr ⟨rec, h1, h2, h3⟩
  cases i <;>
    simp only [exec, execAddI, execSubI, execMulI, execAndI, execXorI, execOrI, execNotI, execNegI,
      execShrI, execSarI, execShlI, execRolI, execLdi, execLdx, execCmpI, execAddR, execSubR,
      execMulR, execDivR, execRemR, execOrR, execXorR, execAndR, execNotR, execShlR, execShrR,
      execSarR, execRolR, execCmpR, execCpy, execNsa, execLdw, execPop, execPush, execStw, execBeq,
      execBne, execBlt, execBge, execBlu, execBae, execBa, execBof, execBnf, execBunc, execCall,
      execHlt, State.regImm, State.regReg, State.branch, State.atStage, hs,
      Host.Outcome.next.injEq] at h <;>
    subst h <;>
    first
      | exact weaken (P := fun _ => s.memoryPass.mem = s.mem) s.memoryPass_cases
      | exact weaken
          (P := fun _ => (s.memoryLoad _).mem.ram.cells = s.mem.ram.cells) (s.memoryLoad_cases _)
      | exact weaken (P := fun rec => _ ∨ (s.memoryStore _).mem.ram.cells =
          s.mem.ram.cells.setWord (rec.destMemAddr.toNat % s.params.ramWords) rec.result)
          (s.memoryStore_cases _)

/-- At Write-Back's turn (R180 to R184). -/
theorem exec_writeBack {s t : State} {i : Instr} (hs : s.stage = .writeBack)
    (h : exec i s = .next t) :
    (t = s ∧ s.wRec = none) ∨ ∃ rec, s.wRec = some rec ∧ WriteBackStep s rec t := by
  cases i <;>
    simp only [exec, execAddI, execSubI, execMulI, execAndI, execXorI, execOrI, execNotI, execNegI,
      execShrI, execSarI, execShlI, execRolI, execLdi, execLdx, execCmpI, execAddR, execSubR,
      execMulR, execDivR, execRemR, execOrR, execXorR, execAndR, execNotR, execShlR, execShrR,
      execSarR, execRolR, execCmpR, execCpy, execNsa, execLdw, execPop, execPush, execStw, execBeq,
      execBne, execBlt, execBge, execBlu, execBae, execBa, execBof, execBnf, execBunc, execCall,
      execHlt, State.regImm, State.regReg, State.branch, State.atStage, hs,
      Host.Outcome.next.injEq] at h <;>
    subst h <;>
    first
      | exact s.commitResult_cases _
      | exact s.commitBranch_cases

end Sys2Proof.Machine
end

