-- ==== Sys2Proof/Laws/Tick.lean ====
section
/-! SUPPORT. What each part of a tick can do, said once (spec/40_pipeline.md R140 to R180). -/

namespace Sys2Proof.Machine

/-- Write-Back's part of a tick (R180). -/
theorem State.writeBackExecute_cases (s : State) :
    (s.wRec = none ∧ s.writeBackExecute = .next s) ∨
    ∃ rec t, s.wRec = some rec ∧ s.writeBackExecute = .next t ∧
      WriteBackStep { s with stage := .writeBack } rec t := by
  unfold State.writeBackExecute
  split
  · next h => exact .inl ⟨h, rfl⟩
  · next rec h =>
    refine .inr ⟨rec, ?_⟩
    have plain : ∃ t, Host.Outcome.next (φ := Fault) (ρ := Refusal)
          (State.commitNone { s with stage := .writeBack }) = .next t ∧
        WriteBackStep { s with stage := .writeBack } rec t := by
      rcases State.commitNone_cases { s with stage := .writeBack } with ⟨_, hn⟩ | ⟨rec', hr, hw⟩
      · rw [h] at hn; cases hn
      · rw [h] at hr; cases hr; exact ⟨_, rfl, hw⟩
    split
    · next i _ =>
      obtain ⟨t, ht⟩ := exec_answers i { s with stage := .writeBack }
      rcases exec_writeBack rfl ht with ⟨_, hn⟩ | ⟨rec', hr, hw⟩
      · rw [h] at hn; cases hn
      · rw [h] at hr; cases hr; exact ⟨t, h, ht, hw⟩
    · obtain ⟨t, ht, hw⟩ := plain; exact ⟨t, h, ht, hw⟩
    · obtain ⟨t, ht, hw⟩ := plain; exact ⟨t, h, ht, hw⟩

/-- Memory's part of a tick (R176): it leaves the state but for its own latch and the memory. -/
theorem State.memoryExecute_cases (s : State) :
    (s.mRec = none ∧ s.memoryExecute = .next s) ∨
    ∃ rec t, s.mRec = some rec ∧ s.memoryExecute = .next t ∧
      (t = { s with stage := .memory } ∧ s.mDone = true ∨
        s.mDone = false ∧ MemoryStep { s with stage := .memory } rec t) := by
  unfold State.memoryExecute
  split
  · next h => exact .inl ⟨h, rfl⟩
  · next rec h =>
    refine .inr ⟨rec, ?_⟩
    have plain : ∃ t, Host.Outcome.next (φ := Fault) (ρ := Refusal)
          (State.memoryPass { s with stage := .memory }) = .next t ∧
        (t = { s with stage := .memory } ∧ s.mDone = true ∨
          s.mDone = false ∧ MemoryStep { s with stage := .memory } rec t) := by
      rcases State.memoryPass_cases { s with stage := .memory } with ⟨ht, hn | hn⟩ | ⟨rec', hr, hd, hm, _⟩
      · rw [h] at hn; cases hn
      · exact ⟨_, rfl, .inl ⟨ht, hn⟩⟩
      · rw [h] at hr; cases hr; exact ⟨_, rfl, .inr ⟨hd, hm⟩⟩
    split
    · next i _ =>
      obtain ⟨t, ht⟩ := exec_answers i { s with stage := .memory }
      rcases exec_memory rfl ht with ⟨he, hn | hn⟩ | ⟨rec', hr, hd, hm⟩
      · rw [h] at hn; cases hn
      · exact ⟨t, h, ht, .inl ⟨he, hn⟩⟩
      · rw [h] at hr; cases hr; exact ⟨t, h, ht, .inr ⟨hd, hm⟩⟩
    · obtain ⟨t, ht, hm⟩ := plain; exact ⟨t, h, ht, hm⟩
    · obtain ⟨t, ht, hm⟩ := plain; exact ⟨t, h, ht, hm⟩

/-- Execute's part of a tick (R170). -/
theorem State.executeExecute_cases (s : State) :
    (s.xRec = none ∧ s.executeExecute = .next s) ∨
    ∃ rec t, s.xRec = some rec ∧ s.executeExecute = .next t ∧
      (t = { s with stage := .execute } ∧ s.xDone = true ∨
        s.xDone = false ∧ ExecuteStep { s with stage := .execute } rec t) := by
  unfold State.executeExecute
  split
  · next h => exact .inl ⟨h, rfl⟩
  · next rec h =>
    refine .inr ⟨rec, ?_⟩
    have plain : ∃ t, Host.Outcome.next (φ := Fault) (ρ := Refusal)
          (State.executeNothing { s with stage := .execute }) = .next t ∧
        (t = { s with stage := .execute } ∧ s.xDone = true ∨
          s.xDone = false ∧ ExecuteStep { s with stage := .execute } rec t) := by
      rcases State.executeNothing_cases { s with stage := .execute } with ⟨ht, hn | hn⟩ | ⟨rec', hr, hd, hx, _⟩
      · rw [h] at hn; cases hn
      · exact ⟨_, rfl, .inl ⟨ht, hn⟩⟩
      · rw [h] at hr; cases hr; exact ⟨_, rfl, .inr ⟨hd, hx⟩⟩
    split
    · next i _ =>
      obtain ⟨t, ht⟩ := exec_answers i { s with stage := .execute }
      rcases exec_execute rfl ht with ⟨he, hn | hn⟩ | ⟨rec', hr, hd, hx⟩
      · rw [h] at hn; cases hn
      · exact ⟨t, h, ht, .inl ⟨he, hn⟩⟩
      · rw [h] at hr; cases hr; exact ⟨t, h, ht, .inr ⟨hd, hx⟩⟩
    · obtain ⟨t, ht, hx⟩ := plain; exact ⟨t, h, ht, hx⟩
    · obtain ⟨t, ht, hx⟩ := plain; exact ⟨t, h, ht, hx⟩

/-- Decode's part of a tick (R160). -/
theorem State.decodeExecute_cases (s : State) :
    ((s.dRec = none ∨ s.dState = .free) ∧ s.decodeExecute = .next s) ∨
    ∃ rec t, s.dRec = some rec ∧ s.dState ≠ .free ∧ s.decodeExecute = .next t ∧
      ((∃ i, decode rec.raw = .ok i ∧
          DecodeStep { s with dRec := some { rec with op := .instr i }, stage := .decode }
            { rec with op := .instr i } t) ∨
        (∃ e, decode rec.raw = .error e) ∧
          t = State.decodeInvalid { s with stage := .decode }) := by
  unfold State.decodeExecute
  split
  · next h => exact .inl ⟨.inl h, rfl⟩
  · next rec h =>
    split
    · next hf => exact .inl ⟨.inr hf, rfl⟩
    · next hf =>
      refine .inr ⟨rec, ?_⟩
      split
      · next i hi =>
        obtain ⟨t, ht⟩ :=
          exec_answers i { s with dRec := some { rec with op := .instr i }, stage := .decode }
        refine ⟨t, h, hf, ht, .inl ⟨i, hi, ?_⟩⟩
        exact exec_decode_step rfl rfl hf ht
      · next e he => exact ⟨_, h, hf, rfl, .inr ⟨⟨e, he⟩, rfl⟩⟩

/-- Fetch's part of a tick (R150, R151): it clears its squash bit, does nothing, or makes one request. -/
theorem State.fetchExecute_cases (s : State) :
    (s.fSquashed = true ∧ s.fetchExecute = { s with fSquashed := false }) ∨
    (s.fSquashed = false ∧ (s.fRec ≠ none ∨ s.haltPending = true ∨ s.scalarHold = true) ∧
      s.fetchExecute = s) ∨
    (s.fSquashed = false ∧ s.fRec = none ∧ s.haltPending = false ∧ s.scalarHold = false ∧
      ∃ r m, s.mem.cacheRead s.params s.pc .fetch = (r, m) ∧
        (s.fetchExecute = { s with mem := m } ∨
          ∃ v, r = .success v ∧ v ≠ 0#32 ∧
            s.fetchExecute =
              { s with mem := m, fRec := some (newRecord v s.pc), pc := s.pc + 1#32 })) := by
  unfold State.fetchExecute
  by_cases hq : s.fSquashed = true
  · exact .inl ⟨hq, by rw [if_pos hq]⟩
  · rw [if_neg hq]
    have hq' : s.fSquashed = false := by simpa using hq
    by_cases hh : s.fetchHeld = true
    · rw [if_pos hh]
      refine .inr (.inl ⟨hq', ?_, rfl⟩)
      simp only [State.fetchHeld, Bool.or_eq_true, Option.isSome_iff_ne_none] at hh
      tauto
    · rw [if_neg hh]
      simp only [State.fetchHeld, Bool.or_eq_true, not_or, Bool.not_eq_true, Option.isSome_eq_false_iff,
        Option.isNone_iff_eq_none] at hh
      refine .inr (.inr ⟨hq', hh.1.1, hh.1.2, hh.2, ?_⟩)
      rcases hm : s.mem.cacheRead s.params s.pc .fetch with ⟨r, m⟩
      refine ⟨r, m, rfl, ?_⟩
      cases r with
      | success v =>
        by_cases h0 : v = 0#32
        · exact .inl (by simp [State.acceptFetch, h0])
        · exact .inr ⟨v, rfl, h0, by simp [State.acceptFetch, h0]⟩
      | wait => exact .inl rfl
      | waitNextLevel => exact .inl rfl

/-- The parts of a running machine's tick: Write-Back's alone if it raises a fault, else all of them. -/
theorem State.tick_cases {s : State} (h : s.stopped = false) :
    ∃ s1, s.writeBackExecute = .next s1 ∧
      ((s1.fault ≠ none ∧ s.tick = .next s1) ∨
        (s1.fault = none ∧ ∃ s2 s3 s4, s1.memoryExecute = .next s2 ∧
          s2.executeExecute = .next s3 ∧ s3.decodeExecute = .next s4 ∧
          s.tick = .next s4.fetchExecute.advance.endTick)) := by
  have hw : ∃ s1, s.writeBackExecute = .next s1 := by
    rcases s.writeBackExecute_cases with ⟨_, h⟩ | ⟨_, t, _, h, _⟩ <;> exact ⟨_, h⟩
  obtain ⟨s1, h1⟩ := hw
  refine ⟨s1, h1, ?_⟩
  unfold State.tick
  rw [if_neg (by simp [h]), h1]
  by_cases hf : s1.fault = none
  · refine .inr ⟨hf, ?_⟩
    have hm : ∃ s2, s1.memoryExecute = .next s2 := by
      rcases s1.memoryExecute_cases with ⟨_, h⟩ | ⟨_, t, _, h, _⟩ <;> exact ⟨_, h⟩
    obtain ⟨s2, h2⟩ := hm
    have hx : ∃ s3, s2.executeExecute = .next s3 := by
      rcases s2.executeExecute_cases with ⟨_, h⟩ | ⟨_, t, _, h, _⟩ <;> exact ⟨_, h⟩
    obtain ⟨s3, h3⟩ := hx
    have hd : ∃ s4, s3.decodeExecute = .next s4 := by
      rcases s3.decodeExecute_cases with ⟨_, h⟩ | ⟨_, t, _, _, h, _⟩ <;> exact ⟨_, h⟩
    obtain ⟨s4, h4⟩ := hd
    exact ⟨s2, s3, s4, h2, h3, h4, by simp [State.middleExecute, andThen, hf, h2, h3, h4]⟩
  · exact .inl ⟨hf, by simp [andThen, Option.isSome_iff_ne_none, hf]⟩

end Sys2Proof.Machine
end

