-- ==== Sys2Proof/Laws/Timing.lean ====
section
/-! SUPPORT. Runs and the software rules of spec/70_reset_and_hazards.md R351 to R353: a stopped machine adds
nothing to them, so a run that stops need be looked at only up to its stop. -/

namespace Sys2Proof.Machine

theorem step_of_stopped {s : State} (h : s.stopped = true) : step s = .next s := by
  show s.tick = .next s
  rw [State.tick, if_pos h]

@[simp] theorem State.trace_zero (s : State) : s.trace 0 = [] := rfl

theorem State.trace_succ {s t : State} (h : step s = .next t) (k : Nat) :
    s.trace (k + 1) = s :: t.trace k := by
  simp only [State.trace, h]

theorem run_succ {s t : State} (h : step s = .next t) (k : Nat) :
    Host.Core.run core (k + 1) s = Host.Core.run core k t := by
  have h' : core.step s = .next t := h
  simp only [Host.Core.run, h']

theorem State.retired_of_stopped {s : State} (h : s.stopped = true) : s.retired = none := if_pos h

theorem State.memoryWork_of_stopped {s : State} (h : s.stopped = true) : s.memoryWork = none := by
  simp [State.memoryWork, h]

theorem State.missingStore_of_stopped {s : State} (h : s.stopped = true) : s.missingStore = none := by
  simp [State.missingStore, State.memoryWork_of_stopped h]

theorem State.loadAddress_of_stopped {s : State} (h : s.stopped = true) : s.loadAddress = none := by
  simp [State.loadAddress, State.memoryWork_of_stopped h]

theorem State.fetchAddress_of_stopped {s : State} (h : s.stopped = true) : s.fetchAddress = none :=
  if_pos h

/-- A stopped machine reads nothing. -/
theorem neighboursUnread_of_stopped {s : State} (h : s.stopped = true) (p : Params) (a : Word)
    (written : List Word) (k : Nat) : neighboursUnread p a written (s.trace k) = true := by
  induction k generalizing written with
  | zero => rfl
  | succ k ih =>
    simp [State.trace_succ (step_of_stopped h), neighboursUnread, State.loadAddress_of_stopped h,
      State.fetchAddress_of_stopped h, ih]

/-- A stopped machine stores nothing. -/
theorem linesReadable_of_stopped {s : State} (h : s.stopped = true) (p : Params) (k : Nat) :
    linesReadable p (s.trace k) = true := by
  induction k with
  | zero => rfl
  | succ k ih =>
    simp [State.trace_succ (step_of_stopped h), linesReadable, State.missingStore_of_stopped h, ih]

/-- What is not read up to the machine's stop is never read. -/
theorem neighboursUnread_of_run {s t : State} {n : Nat} (hr : Host.Core.run core n s = .next t)
    (ht : t.stopped = true) {p : Params} {a : Word} {written : List Word}
    (h : neighboursUnread p a written (s.trace n) = true) (k : Nat) :
    neighboursUnread p a written (s.trace k) = true := by
  induction n generalizing s written k with
  | zero =>
    cases hr
    exact neighboursUnread_of_stopped ht p a written k
  | succ n ih =>
    cases k with
    | zero => rfl
    | succ k =>
      rcases hs : step s with u | _ | _
      · rw [run_succ hs] at hr
        rw [State.trace_succ hs] at h ⊢
        simp only [neighboursUnread, Bool.or_eq_true, Bool.and_eq_true] at h ⊢
        exact h.imp_right fun h => ⟨h.1, ih hr h.2 k⟩
      all_goals
        have hs' : core.step s = _ := hs
        simp [Host.Core.run, hs'] at hr

/-- The software rule of R353 holds of a run that stops if it holds up to the stop. -/
theorem State.keepsLineRule_of_run {s t : State} {n : Nat} (hr : Host.Core.run core n s = .next t)
    (ht : t.stopped = true) (h : linesReadable s.params (s.trace n) = true) : s.KeepsLineRule := by
  intro k
  generalize s.params = p at h ⊢
  induction n generalizing s k with
  | zero =>
    cases hr
    exact linesReadable_of_stopped ht p k
  | succ n ih =>
    cases k with
    | zero => rfl
    | succ k =>
      rcases hs : step s with u | _ | _
      · rw [run_succ hs] at hr
        rw [State.trace_succ hs] at h ⊢
        simp only [linesReadable, Bool.and_eq_true] at h ⊢
        refine ⟨?_, ih hr k h.2⟩
        rcases hm : s.missingStore with _ | a
        · rfl
        · simp only [hm, Bool.and_eq_true] at h ⊢
          exact ⟨h.1.1, neighboursUnread_of_run hr ht h.1.2 k⟩
      all_goals
        have hs' : core.step s = _ := hs
        simp [Host.Core.run, hs'] at hr

end Sys2Proof.Machine
end

