-- ==== Sys2Proof/Tests/Slice0.lean ====
section
/-! SUPPORT. The model's own tests: the WellFormed smoke, the decoding of words the spec spells out, one
stage's work of each instruction on the spec's worked examples (spec/41_regimm_alu.md to
spec/44_control.md), and a witness for the hypotheses of every statement. -/

namespace Sys2Proof.Tests

open Sys2Proof.Machine

/-! ## WellFormed -/

theorem test_wellFormed_refuses_branch_on_halt_operands :
    (Instr.beq 0#5 0xFFFF#16).wellFormed = false ∧ (Instr.bne 0#5 0xFFFF#16).wellFormed = false ∧
    (Instr.blt 0#5 0xFFFF#16).wellFormed = false ∧ (Instr.bge 0#5 0xFFFF#16).wellFormed = false ∧
    (Instr.blu 0#5 0xFFFF#16).wellFormed = false ∧ (Instr.bae 0#5 0xFFFF#16).wellFormed = false ∧
    (Instr.ba 0#5 0xFFFF#16).wellFormed = false ∧ (Instr.bof 0#5 0xFFFF#16).wellFormed = false ∧
    (Instr.bnf 0#5 0xFFFF#16).wellFormed = false ∧ (Instr.bunc 0#5 0xFFFF#16).wellFormed = false ∧
    (Instr.call 0#5 0xFFFF#16).wellFormed = false := by decide

theorem test_wellFormed_accepts_same_operands_of_other_forms :
    (Instr.bunc 1#5 0xFFFF#16).wellFormed = true ∧ (Instr.bunc 0#5 0xFFFE#16).wellFormed = true ∧
    (Instr.addI 0#5 0xFFFF#16).wellFormed = true := by decide

/-! ## Decoding: every constructor, from words the spec writes out -/

/-- The decoded instruction, if the word is one. -/
def decoded (w : Word) : Option Instr :=
  match decode w with
  | .ok i => some i
  | .error _ => none

/-- Worked examples of R201 to R215. -/
theorem test_decode_regImm :
    decoded 0x00100041#32 = some (.addI 4#5 16#16) ∧
    decoded 0x00100241#32 = some (.subI 4#5 16#16) ∧
    decoded 0x00070411#32 = some (.mulI 1#5 7#16) ∧
    decoded 0x0FF00611#32 = some (.andI 1#5 0x0FF0#16) ∧
    decoded 0xFFFF0811#32 = some (.xorI 1#5 0xFFFF#16) ∧
    decoded 0x00FF0A11#32 = some (.orI 1#5 0x00FF#16) ∧
    decoded 0x00FF0C11#32 = some (.notI 1#5 0x00FF#16) ∧
    decoded 0x00050E11#32 = some (.negI 1#5 5#16) ∧
    decoded 0x00241011#32 = some (.shrI 1#5 36#16) ∧
    decoded 0x001E1211#32 = some (.sarI 1#5 30#16) ∧
    decoded 0x001F1411#32 = some (.shlI 1#5 31#16) ∧
    decoded 0x00081611#32 = some (.rolI 1#5 8#16) ∧
    decoded 0x234518B1#32 = some (.ldi 11#5 0x2345#16) ∧
    decoded 0x12341A11#32 = some (.ldx 1#5 0x1234#16) ∧
    decoded 0x02001C61#32 = some (.cmpI 6#5 0x0200#16) := by decide

/-- Worked examples of R231 to R246. -/
theorem test_decode_regReg :
    decoded 0x00004015#32 = some (.addR 1#5 2#5) ∧
    decoded 0x00004215#32 = some (.subR 1#5 2#5) ∧
    decoded 0x0000A445#32 = some (.mulR 4#5 5#5) ∧
    decoded 0x00004615#32 = some (.divR 1#5 2#5) ∧
    decoded 0x00004815#32 = some (.remR 1#5 2#5) ∧
    decoded 0x00004A15#32 = some (.orR 1#5 2#5) ∧
    decoded 0x00004C15#32 = some (.xorR 1#5 2#5) ∧
    decoded 0x00004E15#32 = some (.andR 1#5 2#5) ∧
    decoded 0x00005015#32 = some (.notR 1#5 2#5) ∧
    decoded 0x00005215#32 = some (.shlR 1#5 2#5) ∧
    decoded 0x00005415#32 = some (.shrR 1#5 2#5) ∧
    decoded 0x00005615#32 = some (.sarR 1#5 2#5) ∧
    decoded 0x00005815#32 = some (.rolR 1#5 2#5) ∧
    decoded 0x00005A15#32 = some (.cmpR 1#5 2#5) ∧
    decoded 0x00005C15#32 = some (.cpy 1#5 2#5) ∧
    decoded 0x00005E15#32 = some (.nsa 1#5 2#5) := by decide

/-- Worked examples of R261 to R264; PUSH with its ignored fields set. -/
theorem test_decode_loadStore :
    decoded 0xFFFE0829#32 = some (.ldw 2#5 1#5 0xFFFE#16) ∧
    decoded 0x00000239#32 = some (.pop 3#5 0#5 0#16) ∧
    decoded 0x12344C79#32 = some (.push 7#5 9#5 0x1234#16) ∧
    decoded 0x02002E49#32 = some (.stw 4#5 5#5 0x0200#16) := by decide

/-- Canonical encodings of R283 to R294 with `RMem = 5` and `Imm = 3` (`| RMem<<4 | Imm<<16`), R296's
words, and `BUNC [r5-1]` of R293. -/
theorem test_decode_control :
    decoded 0x0003025D#32 = some (.beq 5#5 3#16) ∧ decoded 0x0003005D#32 = some (.bne 5#5 3#16) ∧
    decoded 0x00032C5D#32 = some (.blt 5#5 3#16) ∧ decoded 0x00036C5D#32 = some (.bge 5#5 3#16) ∧
    decoded 0x0003905D#32 = some (.blu 5#5 3#16) ∧ decoded 0x0003105D#32 = some (.bae 5#5 3#16) ∧
    decoded 0x0003505D#32 = some (.ba 5#5 3#16) ∧ decoded 0x0003885D#32 = some (.bof 5#5 3#16) ∧
    decoded 0x0003085D#32 = some (.bnf 5#5 3#16) ∧ decoded 0xFFFFE05D#32 = some (.bunc 5#5 0xFFFF#16) ∧
    decoded 0x0003FE0D#32 = some (.call 0#5 3#16) ∧
    decoded 0xFFFFE00D#32 = some (.hlt 0b111#3 0b0000#4) ∧
    decoded 0xFFFF1E0D#32 = some (.hlt 0b000#3 0b1111#4) := by decide

/-- R124, R217, R295: the three classes with no meaning. -/
theorem test_decode_rejects :
    decode 0x00000002#32 = .error .notIntegerType ∧ decode 0x00001E01#32 = .error .regImmAlu15 ∧
    decode 0x0000200D#32 = .error .unlistedControlPair := ⟨rfl, rfl, rfl⟩

/-- R126: RegImm bits 15..13 and RegReg bits 31..18 are ignored; an encoder writes 0. -/
theorem test_decode_ignores_reserved_bits :
    decoded 0x0010E041#32 = some (.addI 4#5 16#16) ∧
    decoded 0xFFFC4015#32 = some (.addR 1#5 2#5) ∧
    encode (.addI 4#5 16#16) = 0x00100041#32 ∧ encode (.addR 1#5 2#5) = 0x00004015#32 := by decide

/-- The host's numbering of a row's bits. -/
theorem test_decodeTableWord :
    decodeTableWord 32 0xFFFFE00D = some (.hlt 0b111#3 0b0000#4) ∧ decodeTableWord 32 2 = none := by
  decide

/-! ## Small states -/

/-- Parameters of the spec's test vectors (spec/95_test_vectors.md, Conventions), with DIV_SIGNED and scalar
mode as given. -/
def params (scalar signed : Bool) : Params :=
  { ramWords := 1024, ramDelay := 0, sets := 0, ways := 0, lineWords := 0, cacheDelay := 0
    scalar := scalar, divSigned := signed }

/-- The state after reset with word `w` at address 0. -/
def machine (scalar signed : Bool) (w : Word) : State :=
  State.resetWith (params scalar signed) (RamCells.setWord [] 0 w)

/-- A register file with one register preset. -/
def preset (s : State) (r : Reg) (v : Word) : State := { s with regs := s.regs.writeNb r v }

/-- Execute's turn on a record with these operands. -/
def atX (signed : Bool) (op1 op2 : Word) : State :=
  { machine false signed 0#32 with
    stage := .execute
    xRec := some { newRecord 0#32 0#32 with result := op1, operand := op2, writeBack := true } }

/-- The result and the flags CF OVF ZF SF that Execute left, if the record is not marked. -/
def aluOf (o : Outcome State) : Option (Word × Bool × Bool × Bool × Bool) :=
  match o with
  | .next t =>
    match t.xRec with
    | some rec =>
      if rec.fault = none then
        some (rec.result, t.flags.cf, t.flags.ovf, t.flags.zf, t.flags.sf)
      else none
    | none => none
  | _ => none

/-- The mark Execute left on the record, and whether it kept its write-back. -/
def markOf (o : Outcome State) : Option (Option Fault × Bool) :=
  match o with
  | .next t => t.xRec.map fun rec => (rec.fault, rec.writeBack)
  | _ => none

/-! ## Execute: worked examples of R201 to R215 and R231 to R246 -/

theorem test_add : aluOf (exec (.addI 1#5 1#16) (atX false 0x7FFFFFFF#32 1#32)) =
      some (0x80000000#32, false, true, false, true) ∧
    aluOf (exec (.addR 1#5 2#5) (atX false 0x80000000#32 0x80000000#32)) =
      some (0#32, true, true, true, false) := by decide

theorem test_sub : aluOf (exec (.subI 1#5 1#16) (atX false 0#32 1#32)) =
      some (0xFFFFFFFF#32, true, false, false, true) ∧
    aluOf (exec (.subR 1#5 2#5) (atX false 0x7FFFFFFF#32 0x80000000#32)) =
      some (0xFFFFFFFF#32, true, true, false, true) := by decide

theorem test_mul : aluOf (exec (.mulI 1#5 2#16) (atX false 0xFFFFFFFF#32 2#32)) =
      some (0xFFFFFFFE#32, true, false, false, true) ∧
    aluOf (exec (.mulR 1#5 2#5) (atX false 0x10000#32 0x10000#32)) =
      some (0#32, true, true, true, false) := by decide

theorem test_div : aluOf (exec (.divR 1#5 2#5) (atX false 0xFFFFFF9C#32 7#32)) =
      some (0x24924916#32, false, false, false, false) ∧
    aluOf (exec (.divR 1#5 2#5) (atX true 0x80000000#32 0xFFFFFFFF#32)) =
      some (0x80000000#32, false, false, false, true) := by decide

theorem test_rem : aluOf (exec (.remR 1#5 2#5) (atX false 0x80000000#32 0xFFFFFFFF#32)) =
      some (0x80000000#32, false, false, false, true) ∧
    aluOf (exec (.remR 1#5 2#5) (atX true 0xFFFFFF9C#32 7#32)) =
      some (0xFFFFFFFE#32, false, false, false, true) := by decide

theorem test_divide_by_zero :
    markOf (exec (.divR 1#5 2#5) (atX false 5#32 0#32)) = some (some .divideByZero, false) ∧
    markOf (exec (.remR 1#5 2#5) (atX true 5#32 0#32)) = some (some .divideByZero, false) := by decide

theorem test_and : aluOf (exec (.andI 1#5 0x0FF0#16) (atX false 0x12345678#32 0x0FF0#32)) =
      some (0x00000670#32, false, false, false, false) ∧
    aluOf (exec (.andR 1#5 2#5) (atX false 0xFFFF0000#32 0xFF00FF00#32)) =
      some (0xFF000000#32, false, false, false, true) := by decide

theorem test_xor : aluOf (exec (.xorI 1#5 0xFFFF#16) (atX false 0x12345678#32 0xFFFFFFFF#32)) =
      some (0xEDCBA987#32, false, false, false, true) ∧
    aluOf (exec (.xorR 1#5 2#5) (atX false 0xFFFF0000#32 0xFF00FF00#32)) =
      some (0x00FFFF00#32, false, false, false, false) := by decide

theorem test_or : aluOf (exec (.orI 1#5 0xFF#16) (atX false 0x12340000#32 0xFF#32)) =
      some (0x123400FF#32, false, false, false, false) ∧
    aluOf (exec (.orR 1#5 2#5) (atX false 0xF0F00000#32 0x0000F0F0#32)) =
      some (0xF0F0F0F0#32, false, false, false, true) := by decide

theorem test_not : aluOf (exec (.notI 1#5 0xFF#16) (atX false 0x55#32 0xFF#32)) =
      some (0xFFFFFF00#32, false, false, false, true) ∧
    aluOf (exec (.notR 1#5 1#5) (atX false 0xFFFFFFFF#32 0xFFFFFFFF#32)) =
      some (0#32, false, false, true, false) := by decide

theorem test_neg : aluOf (exec (.negI 1#5 5#16) (atX false 7#32 5#32)) =
      some (0xFFFFFFFB#32, true, false, false, true) ∧
    aluOf (exec (.negI 1#5 0#16) (atX false 7#32 0#32)) =
      some (0#32, false, false, true, false) := by decide

theorem test_shr : aluOf (exec (.shrI 1#5 36#16) (atX false 0x80000010#32 36#32)) =
      some (0x08000001#32, false, false, false, false) ∧
    aluOf (exec (.shrR 1#5 2#5) (atX false 0x80000000#32 0xFFFFFFE1#32)) =
      some (0x40000000#32, false, false, false, false) := by decide

theorem test_sar : aluOf (exec (.sarI 1#5 4#16) (atX false 0x80000010#32 4#32)) =
      some (0xF8000001#32, false, false, false, true) ∧
    aluOf (exec (.sarR 1#5 2#5) (atX false 0x7FFFFFFF#32 1#32)) =
      some (0x3FFFFFFF#32, false, false, false, false) := by decide

theorem test_shl : aluOf (exec (.shlI 1#5 1#16) (atX false 0xC0000001#32 1#32)) =
      some (0x80000002#32, false, false, false, true) ∧
    aluOf (exec (.shlR 1#5 2#5) (atX false 1#32 33#32)) =
      some (2#32, false, false, false, false) := by decide

theorem test_rol : aluOf (exec (.rolI 1#5 8#16) (atX false 0x12345678#32 8#32)) =
      some (0x34567812#32, false, false, false, false) ∧
    aluOf (exec (.rolR 1#5 2#5) (atX false 0x12345678#32 32#32)) =
      some (0x12345678#32, false, false, false, false) := by decide

theorem test_ldi_cpy : aluOf (exec (.ldi 1#5 0x8000#16) (atX false 9#32 0xFFFF8000#32)) =
      some (0xFFFF8000#32, false, false, false, true) ∧
    aluOf (exec (.cpy 1#5 0#5) (atX false 9#32 0#32)) =
      some (0#32, false, false, true, false) := by decide

theorem test_cmp : aluOf (exec (.cmpI 6#5 0x200#16) (atX false 0x200#32 0x200#32)) =
      some (0#32, false, false, true, false) ∧
    markOf (exec (.cmpR 1#5 2#5) (atX false 1#32 2#32)) = some (none, false) := by decide

theorem test_ldx_nsa_mark :
    markOf (exec (.ldx 1#5 0x1234#16) (atX false 1#32 0x1234#32)) =
      some (some .unspecifiedOperation, false) ∧
    markOf (exec (.nsa 1#5 2#5) (atX false 1#32 2#32)) =
      some (some .unspecifiedOperation, false) := by decide

/-! ## Control: targets and the condition matrix -/

/-- Execute's turn on a Control record with this base, displacement and flags. -/
def atBranch (cf ovf zf sf : Bool) (base disp : Word) : State :=
  { machine false false 0#32 with
    stage := .execute
    flags := { cf := cf, ovf := ovf, zf := zf, sf := sf }
    xRec := some
      { newRecord 0#32 0#32 with destMemAddr := base, operand := disp, writeBack := true } }

/-- Whether the branch is taken, and its target if it is. -/
def branchOf (o : Outcome State) : Option (Option Word) :=
  match o with
  | .next t =>
    t.xRec.map fun rec => if rec.branchTaken then some rec.destMemAddr else none
  | _ => none

/-- R283: `BEQ [r0+3]` at address 2 goes to 5; R284: not taken with ZF = 1. -/
theorem test_beq_bne :
    branchOf (exec (.beq 0#5 3#16) (atBranch false false true false 2#32 3#32)) =
      some (some 5#32) ∧
    branchOf (exec (.bne 0#5 3#16) (atBranch false false true false 2#32 3#32)) = some none := by
  decide

/-- After CMP of 0x80000000 with 1 (R298). -/
theorem test_blt_bge :
    branchOf (exec (.blt 0#5 3#16) (atBranch false true false false 2#32 3#32)) =
      some (some 5#32) ∧
    branchOf (exec (.bge 0#5 3#16) (atBranch false true false false 2#32 3#32)) = some none := by
  decide

/-- After CMP of 1 with 0xFFFFFFFF (R298). -/
theorem test_blu_bae_ba :
    branchOf (exec (.blu 0#5 3#16) (atBranch true false false false 2#32 3#32)) =
      some (some 5#32) ∧
    branchOf (exec (.bae 0#5 3#16) (atBranch true false false false 2#32 3#32)) = some none ∧
    branchOf (exec (.ba 0#5 3#16) (atBranch false false true false 2#32 3#32)) = some none := by
  decide

theorem test_bof_bnf :
    branchOf (exec (.bof 0#5 3#16) (atBranch false true false false 2#32 3#32)) =
      some (some 5#32) ∧
    branchOf (exec (.bnf 0#5 3#16) (atBranch false true false false 2#32 3#32)) = some none := by
  decide

/-- R293: `BUNC [r5+0]` with r5 = 0x403 goes to 3; `BUNC [pc-2]` at address 1 to 1023. -/
theorem test_bunc_call_wrap :
    branchOf (exec (.bunc 5#5 0#16) (atBranch true true true true 0x403#32 0#32)) =
      some (some 3#32) ∧
    branchOf (exec (.bunc 0#5 0xFFFE#16) (atBranch false false false false 1#32 0xFFFFFFFE#32)) =
      some (some 1023#32) ∧
    branchOf (exec (.call 0#5 3#16) (atBranch false false false false 1#32 3#32)) =
      some (some 4#32) := by decide

/-- R294: CALL links the address after its own. -/
theorem test_call_links :
    (match exec (.call 0#5 3#16)
        { machine false false 0#32 with
          wRec := some
            { newRecord 0#32 1#32 with branchTaken := true, destMemAddr := 4#32, auxReg := 31#5 } } with
      | .next t => some (t.regs.readNb 31#5, t.pc)
      | _ => none) = some (2#32, 4#32) := by decide

/-- R164: HLT at Decode stops the supply and drops its record. -/
theorem test_hlt :
    (match exec (.hlt 0#3 0#4)
        { machine false false 0#32 with
          stage := .decode, dRec := some (newRecord 0xFFFFE00D#32 0#32), dState := .busy } with
      | .next t => some (t.haltPending, t.dRec, t.fSquashed)
      | _ => none) = some (true, none, true) := by decide

/-! ## LoadStore: worked examples of R261 to R264 -/

/-- The address Execute leaves. -/
def addressOf (o : Outcome State) : Option Word :=
  match o with
  | .next t => t.xRec.map Record.destMemAddr
  | _ => none

/-- R261: base 1022 and displacement 4 reach word 2; R263: 0x8010 and -32768 reach 0x10. -/
theorem test_ldw_stw_address :
    addressOf (exec (.ldw 2#5 1#5 4#16) (atBranch false false false false 1022#32 4#32)) =
      some 2#32 ∧
    addressOf (exec (.stw 1#5 2#5 0x8000#16)
      (atBranch false false false false 0x8010#32 0xFFFF8000#32)) = some 0x10#32 := by decide

/-- Memory's turn on a record with this address and value, with 0xABCD at address 0x300. -/
def atM (address value : Word) : State :=
  { State.resetWith (params false false) (RamCells.setWord [] 0x300 0xABCD#32) with
    stage := .memory
    mRec := some { newRecord 0#32 0#32 with destMemAddr := address, result := value } }

/-- The record's result and address after Memory, and the word at an address. -/
def memoryOf (o : Outcome State) (a : Nat) : Option (Word × Word × Word) :=
  match o with
  | .next t => t.mRec.map fun rec => (rec.result, rec.destMemAddr, t.mem.ram.cells.word a)
  | _ => none

/-- R262: POP at SP = 0x300; R261. -/
theorem test_ldw_pop_memory :
    memoryOf (exec (.ldw 3#5 0#5 0#16) (atM 0x300#32 7#32)) 0x300 =
      some (0xABCD#32, 0x300#32, 0xABCD#32) ∧
    memoryOf (exec (.pop 3#5 0#5 0#16) (atM 0x300#32 7#32)) 0x300 =
      some (0xABCD#32, 0x2FF#32, 0xABCD#32) := by decide

/-- R264: PUSH at SP = 0xFFFFFFFF stores at word 1023 and the SP wraps to 0; R263. -/
theorem test_stw_push_memory :
    memoryOf (exec (.stw 3#5 0#5 0#16) (atM 0x300#32 0x77#32)) 0x300 =
      some (0x77#32, 0x300#32, 0x77#32) ∧
    memoryOf (exec (.push 7#5 0#5 0#16) (atM 0xFFFFFFFF#32 0x77#32)) 1023 =
      some (0x77#32, 0#32, 0x77#32) := by decide

/-- R262: `POP r30` ends with the new SP. -/
theorem test_pop_sp_writeBack :
    (match exec (.pop 30#5 30#5 0#16)
        { machine false false 0#32 with
          wRec := some
            { newRecord 0#32 0#32 with
              result := 5#32, destMemAddr := 0x2FF#32, writeBack := true, auxReg := 30#5
              claims := [30#5] } } with
      | .next t => some (t.regs.readNb 30#5)
      | _ => none) = some 0x2FF#32 := by decide

/-! ## One tick -/

/-- R151, R153: the first tick fetches the word at 0. -/
theorem test_step_fetches :
    (match step (machine false false 0x00100041#32) with
      | .next t => some (t.dRec.map Record.raw, t.pc, t.clock)
      | _ => none) = some (some 0x00100041#32, 1#32, 1) := by decide

/-- The host's word is what the very next step decodes. -/
theorem test_withFetchWord_runs :
    (match step (State.reset.withFetchWord 32 0x00100041) with
      | .next t => some (t.xRec.map Record.op)
      | _ => none) = some (some (.instr (.addI 4#5 16#16))) := by decide

/-! ## Witnesses: concrete inputs that meet the hypotheses of each statement -/

/-- Decode's turn on a fresh record. -/
def atD : State :=
  { machine false false 0#32 with
    stage := .decode, dRec := some (newRecord 0x00100041#32 7#32), dState := .busy }

/-- Register 4 of `atD` blocked by an older record. -/
def atDBlocked : State := { atD with regs := atD.regs.block 4#5 }

/-- A small cache: one set of one way with two words a line, with delays. -/
def smallCache : Params :=
  { ramWords := 32, ramDelay := 2, sets := 1, ways := 1, lineWords := 2, cacheDelay := 1
    scalar := false, divSigned := false }

/-- The memory behind it after reset. -/
def smallMem : MemSys := (State.resetWith smallCache []).mem

/-- The record of a taken `BUNC [pc+4]` fetched from address 0xFFFFFFFF. -/
def takenRec : Record :=
  { newRecord 0x0004E00D#32 0xFFFFFFFF#32 with
    op := .instr (.bunc 0#5 4#16), branchTaken := true, destMemAddr := 3#32, writeBack := true }

/-- Write-Back's turn on a record. -/
def atW (rec : Record) : State := { machine false false 0#32 with wRec := some rec }

theorem entry_replicate (e : RegEntry) (r : Reg) : RegFile.entry (Vector.replicate 32 e) r = e := by
  simp [RegFile.entry]

theorem witness_DecodeOfEncode : (Instr.beq 0#5 3#16).wellFormed = true := by decide

theorem witness_EncodeOfDecode : decode 0x00100041#32 = .ok (.addI 4#5 16#16) := rfl

theorem witness_RamPorts :
    RamCells.wf [] = true ∧ (smallMem.ram.service smallCache.ramDelay .cache).1 = .wait ∧
    (smallMem.ram.service 0 .cache).1 = .ready := by decide

theorem witness_BypassTransaction :
    { params false false with ramDelay := 2 }.cached = false ∧
    (machine false false 0#32).mem.ram.req = none ∧ Requester.fetch ≠ Requester.memory := by decide

theorem witness_CacheReadMiss :
    smallCache.cached = true ∧ smallMem.quiet ∧ smallMem.hit smallCache 0#32 = none :=
  ⟨by decide, ⟨rfl, rfl, rfl⟩, by decide⟩

theorem witness_CacheReadHit :
    let m := smallMem.afterWrites smallCache 0#32 .memory 5#32 4
    smallCache.cached = true ∧ m.quiet ∧ m.hit smallCache 0#32 = some 0 :=
  ⟨by decide, ⟨by decide, by decide, by decide⟩, by decide⟩

theorem smallMem_inv : smallMem.Inv smallCache := by
  refine ⟨⟨by decide, by decide, by decide, by decide, by decide⟩, rfl, ?_, by decide, by decide,
    by decide, by decide, by decide⟩
  intro ways h
  have h1 : ways = [resetLine smallCache 0] := by
    simpa [smallMem, State.resetWith, resetCache, smallCache, Params.cached, List.range_succ]
      using h
  subst h1
  exact ⟨rfl, by decide, by decide, by decide⟩

theorem witness_CacheReadMiss_installs :
    smallMem.Inv smallCache ∧ sameLine smallCache 0#32 1#32 = true := ⟨smallMem_inv, by decide⟩

theorem witness_CacheWriteTransaction :
    let m := smallMem.afterWrites smallCache 0#32 .memory 5#32 4
    smallCache.cached = true ∧ smallMem.quiet ∧ smallMem.hit smallCache 0#32 = none ∧ m.quiet ∧
    m.hit smallCache 0#32 = some 0 :=
  ⟨by decide, ⟨rfl, rfl, rfl⟩, by decide, ⟨by decide, by decide, by decide⟩, by decide⟩

theorem witness_LoadAfterStore :
    ∃ m m', MemSys.Inv (params false false) m ∧
      m.cacheWrite (params false false) 0#32 .memory 5#32 = (.success (), m') := by
  refine ⟨(machine false false 0#32).mem, _, ⟨⟨by decide, by decide, by decide, by decide, by decide⟩,
    by decide, ?_, by decide, by decide, by decide, by decide, by decide⟩, rfl⟩
  intro ways h
  simp [machine, params, State.resetWith, resetCache, Params.cached] at h

theorem witness_StaleNeighbour :
    smallCache.cached = true ∧ smallMem.Inv smallCache ∧ smallMem.quiet ∧
    smallMem.hit smallCache 0#32 = none ∧ indexOf smallCache 1 = indexOf smallCache 0 ∧
    tagOf smallCache 1 = tagOf smallCache 0 ∧ offsetOf smallCache 1 ≠ offsetOf smallCache 0 :=
  ⟨by decide, smallMem_inv, ⟨rfl, rfl, rfl⟩, by decide, by decide, by decide, by decide⟩

/-- A set of two ways as reset leaves it (R45). -/
def twoWays : List Line := (List.range 2).map (resetLine { smallCache with ways := 2 })

theorem witness_LruIsPermutation :
    1 < twoWays.length ∧ (twoWays.map Line.lru).Perm (List.range twoWays.length) := by decide

theorem atDecode_atD : AtDecode atD (newRecord 0x00100041#32 7#32) := ⟨rfl, rfl, by decide⟩

theorem witness_AluDecode : AtDecode atD (newRecord 0x00100041#32 7#32) ∧
    atD.regs.read 4#5 = some 0#32 ∧ atD.regs.read 5#5 = some 0#32 :=
  ⟨atDecode_atD, by decide, by decide⟩

theorem witness_ControlDecode : AtDecode atD (newRecord 0x00100041#32 7#32) ∧
    (if (0#5 : Reg) = 0#5 then some (newRecord 0x00100041#32 7#32).pc else none) = some 7#32 ∧
    (if (5#5 : Reg) = 0#5 then some (7#32 : Word) else atD.regs.read 5#5) = some 0#32 :=
  ⟨atDecode_atD, by decide, by decide⟩

theorem witness_HaltDecode : AtDecode atD (newRecord 0x00100041#32 7#32) := atDecode_atD

theorem witness_LoadStoreDecode : AtDecode atD (newRecord 0x00100041#32 7#32) ∧
    atD.regs.read 4#5 = some 0#32 ∧ atD.regs.read 30#5 = some 0#32 :=
  ⟨atDecode_atD, by decide, by decide⟩

theorem witness_BlockedReadWaits : AtDecode atDBlocked (newRecord 0x00100041#32 7#32) ∧
    atDBlocked.regs.read 4#5 = none ∧ (4#5 : Reg) ≠ 0#5 :=
  ⟨⟨rfl, rfl, by decide⟩, by decide, by decide⟩

/-- The record `atX` and `atBranch` hold has no mark: it is Execute's turn on it. -/
theorem atExecute_atX (signed : Bool) (a b : Word) :
    AtExecute (atX signed a b)
      { newRecord 0#32 0#32 with result := a, operand := b, writeBack := true } :=
  ⟨rfl, rfl, rfl, rfl⟩

theorem witness_ArithmeticExecute :
    ∃ rec, AtExecute (atX false 1#32 2#32) rec ∧ rec.operand ≠ 0#32 :=
  ⟨_, atExecute_atX .., by decide⟩

theorem witness_DivideIdentity :
    ∃ s t u rec recQ recR, AtExecute s rec ∧ rec.operand ≠ 0#32 ∧
      exec (.divR 1#5 2#5) s = .next t ∧ exec (.remR 1#5 2#5) s = .next u ∧
      t.xRec = some recQ ∧ u.xRec = some recR :=
  ⟨atX false 100#32 7#32, _, _, _, _, _, atExecute_atX .., by decide, rfl, rfl, rfl, rfl⟩

theorem witness_MarkedInExecute :
    ∃ rec, AtExecute (atX false 5#32 0#32) rec ∧ rec.operand = 0#32 :=
  ⟨_, atExecute_atX .., rfl⟩

theorem witness_AddressExecute :
    ∃ s rec, AtExecute s rec ∧ s.params.valid = true :=
  ⟨atX false 1#32 2#32, _, atExecute_atX .., by decide⟩

theorem witness_BranchExecute :
    ∃ s rec, AtExecute s rec ∧ s.params.valid = true ∧
      (Instr.beq 0#5 3#16).takenWhen s.flags = some false ∧
      (Instr.bne 0#5 3#16).takenWhen s.flags = some true :=
  ⟨atX false 1#32 2#32, _, atExecute_atX .., by decide, by decide, by decide⟩

theorem witness_CompareThenBranch :
    ∃ s t rec, AtExecute s rec ∧ exec (.cmpR 1#5 2#5) s = .next t :=
  ⟨atX false 1#32 2#32, _, _, atExecute_atX .., rfl⟩

theorem atMemory_atM (a v : Word) :
    AtMemory (atM a v) { newRecord 0#32 0#32 with destMemAddr := a, result := v } :=
  ⟨rfl, rfl, rfl, rfl⟩

theorem witness_MemoryPassThrough : ∃ s rec, AtMemory s rec := ⟨_, _, atMemory_atM 1#32 2#32⟩

theorem witness_LoadMemory :
    ∃ s rec v m, AtMemory s rec ∧
      s.mem.cacheRead s.params rec.destMemAddr .memory = (.success v, m) :=
  ⟨_, _, _, _, atMemory_atM 1#32 2#32, rfl⟩

theorem witness_LoadMemory_waits :
    ∃ s rec m, AtMemory s rec ∧
      s.mem.cacheRead s.params rec.destMemAddr .memory = (.wait, m) :=
  ⟨{ atM 1#32 2#32 with params := { params false false with ramDelay := 1 } }, _, _,
    ⟨rfl, rfl, rfl, rfl⟩, rfl⟩

theorem witness_StoreMemory :
    ∃ s rec m, AtMemory s rec ∧
      s.mem.cacheWrite s.params rec.destMemAddr .memory rec.result = (.success (), m) :=
  ⟨_, _, _, atMemory_atM 1#32 2#32, rfl⟩

theorem witness_StoreMemory_waits :
    ∃ s rec m, AtMemory s rec ∧
      s.mem.cacheWrite s.params rec.destMemAddr .memory rec.result = (.wait, m) :=
  ⟨{ atM 1#32 2#32 with params := { params false false with ramDelay := 1 } }, _, _,
    ⟨rfl, rfl, rfl, rfl⟩, rfl⟩

theorem witness_ResultCommits :
    let r := { newRecord 0#32 0#32 with writeBack := true, claims := [4#5] }
    AtWriteBack (atW r) r ∧ r.writeBack = true ∧ r.auxReg = 0#5 ∧ 4#5 ∈ r.claims :=
  ⟨⟨rfl, rfl, rfl⟩, rfl, rfl, by decide⟩

theorem witness_NothingCommits :
    let r := { newRecord 0#32 0#32 with claims := [4#5] }
    AtWriteBack (atW r) r ∧ r.writeBack = false ∧ r.auxReg = 0#5 :=
  ⟨⟨rfl, rfl, rfl⟩, rfl, rfl⟩

theorem witness_StackCommits (b : Bool) :
    let r := { newRecord 0#32 0#32 with writeBack := b, auxReg := 30#5, claims := [4#5, 30#5] }
    AtWriteBack (atW r) r ∧ r.auxReg = 30#5 ∧ 30#5 ∈ r.claims ∧ 4#5 ∈ r.claims ∧
      r.writeBack = b :=
  ⟨⟨rfl, rfl, rfl⟩, rfl, by simp, by simp, rfl⟩

theorem witness_BranchCommits :
    AtWriteBack (atW takenRec) takenRec ∧ takenRec.branchTaken = true ∧ takenRec.auxReg = 0#5 ∧
    AtWriteBack (atW { takenRec with auxReg := 31#5 }) { takenRec with auxReg := 31#5 } ∧
    AtWriteBack (atW (newRecord 0#32 0#32)) (newRecord 0#32 0#32) :=
  ⟨⟨rfl, rfl, rfl⟩, rfl, rfl, ⟨rfl, rfl, rfl⟩, ⟨rfl, rfl, rfl⟩⟩

/-- A marked record. -/
def markedRec : Record := (newRecord 0x12341A11#32 0#32).markFault .unspecifiedOperation

theorem witness_MarkedRecord : markedRec.fault = some .unspecifiedOperation ∧
    (atW markedRec).stage = .writeBack ∧ (atW markedRec).wRec = some markedRec ∧
    { atX false 1#32 1#32 with xRec := some markedRec }.xDone = false ∧
    { atM 1#32 1#32 with mRec := some markedRec }.mDone = false := ⟨rfl, rfl, rfl, rfl, rfl⟩

theorem witness_DecodeFrame :
    ∃ t, atD.stage = .decode ∧ exec (.addI 4#5 16#16) atD = .next t := ⟨_, rfl, rfl⟩

theorem witness_ExecuteFrame :
    ∃ s t, s.stage = .execute ∧ exec (.ldw 4#5 0#5 16#16) s = .next t :=
  ⟨atX false 1#32 2#32, _, rfl, rfl⟩

theorem witness_MemoryFrame :
    ∃ t, (atM 1#32 2#32).stage = .memory ∧ (atM 1#32 2#32).mem.ram.cells.wf = true ∧
      exec (.stw 4#5 0#5 16#16) (atM 1#32 2#32) = .next t := ⟨_, rfl, by decide, rfl⟩

theorem witness_WriteBackFrame :
    ∃ t, (atW (newRecord 0#32 0#32)).stage = .writeBack ∧
      (Instr.addI 4#5 16#16).destination = some 4#5 ∧
      exec (.addI 4#5 16#16) (atW (newRecord 0#32 0#32)) = .next t := ⟨_, rfl, rfl, rfl⟩

theorem nextWord_machine (scalar signed : Bool) (w : Word) : (machine scalar signed w).nextWord = w := by
  have h := RamCells.word_setWord (m := []) rfl 0 0 w
  rw [if_pos rfl] at h
  exact h

theorem nextWord_preset (s : State) (r : Reg) (v : Word) : (preset s r v).nextWord = s.nextWord := rfl

theorem nextWord_flags (s : State) (f : Machine.Flags) : State.nextWord { s with flags := f } = s.nextWord :=
  rfl

theorem idle_machine (scalar signed : Bool) (w : Word) : Idle (machine scalar signed w) where
  running := rfl
  turn := rfl
  noHalt := rfl
  noSquash := rfl
  fetchEmpty := rfl
  decodeEmpty := rfl
  decodeFree := rfl
  executeEmpty := rfl
  executeFresh := rfl
  memoryEmpty := rfl
  memoryFresh := rfl
  memoryReady := rfl
  writeBackEmpty := rfl
  free r := by simp [machine, State.resetWith, entry_replicate]
  bypass := rfl
  noDelay := rfl
  noRequest := rfl

theorem witness_StepRunsDecodedInstruction :
    Idle (machine false false 0x00100041#32) ∧
    decode (machine false false 0x00100041#32).nextWord = .ok (.addI 4#5 16#16) ∧
    (∃ (s t : State) (rec : Record), s.stopped = false ∧ s.wRec = none ∧ s.mRec = none ∧ s.xRec = none ∧
      s.dRec = some rec ∧ s.dState ≠ .free ∧ decode rec.raw = .ok (.addI 4#5 16#16) ∧
      exec (.addI 4#5 16#16)
        { s with dRec := some { rec with op := .instr (.addI 4#5 16#16) }, stage := .decode } =
        .next t) :=
  ⟨idle_machine .., by decide, atD, _, _, rfl, rfl, rfl, rfl, rfl, by decide, rfl, rfl⟩

/-- Four instructions in flight: each latch but Fetch's holds one. -/
def fullPipeline : State :=
  { machine false false 0#32 with
    wRec := some { newRecord 0x00100041#32 0#32 with op := .instr (.addI 4#5 16#16) }
    mRec := some { newRecord 0x00100051#32 1#32 with op := .instr (.addI 5#5 16#16) }
    xRec := some { newRecord 0x00100061#32 2#32 with op := .instr (.addI 6#5 16#16) }
    dRec := some (newRecord 0x00100071#32 3#32), dState := .busy }

theorem witness_StepRunsEveryStage :
    ∃ s1 s2 s3 s4 rw rm rx rd, fullPipeline.stopped = false ∧ fullPipeline.wRec = some rw ∧
      rw.op = .instr (.addI 4#5 16#16) ∧
      exec (.addI 4#5 16#16) { fullPipeline with stage := .writeBack } = .next s1 ∧
      s1.fault = none ∧ s1.mRec = some rm ∧ rm.op = .instr (.addI 5#5 16#16) ∧
      exec (.addI 5#5 16#16) { s1 with stage := .memory } = .next s2 ∧
      s2.xRec = some rx ∧ rx.op = .instr (.addI 6#5 16#16) ∧
      exec (.addI 6#5 16#16) { s2 with stage := .execute } = .next s3 ∧
      s3.dRec = some rd ∧ s3.dState ≠ .free ∧ decode rd.raw = .ok (.addI 7#5 16#16) ∧
      exec (.addI 7#5 16#16)
        { s3 with dRec := some { rd with op := .instr (.addI 7#5 16#16) }, stage := .decode } =
        .next s4 :=
  ⟨_, _, _, _, _, _, _, _, rfl, rfl, rfl, rfl, rfl, rfl, rfl, rfl, rfl, rfl, rfl, rfl, by decide,
    rfl, rfl⟩

theorem witness_FetchDelivers :
    Idle (machine false false 0x00100041#32) ∧ (machine false false 0x00100041#32).nextWord ≠ 0#32 ∧
    Idle (machine false false 0#32) ∧ (machine false false 0#32).nextWord = 0#32 :=
  ⟨idle_machine .., by decide, idle_machine .., by decide⟩

/-- The machine of `smallCache` after reset, with no delay of the cache's own. -/
def missing : State := State.resetWith { smallCache with cacheDelay := 0 } []

theorem witness_FetchDelivers_refused :
    Empty (State.resetWith smallCache []) ∧ Empty missing ∧
    ((State.resetWith smallCache []).mem.cacheRead smallCache 0#32 .fetch).1 = .wait ∧
    (missing.mem.cacheRead missing.params missing.pc .fetch).1 = .waitNextLevel :=
  ⟨⟨rfl, rfl, rfl, rfl, rfl, rfl, rfl, rfl, rfl, rfl, rfl, rfl, rfl⟩,
    ⟨rfl, rfl, rfl, rfl, rfl, rfl, rfl, rfl, rfl, rfl, rfl, rfl, rfl⟩, by decide, by decide⟩

theorem witness_StoppedStepIsIdentity : (machine false false 0#32).hostHalt.halted = true := rfl

theorem witness_StepAnswersNext : (machine false false 0#32).stopped = false := rfl

theorem witness_FaultStep :
    (atW markedRec).stopped = false ∧ (atW markedRec).stage = .writeBack ∧
    (atW markedRec).wRec = some markedRec ∧ markedRec.fault = some .unspecifiedOperation :=
  ⟨rfl, rfl, rfl, rfl⟩

theorem inv_machine_mem (s : State) (hp : s.params = params false false)
    (hm : s.mem = (machine false false 0#32).mem) : s.mem.Inv s.params := by
  rw [hp, hm]
  refine ⟨⟨by decide, by decide, by decide, by decide, by decide⟩, by decide, ?_, by decide,
    by decide, by decide, by decide, by decide⟩
  intro ways h
  simp [machine, params, State.resetWith, resetCache, Params.cached] at h

theorem inv_machine_regs : (machine false false 0#32).regs.Inv :=
  ⟨by simp [machine, State.resetWith, entry_replicate],
    fun r => by simp [machine, State.resetWith, entry_replicate]⟩

theorem witness_TakenBranchStep :
    (atW takenRec).Inv ∧ (atW takenRec).ClaimsOk ∧ (atW takenRec).stopped = false ∧
    (atW takenRec).wRec = some takenRec ∧ takenRec.fault = none ∧ takenRec.branchTaken = true := by
  refine ⟨⟨by decide, inv_machine_regs, inv_machine_mem _ rfl rfl, ?_⟩, ?_, rfl, rfl, rfl, rfl⟩
  · have latches : (atW takenRec).xDone = false ∧ (atW takenRec).haltPending = false ∧
        (atW takenRec).fRec = none ∧ (atW takenRec).dRec = none ∧ (atW takenRec).xRec = none ∧
        (atW takenRec).mRec = none := ⟨rfl, rfl, rfl, rfl, rfl, rfl⟩
    refine ⟨rfl, rfl, rfl, fun _ => rfl, fun _ => rfl, fun _ => rfl, ?_⟩
    simp only [latches, reduceCtorEq, Bool.false_eq_true, false_implies, implies_true, true_and]
    rintro rec h
    cases h
    exact ⟨fun _ => ⟨by decide, _, rfl, rfl⟩, rfl, fun _ => rfl⟩
  · intro _
    refine ⟨by decide, fun r => ?_⟩
    have h : ((atW takenRec).regs.entry r).readEnable = true := by
      simp [atW, machine, State.resetWith, entry_replicate]
    have h' : (atW takenRec).allClaims = [] := rfl
    rw [h, h']
    simp

theorem witness_StepKeepsInvariants :
    (atW takenRec).Inv ∧ (atW takenRec).ClaimsOk ∧ (atW takenRec).InOrder ∧
    ∃ t, step (atW takenRec) = .next t :=
  ⟨witness_TakenBranchStep.1, witness_TakenBranchStep.2.1,
    ⟨trivial, fun _ => ⟨by decide, trivial⟩⟩, _, rfl⟩

theorem witness_HaltWhenDrained :
    ∃ t, (machine false false 0#32).stopped = false ∧ step (machine false false 0#32) = .next t :=
  ⟨_, rfl, rfl⟩

theorem witness_LoadResets :
    ∃ s, State.load (params false false) [0x00100041#32] = some s ∧
      State.load { params false false with ramWords := 3 } [] = none := ⟨_, rfl, by decide⟩

/-- Every RegImm and RegReg instruction: LDX and NSA are here for `FaultCommits`. -/
theorem witness_AluCommits :
    ∀ i ∈ regImmInstrs 1#5 16#16 ++ regRegInstrs 1#5 2#5,
      Idle (machine true false (encode i)) ∧ (machine true false (encode i)).params.scalar ∧
      decode (machine true false (encode i)).nextWord = .ok i := by
  intro i hi
  refine ⟨idle_machine .., rfl, ?_⟩
  rw [nextWord_machine]
  revert i
  decide

/-- An idle machine may hold any value in a register. -/
theorem idle_preset {s : State} (h : Idle s) (r : Reg) (v : Word) : Idle (preset s r v) :=
  { h with free := fun q => by simpa [preset] using h.free q }

/-- DIV and REM with a divisor of 7. -/
theorem witness_AluCommits_divide :
    ∀ i ∈ ([.divR 1#5 2#5, .remR 1#5 2#5] : List Instr),
      let s := preset (machine true false (encode i)) 2#5 7#32
      Idle s ∧ decode s.nextWord = .ok i ∧ s.regs.readNb 2#5 = 7#32 := by
  intro i hi
  refine ⟨idle_preset (idle_machine ..) .., ?_, ?_⟩
  · rw [nextWord_preset, nextWord_machine]
    revert i
    decide
  · exact (RegFile.readNb_writeNb _ 2#5 2#5 7#32).trans (if_pos (by decide))

theorem witness_LoadStoreCommits :
    ∀ i ∈ ([.ldw 7#5 9#5 0x1234#16, .stw 7#5 9#5 0x1234#16, .pop 7#5 9#5 0x1234#16,
        .push 7#5 9#5 0x1234#16] : List Instr),
      Idle (machine true false (encode i)) ∧ (machine true false (encode i)).params.scalar ∧
      decode (machine true false (encode i)).nextWord = .ok i := by
  intro i hi
  refine ⟨idle_machine .., rfl, ?_⟩
  rw [nextWord_machine]
  revert i
  decide

/-- Every branch that reads the flags is taken with one of these two flag registers and not with the
other; BUNC and CALL are taken with both. -/
theorem witness_BranchCommitsWhole :
    ∀ i ∈ .call 0#5 3#16 :: plainBranches 0#5 3#16, ∀ f ∈ ([⟨true, true, true, false⟩,
        ⟨false, false, false, false⟩] : List Machine.Flags),
      let s := { machine true false (encode i) with flags := f }
      Idle s ∧ s.params.scalar ∧ decode s.nextWord = .ok i ∧
      (i.readsFlags = true → ∃ f', i.takenWhen f' = some (!(i.takenWhen f).getD false)) := by
  intro i hi f hf
  refine ⟨{ idle_machine true false (encode i) with }, rfl, ?_, ?_⟩
  · rw [nextWord_flags, nextWord_machine]
    revert i
    decide
  · intro _
    refine ⟨if f.cf then ⟨false, false, false, false⟩ else ⟨true, true, true, false⟩, ?_⟩
    revert i f
    decide

theorem witness_HaltCommits :
    Idle (machine false false 0xFFFFE00D#32) ∧
    decode (machine false false 0xFFFFE00D#32).nextWord = .ok (.hlt 0b111#3 0#4) :=
  ⟨idle_machine .., by decide⟩

/-- LDX, NSA, DIV and REM by a register that holds 0, and a word with no meaning of each class. -/
theorem witness_FaultCommits :
    ∀ w ∈ ([0x12341A11#32, 0x00005E15#32, 0x00004615#32, 0x00004815#32, 0x00001E11#32, 2#32,
        0x0000200D#32] : List Word),
      Idle (machine true false w) ∧ (machine true false w).params.scalar ∧
      (machine true false w).nextWord ≠ 0#32 := by
  intro w hw
  refine ⟨idle_machine .., rfl, ?_⟩
  rw [nextWord_machine]
  rintro rfl
  simp at hw

theorem witness_FaultCommits_kinds :
    decode 0x12341A11#32 = .ok (.ldx 1#5 0x1234#16) ∧ decode 0x00005E15#32 = .ok (.nsa 1#5 2#5) ∧
    decode 0x00004615#32 = .ok (.divR 1#5 2#5) ∧ decode 0x00004815#32 = .ok (.remR 1#5 2#5) ∧
    (machine true false 0x00004615#32).regs.readNb 2#5 = 0#32 ∧
    (∃ e, decode 0x00001E11#32 = .error e) ∧ (∃ e, decode 2#32 = .error e) ∧
    ∃ e, decode 0x0000200D#32 = .error e :=
  ⟨rfl, rfl, rfl, rfl, by decide, ⟨_, rfl⟩, ⟨_, rfl⟩, _, rfl⟩

/-- `LDI r1, 5; STW r1, [r0+8]; LDW r2, [r0+8]; BUNC [pc+2]; LDI r3, 1; HLT`: the store misses in a cache
of two-word lines, and no neighbour of word 8 is read. -/
def program : List Word :=
  [encode (.ldi 1#5 5#16), encode (.stw 1#5 0#5 8#16), encode (.ldw 2#5 0#5 8#16),
    encode (.bunc 0#5 2#16), encode (.ldi 3#5 1#16), encode (.hlt 7#3 0#4)]

/-- The state of a machine with this program after reset. -/
def loaded (p : Params) : State := State.resetWith p (RamCells.loadWords [] 0 program)

/-- The state after `k` ticks, if every one answers a next state. -/
def stateAfter (k : Nat) (s : State) : State :=
  match Host.Core.run core k s with
  | .next t => t
  | _ => s

theorem witness_TimingIndependence_reference :
    State.load smallCache program = some (loaded smallCache) ∧
    State.load smallCache.oneAtATime program = some (loaded smallCache.oneAtATime) ∧
    Host.Core.run core 20 (loaded smallCache.oneAtATime) =
      .next (stateAfter 20 (loaded smallCache.oneAtATime)) ∧
    (stateAfter 20 (loaded smallCache.oneAtATime)).halted = true ∧
    (loaded smallCache.oneAtATime).KeepsCodeRules 20 :=
  ⟨rfl, rfl, rfl, by decide, by decide, by decide⟩

theorem witness_TimingIndependence_lines : (loaded smallCache).KeepsLineRule :=
  State.keepsLineRule_of_run (n := 60) (t := stateAfter 60 (loaded smallCache)) rfl (by decide) (by decide)

/-- R331: exit code 0 on halt, none while the machine runs. -/
theorem test_exit_code :
    State.reset.hostHalt.exitCode = some 0 ∧ State.reset.exitCode = none := ⟨rfl, rfl⟩

end Sys2Proof.Tests
end

section
/-! SUPPORT. Proofs of the statements about one step as a whole (spec/00_scope.md R6, spec/40_pipeline.md
R140): what every part of a tick keeps, and how a tick is put together from the stages' calls of `exec`. -/

namespace Sys2Proof.Machine

/-! ## What the parts of a tick keep -/

/-- `t` has the parameters, the clock and the machine's fault of `s`, as every part of a tick between
Write-Back and the end of the tick leaves them (R140, R184, R343). -/
structure KeepsGlobals (s t : State) : Prop where
  params : t.params = s.params
  clock : t.clock = s.clock
  fault : t.fault = s.fault

theorem KeepsGlobals.refl (s : State) : KeepsGlobals s s := ⟨rfl, rfl, rfl⟩

theorem KeepsGlobals.trans {s t u : State} (h : KeepsGlobals s t) (h' : KeepsGlobals t u) :
    KeepsGlobals s u :=
  ⟨h'.params.trans h.params, h'.clock.trans h.clock, h'.fault.trans h.fault⟩

theorem DecodeStep.keepsGlobals {s t : State} {rec : Record} (h : DecodeStep s rec t) :
    KeepsGlobals s t := by
  cases h with
  | claims a b rec' _ _ eq => subst eq; exact ⟨rfl, rfl, rfl⟩
  | noClaims rec' eq => subst eq; exact ⟨rfl, rfl, rfl⟩
  | waits rec' eq => subst eq; exact ⟨rfl, rfl, rfl⟩
  | halts eq => subst eq; exact ⟨rfl, rfl, rfl⟩

theorem ExecuteStep.keepsGlobals {s t : State} {rec : Record} (h : ExecuteStep s rec t) :
    KeepsGlobals s t := by
  obtain ⟨rec', flags, rfl, _⟩ := h
  exact ⟨rfl, rfl, rfl⟩

theorem MemoryStep.keepsGlobals {s t : State} {rec : Record} (h : MemoryStep s rec t) :
    KeepsGlobals s t := by
  obtain ⟨rec', mem, waiting, done, rfl, _⟩ := h
  exact ⟨rfl, rfl, rfl⟩

/-- Write-Back may raise a fault; the parameters and the clock stay (R181 to R184). -/
theorem WriteBackStep.params_clock {s t : State} {rec : Record} (h : WriteBackStep s rec t) :
    t.params = s.params ∧ t.clock = s.clock := by
  cases h with
  | faults k _ eq => subst eq; exact ⟨rfl, rfl⟩
  | commits regs _ _ eq => subst eq; exact ⟨rfl, rfl⟩
  | notTaken _ _ eq => subst eq; exact ⟨rfl, rfl⟩
  | jumps _ _ eq => subst eq; exact ⟨rfl, rfl⟩

/-- A word with no meaning marks its record, not the machine (R166, R312). -/
theorem State.decodeInvalid_keepsGlobals (s : State) : KeepsGlobals s s.decodeInvalid := by
  unfold State.decodeInvalid
  rcases s.onDecode_cases _ with ⟨h, _⟩ | ⟨rec, _, _, h⟩
  · rw [h]; exact .refl s
  · rw [h]; exact ⟨rfl, rfl, rfl⟩

theorem State.writeBackExecute_params_clock {s t : State} (h : s.writeBackExecute = .next t) :
    t.params = s.params ∧ t.clock = s.clock := by
  rcases s.writeBackExecute_cases with ⟨_, h'⟩ | ⟨rec, u, _, h', hw⟩
  · cases h.symm.trans h'; exact ⟨rfl, rfl⟩
  · cases h.symm.trans h'; exact hw.params_clock

theorem State.memoryExecute_keepsGlobals {s t : State} (h : s.memoryExecute = .next t) :
    KeepsGlobals s t := by
  rcases s.memoryExecute_cases with ⟨_, h'⟩ | ⟨rec, u, _, h', ⟨rfl, _⟩ | ⟨_, hm⟩⟩
  · cases h.symm.trans h'; exact .refl s
  · cases h.symm.trans h'; exact ⟨rfl, rfl, rfl⟩
  · cases h.symm.trans h'
    refine .trans ?_ hm.keepsGlobals
    exact ⟨rfl, rfl, rfl⟩

theorem State.executeExecute_keepsGlobals {s t : State} (h : s.executeExecute = .next t) :
    KeepsGlobals s t := by
  rcases s.executeExecute_cases with ⟨_, h'⟩ | ⟨rec, u, _, h', ⟨rfl, _⟩ | ⟨_, hx⟩⟩
  · cases h.symm.trans h'; exact .refl s
  · cases h.symm.trans h'; exact ⟨rfl, rfl, rfl⟩
  · cases h.symm.trans h'
    refine .trans ?_ hx.keepsGlobals
    exact ⟨rfl, rfl, rfl⟩

theorem State.decodeExecute_keepsGlobals {s t : State} (h : s.decodeExecute = .next t) :
    KeepsGlobals s t := by
  rcases s.decodeExecute_cases with ⟨_, h'⟩ | ⟨rec, u, _, _, h', ⟨i, _, hd⟩ | ⟨_, rfl⟩⟩
  · cases h.symm.trans h'; exact .refl s
  · cases h.symm.trans h'
    refine .trans ?_ hd.keepsGlobals
    exact ⟨rfl, rfl, rfl⟩
  · cases h.symm.trans h'
    refine .trans ?_ (State.decodeInvalid_keepsGlobals { s with stage := .decode })
    exact ⟨rfl, rfl, rfl⟩

theorem State.fetchExecute_keepsGlobals (s : State) : KeepsGlobals s s.fetchExecute := by
  rcases s.fetchExecute_cases with ⟨_, h⟩ | ⟨_, _, h⟩ | ⟨_, _, _, _, r, m, _, h | ⟨v, _, _, h⟩⟩
  · rw [h]; exact ⟨rfl, rfl, rfl⟩
  · rw [h]; exact .refl s
  · rw [h]; exact ⟨rfl, rfl, rfl⟩
  · rw [h]; exact ⟨rfl, rfl, rfl⟩

theorem State.advanceMemory_keepsGlobals (s : State) : KeepsGlobals s s.advanceMemory := by
  unfold State.advanceMemory; split <;> exact ⟨rfl, rfl, rfl⟩

theorem State.advanceExecute_keepsGlobals (s : State) : KeepsGlobals s s.advanceExecute := by
  unfold State.advanceExecute; split <;> exact ⟨rfl, rfl, rfl⟩

theorem State.advanceDecode_keepsGlobals (s : State) : KeepsGlobals s s.advanceDecode := by
  unfold State.advanceDecode; split <;> exact ⟨rfl, rfl, rfl⟩

theorem State.advanceFetch_keepsGlobals (s : State) : KeepsGlobals s s.advanceFetch := by
  unfold State.advanceFetch; split <;> exact ⟨rfl, rfl, rfl⟩

theorem State.advance_keepsGlobals (s : State) : KeepsGlobals s s.advance :=
  s.advanceMemory_keepsGlobals.trans <| (State.advanceExecute_keepsGlobals _).trans <|
    (State.advanceDecode_keepsGlobals _).trans (State.advanceFetch_keepsGlobals _)

/-! ## `StepAnswersNext` -/

theorem State.halted_fault_of_running {s : State} (h : s.stopped = false) :
    s.halted = false ∧ s.fault = none := by
  simpa [State.stopped] using h

/-- A running machine's tick ends with a fault at Write-Back, before the clock counts, or runs to its end
with no fault and counts it (R140). -/
theorem step_of_running {s : State} (h : s.stopped = false) :
    ∃ t, step s = .next t ∧ t.params = s.params ∧
      (t.fault ≠ none ∧ t.clock = s.clock ∨ t.fault = none ∧ t.clock = s.clock + 1) := by
  obtain ⟨s1, hw, ⟨hf, ht⟩ | ⟨hf, s2, s3, s4, hm, hx, hd, ht⟩⟩ := State.tick_cases h
  · obtain ⟨hp, hc⟩ := State.writeBackExecute_params_clock hw
    exact ⟨s1, ht, hp, .inl ⟨hf, hc⟩⟩
  · obtain ⟨hp, hc⟩ := State.writeBackExecute_params_clock hw
    have rest : KeepsGlobals s1 s4.fetchExecute.advance :=
      (State.memoryExecute_keepsGlobals hm).trans <| (State.executeExecute_keepsGlobals hx).trans <|
        (State.decodeExecute_keepsGlobals hd).trans <|
          s4.fetchExecute_keepsGlobals.trans (State.advance_keepsGlobals _)
    refine ⟨_, ht, rest.params.trans hp, .inr ⟨rest.fault.trans hf, ?_⟩⟩
    rw [State.endTick_clock, rest.clock, hc]

/-- Settles O42: a stopped machine's step is the identity, a running one's is `step_of_running`. -/
theorem stepAnswersNext : Obligations.StepAnswersNext := by
  intro s
  cases hs : s.stopped with
  | true => exact ⟨s, step_of_stopped hs, rfl, nofun⟩
  | false =>
    obtain ⟨t, ht, hp, ⟨hf, hc⟩ | ⟨hf, hc⟩⟩ := step_of_running hs
    · exact ⟨t, ht, hp, fun _ => by rw [if_neg hf, hc]⟩
    · exact ⟨t, ht, hp, fun _ => by rw [if_pos hf, hc]⟩

/-! ## Which work a stage does on its record -/

theorem State.writeBackExecute_of_none {s : State} (h : s.wRec = none) : s.writeBackExecute = .next s := by
  simp only [State.writeBackExecute, h]

theorem State.writeBackExecute_of_instr {s : State} {rec : Record} {i : Instr} (h : s.wRec = some rec)
    (hi : rec.op = .instr i) : s.writeBackExecute = exec i { s with stage := .writeBack } := by
  simp only [State.writeBackExecute, h, hi]

theorem State.memoryExecute_of_none {s : State} (h : s.mRec = none) : s.memoryExecute = .next s := by
  simp only [State.memoryExecute, h]

theorem State.memoryExecute_of_instr {s : State} {rec : Record} {i : Instr} (h : s.mRec = some rec)
    (hi : rec.op = .instr i) : s.memoryExecute = exec i { s with stage := .memory } := by
  simp only [State.memoryExecute, h, hi]

theorem State.executeExecute_of_none {s : State} (h : s.xRec = none) : s.executeExecute = .next s := by
  simp only [State.executeExecute, h]

theorem State.executeExecute_of_instr {s : State} {rec : Record} {i : Instr} (h : s.xRec = some rec)
    (hi : rec.op = .instr i) : s.executeExecute = exec i { s with stage := .execute } := by
  simp only [State.executeExecute, h, hi]

theorem State.decodeExecute_of_none {s : State} (h : s.dRec = none) : s.decodeExecute = .next s := by
  simp only [State.decodeExecute, h]

theorem State.decodeExecute_of_decode {s : State} {rec : Record} {i : Instr} (h : s.dRec = some rec)
    (hf : s.dState ≠ .free) (hi : decode rec.raw = .ok i) :
    s.decodeExecute =
      exec i { s with dRec := some { rec with op := .instr i }, stage := .decode } := by
  simp only [State.decodeExecute, h, if_neg hf, hi]

/-- A tick is the work of Write-Back, Memory, Execute and Decode, each on the state the one before it left,
then Fetch, the advance phase and the end of the tick (R140). -/
theorem step_of_stages {s s1 s2 s3 s4 : State} (h : s.stopped = false)
    (hw : s.writeBackExecute = .next s1) (hf : s1.fault = none) (hm : s1.memoryExecute = .next s2)
    (hx : s2.executeExecute = .next s3) (hd : s3.decodeExecute = .next s4) :
    step s = .next s4.fetchExecute.advance.endTick := by
  simp [step, State.tick, State.middleExecute, andThen, h, hw, hf, hm, hx, hd]

/-- With nothing in W, M and X a tick is Decode's work, then Fetch's and the end of the tick. -/
theorem step_of_decode {s t : State} (h : s.stopped = false) (hw : s.wRec = none) (hm : s.mRec = none)
    (hx : s.xRec = none) (hd : s.decodeExecute = .next t) :
    step s = .next t.fetchExecute.advance.endTick :=
  step_of_stages h (State.writeBackExecute_of_none hw) (State.halted_fault_of_running h).2
    (State.memoryExecute_of_none hm) (State.executeExecute_of_none hx) hd

/-- The tick that runs the instruction Decode holds, with nothing in W, M and X. -/
theorem step_of_decoded_instr {s t : State} {rec : Record} {i : Instr} (h : s.stopped = false)
    (hw : s.wRec = none) (hm : s.mRec = none) (hx : s.xRec = none) (hr : s.dRec = some rec)
    (hf : s.dState ≠ .free) (hi : decode rec.raw = .ok i)
    (he : exec i { s with dRec := some { rec with op := .instr i }, stage := .decode } = .next t) :
    step s = .next t.fetchExecute.advance.endTick :=
  step_of_decode h hw hm hx ((State.decodeExecute_of_decode hr hf hi).trans he)

/-! ## The tick of an empty machine -/

/-- An empty machine's tick is Fetch's alone. -/
theorem step_of_empty {s : State} (h : Empty s) : step s = .next s.fetchExecute.advance.endTick :=
  step_of_decode h.running h.writeBackEmpty h.memoryEmpty h.executeEmpty
    (State.decodeExecute_of_none h.decodeEmpty)

/-- An empty machine's Fetch is not held back (R150, R192). -/
theorem Empty.fetchExecute_eq {s : State} (h : Empty s) :
    s.fetchExecute = s.acceptFetch (s.mem.cacheRead s.params s.pc .fetch) := by
  have hold : s.fetchHeld = false := by
    simp [State.fetchHeld, State.scalarHold, h.fetchEmpty, h.noHalt, h.decodeEmpty, h.executeEmpty,
      h.memoryEmpty]
  simp [State.fetchExecute, h.noSquash, hold]

/-- With X, M and W empty and nothing decoded, the advance phase hands Fetch's record to Decode (R153). -/
theorem State.advance_of_fetched {s : State} {rec : Record} (hm : s.mRec = none) (hx : s.xRec = none)
    (hd : s.dRec = none) (hf : s.fRec = some rec) :
    s.advance = { s with dRec := some rec, fRec := none, dState := .busy } := by
  have noMemory : s.advanceMemory = s := by simp [State.advanceMemory, hm]
  have noExecute : s.advanceExecute = s := by simp [State.advanceExecute, hx]
  have noDecode : s.advanceDecode = s := by simp [State.advanceDecode, hd]
  simp [State.advance, noMemory, noExecute, noDecode, State.advanceFetch, hf, hd]

/-- The tick in which an empty machine's request is answered with a word that makes a record (R151). -/
theorem step_of_empty_fetched {s : State} (h : Empty s) {v : Word} {m : MemSys}
    (hr : s.mem.cacheRead s.params s.pc .fetch = (.success v, m)) (hv : v ≠ 0#32) :
    step s = .next
      { s with
        mem := m, dRec := some (newRecord v s.pc), dState := .busy
        pc := s.pc + 1#32, clock := s.clock + 1 } := by
  have fetched : s.fetchExecute =
      { s with mem := m, fRec := some (newRecord v s.pc), pc := s.pc + 1#32 } := by
    rw [h.fetchExecute_eq, hr]
    exact if_neg hv
  rw [step_of_empty h, fetched, State.advance_of_fetched (rec := newRecord v s.pc)]
  · simp [State.endTick, h.noHalt, h.turn, h.fetchEmpty]
  · exact h.memoryEmpty
  · exact h.executeEmpty
  · exact h.decodeEmpty
  · rfl

/-- An idle machine's request is granted at once, and nothing of the memory changes (R68, R75). -/
theorem Idle.cacheRead_eq {s : State} (h : Idle s) :
    s.mem.cacheRead s.params s.pc .fetch = (.success s.nextWord, s.mem) := by
  have granted : s.mem.ram.service s.params.ramDelay .fetch = (.ready, s.mem.ram) := by
    simp [Ram.service, h.noRequest, h.noDelay]
  simp [MemSys.cacheRead_bypass h.bypass, MemSys.ramRead, granted, State.nextWord]

/-- The zero word is no instruction (R125, R151). -/
theorem ne_zero_of_decode {w : Word} {i : Instr} (h : decode w = .ok i) : w ≠ 0#32 := by
  rintro rfl
  have zero : decode 0#32 = .error .notIntegerType := rfl
  cases zero.symm.trans h

/-- An idle machine that holds an instruction at `pc` hands it to Decode in one tick. -/
theorem step_of_idle_fetched {s : State} (h : Idle s) (hv : s.nextWord ≠ 0#32) :
    step s = .next
      { s with
        dRec := some (newRecord s.nextWord s.pc), dState := .busy
        pc := s.pc + 1#32, clock := s.clock + 1 } :=
  step_of_empty_fetched h.toEmpty h.cacheRead_eq hv

/-! ## `StepRunsDecodedInstruction` -/

/-- Settles O40: the idle machine fetches in its first tick and its second is `step_of_decoded_instr`; the
full pipeline is `step_of_stages` with each stage's work an instruction's. -/
theorem stepRunsDecodedInstruction : Obligations.StepRunsDecodedInstruction := by
  refine ⟨?idle, ?alone, ?full⟩
  case idle =>
    intro s t i h hi he
    rw [run_succ (step_of_idle_fetched h (ne_zero_of_decode hi))]
    refine run_succ (k := 0) ?_
    exact step_of_decoded_instr h.running h.writeBackEmpty h.memoryEmpty h.executeEmpty rfl nofun hi he
  case alone =>
    intro s t rec i h hw hm hx hr hf hi he
    exact step_of_decoded_instr h hw hm hx hr hf hi he
  case full =>
    intro s s1 s2 s3 s4 rw rm rx rd iw im ix id h hw hiw hew hf hm him hem hx hix hex hd hdf hid hed
    exact step_of_stages h ((State.writeBackExecute_of_instr hw hiw).trans hew) hf
      ((State.memoryExecute_of_instr hm him).trans hem) ((State.executeExecute_of_instr hx hix).trans hex)
      ((State.decodeExecute_of_decode hd hdf hid).trans hed)

end Sys2Proof.Machine
end

section
/-! SUPPORT. Which shared operations the meaning of an instruction is made of, said once for all 47 of them
(spec/40_pipeline.md R160 to R183), so that a statement about every instruction has four cases. -/

namespace Sys2Proof

/-! ## Instructions by format -/

/-- HLT is a Control instruction (R123). -/
theorem Instr.isControl_of_isHalt {i : Instr} (h : i.isHalt = true) : i.isControl = true := by
  cases i <;> trivial

/-- Only a non-Control instruction names an `Rd` (R115). -/
theorem Instr.isControl_of_destination {i : Instr} {rd : Reg} (h : i.destination = some rd) :
    i.isControl = false := by
  cases i <;> trivial

theorem Instr.isHalt_of_destination {i : Instr} {rd : Reg} (h : i.destination = some rd) :
    i.isHalt = false :=
  Bool.eq_false_iff.mpr fun hh =>
    Bool.eq_false_iff.mp (isControl_of_destination h) (isControl_of_isHalt hh)

/-- Every instruction that is not Control names an `Rd`. -/
theorem Instr.destination_of_isControl {i : Instr} (h : i.isControl = false) :
    ∃ rd, i.destination = some rd := by
  cases i <;> first | exact ⟨_, rfl⟩ | cases h

theorem Instr.isAlu_of_isControl {i : Instr} (h : i.isControl = true) : i.isAlu = false := by
  cases i <;> trivial

end Sys2Proof

namespace Sys2Proof.Machine

/-! ## The four shapes of a meaning -/

/-- The work an instruction does at the four stages, as one of four shapes: RegImm and RegReg (R216, R230),
LoadStore (R261 to R264), Control with a condition (R282), and the halt sentinel (R296). -/
inductive ExecShape (i : Instr) (s : State) : Prop where
  | alu (rd : Reg) (decode : State) (alu : Word → Word → AluOut) (compare : Bool)
      (eq : exec i s =
        s.atStage decode (s.executeAlu alu compare) s.memoryPass (s.commitResult rd))
      (hdecode : (∃ imm, decode = s.decodeRegImm rd imm) ∨ ∃ rs, decode = s.decodeRegReg rd rs)
      (halu : i.isAlu = true) (hdest : i.destination = some rd)
  /-- `j` is the instruction Decode writes into the record, with the base register it has put in. -/
  | loadStore (rd m : Reg) (imm : Imm16) (loads : Bool) (aux : Reg) (j : Instr) (execute memory : State)
      (eq : exec i s =
        s.atStage (s.decodeLoadStore j rd m imm loads aux) execute memory (s.commitResult rd))
      (hexecute : execute = s.executeAddress ∨ execute = s.executeNothing)
      (hmemory : (∃ next, memory = s.memoryLoad next) ∨ ∃ next, memory = s.memoryStore next)
      (hj : j.destination = some rd) (hdest : i.destination = some rd)
  | branch (rm : Reg) (imm : Imm16) (aux : Reg) (cond : Flags → Bool)
      (eq : exec i s =
        s.atStage (s.decodeBranch rm imm aux) (s.executeBranch cond) s.memoryPass s.commitBranch)
      (hcontrol : i.isControl = true) (hhalt : i.isHalt = false)
  | halt
      (eq : exec i s = s.atStage s.decodeHalt s.executeNothing s.memoryPass s.commitBranch)
      (hhalt : i.isHalt = true)

/-- Every instruction has one of the four shapes. -/
theorem exec_shape (i : Instr) (s : State) : ExecShape i s := by
  cases i with
  | hlt => exact .halt rfl rfl
  | ldw => exact .loadStore _ _ _ _ _ _ _ _ rfl (.inl rfl) (.inl ⟨_, rfl⟩) rfl rfl
  | pop => exact .loadStore _ _ _ _ _ _ _ _ rfl (.inr rfl) (.inl ⟨_, rfl⟩) rfl rfl
  | push => exact .loadStore _ _ _ _ _ _ _ _ rfl (.inr rfl) (.inr ⟨_, rfl⟩) rfl rfl
  | stw => exact .loadStore _ _ _ _ _ _ _ _ rfl (.inl rfl) (.inr ⟨_, rfl⟩) rfl rfl
  | _ =>
    first
      | exact .alu _ _ _ _ rfl (.inl ⟨_, rfl⟩) rfl rfl
      | exact .alu _ _ _ _ rfl (.inr ⟨_, rfl⟩) rfl rfl
      | exact .branch _ _ _ _ rfl rfl rfl

/-! ## The part of a meaning whose turn it is -/

theorem State.atStage_decode {s t d x m w : State} (hs : s.stage = .decode)
    (h : s.atStage d x m w = .next t) : t = d := by
  rw [State.atStage_eq, hs] at h; cases h; rfl

theorem State.atStage_execute {s t d x m w : State} (hs : s.stage = .execute)
    (h : s.atStage d x m w = .next t) : t = x := by
  rw [State.atStage_eq, hs] at h; cases h; rfl

theorem State.atStage_memory {s t d x m w : State} (hs : s.stage = .memory)
    (h : s.atStage d x m w = .next t) : t = m := by
  rw [State.atStage_eq, hs] at h; cases h; rfl

theorem State.atStage_writeBack {s t d x m w : State} (hs : s.stage = .writeBack)
    (h : s.atStage d x m w = .next t) : t = w := by
  rw [State.atStage_eq, hs] at h; cases h; rfl

/-- A non-Control instruction's work at Write-Back (R182, R183). -/
theorem exec_writeBack_of_destination {s t : State} {i : Instr} {rd : Reg} (hs : s.stage = .writeBack)
    (hi : i.destination = some rd) (h : exec i s = .next t) : t = s.commitResult rd := by
  cases exec_shape i s with
  | alu rd' _ _ _ eq _ _ hdest =>
    cases hdest.symm.trans hi
    exact State.atStage_writeBack hs (eq.symm.trans h)
  | loadStore rd' _ _ _ _ _ _ _ eq _ _ _ hdest =>
    cases hdest.symm.trans hi
    exact State.atStage_writeBack hs (eq.symm.trans h)
  | branch _ _ _ _ _ hcontrol => rw [Instr.isControl_of_destination hi] at hcontrol; cases hcontrol
  | halt _ hhalt => rw [Instr.isHalt_of_destination hi] at hhalt; cases hhalt

/-- What Decode's work leaves: Fetch's latch and a pending halt, unless the instruction is HLT (R164). -/
structure KeepsFetch (s t : State) : Prop where
  fRec : t.fRec = s.fRec
  fSquashed : t.fSquashed = s.fSquashed
  haltPending : t.haltPending = s.haltPending

theorem State.onDecode_keepsFetch {s : State} {work : Record → State}
    (h : ∀ rec, KeepsFetch s (work rec)) : KeepsFetch s (s.onDecode work) := by
  rcases s.onDecode_cases work with ⟨eq, _⟩ | ⟨rec, _, _, eq⟩
  · rw [eq]; exact ⟨rfl, rfl, rfl⟩
  · rw [eq]; exact h rec

theorem exec_decode_keepsFetch {s t : State} {i : Instr} (hs : s.stage = .decode)
    (hi : i.isHalt = false) (h : exec i s = .next t) : KeepsFetch s t := by
  cases exec_shape i s with
  | alu rd d _ _ eq hdecode =>
    obtain rfl := State.atStage_decode hs (eq.symm.trans h)
    obtain ⟨imm, rfl⟩ | ⟨rs, rfl⟩ := hdecode
    all_goals exact State.onDecode_keepsFetch fun rec => by split <;> exact ⟨rfl, rfl, rfl⟩
  | loadStore _ _ _ _ _ _ _ _ eq =>
    obtain rfl := State.atStage_decode hs (eq.symm.trans h)
    exact State.onDecode_keepsFetch fun rec => by split <;> exact ⟨rfl, rfl, rfl⟩
  | branch _ _ _ _ eq =>
    obtain rfl := State.atStage_decode hs (eq.symm.trans h)
    exact State.onDecode_keepsFetch fun rec => by split <;> exact ⟨rfl, rfl, rfl⟩
  | halt _ hhalt => rw [hi] at hhalt; cases hhalt

/-- Decode claims no register for a Control instruction (R163, R164). -/
theorem exec_decode_regs_of_control {s t : State} {i : Instr} (hs : s.stage = .decode)
    (hi : i.isControl = true) (h : exec i s = .next t) : t.regs = s.regs := by
  cases exec_shape i s with
  | alu _ _ _ _ _ _ _ hdest => rw [Instr.isControl_of_destination hdest] at hi; cases hi
  | loadStore _ _ _ _ _ _ _ _ _ _ _ _ hdest =>
    rw [Instr.isControl_of_destination hdest] at hi; cases hi
  | branch rm imm aux _ eq =>
    obtain rfl := State.atStage_decode hs (eq.symm.trans h)
    unfold State.decodeBranch
    rcases s.onDecode_cases _ with ⟨eq, _⟩ | ⟨rec, _, _, eq⟩ <;> rw [eq]
    split <;> rfl
  | halt eq =>
    obtain rfl := State.atStage_decode hs (eq.symm.trans h)
    unfold State.decodeHalt
    rcases s.onDecode_cases _ with ⟨eq, _⟩ | ⟨rec, _, _, eq⟩ <;> rw [eq]
    rfl

/-- Execute changes the flags for RegImm and RegReg alone (R31, R171). -/
theorem exec_execute_flags {s t : State} {i : Instr} (hs : s.stage = .execute)
    (hi : i.isAlu = false) (h : exec i s = .next t) : t.flags = s.flags := by
  have nothing : s.executeNothing.flags = s.flags := by
    obtain ⟨eq, _⟩ | ⟨_, _, _, _, eq⟩ := s.executeNothing_cases
    · rw [eq]
    · exact eq
  cases exec_shape i s with
  | alu _ _ _ _ _ _ halu => rw [hi] at halu; cases halu
  | loadStore _ _ _ _ _ _ x _ eq hexecute =>
    obtain rfl := State.atStage_execute hs (eq.symm.trans h)
    obtain rfl | rfl := hexecute
    · obtain ⟨eq, _⟩ | ⟨_, _, _, _, eq⟩ := s.executeAddress_cases
      · rw [eq]
      · exact eq
    · exact nothing
  | branch _ _ _ cond eq =>
    obtain rfl := State.atStage_execute hs (eq.symm.trans h)
    obtain ⟨eq, _⟩ | ⟨_, _, _, _, eq⟩ := s.executeBranch_cases cond
    · rw [eq]
    · exact eq
  | halt eq =>
    obtain rfl := State.atStage_execute hs (eq.symm.trans h)
    exact nothing

end Sys2Proof.Machine
end

section
/-! SUPPORT. Proofs of the statements about registers, about what a stage leaves unchanged, and about the
writers of `pc` (spec/10_state.md R22, R25, R30, R47). -/

namespace Sys2Proof.Machine

/-! ## `RegisterHoldsLastWrite` -/

/-- Settles O5: by induction on the writes, the last of which decides the register it names. -/
theorem registerHoldsLastWrite : Obligations.RegisterHoldsLastWrite := by
  intro writes regs r
  by_cases hr : r = 0#5
  · rw [if_pos hr, hr, RegFile.readNb_zero]
  · rw [if_neg hr]
    induction writes using List.reverseRecOn with
    | nil => rfl
    | append_singleton writes w ih =>
      rw [List.foldl_concat, RegFile.readNb_writeNb, List.reverse_concat, List.find?_cons]
      by_cases hw : w.1 = r
      · simp [hw, hr]
      · rw [if_neg fun e => hw e.1.symm, ih, beq_false_of_ne hw]

/-! ## `DecodeFrame` -/

theorem DecodeStep.frame {s t : State} {rec : Record} (h : DecodeStep s rec t) :
    t = { s with
          regs := t.regs, dRec := t.dRec, dState := t.dState
          fRec := t.fRec, fSquashed := t.fSquashed, haltPending := t.haltPending } := by
  cases h with
  | claims _ _ _ _ _ eq => subst eq; rfl
  | noClaims _ eq => subst eq; rfl
  | waits _ eq => subst eq; rfl
  | halts eq => subst eq; rfl

theorem DecodeStep.readNb {s t : State} {rec : Record} (h : DecodeStep s rec t) (q : Reg) :
    t.regs.readNb q = s.regs.readNb q := by
  cases h with
  | claims _ _ _ _ _ eq => simp [eq]
  | noClaims _ eq => simp [eq]
  | waits _ eq => simp [eq]
  | halts eq => simp [eq]

theorem RegFile.entry_block_of_ne {regs : RegFile} {r q : Reg} (h : ¬(q = r ∧ q ≠ 0#5)) :
    (regs.block r).entry q = regs.entry q := by
  unfold RegFile.block
  rw [RegFile.entry_setEntry, if_neg]
  rintro ⟨rfl, hq⟩
  exact h ⟨rfl, hq⟩

/-- Decode touches the entries of the registers it claims and of no other (R161, R162, R165). -/
theorem DecodeStep.claimed_of_changed {s t : State} {rec : Record} (h : DecodeStep s rec t) {q : Reg}
    (hq : t.regs.entry q ≠ s.regs.entry q) : t.dState = .free ∧ q ∈ claimsOf t.dRec := by
  cases h with
  | claims a b rec' _ _ eq hclaims =>
    subst eq
    refine ⟨rfl, ?_⟩
    rw [State.decoded_dRec, claimsOf_some, hclaims, mem_claimSet]
    by_contra hn
    refine hq ?_
    rw [State.decoded_regs, RegFile.entry_block_of_ne fun e => hn ⟨e.2, .inr e.1⟩,
      RegFile.entry_block_of_ne fun e => hn ⟨e.2, .inl e.1⟩]
  | noClaims _ eq => subst eq; exact absurd rfl hq
  | waits _ eq => subst eq; exact absurd rfl hq
  | halts eq => subst eq; exact absurd rfl hq

/-- Settles O36: what `exec_decode` leaves, with HLT and Control told apart by `exec_shape`. -/
theorem decodeFrame : Obligations.DecodeFrame := by
  intro s t i hs h
  have fetch := fun hi => exec_decode_keepsFetch (i := i) hs hi h
  have regs := fun hi => exec_decode_regs_of_control (i := i) hs hi h
  obtain ⟨rfl, _⟩ | ⟨rec, _, _, hd⟩ := exec_decode hs h
  · exact ⟨rfl, fun _ => ⟨rfl, rfl, rfl⟩, regs, fun q => ⟨rfl, fun hq => absurd rfl hq⟩⟩
  · exact ⟨hd.frame, fun hi => ⟨(fetch hi).fRec, (fetch hi).fSquashed, (fetch hi).haltPending⟩, regs,
      fun q => ⟨hd.readNb q, hd.claimed_of_changed⟩⟩

/-! ## `ExecuteFrame` -/

/-- Settles O37: the frame of `ExecuteStep`, and the flags by `exec_execute_flags`. -/
theorem executeFrame : Obligations.ExecuteFrame := by
  intro s t i hs h
  refine ⟨?frame, fun hi => exec_execute_flags hs ?notAlu h⟩
  case frame =>
    obtain ⟨rfl, _⟩ | ⟨rec, _, _, rec', flags, rfl, _⟩ := exec_execute hs h <;> rfl
  case notAlu =>
    obtain hc | ⟨rd, rm, imm, hm⟩ := hi
    · exact Instr.isAlu_of_isControl hc
    · simp only [List.mem_cons, List.not_mem_nil, or_false] at hm
      obtain rfl | rfl | rfl | rfl := hm <;> rfl

/-! ## `WriteBackFrame` -/

theorem RegFile.readNb_writeOrKeep_of_ne {regs : RegFile} {r q : Reg} (h : q ≠ r) (v : Word) :
    (regs.writeOrKeep r v).readNb q = regs.readNb q := by
  obtain eq | eq := regs.writeOrKeep_cases r v
  · rw [eq]
  · rw [eq, RegFile.readNb_writeNb, if_neg fun e => h e.1]

theorem RegFile.readNb_writeAux_of_ne {regs : RegFile} {rec : Record} {q : Reg} (h : q ≠ rec.auxReg) :
    (regs.writeAux rec).readNb q = regs.readNb q := by
  unfold RegFile.writeAux
  split
  · rfl
  · exact RegFile.readNb_writeOrKeep_of_ne h _

/-- Settles O39: a non-Control instruction's Write-Back is `commitResult`, which takes the record's fault or
writes `Rd` and the auxiliary register. -/
theorem writeBackFrame : Obligations.WriteBackFrame := by
  intro s t i rd rec hs hr hi h
  obtain rfl := exec_writeBack_of_destination hs hi h
  unfold State.commitResult
  obtain ⟨_, hn⟩ | ⟨rec', hr', ⟨k, hk, eq⟩ | ⟨hf, eq⟩⟩ := s.onWriteBack_cases _
  · cases hr.symm.trans hn
  · rw [eq]
    exact ⟨rfl, fun _ => rfl, fun _ _ _ => rfl⟩
  · cases hr.symm.trans hr'
    rw [eq]
    cases hb : rec.writeBack with
    | false =>
      refine ⟨rfl, fun hn => absurd hf hn, fun q haux _ => ?_⟩
      exact (RegFile.readNb_writeAux_of_ne haux).trans (RegFile.readNb_release ..)
    | true =>
      refine ⟨rfl, fun hn => absurd hf hn, fun q haux hrd => ?_⟩
      have hne : q ≠ rd := fun e => absurd (hrd e) (by simp)
      exact (RegFile.readNb_writeAux_of_ne haux).trans <|
        (RegFile.readNb_writeOrKeep_of_ne hne _).trans (RegFile.readNb_release ..)

/-! ## `PcWrites` -/

/-- `t` has the `pc` of `s`, and a squash of Fetch in `s` still stands in `t`. -/
structure KeepsPc (s t : State) : Prop where
  pc : t.pc = s.pc
  squash : s.fSquashed = true → t.fSquashed = true

theorem KeepsPc.trans {s t u : State} (h : KeepsPc s t) (h' : KeepsPc t u) : KeepsPc s u :=
  ⟨h'.pc.trans h.pc, fun hs => h'.squash (h.squash hs)⟩

theorem DecodeStep.keepsPc {s t : State} {rec : Record} (h : DecodeStep s rec t) : KeepsPc s t := by
  cases h with
  | claims _ _ _ _ _ eq => subst eq; exact ⟨rfl, id⟩
  | noClaims _ eq => subst eq; exact ⟨rfl, id⟩
  | waits _ eq => subst eq; exact ⟨rfl, id⟩
  | halts eq => subst eq; exact ⟨rfl, fun _ => rfl⟩

theorem State.memoryExecute_keepsPc {s t : State} (h : s.memoryExecute = .next t) : KeepsPc s t := by
  rcases s.memoryExecute_cases with ⟨_, h'⟩ | ⟨rec, u, _, h', ⟨rfl, _⟩ | ⟨_, _, _, _, _, rfl, _⟩⟩
  all_goals cases h.symm.trans h'; exact ⟨rfl, id⟩

theorem State.executeExecute_keepsPc {s t : State} (h : s.executeExecute = .next t) : KeepsPc s t := by
  rcases s.executeExecute_cases with ⟨_, h'⟩ | ⟨rec, u, _, h', ⟨rfl, _⟩ | ⟨_, _, _, rfl, _⟩⟩
  all_goals cases h.symm.trans h'; exact ⟨rfl, id⟩

theorem State.decodeInvalid_keepsPc (s : State) : KeepsPc s s.decodeInvalid := by
  unfold State.decodeInvalid
  obtain ⟨eq, _⟩ | ⟨rec, _, _, eq⟩ := s.onDecode_cases _ <;> rw [eq] <;> exact ⟨rfl, id⟩

theorem State.decodeExecute_keepsPc {s t : State} (h : s.decodeExecute = .next t) : KeepsPc s t := by
  rcases s.decodeExecute_cases with ⟨_, h'⟩ | ⟨rec, u, _, _, h', ⟨i, _, hd⟩ | ⟨_, rfl⟩⟩
  · cases h.symm.trans h'; exact ⟨rfl, id⟩
  · cases h.symm.trans h'
    obtain ⟨pc, squash⟩ := hd.keepsPc
    exact ⟨pc, squash⟩
  · cases h.symm.trans h'
    obtain ⟨pc, squash⟩ := State.decodeInvalid_keepsPc { s with stage := .decode }
    exact ⟨pc, squash⟩

/-- Memory, Execute and Decode never write `pc` (R30). -/
theorem State.middle_keepsPc {s1 s2 s3 s4 : State} (hm : s1.memoryExecute = .next s2)
    (hx : s2.executeExecute = .next s3) (hd : s3.decodeExecute = .next s4) : KeepsPc s1 s4 :=
  (State.memoryExecute_keepsPc hm).trans <|
    (State.executeExecute_keepsPc hx).trans (State.decodeExecute_keepsPc hd)

/-- Fetch leaves `pc` or, when it has not been squashed, adds one to it (R151, R154). -/
theorem State.fetchExecute_pc (s : State) :
    s.fetchExecute.pc = s.pc ∨ s.fSquashed = false ∧ s.fetchExecute.pc = s.pc + 1#32 := by
  rcases s.fetchExecute_cases with ⟨_, h⟩ | ⟨_, _, h⟩ | ⟨hq, _, _, _, r, m, _, h | ⟨v, _, _, h⟩⟩
  · rw [h]; exact .inl rfl
  · rw [h]; exact .inl rfl
  · rw [h]; exact .inl rfl
  · rw [h]; exact .inr ⟨hq, rfl⟩

/-- What the advance phase leaves besides what `KeepsGlobals` names: it moves records alone (R142). -/
structure AdvanceKeeps (s t : State) : Prop where
  regs : t.regs = s.regs
  pc : t.pc = s.pc
  fSquashed : t.fSquashed = s.fSquashed
  haltPending : t.haltPending = s.haltPending

theorem AdvanceKeeps.trans {s t u : State} (h : AdvanceKeeps s t) (h' : AdvanceKeeps t u) :
    AdvanceKeeps s u :=
  ⟨h'.regs.trans h.regs, h'.pc.trans h.pc, h'.fSquashed.trans h.fSquashed,
    h'.haltPending.trans h.haltPending⟩

theorem State.advance_keeps (s : State) : AdvanceKeeps s s.advance := by
  have memory : AdvanceKeeps s s.advanceMemory := by
    unfold State.advanceMemory; split <;> exact ⟨rfl, rfl, rfl, rfl⟩
  have execute (s : State) : AdvanceKeeps s s.advanceExecute := by
    unfold State.advanceExecute; split <;> exact ⟨rfl, rfl, rfl, rfl⟩
  have decode (s : State) : AdvanceKeeps s s.advanceDecode := by
    unfold State.advanceDecode; split <;> exact ⟨rfl, rfl, rfl, rfl⟩
  have fetch (s : State) : AdvanceKeeps s s.advanceFetch := by
    unfold State.advanceFetch; split <;> exact ⟨rfl, rfl, rfl, rfl⟩
  exact memory.trans ((execute _).trans ((decode _).trans (fetch _)))

/-- Write-Back leaves `pc` or jumps, and a jump squashes Fetch (R181, R188). -/
theorem State.writeBackExecute_pc {s t : State} (h : s.writeBackExecute = .next t) :
    t.pc = s.pc ∨
      ∃ rec, s.wRec = some rec ∧ rec.branchTaken = true ∧ t.pc = rec.destMemAddr ∧
        t.fSquashed = true ∧ t.fault = s.fault := by
  rcases s.writeBackExecute_cases with ⟨_, h'⟩ | ⟨rec, u, hr, h', hw⟩
  · cases h.symm.trans h'; exact .inl rfl
  · cases h.symm.trans h'
    cases hw with
    | faults _ _ eq => subst eq; exact .inl rfl
    | commits _ _ _ eq => subst eq; exact .inl rfl
    | notTaken _ _ eq => subst eq; exact .inl rfl
    | jumps _ hb eq => subst eq; exact .inr ⟨rec, hr, hb, rfl, rfl, rfl⟩

/-- Settles O48: Write-Back jumps or leaves `pc`; after a jump Fetch is squashed and does not count. -/
theorem pcWrites : Obligations.PcWrites := by
  intro s t ht
  cases hs : s.stopped with
  | true => cases (step_of_stopped hs).symm.trans ht; exact .inl rfl
  | false =>
    obtain ⟨s1, hw, ⟨hf, ht'⟩ | ⟨hf, s2, s3, s4, hm, hx, hd, ht'⟩⟩ := State.tick_cases hs
    · cases ht'.symm.trans ht
      obtain hpc | ⟨rec, hr, hb, hpc, _⟩ := State.writeBackExecute_pc hw
      · exact .inl hpc
      · exact .inr (.inr ⟨rec, hr, hb, hpc⟩)
    · cases ht'.symm.trans ht
      have middle := State.middle_keepsPc hm hx hd
      rw [State.endTick_pc, (State.advance_keeps _).pc]
      obtain hpc | ⟨rec, hr, hb, hpc, hq, _⟩ := State.writeBackExecute_pc hw
      · rw [← hpc, ← middle.pc]
        exact s4.fetchExecute_pc.imp_right fun h => .inl h.2
      · obtain hfetch | ⟨hq', _⟩ := s4.fetchExecute_pc
        · exact .inr (.inr ⟨rec, hr, hb, by rw [hfetch, middle.pc, hpc]⟩)
        · rw [middle.squash hq] at hq'; cases hq'

end Sys2Proof.Machine
end

section
/-! SUPPORT. What every operation on the registers and on the memory keeps: the invariants of the register
file, the RAM and the cache (spec/10_state.md R22, R28, R33, R34, R43). -/

namespace Sys2Proof.Machine

/-! ## Register file -/

/-- An entry whose enables are equal may be stored anywhere: register 0 keeps its own (R22, R28). -/
theorem RegFile.Inv.setEntry {regs : RegFile} (h : regs.Inv) (r : Reg) {e : RegEntry}
    (he : e.readEnable = e.writeEnable) : (regs.setEntry r e).Inv := by
  obtain ⟨hzero, henables⟩ := h
  refine ⟨?_, fun q => ?_⟩
  · rw [RegFile.entry_setEntry, if_neg fun h => h.2 h.1.symm, hzero]
  · rw [RegFile.entry_setEntry]
    split
    · exact he
    · exact henables q

theorem RegFile.Inv.block {regs : RegFile} (h : regs.Inv) (r : Reg) : (regs.block r).Inv :=
  h.setEntry r rfl

theorem RegFile.Inv.unblock {regs : RegFile} (h : regs.Inv) (r : Reg) : (regs.unblock r).Inv :=
  h.setEntry r rfl

theorem RegFile.Inv.writeNb {regs : RegFile} (h : regs.Inv) (r : Reg) (v : Word) :
    (regs.writeNb r v).Inv :=
  h.setEntry r (h.2 r)

theorem RegFile.Inv.release {regs : RegFile} (h : regs.Inv) (claims : List Reg) :
    (regs.release claims).Inv := by
  induction claims generalizing regs with
  | nil => exact h
  | cons c rest ih => exact ih (h.unblock c)

theorem RegFile.Inv.writeOrKeep {regs : RegFile} (h : regs.Inv) (r : Reg) (v : Word) :
    (regs.writeOrKeep r v).Inv := by
  obtain eq | eq := regs.writeOrKeep_cases r v <;> rw [eq]
  · exact h
  · exact h.writeNb r v

theorem RegFile.Inv.writeAux {regs : RegFile} (h : regs.Inv) (rec : Record) : (regs.writeAux rec).Inv := by
  unfold RegFile.writeAux
  split
  · exact h
  · exact h.writeOrKeep _ _

/-! ## RAM -/

/-- A requester that R67 allows keeps the RAM's slot and counter in step (R68, R72). -/
theorem Ram.Inv.service {p : Params} {r r' : Ram} {who : Requester} {g : Grant} (h : r.Inv p)
    (hwho : who = .cache ↔ p.cached = true) (hs : r.service p.ramDelay who = (g, r')) : r'.Inv p := by
  obtain ⟨hwf, hle, hreq, hcache, honly⟩ := h
  have owner : p.cached = true → (some who : Option Requester) = none ∨ some who = some .cache :=
    fun hc => .inr (congrArg some (hwho.2 hc))
  obtain ⟨_, _, _, rfl⟩ | ⟨_, _, hd, rfl⟩ | ⟨_, _, _, rfl⟩ | ⟨_, hr, hl, rfl⟩ | ⟨_, _, _, rfl⟩ :=
    Ram.service_cases hs
  · exact ⟨hwf, hle, hreq, hcache, honly⟩
  · exact ⟨hwf, Nat.le_refl _, by simpa using hd, fun e => hwho.1 (Option.some.inj e), owner⟩
  · exact ⟨hwf, Nat.zero_le _, by simp, nofun, fun _ => .inl rfl⟩
  · refine ⟨hwf, ?_, ?_, hcache, honly⟩
    · show r.left - 1 ≤ p.ramDelay
      omega
    · show r.req = none ↔ r.left - 1 = 0
      rw [hr]
      simp only [reduceCtorEq, false_iff]
      omega
  · exact ⟨hwf, hle, hreq, hcache, honly⟩

theorem Ram.Inv.setWord {p : Params} {r : Ram} (h : r.Inv p) (a : Nat) (v : Word) :
    Ram.Inv p { r with cells := r.cells.setWord a v } := by
  obtain ⟨hwf, rest⟩ := h
  exact ⟨RamCells.wf_setWord hwf a v, rest⟩

theorem MemSys.ramRead_ramInv {p : Params} {m m' : MemSys} {a : Nat} {who : Requester}
    {r : Answer Word} (hr : m.ramRead p a who = (r, m')) (hwho : who = .cache ↔ p.cached = true)
    (h : m.ram.Inv p) : m'.ram.Inv p := by
  unfold MemSys.ramRead at hr
  split at hr <;> next hs => cases hr; exact h.service hwho hs

theorem MemSys.ramReadMulti_ramInv {p : Params} {m m' : MemSys} {a offset : Nat} {who : Requester}
    {r : Answer (List Word)} (hr : m.ramReadMulti p a offset who = (r, m'))
    (hwho : who = .cache ↔ p.cached = true) (h : m.ram.Inv p) : m'.ram.Inv p := by
  unfold MemSys.ramReadMulti at hr
  split at hr <;> next hs => cases hr; exact h.service hwho hs

theorem MemSys.ramWrite_ramInv {p : Params} {m m' : MemSys} {a : Nat} {who : Requester} {v : Word}
    {r : Answer Unit} (hr : m.ramWrite p a who v = (r, m')) (hwho : who = .cache ↔ p.cached = true)
    (h : m.ram.Inv p) : m'.ram.Inv p := by
  unfold MemSys.ramWrite at hr
  split at hr
  · next hs => cases hr; exact h.service hwho hs
  · next hs => cases hr; exact (h.service hwho hs).setWord _ v

/-! ## The ways of a set -/

theorem map_lru_eq_map_rankOf (ways : List Line) :
    ways.map Line.lru = (List.range ways.length).map (rankOf ways) := by
  refine List.ext_getElem (by simp) fun i hi _ => ?_
  have hi' : i < ways.length := by simpa using hi
  simp [rankOf, List.getElem?_eq_getElem hi']

/-- The ranks are a permutation when they are below the number of ways and no two are equal. -/
theorem ranks_perm_iff (ways : List Line) :
    (ways.map Line.lru).Perm (List.range ways.length) ↔
      (∀ i < ways.length, rankOf ways i < ways.length) ∧
      ∀ i < ways.length, ∀ j < ways.length, rankOf ways i = rankOf ways j → i = j := by
  rw [map_lru_eq_map_rankOf]
  constructor
  · intro h
    refine ⟨fun i hi => ?_, fun i hi j hj => ?_⟩
    · exact List.mem_range.1 (h.subset (List.mem_map_of_mem (List.mem_range.2 hi)))
    · exact List.inj_on_of_nodup_map (h.nodup_iff.2 List.nodup_range) (List.mem_range.2 hi)
        (List.mem_range.2 hj)
  · rintro ⟨hlt, hinj⟩
    have nodup : ((List.range ways.length).map (rankOf ways)).Nodup :=
      List.nodup_range.map_on fun i hi j hj => hinj i (List.mem_range.1 hi) j (List.mem_range.1 hj)
    have subset : (List.range ways.length).map (rankOf ways) ⊆ List.range ways.length := by
      intro r hr
      obtain ⟨i, hi, rfl⟩ := List.mem_map.1 hr
      exact List.mem_range.2 (hlt i (List.mem_range.1 hi))
    exact (List.subperm_of_subset nodup subset).perm_of_length_le (by simp)

/-- The LRU update permutes the ranks (R77). -/
theorem touch_ranks_perm {ways : List Line} {w : Nat}
    (h : (ways.map Line.lru).Perm (List.range ways.length)) (hw : w < ways.length) :
    ((touch ways w).map Line.lru).Perm (List.range ways.length) := by
  obtain ⟨hlt, hinj⟩ := (ranks_perm_iff ways).1 h
  rw [← touch_length ways w]
  refine (ranks_perm_iff _).2 ⟨fun i hi => ?_, fun i hi j hj he => ?_⟩
  · rw [touch_length] at hi ⊢
    rw [rankOf_touch hi]
    have := hlt i hi
    have := hlt w hw
    split_ifs <;> omega
  · rw [touch_length] at hi hj
    rw [rankOf_touch hi, rankOf_touch hj] at he
    have := hinj i hi j hj
    have := hinj i hi w hw
    have := hinj j hj w hw
    split_ifs at he <;> omega

/-- `touch` leaves all of a line but its rank. -/
theorem mem_touch {ways : List Line} {w : Nat} {l : Line} (h : l ∈ touch ways w) :
    ∃ k ∈ ways, k.tag = l.tag ∧ k.data = l.data := by
  obtain ⟨i, hi⟩ := List.mem_iff_getElem?.1 h
  have hc := touch_getElem? ways w i
  rw [hi] at hc
  cases hk : ways[i]? with
  | none => rw [hk] at hc; cases hc
  | some k =>
    rw [hk] at hc
    simp only [Option.map_some, Option.some.injEq, Prod.mk.injEq] at hc
    obtain ⟨_, htag, hdata⟩ := hc
    exact ⟨k, List.mem_of_getElem? hk, htag.symm, hdata.symm⟩

theorem touch_getElem {ways : List Line} {w i : Nat} (hi : i < ways.length)
    (hi' : i < (touch ways w).length) :
    (touch ways w)[i].valid = ways[i].valid ∧ (touch ways w)[i].tag = ways[i].tag := by
  have hc := touch_getElem? ways w i
  rw [List.getElem?_eq_getElem hi, List.getElem?_eq_getElem hi'] at hc
  simp only [Option.map_some, Option.some.injEq, Prod.mk.injEq] at hc
  exact ⟨hc.1, hc.2.1⟩

theorem waysInv.touch {p : Params} {ways : List Line} (h : waysInv p ways) {w : Nat}
    (hw : w < ways.length) : waysInv p (touch ways w) := by
  obtain ⟨hlen, hperm, hlines, htags⟩ := h
  refine ⟨by rw [touch_length, hlen], ?_, fun l hl => ?_, ?_⟩
  · rw [← hlen] at hperm ⊢
    exact touch_ranks_perm hperm hw
  · obtain ⟨k, hk, htag, hdata⟩ := mem_touch hl
    rw [← htag, ← hdata]
    exact hlines k hk
  · rw [List.pairwise_iff_getElem] at htags ⊢
    intro i j hi hj hij
    have hi' : i < ways.length := by simpa using hi
    have hj' : j < ways.length := by simpa using hj
    rw [(touch_getElem hi' hi).1, (touch_getElem hi' hi).2, (touch_getElem hj' hj).1,
      (touch_getElem hj' hj).2]
    exact htags i j hi' hj' hij

/-- A way may be rewritten without its rank if its tag stays, or is in no valid way of the set (R79). -/
theorem waysInv.modify {p : Params} {ways : List Line} (h : waysInv p ways) (w : Nat) (f : Line → Line)
    (hlru : ∀ l, (f l).lru = l.lru)
    (hline : ∀ l ∈ ways, (f l).data.length = p.lineWords ∧ (f l).tag < 2 ^ 32)
    (htag : (∀ l, (f l).valid = l.valid ∧ (f l).tag = l.tag) ∨
      ∀ l, ∀ k ∈ ways, k.valid = true → k.tag ≠ (f l).tag) :
    waysInv p (ways.modify w f) := by
  obtain ⟨hlen, hperm, hlines, htags⟩ := h
  refine ⟨by simpa using hlen, ?ranks, fun l hl => ?line, ?tags⟩
  case ranks =>
    have keep : (ways.modify w f).map Line.lru = ways.map Line.lru := by
      refine List.ext_getElem (by simp) fun i _ _ => ?_
      simp only [List.getElem_map, List.getElem_modify]
      split
      · exact hlru _
      · rfl
    rw [keep]
    exact hperm
  case line =>
    obtain ⟨i, hi, rfl⟩ := List.getElem_of_mem hl
    rw [List.getElem_modify]
    split
    · exact hline _ (List.getElem_mem _)
    · exact hlines _ (List.getElem_mem _)
  case tags =>
    rw [List.pairwise_iff_getElem] at htags ⊢
    intro i j hi hj hij
    have hi' : i < ways.length := by simpa using hi
    have hj' : j < ways.length := by simpa using hj
    have old := htags i j hi' hj' hij
    rw [List.getElem_modify, List.getElem_modify]
    by_cases hwi : w = i
    · rw [if_pos hwi, if_neg (by omega)]
      obtain keeps | fresh := htag
      · rw [(keeps _).1, (keeps _).2]; exact old
      · exact fun _ hv => (fresh _ _ (List.getElem_mem _) hv).symm
    · rw [if_neg hwi]
      by_cases hwj : w = j
      · rw [if_pos hwj]
        obtain keeps | fresh := htag
        · rw [(keeps _).1, (keeps _).2]; exact old
        · exact fun hv _ => fresh _ _ (List.getElem_mem _) hv
      · rw [if_neg hwj]; exact old

/-- Installing the tag of a miss in the victim way (R79 step 4, R80 step 2). -/
theorem waysInv.install {p : Params} {ways : List Line} (h : waysInv p ways) (hp : 0 < p.ways) {t : Nat}
    (ht : t < 2 ^ 32) (hmiss : hitWay ways t = none) (f : Line → Line) (hlru : ∀ l, (f l).lru = l.lru)
    (hdata : ∀ l ∈ ways, (f l).data.length = p.lineWords) (htag : ∀ l, (f l).tag = t) :
    waysInv p (Machine.touch (ways.modify (victim ways) f) (victim ways)) := by
  have hne : ways ≠ [] := by
    rintro rfl
    exact absurd h.1 (by simp only [List.length_nil]; omega)
  refine (h.modify _ f hlru (fun l hl => ⟨hdata l hl, by rw [htag]; exact ht⟩) (.inr ?_)).touch
    (by simpa using victim_lt hne)
  intro l k hk hv he
  exact hitWay_none.1 hmiss k hk ⟨hv, he.trans (htag l)⟩

theorem waysInv.fillWay {p : Params} {ways : List Line} (h : waysInv p ways) (hp : 0 < p.ways) {t : Nat}
    (ht : t < 2 ^ 32) (hmiss : hitWay ways t = none) {line : List Word}
    (hline : line.length = p.lineWords) : waysInv p (fillWay ways t line) :=
  h.install hp ht hmiss _ (fun _ => rfl) (fun _ _ => hline) fun _ => rfl

theorem waysInv.storeWay {p : Params} {ways : List Line} (h : waysInv p ways) (hp : 0 < p.ways) {t : Nat}
    (ht : t < 2 ^ 32) (offset : Nat) (v : Word) : waysInv p (storeWay ways t offset v) := by
  obtain ⟨_, _, hlines, _⟩ := id h
  have hdata (l : Line) (hl : l ∈ ways) : (l.data.set offset v).length = p.lineWords := by
    rw [List.length_set, (hlines l hl).1]
  unfold Machine.storeWay
  split
  · next w hw =>
    have hline (l : Line) (hl : l ∈ ways) :
        (l.data.set offset v).length = p.lineWords ∧ l.tag < 2 ^ 32 := ⟨hdata l hl, (hlines l hl).2⟩
    exact (h.modify w (fun l => { l with data := l.data.set offset v }) (fun _ => rfl) hline
      (.inl fun _ => ⟨rfl, rfl⟩)).touch (by simpa using hitWay_lt hw)
  · next hmiss => exact h.install hp ht hmiss _ (fun _ => rfl) hdata fun _ => rfl

/-! ## The cache -/

theorem Cache.Inv.clear {p : Params} {c : Cache} (h : c.Inv p) : c.clear.Inv p := by
  obtain ⟨hsets, hways, _⟩ := h
  exact ⟨hsets, hways, Nat.zero_le _, fun _ => ⟨rfl, rfl⟩, nofun, nofun, fun _ => rfl⟩

theorem Cache.Inv.waitNext {p : Params} {c : Cache} (h : c.Inv p) (hleft : c.left = 0)
    (hreq : c.req ≠ none) : Cache.Inv p { c with waitNext := true } := by
  obtain ⟨hsets, hways, hle, _, _, hcache, hbypass⟩ := h
  exact ⟨hsets, hways, hle, fun e => absurd e hreq, fun _ => hleft, hcache, hbypass⟩

theorem Cache.Inv.putSet {p : Params} {c : Cache} (h : c.Inv p) (i : Nat) {ways : List Line}
    (hw : waysInv p ways) : (c.putSet i ways).Inv p := by
  obtain ⟨hsets, hways, rest⟩ := h
  refine ⟨by rw [Cache.putSet_lines, List.length_set, hsets], fun ws hws => ?_, rest⟩
  obtain hm | rfl := List.mem_or_eq_of_mem_set hws
  · exact hways ws hm
  · exact hw

theorem Params.pos_of_cached {p : Params} (h : p.cached = true) : 0 < p.sets ∧ 0 < p.ways := by
  simp only [Params.cached, Bool.and_eq_true, bne_iff_ne] at h
  omega

/-- The set an address selects is one of the cache's (R74). -/
theorem Cache.Inv.set {p : Params} {c : Cache} (h : c.Inv p) (hc : p.cached = true) (a : Nat) :
    waysInv p (c.set (indexOf p a)) := by
  obtain ⟨hsets, hways, _⟩ := h
  rw [if_pos hc] at hsets
  have hlt : indexOf p a < c.lines.length := by
    rw [hsets]; exact Nat.mod_lt _ (Params.pos_of_cached hc).1
  rw [Cache.set, List.getD_eq_getElem _ _ hlt]
  exact hways _ (List.getElem_mem hlt)

/-- The cache's countdown (R76): when it is over the counter is 0 and the slot is held. -/
theorem Cache.Inv.service {p : Params} {c c' : Cache} {who : Requester} {g : Grant} (h : c.Inv p)
    (hc : p.cached = true) (hwho : who ≠ .cache) (hs : c.service p.cacheDelay who = (g, c')) :
    c'.Inv p ∧ c'.req ≠ none ∧ (g = .ready → c'.left = 0) := by
  obtain ⟨hsets, hways, hle, hfree, hwait, hcache, _⟩ := id h
  have cached : p.cached = false → c'.req = none := fun e => by rw [hc] at e; cases e
  obtain ⟨hreq, rfl, rfl⟩ | ⟨hreq, hn, rfl, rfl⟩ | ⟨hreq, hn, rfl, rfl⟩ | ⟨hreq, _, rfl, rfl⟩ :=
    Cache.service_cases hs
  · refine ⟨⟨hsets, hways, Nat.le_refl _, nofun, fun e => ?_, fun e => hwho (Option.some.inj e), cached⟩,
      nofun, fun hg => ?_⟩
    · exact absurd ((hfree hreq).2.symm.trans e) (by simp)
    · by_contra hd
      rw [if_neg hd] at hg
      cases hg
  · exact ⟨h, by simp [hreq], fun _ => hwait hn⟩
  · refine ⟨⟨hsets, hways, ?_, fun e => ?_, fun e => ?_, hcache, cached⟩, by simp [hreq], fun hg => ?_⟩
    · show c.left - 1 ≤ p.cacheDelay
      omega
    · cases hreq.symm.trans e
    · cases hn.symm.trans e
    · by_contra hl
      rw [if_neg fun h1 => hl (by show c.left - 1 = 0; omega)] at hg
      cases hg
  · exact ⟨h, hreq, nofun⟩

theorem tagOf_lt {p : Params} {a : Nat} (h : a < 2 ^ 32) : tagOf p a < 2 ^ 32 :=
  Nat.lt_of_le_of_lt (Nat.div_le_self ..) h

/-! ## Requests -/

theorem MemSys.Inv.readThrough {p : Params} {m m' : MemSys} {a : Nat} {r : Answer Word} (h : m.Inv p)
    (hc : p.cached = true) (hleft : m.cache.left = 0) (hreq : m.cache.req ≠ none) (ha : a < 2 ^ 32)
    (hr : m.readThrough p a = (r, m')) : m'.Inv p := by
  obtain ⟨hram, hcache⟩ := h
  have hset := hcache.set hc a
  constructor
  · unfold MemSys.readThrough at hr
    simp only at hr
    split at hr
    · cases hr; exact hram
    · split at hr <;> next hm =>
        have served := MemSys.ramReadMulti_ramInv hm (iff_of_true rfl hc) hram
        cases hr
        exact served
  · obtain ⟨_, ⟨w, hw, _, rfl⟩ | ⟨_, _, eq⟩ | ⟨hmiss, line, rfl, _, eq⟩⟩ := MemSys.readThrough_cases hr
    · exact (hcache.putSet _ (hset.touch (hitWay_lt hw))).clear
    · rw [eq]; exact hcache.waitNext hleft hreq
    · rw [eq]
      exact (hcache.putSet _
        (hset.fillWay (Params.pos_of_cached hc).2 (tagOf_lt ha) hmiss (by simp))).clear

theorem MemSys.Inv.writeThrough {p : Params} {m m' : MemSys} {a : Nat} {v : Word} {r : Answer Unit}
    (h : m.Inv p) (hc : p.cached = true) (hleft : m.cache.left = 0) (hreq : m.cache.req ≠ none)
    (ha : a < 2 ^ 32) (hr : m.writeThrough p a v = (r, m')) : m'.Inv p := by
  obtain ⟨hram, hcache⟩ := h
  have hput := hcache.putSet (indexOf p a)
    ((hcache.set hc a).storeWay (Params.pos_of_cached hc).2 (tagOf_lt (p := p) ha) (offsetOf p a) v)
  unfold MemSys.writeThrough at hr
  simp only at hr
  split at hr
  · next hm =>
    have served := MemSys.ramWrite_ramInv hm (iff_of_true rfl hc) hram
    have same := (MemSys.ramWrite_cases hm).1
    cases hr
    exact ⟨served, by simpa only [same] using hput.clear⟩
  · next hm =>
    have served := MemSys.ramWrite_ramInv hm (iff_of_true rfl hc) hram
    have same := (MemSys.ramWrite_cases hm).1
    cases hr
    exact ⟨served, by simpa only [same] using hput.waitNext hleft hreq⟩

/-- A read request of Fetch or Memory keeps the memory's invariant (R43). -/
theorem MemSys.Inv.cacheRead {p : Params} {m m' : MemSys} {a : Word} {who : Requester}
    {r : Answer Word} (h : m.Inv p) (hwho : who ≠ .cache) (hr : m.cacheRead p a who = (r, m')) :
    m'.Inv p := by
  obtain ⟨hram, hcache⟩ := h
  have ha : a.toNat % p.ramWords < 2 ^ 32 := Nat.lt_of_le_of_lt (Nat.mod_le ..) a.isLt
  cases hc : p.cached with
  | false =>
    rw [MemSys.cacheRead_bypass hc] at hr
    refine ⟨MemSys.ramRead_ramInv hr (by simp [hc, hwho]) hram, ?_⟩
    rw [(MemSys.ramRead_cases hr).1]
    exact hcache
  | true =>
    unfold MemSys.cacheRead at hr
    simp only [hc, Bool.not_true, Bool.false_eq_true, if_false] at hr
    split at hr
    · next hs => cases hr; exact ⟨hram, (hcache.service hc hwho hs).1⟩
    · next c hs =>
      obtain ⟨hinv, hreq, hleft⟩ := hcache.service hc hwho hs
      have ready : MemSys.Inv p { m with cache := c } := ⟨hram, hinv⟩
      exact ready.readThrough hc (hleft rfl) hreq ha hr

/-- A write request of Memory keeps the memory's invariant (R43). -/
theorem MemSys.Inv.cacheWrite {p : Params} {m m' : MemSys} {a : Word} {who : Requester} {v : Word}
    {r : Answer Unit} (h : m.Inv p) (hwho : who ≠ .cache) (hr : m.cacheWrite p a who v = (r, m')) :
    m'.Inv p := by
  obtain ⟨hram, hcache⟩ := h
  have ha : a.toNat % p.ramWords < 2 ^ 32 := Nat.lt_of_le_of_lt (Nat.mod_le ..) a.isLt
  cases hc : p.cached with
  | false =>
    rw [MemSys.cacheWrite_bypass hc] at hr
    refine ⟨MemSys.ramWrite_ramInv hr (by simp [hc, hwho]) hram, ?_⟩
    rw [(MemSys.ramWrite_cases hr).1]
    exact hcache
  | true =>
    unfold MemSys.cacheWrite at hr
    simp only [hc, Bool.not_true, Bool.false_eq_true, if_false] at hr
    split at hr
    · next hs => cases hr; exact ⟨hram, (hcache.service hc hwho hs).1⟩
    · next c hs =>
      obtain ⟨hinv, hreq, hleft⟩ := hcache.service hc hwho hs
      have ready : MemSys.Inv p { m with cache := c } := ⟨hram, hinv⟩
      exact ready.writeThrough hc (hleft rfl) hreq ha hr

end Sys2Proof.Machine
end

section
/-! SUPPORT. The invariant of the machine along a tick (spec/10_state.md R37 to R43): what every stage's work
makes of the record in its latch, and what Write-Back, Memory, Execute, Decode, Fetch and the advance phase
each keep. -/

namespace Sys2Proof.Machine

/-! ## What the stages make of a record -/

/-- The record keeps its op and its mark as a branch. -/
structure Record.SameKind (rec rec' : Record) : Prop where
  op : rec'.op = rec.op
  branchTaken : rec'.branchTaken = rec.branchTaken

/-- A decoded record of a non-Control instruction stays one when its op stays and it is not made a taken
branch. -/
theorem Record.Decoded.of_plain {p : Params} {rec rec' : Record} {i : Instr} (h : rec.Decoded p)
    (hi : rec.op = .instr i) (hc : i.isControl = false) (hsame : rec.SameKind rec') : rec'.Decoded p := by
  obtain ⟨htarget, hkind⟩ := h
  obtain ⟨hop, hb⟩ := hsame
  rw [hi] at hkind
  refine ⟨fun ht => ?_, ?_⟩
  · obtain ⟨_, j, hj, hjc⟩ := htarget (hb.symm.trans ht)
    cases hi.symm.trans hj
    cases hc.symm.trans hjc
  · rw [hop, hi]
    exact ⟨hkind.1, fun e => absurd (hc.symm.trans e) (by simp)⟩

/-- The record is left alone or keeps its op and claims, and its target, if it is taken, lies in RAM (R173,
R281). -/
def Record.Branched (rec : Record) (p : Params) (rec' : Record) : Prop :=
  rec' = rec ∨ rec'.op = rec.op ∧ rec'.claims = rec.claims ∧
    (rec'.branchTaken = true → rec'.destMemAddr.toNat < p.ramWords)

/-- A decoded Control record stays one under Execute's work. -/
theorem Record.Decoded.of_control {p : Params} {rec rec' : Record} {i : Instr} (h : rec.Decoded p)
    (hi : rec.op = .instr i) (hc : i.isControl = true) (hb : rec.Branched p rec') : rec'.Decoded p := by
  obtain rfl | ⟨hop, hclaims, htarget⟩ := hb
  · exact h
  · obtain ⟨_, hkind⟩ := h
    rw [hi] at hkind
    refine ⟨fun ht => ⟨htarget ht, i, hop.trans hi, hc⟩, ?_⟩
    rw [hop, hi, hclaims]
    exact hkind

/-- A record becomes a decoded one with an instruction other than HLT (R161 to R165). -/
theorem Record.Decoded.of_instr {p : Params} {rec : Record} {i : Instr} (hi : rec.op = .instr i)
    (hh : i.isHalt = false) (hc : i.isControl = true → rec.claims = []) (hb : rec.branchTaken = false) :
    rec.Decoded p := by
  refine ⟨fun ht => absurd (hb.symm.trans ht) (by simp), ?_⟩
  rw [hi]
  exact ⟨hh, hc⟩

/-- Whatever record a latch holds satisfies `P`. -/
def Holds (P : Record → Prop) (latch : Option Record) : Prop := ∀ rec, latch = some rec → P rec

theorem Holds.none {P : Record → Prop} : Holds P none := by
  rintro _ ⟨⟩

theorem Holds.some {P : Record → Prop} {rec : Record} (h : P rec) : Holds P (some rec) := by
  rintro _ ⟨⟩
  exact h

/-- What Decode's latch holds: a record not yet decoded, or a decoded one that waits for Execute (R38). -/
def DecodeLatch (p : Params) (dRec : Option Record) (dState : DState) : Prop :=
  Holds (fun rec => if dState = .free then rec.Decoded p else rec.Undecoded) dRec

theorem DecodeLatch.empty {p : Params} {dState : DState} : DecodeLatch p none dState := Holds.none

theorem DecodeLatch.awaiting {p : Params} {rec : Record} (h : rec.Undecoded) :
    DecodeLatch p (some rec) .awaitingRegRead := Holds.some h

theorem DecodeLatch.decoded {p : Params} {rec : Record} (h : rec.Decoded p) :
    DecodeLatch p (some rec) .free := Holds.some h

/-- Decode's work on a fresh record leaves its latch well-formed (R160 to R165). -/
theorem exec_decode_latch {p : Params} {s t : State} {rec : Record} {i : Instr} (hs : s.stage = .decode)
    (hr : s.dRec = some rec) (hf : s.dState ≠ .free) (hi : rec.op = .instr i) (hu : rec.Undecoded)
    (h : exec i s = .next t) : DecodeLatch p t.dRec t.dState := by
  have hbranch : rec.branchTaken = false := hu.2.2
  have plain {j : Instr} {rd : Reg} (hj : j.destination = some rd) {rec' : Record}
      (hop : rec'.op = .instr j) (hb : rec'.branchTaken = rec.branchTaken) : rec'.Decoded p :=
    .of_instr hop (Instr.isHalt_of_destination hj)
      (fun e => absurd ((Instr.isControl_of_destination hj).symm.trans e) (by simp)) (hb.trans hbranch)
  cases exec_shape i s with
  | alu rd d _ _ eq hdecode _ hdest =>
    obtain rfl := State.atStage_decode hs (eq.symm.trans h)
    obtain ⟨imm, rfl⟩ | ⟨rs, rfl⟩ := hdecode
    · rw [State.decodeRegImm, State.onDecode_of hr hf]
      split
      · exact DecodeLatch.awaiting hu
      · exact DecodeLatch.decoded (plain hdest hi rfl)
    · rw [State.decodeRegReg, State.onDecode_of hr hf]
      split
      · exact DecodeLatch.decoded (plain hdest hi rfl)
      · exact DecodeLatch.awaiting hu
  | loadStore rd m imm loads aux j _ _ eq _ _ hj =>
    obtain rfl := State.atStage_decode hs (eq.symm.trans h)
    rw [State.decodeLoadStore, State.onDecode_of hr hf]
    split
    · exact DecodeLatch.decoded (plain hj rfl rfl)
    · exact DecodeLatch.awaiting hu
  | branch rm imm aux _ eq hcontrol hhalt =>
    obtain rfl := State.atStage_decode hs (eq.symm.trans h)
    rw [State.decodeBranch, State.onDecode_of hr hf]
    split
    · exact DecodeLatch.awaiting hu
    · exact DecodeLatch.decoded (.of_instr hi hhalt (fun _ => rfl) hbranch)
  | halt eq =>
    obtain rfl := State.atStage_decode hs (eq.symm.trans h)
    rw [State.decodeHalt, State.onDecode_of hr hf]
    exact .empty

theorem Params.ramWords_pos {p : Params} (h : p.valid = true) : 0 < p.ramWords := by
  simp only [Params.valid, isPowerOfTwo, Bool.and_eq_true, beq_iff_eq] at h
  obtain ⟨⟨⟨⟨hpow, _⟩, _⟩, _⟩, _⟩ := h
  rw [hpow]
  exact Nat.two_pow_pos _

/-- An effective address lies in RAM (R265, R281). -/
theorem effectiveAddress_lt {p : Params} (h : 0 < p.ramWords) (base disp : Word) :
    (effectiveAddress p base disp).toNat < p.ramWords := by
  rw [effectiveAddress, BitVec.toNat_ofNat]
  exact Nat.lt_of_le_of_lt (Nat.mod_le ..) (Nat.mod_lt _ h)

/-- What holds of Execute's record and of whatever the work makes of it holds of it afterwards (R170). -/
theorem State.onExecute_xRec {P : Record → Prop} {s : State} {rec rec' : Record}
    {work : Record → State → State} (hr : s.xRec = some rec) (hkeep : P rec)
    (hwork : ∀ rec', (work rec { s with xDone := true }).xRec = some rec' → P rec')
    (h : (s.onExecute work).xRec = some rec') : P rec' := by
  obtain ⟨eq, _⟩ | ⟨rec1, hr1, _, ⟨_, eq⟩ | ⟨_, eq⟩⟩ := s.onExecute_cases work <;> rw [eq] at h
  · cases hr.symm.trans h; exact hkeep
  · cases hr.symm.trans h; exact hkeep
  · cases hr.symm.trans hr1; exact hwork _ h

@[simp] theorem State.executeNothing_xRec (s : State) : s.executeNothing.xRec = s.xRec := by
  unfold State.executeNothing
  obtain ⟨eq, _⟩ | ⟨rec, _, _, ⟨_, eq⟩ | ⟨_, eq⟩⟩ := s.onExecute_cases _ <;> rw [eq]

theorem State.executeAlu_xRec {s : State} {rec rec' : Record} {alu : Word → Word → AluOut}
    {compare : Bool} (hr : s.xRec = some rec) (h : (s.executeAlu alu compare).xRec = some rec') :
    rec.SameKind rec' := by
  refine State.onExecute_xRec (P := rec.SameKind) hr ⟨rfl, rfl⟩ (fun rec' hw => ?_) h
  split at hw <;> cases hw <;> exact ⟨rfl, rfl⟩

theorem State.executeAddress_xRec {s : State} {rec rec' : Record} (hr : s.xRec = some rec)
    (h : s.executeAddress.xRec = some rec') :
    rec.SameKind rec' := by
  refine State.onExecute_xRec (P := rec.SameKind) hr ⟨rfl, rfl⟩ (fun rec' hw => ?_) h
  cases hw
  exact ⟨rfl, rfl⟩

theorem State.executeBranch_xRec {s : State} {rec rec' : Record} {cond : Flags → Bool}
    (hN : 0 < s.params.ramWords) (hr : s.xRec = some rec)
    (h : (s.executeBranch cond).xRec = some rec') : rec.Branched s.params rec' := by
  refine State.onExecute_xRec (P := rec.Branched s.params) hr (.inl rfl) (fun rec' hw => .inr ?_) h
  split at hw <;> cases hw
  · exact ⟨rfl, rfl, fun _ => effectiveAddress_lt hN _ _⟩
  · exact ⟨rfl, rfl, nofun⟩

/-- Execute's work leaves a decoded record (R170 to R173). -/
theorem exec_execute_decoded {s t : State} {rec rec' : Record} {i : Instr} (hs : s.stage = .execute)
    (hN : 0 < s.params.ramWords) (hr : s.xRec = some rec) (hi : rec.op = .instr i)
    (hd : rec.Decoded s.params) (h : exec i s = .next t) (ht : t.xRec = some rec') :
    rec'.Decoded s.params := by
  have same (ht : s.executeNothing.xRec = some rec') : rec'.Decoded s.params := by
    rw [State.executeNothing_xRec] at ht
    cases hr.symm.trans ht
    exact hd
  cases exec_shape i s with
  | alu rd _ _ _ eq _ _ hdest =>
    obtain rfl := State.atStage_execute hs (eq.symm.trans h)
    exact hd.of_plain hi (Instr.isControl_of_destination hdest) (State.executeAlu_xRec hr ht)
  | loadStore rd _ _ _ _ _ x _ eq hexecute _ _ hdest =>
    obtain rfl := State.atStage_execute hs (eq.symm.trans h)
    obtain rfl | rfl := hexecute
    · exact hd.of_plain hi (Instr.isControl_of_destination hdest) (State.executeAddress_xRec hr ht)
    · exact same ht
  | branch _ _ _ cond eq hcontrol =>
    obtain rfl := State.atStage_execute hs (eq.symm.trans h)
    exact hd.of_control hi hcontrol (State.executeBranch_xRec hN hr ht)
  | halt eq =>
    obtain rfl := State.atStage_execute hs (eq.symm.trans h)
    exact same ht

@[simp] theorem State.memoryPass_mRec (s : State) : s.memoryPass.mRec = s.mRec := by
  unfold State.memoryPass
  obtain ⟨eq, _⟩ | ⟨rec, _, _, ⟨_, eq⟩ | ⟨_, eq⟩⟩ := s.onMemory_cases _ <;> rw [eq]

/-- What holds of Memory's record and of whatever the work makes of it holds of it afterwards (R176). -/
theorem State.onMemory_mRec {P : Record → Prop} {s : State} {rec rec' : Record} {work : Record → State}
    (hr : s.mRec = some rec) (hkeep : P rec) (hwork : ∀ rec', (work rec).mRec = some rec' → P rec')
    (h : (s.onMemory work).mRec = some rec') : P rec' := by
  obtain ⟨eq, _⟩ | ⟨rec1, hr1, _, ⟨_, eq⟩ | ⟨_, eq⟩⟩ := s.onMemory_cases work <;> rw [eq] at h
  · cases hr.symm.trans h; exact hkeep
  · cases hr.symm.trans h; exact hkeep
  · cases hr.symm.trans hr1; exact hwork _ h

theorem State.memoryLoad_mRec {s : State} {rec rec' : Record} {next : Word → Word}
    (hr : s.mRec = some rec) (h : (s.memoryLoad next).mRec = some rec') :
    rec.SameKind rec' := by
  refine State.onMemory_mRec (P := rec.SameKind) hr ⟨rfl, rfl⟩ (fun rec' hw => ?_) h
  split at hw
  · cases hw; exact ⟨rfl, rfl⟩
  · cases hr.symm.trans hw; exact ⟨rfl, rfl⟩

theorem State.memoryStore_mRec {s : State} {rec rec' : Record} {next : Word → Word}
    (hr : s.mRec = some rec) (h : (s.memoryStore next).mRec = some rec') :
    rec.SameKind rec' := by
  refine State.onMemory_mRec (P := rec.SameKind) hr ⟨rfl, rfl⟩ (fun rec' hw => ?_) h
  split at hw
  · cases hw; exact ⟨rfl, rfl⟩
  · cases hr.symm.trans hw; exact ⟨rfl, rfl⟩

/-- Memory's work leaves a decoded record (R176 to R178). -/
theorem exec_memory_decoded {p : Params} {s t : State} {rec rec' : Record} {i : Instr}
    (hs : s.stage = .memory) (hr : s.mRec = some rec) (hi : rec.op = .instr i) (hd : rec.Decoded p)
    (h : exec i s = .next t) (ht : t.mRec = some rec') : rec'.Decoded p := by
  have pass (eq : t = s.memoryPass) : rec'.Decoded p := by
    rw [eq, State.memoryPass_mRec] at ht
    cases hr.symm.trans ht
    exact hd
  cases exec_shape i s with
  | alu _ _ _ _ eq => exact pass (State.atStage_memory hs (eq.symm.trans h))
  | branch _ _ _ _ eq => exact pass (State.atStage_memory hs (eq.symm.trans h))
  | halt eq => exact pass (State.atStage_memory hs (eq.symm.trans h))
  | loadStore rd _ _ _ _ _ _ m eq _ hmemory _ hdest =>
    obtain rfl := State.atStage_memory hs (eq.symm.trans h)
    have plain := Instr.isControl_of_destination hdest
    obtain ⟨next, rfl⟩ | ⟨next, rfl⟩ := hmemory
    · exact hd.of_plain hi plain (State.memoryLoad_mRec hr ht)
    · exact hd.of_plain hi plain (State.memoryStore_mRec hr ht)

/-! ## The invariant within a tick -/

/-- What of `State.Inv` holds after every part of a tick: all but the clauses on `stage`, on Fetch's squash
bit and on the done flags, which a tick sets and clears again. -/
structure State.TickInv (s : State) : Prop where
  params : s.params.valid = true
  regs : s.regs.Inv
  mem : s.mem.Inv s.params
  decodeFree : s.dRec = none → s.dState = .free
  executeFresh : s.xRec = none → s.xDone = false
  memoryFresh : s.mRec = none → s.mWaiting = false ∧ s.mDone = false
  halting : s.haltPending = true → s.fRec = none ∧ s.dRec = none
  fetched : Holds Record.Undecoded s.fRec
  decoding : DecodeLatch s.params s.dRec s.dState
  executing : Holds (Record.Decoded s.params) s.xRec
  inMemory : Holds (Record.Decoded s.params) s.mRec
  committing : Holds (Record.Decoded s.params) s.wRec

/-- The invariant between two ticks is the one within a tick and the clauses that hold only there. -/
theorem State.inv_iff {s : State} :
    s.Inv ↔ s.TickInv ∧ s.stage = .writeBack ∧ s.fSquashed = false ∧ s.mDone = false ∧
      (s.xDone = true → s.mWaiting = true) := by
  constructor
  · rintro ⟨params, regs, mem, hstage, hsquash, hdone, decodeFree, executeFresh, memoryFresh, hwait,
      halting, fetched, undecoded, decoded, executing, inMemory, committing⟩
    refine ⟨⟨params, regs, mem, decodeFree, executeFresh, fun h => ⟨memoryFresh h, hdone⟩, halting,
      fetched, fun rec hr => ?_, executing, inMemory, committing⟩, hstage, hsquash, hdone, hwait⟩
    split
    · next hf => exact decoded rec hr hf
    · next hf => exact undecoded rec hr hf
  · rintro ⟨h, hstage, hsquash, hdone, hwait⟩
    refine ⟨h.params, h.regs, h.mem, hstage, hsquash, hdone, h.decodeFree, h.executeFresh,
      fun hm => (h.memoryFresh hm).1, hwait, h.halting, h.fetched, fun rec hr hf => ?_,
      fun rec hr hf => ?_, h.executing, h.inMemory, h.committing⟩
    · simpa only [if_neg hf] using h.decoding rec hr
    · simpa only [if_pos hf] using h.decoding rec hr

/-- Passing the turn to a stage. -/
theorem State.TickInv.atTurn {s : State} (h : s.TickInv) (turn : Stage) :
    State.TickInv { s with stage := turn } :=
  ⟨h.params, h.regs, h.mem, h.decodeFree, h.executeFresh, h.memoryFresh, h.halting, h.fetched,
    h.decoding, h.executing, h.inMemory, h.committing⟩

/-! ### Write-Back -/

/-- After a squash nothing is in flight but in Write-Back's latch (R188). -/
theorem State.tickInv_squashAll {s : State} (hparams : s.params.valid = true) (hregs : s.regs.Inv)
    (hmem : s.mem.Inv s.params) (hw : s.wRec = none) : s.squashAll.TickInv := by
  refine ⟨hparams, ?_, hmem, fun _ => rfl, fun _ => rfl, fun _ => ⟨rfl, rfl⟩, nofun, .none, .empty,
    .none, .none, fun rec hr => ?_⟩
  · rw [State.squashAll_regs]
    exact ((hregs.release _).release _).release _
  · cases hw.symm.trans hr

theorem WriteBackStep.tickInv {s t : State} {rec : Record} (h : s.TickInv) (hw : WriteBackStep s rec t) :
    t.TickInv := by
  cases hw with
  | faults k _ eq =>
    subst eq
    exact ⟨h.params, h.regs, h.mem, h.decodeFree, h.executeFresh, h.memoryFresh, h.halting, h.fetched,
      h.decoding, h.executing, h.inMemory, .none⟩
  | commits regs hregs _ eq =>
    subst eq
    have inv : regs.Inv := by
      obtain rfl | ⟨rd, rfl⟩ := hregs
      · exact (h.regs.release _).writeAux _
      · exact ((h.regs.release _).writeOrKeep _ _).writeAux _
    exact ⟨h.params, inv, h.mem, h.decodeFree, h.executeFresh, h.memoryFresh, h.halting, h.fetched,
      h.decoding, h.executing, h.inMemory, .none⟩
  | notTaken _ _ eq =>
    subst eq
    exact ⟨h.params, h.regs, h.mem, h.decodeFree, h.executeFresh, h.memoryFresh, h.halting, h.fetched,
      h.decoding, h.executing, h.inMemory, .none⟩
  | jumps _ _ eq =>
    subst eq
    refine State.tickInv_squashAll h.params ?_ h.mem rfl
    show RegFile.Inv (if rec.auxReg = 0#5 then _ else _)
    split
    · exact h.regs
    · exact h.regs.writeNb _ _

theorem WriteBackStep.wRec {s t : State} {rec : Record} (hw : WriteBackStep s rec t) :
    t.wRec = none := by
  cases hw with
  | faults _ _ eq => subst eq; rfl
  | commits _ _ _ eq => subst eq; rfl
  | notTaken _ _ eq => subst eq; rfl
  | jumps _ _ eq => subst eq; rfl

/-- Write-Back consumes its record in every case (R180). -/
theorem State.writeBackExecute_wRec {s t : State} (h : s.writeBackExecute = .next t) : t.wRec = none := by
  obtain ⟨hn, h'⟩ | ⟨rec, u, _, h', hw⟩ := s.writeBackExecute_cases
  · cases h.symm.trans h'; exact hn
  · cases h.symm.trans h'; exact hw.wRec

theorem State.TickInv.writeBackExecute {s t : State} (h : s.TickInv) (ht : s.writeBackExecute = .next t) :
    t.TickInv := by
  obtain ⟨_, h'⟩ | ⟨rec, u, _, h', hw⟩ := s.writeBackExecute_cases
  · cases ht.symm.trans h'; exact h
  · cases ht.symm.trans h'; exact hw.tickInv (h.atTurn _)

/-! ### Memory -/

theorem State.memoryExecute_decoded {p : Params} {s t : State} {rec rec' : Record}
    (ht : s.memoryExecute = .next t) (hr : s.mRec = some rec) (hd : rec.Decoded p)
    (hr' : t.mRec = some rec') : rec'.Decoded p := by
  have pass (e : s.memoryExecute = .next (State.memoryPass { s with stage := .memory })) :
      rec'.Decoded p := by
    cases ht.symm.trans e
    rw [State.memoryPass_mRec] at hr'
    cases hr.symm.trans hr'
    exact hd
  cases hi : rec.op with
  | instr i =>
    rw [State.memoryExecute_of_instr hr hi] at ht
    exact exec_memory_decoded (s := { s with stage := .memory }) rfl hr hi hd ht hr'
  | invalid => exact pass (by simp only [State.memoryExecute, hr, hi])
  | undecoded => exact pass (by simp only [State.memoryExecute, hr, hi])

theorem MemoryStep.memInv {s t : State} {rec : Record} (hm : MemoryStep s rec t)
    (h : s.mem.Inv s.params) : t.mem.Inv s.params := by
  obtain ⟨_, mem, _, _, rfl, _, _, _, _, _, _, rfl | ⟨r, hread⟩ | ⟨r, hwrite⟩⟩ := hm
  · exact h
  · exact h.cacheRead (who := .memory) nofun hread
  · exact h.cacheWrite (who := .memory) nofun hwrite

theorem State.TickInv.memoryExecute {s t : State} (h : s.TickInv) (ht : s.memoryExecute = .next t) :
    t.TickInv := by
  obtain ⟨_, h'⟩ | ⟨rec, u, hr, h', ⟨rfl, _⟩ | ⟨_, hm⟩⟩ := s.memoryExecute_cases
  · cases ht.symm.trans h'; exact h
  · cases ht.symm.trans h'; exact h.atTurn _
  · cases ht.symm.trans h'
    have mem := hm.memInv h.mem
    have decoded := fun rec' => State.memoryExecute_decoded (rec' := rec') ht hr (h.inMemory rec hr)
    obtain ⟨_, _, _, _, rfl, _⟩ := hm
    exact ⟨h.params, h.regs, mem, h.decodeFree, h.executeFresh, nofun, h.halting, h.fetched, h.decoding,
      h.executing, decoded, h.committing⟩

/-- After Memory's part of a tick a record in its latch is done or waits for the memory (R176 to R178). -/
def State.MemoryAnswered (s : State) : Prop :=
  s.mRec ≠ none → s.mDone = true ∨ s.mWaiting = true

theorem State.memoryExecute_answered {s t : State} (ht : s.memoryExecute = .next t) :
    t.MemoryAnswered ∧ t.wRec = s.wRec := by
  obtain ⟨hn, h'⟩ | ⟨rec, u, hr, h', ⟨rfl, hd⟩ | ⟨_, hm⟩⟩ := s.memoryExecute_cases
  · cases ht.symm.trans h'; exact ⟨fun hne => absurd hn hne, rfl⟩
  · cases ht.symm.trans h'; exact ⟨fun _ => .inl hd, rfl⟩
  · cases ht.symm.trans h'
    obtain ⟨_, _, _, _, rfl, _, _, _, _, _, answered, _⟩ := hm
    exact ⟨fun _ => answered, rfl⟩

/-- What Execute, Decode and Fetch leave: the latches of Memory and Write-Back. -/
structure KeepsTail (s t : State) : Prop where
  wRec : t.wRec = s.wRec
  mRec : t.mRec = s.mRec
  mDone : t.mDone = s.mDone
  mWaiting : t.mWaiting = s.mWaiting

theorem KeepsTail.trans {s t u : State} (h : KeepsTail s t) (h' : KeepsTail t u) : KeepsTail s u :=
  ⟨h'.wRec.trans h.wRec, h'.mRec.trans h.mRec, h'.mDone.trans h.mDone, h'.mWaiting.trans h.mWaiting⟩

theorem KeepsTail.answered {s t : State} (h : KeepsTail s t) (ha : s.MemoryAnswered) :
    t.MemoryAnswered := by
  rw [State.MemoryAnswered, h.mRec, h.mDone, h.mWaiting]
  exact ha

/-! ### Execute -/

theorem State.executeExecute_keepsTail {s t : State} (ht : s.executeExecute = .next t) :
    KeepsTail s t := by
  obtain ⟨_, h'⟩ | ⟨rec, u, _, h', ⟨rfl, _⟩ | ⟨_, _, _, rfl, _⟩⟩ := s.executeExecute_cases
  all_goals cases ht.symm.trans h'; exact ⟨rfl, rfl, rfl, rfl⟩

theorem State.executeExecute_decoded {s t : State} {rec rec' : Record} (hN : 0 < s.params.ramWords)
    (ht : s.executeExecute = .next t) (hr : s.xRec = some rec) (hd : rec.Decoded s.params)
    (hr' : t.xRec = some rec') : rec'.Decoded s.params := by
  have pass (e : s.executeExecute = .next (State.executeNothing { s with stage := .execute })) :
      rec'.Decoded s.params := by
    cases ht.symm.trans e
    rw [State.executeNothing_xRec] at hr'
    cases hr.symm.trans hr'
    exact hd
  cases hi : rec.op with
  | instr i =>
    rw [State.executeExecute_of_instr hr hi] at ht
    exact exec_execute_decoded (s := { s with stage := .execute }) rfl hN hr hi hd ht hr'
  | invalid => exact pass (by simp only [State.executeExecute, hr, hi])
  | undecoded => exact pass (by simp only [State.executeExecute, hr, hi])

theorem State.TickInv.executeExecute {s t : State} (h : s.TickInv) (ht : s.executeExecute = .next t) :
    t.TickInv := by
  obtain ⟨_, h'⟩ | ⟨rec, u, hr, h', ⟨rfl, _⟩ | ⟨_, hx⟩⟩ := s.executeExecute_cases
  · cases ht.symm.trans h'; exact h
  · cases ht.symm.trans h'; exact h.atTurn _
  · cases ht.symm.trans h'
    have decoded := fun rec' => State.executeExecute_decoded (rec' := rec')
      (Params.ramWords_pos h.params) ht hr (h.executing rec hr)
    obtain ⟨_, _, rfl, _⟩ := hx
    exact ⟨h.params, h.regs, h.mem, h.decodeFree, nofun, h.memoryFresh, h.halting, h.fetched, h.decoding,
      decoded, h.inMemory, h.committing⟩

/-! ### Decode -/

theorem State.TickInv.not_halting {s : State} (h : s.TickInv) {rec : Record} (hr : s.dRec = some rec) :
    s.haltPending = false := by
  by_contra hp
  cases hr.symm.trans (h.halting (by simpa using hp)).2

theorem DecodeStep.tickInv {s t : State} {rec : Record} (h : s.TickInv) (hr : s.dRec = some rec)
    (hd : DecodeStep s rec t) (hlatch : DecodeLatch s.params t.dRec t.dState) : t.TickInv := by
  have running := h.not_halting hr
  have notHalting : s.haltPending = true → s.fRec = none ∧ t.dRec = none :=
    fun e => absurd (running.symm.trans e) (by simp)
  cases hd with
  | claims a b rec' _ _ eq =>
    subst eq
    exact ⟨h.params, (h.regs.block a).block b, h.mem, nofun, h.executeFresh, h.memoryFresh, notHalting,
      h.fetched, hlatch, h.executing, h.inMemory, h.committing⟩
  | noClaims rec' eq =>
    subst eq
    exact ⟨h.params, h.regs, h.mem, nofun, h.executeFresh, h.memoryFresh, notHalting, h.fetched, hlatch,
      h.executing, h.inMemory, h.committing⟩
  | waits rec' eq =>
    subst eq
    exact ⟨h.params, h.regs, h.mem, nofun, h.executeFresh, h.memoryFresh, notHalting, h.fetched, hlatch,
      h.executing, h.inMemory, h.committing⟩
  | halts eq =>
    subst eq
    exact ⟨h.params, h.regs, h.mem, fun _ => rfl, h.executeFresh, h.memoryFresh, fun _ => ⟨rfl, rfl⟩,
      .none, hlatch, h.executing, h.inMemory, h.committing⟩

theorem DecodeStep.keepsTail {s t : State} {rec : Record} (h : DecodeStep s rec t) : KeepsTail s t :=
  ⟨by rw [h.frame], by rw [h.frame], by rw [h.frame], by rw [h.frame]⟩

/-- The record of a word with no meaning is a decoded one: marked, and without claims (R166). -/
theorem Record.Undecoded.invalid {p : Params} {rec : Record} (h : rec.Undecoded) :
    Record.Decoded p { (rec.markFault .malformedInstruction) with op := .invalid, claims := [] } := by
  obtain ⟨_, _, hb⟩ := h
  exact ⟨fun ht => absurd (hb.symm.trans ht) (by simp), rfl, rfl⟩

theorem State.TickInv.undecoded {s : State} (h : s.TickInv) {rec : Record} (hr : s.dRec = some rec)
    (hf : s.dState ≠ .free) : rec.Undecoded :=
  (if_neg hf).mp (h.decoding rec hr)

/-- Decode writes the op into a record that is not yet decoded (R160). -/
theorem State.TickInv.withOp {s : State} (h : s.TickInv) {rec : Record} (hr : s.dRec = some rec)
    (hf : s.dState ≠ .free) (op : Op) (turn : Stage) :
    State.TickInv { s with dRec := some { rec with op := op }, stage := turn } := by
  refine ⟨h.params, h.regs, h.mem, nofun, h.executeFresh, h.memoryFresh,
    fun e => absurd ((h.not_halting hr).symm.trans e) (by simp), h.fetched, ?_, h.executing, h.inMemory,
    h.committing⟩
  have fresh := h.undecoded hr hf
  rintro _ ⟨⟩
  exact (if_neg hf).mpr fresh

/-- Decode's part of a tick with a record to decode: a `DecodeStep` of it with its op filled in, or the mark
of a word with no meaning (R160, R166). -/
theorem State.decodeExecute_step {s t : State} (ht : s.decodeExecute = .next t) :
    t = s ∨
    ∃ rec, s.dRec = some rec ∧ s.dState ≠ .free ∧
      ((∃ i, exec i { s with dRec := some { rec with op := .instr i }, stage := .decode } = .next t ∧
          DecodeStep { s with dRec := some { rec with op := .instr i }, stage := .decode }
            { rec with op := .instr i } t) ∨
        t = State.decoded { s with stage := .decode } s.regs
          { (rec.markFault .malformedInstruction) with op := .invalid, claims := [] }) := by
  obtain ⟨_, h'⟩ | ⟨rec, u, hr, hf, h', hi⟩ := s.decodeExecute_cases
  · cases ht.symm.trans h'; exact .inl rfl
  · cases ht.symm.trans h'
    refine .inr ⟨rec, hr, hf, ?_⟩
    obtain ⟨i, hi, hd⟩ | ⟨_, rfl⟩ := hi
    · rw [State.decodeExecute_of_decode hr hf hi] at ht
      exact .inl ⟨i, ht, hd⟩
    · exact .inr (State.onDecode_of (s := { s with stage := .decode }) hr hf _)

theorem State.decodeExecute_keepsTail {s t : State} (ht : s.decodeExecute = .next t) : KeepsTail s t := by
  obtain rfl | ⟨rec, _, _, ⟨i, _, hd⟩ | rfl⟩ := State.decodeExecute_step ht
  · exact ⟨rfl, rfl, rfl, rfl⟩
  · obtain ⟨wRec, mRec, mDone, mWaiting⟩ := hd.keepsTail
    exact ⟨wRec, mRec, mDone, mWaiting⟩
  · exact ⟨rfl, rfl, rfl, rfl⟩

theorem State.TickInv.decodeExecute {s t : State} (h : s.TickInv) (ht : s.decodeExecute = .next t) :
    t.TickInv := by
  obtain rfl | ⟨rec, hr, hf, ⟨i, he, hd⟩ | rfl⟩ := State.decodeExecute_step ht
  · exact h
  · have fresh := h.undecoded hr hf
    exact hd.tickInv (h.withOp hr hf _ _) rfl (exec_decode_latch (i := i)
      (s := { s with dRec := some { rec with op := .instr i }, stage := .decode }) rfl rfl hf rfl fresh he)
  · exact ⟨h.params, h.regs, h.mem, nofun, h.executeFresh, h.memoryFresh,
      fun e => absurd ((h.not_halting hr).symm.trans e) (by simp), h.fetched,
      DecodeLatch.decoded (h.undecoded hr hf).invalid, h.executing, h.inMemory, h.committing⟩

/-! ### Fetch -/

theorem newRecord_undecoded (w pc : Word) : (newRecord w pc).Undecoded := ⟨rfl, rfl, rfl⟩

theorem State.TickInv.fetchExecute {s : State} (h : s.TickInv) : s.fetchExecute.TickInv := by
  obtain ⟨_, eq⟩ | ⟨_, _, eq⟩ | ⟨_, _, running, _, r, m, hm, rest⟩ := s.fetchExecute_cases
  · rw [eq]
    exact ⟨h.params, h.regs, h.mem, h.decodeFree, h.executeFresh, h.memoryFresh, h.halting, h.fetched,
      h.decoding, h.executing, h.inMemory, h.committing⟩
  · rw [eq]; exact h
  · have mem := h.mem.cacheRead (who := .fetch) nofun hm
    obtain eq | ⟨v, _, _, eq⟩ := rest
    · rw [eq]
      exact ⟨h.params, h.regs, mem, h.decodeFree, h.executeFresh, h.memoryFresh, h.halting, h.fetched,
        h.decoding, h.executing, h.inMemory, h.committing⟩
    · rw [eq]
      refine ⟨h.params, h.regs, mem, h.decodeFree, h.executeFresh, h.memoryFresh,
        fun e => absurd (running.symm.trans e) (by simp), ?_, h.decoding, h.executing, h.inMemory,
        h.committing⟩
      exact .some (newRecord_undecoded v s.pc)

/-- Fetch's squash lasts for the rest of one tick (R154). -/
theorem State.fetchExecute_fSquashed (s : State) : s.fetchExecute.fSquashed = false := by
  obtain ⟨_, eq⟩ | ⟨hq, _, eq⟩ | ⟨hq, _, _, _, r, m, _, eq | ⟨v, _, _, eq⟩⟩ := s.fetchExecute_cases
  · rw [eq]
  · rw [eq]; exact hq
  · rw [eq]; exact hq
  · rw [eq]; exact hq

theorem State.fetchExecute_keepsTail (s : State) : KeepsTail s s.fetchExecute := by
  obtain ⟨_, eq⟩ | ⟨_, _, eq⟩ | ⟨_, _, _, _, r, m, _, eq | ⟨v, _, _, eq⟩⟩ := s.fetchExecute_cases
  all_goals rw [eq]; exact ⟨rfl, rfl, rfl, rfl⟩

/-! ### Advance -/

theorem State.advanceMemory_cases (s : State) :
    (s.advanceMemory = s ∧ (s.mRec = none ∨ s.mDone = false ∨ s.wRec ≠ none)) ∨
    ∃ rec, s.mRec = some rec ∧ s.wRec = none ∧
      s.advanceMemory = { s with wRec := some rec, mRec := none, mDone := false, mWaiting := false } := by
  unfold State.advanceMemory
  split
  · next hc =>
    simp only [Bool.and_eq_true, Option.isSome_iff_exists, Option.isNone_iff_eq_none] at hc
    obtain ⟨⟨⟨rec, hr⟩, _⟩, hw⟩ := hc
    exact .inr ⟨rec, hr, hw, by rw [hr]⟩
  · next hc =>
    refine .inl ⟨rfl, ?_⟩
    simp only [Bool.and_eq_true, Option.isSome_iff_ne_none, Option.isNone_iff_eq_none] at hc
    cases hd : s.mDone with
    | false => exact .inr (.inl rfl)
    | true => tauto

theorem State.advanceExecute_cases (s : State) :
    (s.advanceExecute = s ∧ (s.xRec = none ∨ s.xDone = false ∨ s.mRec ≠ none)) ∨
    ∃ rec, s.xRec = some rec ∧ s.mRec = none ∧
      s.advanceExecute =
        { s with mRec := some rec, xRec := none, xDone := false, mDone := false, mWaiting := false } := by
  unfold State.advanceExecute
  split
  · next hc =>
    simp only [Bool.and_eq_true, Option.isSome_iff_exists, Option.isNone_iff_eq_none] at hc
    obtain ⟨⟨⟨rec, hr⟩, _⟩, hm⟩ := hc
    exact .inr ⟨rec, hr, hm, by rw [hr]⟩
  · next hc =>
    refine .inl ⟨rfl, ?_⟩
    simp only [Bool.and_eq_true, Option.isSome_iff_ne_none, Option.isNone_iff_eq_none] at hc
    cases hd : s.xDone with
    | false => exact .inr (.inl rfl)
    | true => tauto

theorem State.advanceDecode_cases (s : State) :
    s.advanceDecode = s ∨
    ∃ rec, s.dRec = some rec ∧ s.dState = .free ∧ s.xRec = none ∧
      s.advanceDecode = { s with xRec := some rec, dRec := none, xDone := false } := by
  unfold State.advanceDecode
  split
  · next hc =>
    simp only [Bool.and_eq_true, Option.isSome_iff_exists, Option.isNone_iff_eq_none, beq_iff_eq] at hc
    obtain ⟨⟨⟨rec, hr⟩, hf⟩, hx⟩ := hc
    exact .inr ⟨rec, hr, hf, hx, by rw [hr]⟩
  · exact .inl rfl

theorem State.advanceFetch_cases (s : State) :
    s.advanceFetch = s ∨
    ∃ rec, s.fRec = some rec ∧ s.dRec = none ∧
      s.advanceFetch = { s with dRec := some rec, fRec := none, dState := .busy } := by
  unfold State.advanceFetch
  split
  · next hc =>
    simp only [Bool.and_eq_true, Option.isSome_iff_exists, Option.isNone_iff_eq_none] at hc
    obtain ⟨⟨rec, hr⟩, hd⟩ := hc
    exact .inr ⟨rec, hr, hd, by rw [hr]⟩
  · exact .inl rfl

theorem State.TickInv.advanceMemory {s : State} (h : s.TickInv) : s.advanceMemory.TickInv := by
  obtain ⟨eq, _⟩ | ⟨rec, hr, _, eq⟩ := s.advanceMemory_cases
  · rw [eq]; exact h
  · rw [eq]
    refine ⟨h.params, h.regs, h.mem, h.decodeFree, h.executeFresh, fun _ => ⟨rfl, rfl⟩, h.halting,
      h.fetched, h.decoding, h.executing, .none, ?_⟩
    exact .some (h.inMemory rec hr)

theorem State.TickInv.advanceExecute {s : State} (h : s.TickInv) : s.advanceExecute.TickInv := by
  obtain ⟨eq, _⟩ | ⟨rec, hr, _, eq⟩ := s.advanceExecute_cases
  · rw [eq]; exact h
  · rw [eq]
    refine ⟨h.params, h.regs, h.mem, h.decodeFree, fun _ => rfl, fun _ => ⟨rfl, rfl⟩, h.halting,
      h.fetched, h.decoding, .none, ?_, h.committing⟩
    exact .some (h.executing rec hr)

theorem State.TickInv.advanceDecode {s : State} (h : s.TickInv) : s.advanceDecode.TickInv := by
  obtain eq | ⟨rec, hr, hf, _, eq⟩ := s.advanceDecode_cases
  · rw [eq]; exact h
  · rw [eq]
    refine ⟨h.params, h.regs, h.mem, fun _ => hf, fun _ => rfl, h.memoryFresh,
      fun e => ⟨(h.halting e).1, rfl⟩, h.fetched, .empty, ?_, h.inMemory, h.committing⟩
    exact .some ((if_pos hf).mp (h.decoding rec hr))

theorem State.TickInv.advanceFetch {s : State} (h : s.TickInv) : s.advanceFetch.TickInv := by
  obtain eq | ⟨rec, hr, _, eq⟩ := s.advanceFetch_cases
  · rw [eq]; exact h
  · rw [eq]
    refine ⟨h.params, h.regs, h.mem, nofun, h.executeFresh, h.memoryFresh, fun e => ?_, .none, ?_,
      h.executing, h.inMemory, h.committing⟩
    · cases hr.symm.trans (h.halting e).1
    · exact Holds.some (h.fetched rec hr)

theorem State.TickInv.advance {s : State} (h : s.TickInv) : s.advance.TickInv :=
  h.advanceMemory.advanceExecute.advanceDecode.advanceFetch

/-- With Write-Back's latch empty a done record leaves Memory, so one that stays there waits (R179). -/
theorem State.TickInv.advanceMemory_waits {s : State} (h : s.TickInv) (hw : s.wRec = none)
    (ha : s.MemoryAnswered) :
    s.advanceMemory.mDone = false ∧ (s.advanceMemory.mRec ≠ none → s.advanceMemory.mWaiting = true) := by
  obtain ⟨eq, hn | hd | hne⟩ | ⟨rec, _, _, eq⟩ := s.advanceMemory_cases <;> rw [eq]
  · exact ⟨(h.memoryFresh hn).2, fun hne => absurd hn hne⟩
  · exact ⟨hd, fun hne => (ha hne).resolve_left (by simp [hd])⟩
  · exact absurd hw hne
  · exact ⟨rfl, fun hne => absurd rfl hne⟩

/-- An executed record leaves Execute unless Memory's record waits (R175). -/
theorem State.TickInv.advanceExecute_waits {s : State} (h : s.TickInv) (hd : s.mDone = false)
    (hw : s.mRec ≠ none → s.mWaiting = true) :
    s.advanceExecute.mDone = false ∧
      (s.advanceExecute.xDone = true → s.advanceExecute.mWaiting = true) := by
  obtain ⟨eq, hn | hx | hne⟩ | ⟨rec, _, _, eq⟩ := s.advanceExecute_cases <;> rw [eq]
  · exact ⟨hd, fun e => absurd ((h.executeFresh hn).symm.trans e) (by simp)⟩
  · exact ⟨hd, fun e => absurd (hx.symm.trans e) (by simp)⟩
  · exact ⟨hd, fun _ => hw hne⟩
  · exact ⟨rfl, nofun⟩

/-- After the advance phase no record in Memory is done, and an executed one in Execute waits for Memory. -/
theorem State.TickInv.advance_waits {s : State} (h : s.TickInv) (hw : s.wRec = none)
    (ha : s.MemoryAnswered) :
    s.advance.mDone = false ∧ (s.advance.xDone = true → s.advance.mWaiting = true) := by
  obtain ⟨hd, hwait⟩ := h.advanceMemory_waits hw ha
  have execute := h.advanceMemory.advanceExecute_waits hd hwait
  have decode {u : State} (hu : u.mDone = false ∧ (u.xDone = true → u.mWaiting = true)) :
      u.advanceDecode.mDone = false ∧ (u.advanceDecode.xDone = true → u.advanceDecode.mWaiting = true) := by
    obtain eq | ⟨_, _, _, _, eq⟩ := u.advanceDecode_cases <;> rw [eq]
    · exact hu
    · exact ⟨hu.1, nofun⟩
  have fetch {u : State} (hu : u.mDone = false ∧ (u.xDone = true → u.mWaiting = true)) :
      u.advanceFetch.mDone = false ∧ (u.advanceFetch.xDone = true → u.advanceFetch.mWaiting = true) := by
    obtain eq | ⟨_, _, _, eq⟩ := u.advanceFetch_cases <;> rw [eq] <;> exact hu
  exact fetch (decode execute)

theorem State.TickInv.endTick {s : State} (h : s.TickInv) : s.endTick.TickInv :=
  ⟨h.params, h.regs, h.mem, h.decodeFree, h.executeFresh, h.memoryFresh, h.halting, h.fetched,
    h.decoding, h.executing, h.inMemory, h.committing⟩

end Sys2Proof.Machine
end

section
/-! SUPPORT. Proof that every step keeps the invariant of registers, memory and latches (spec/10_state.md
R43). -/

namespace Sys2Proof.Machine

/-- Write-Back's turn and the flags of the other stages stand as they were when a record faults (R184). -/
theorem WriteBackStep.frame_of_fault {s t : State} {rec : Record} (hw : WriteBackStep s rec t)
    (hs : s.fault = none) (ht : t.fault ≠ none) : ∃ k, t = { s with wRec := none, fault := some k } := by
  cases hw with
  | faults k _ eq => exact ⟨k, eq⟩
  | commits _ _ _ eq => subst eq; exact absurd hs ht
  | notTaken _ _ eq => subst eq; exact absurd hs ht
  | jumps _ _ eq => subst eq; exact absurd hs ht

/-- The tick in which Write-Back takes a fault ends there (R140, R184). -/
theorem State.Inv.writeBackFault {s t : State} (h : s.Inv) (hs : s.fault = none)
    (ht : s.writeBackExecute = .next t) (hf : t.fault ≠ none) : t.Inv := by
  obtain ⟨hinv, hstage, hsquash, hdone, hwait⟩ := State.inv_iff.1 h
  refine State.inv_iff.2 ⟨hinv.writeBackExecute ht, ?_⟩
  obtain ⟨_, h'⟩ | ⟨rec, u, _, h', hw⟩ := s.writeBackExecute_cases
  · cases ht.symm.trans h'; exact ⟨hstage, hsquash, hdone, hwait⟩
  · cases ht.symm.trans h'
    obtain ⟨k, rfl⟩ := hw.frame_of_fault hs hf
    exact ⟨rfl, hsquash, hdone, hwait⟩

/-- Settles O50: `TickInv` goes through the parts of a tick one after another, and the advance phase
restores the clauses that hold only between two ticks. -/
theorem stepKeepsInvariant : Obligations.StepKeepsInvariant := by
  intro s t h ht
  cases hs : s.stopped with
  | true => cases (step_of_stopped hs).symm.trans ht; exact h
  | false =>
    obtain ⟨s1, hw, ⟨hf, ht'⟩ | ⟨hf, s2, s3, s4, hm, hx, hd, ht'⟩⟩ := State.tick_cases hs
    · cases ht'.symm.trans ht
      exact h.writeBackFault (State.halted_fault_of_running hs).2 hw hf
    · cases ht'.symm.trans ht
      have inv : s4.fetchExecute.TickInv :=
        ((((State.inv_iff.1 h).1.writeBackExecute hw).memoryExecute hm).executeExecute hx
          |>.decodeExecute hd).fetchExecute
      obtain ⟨answered, hwRec⟩ := State.memoryExecute_answered hm
      have tail : KeepsTail s2 s4.fetchExecute :=
        (State.executeExecute_keepsTail hx).trans <|
          (State.decodeExecute_keepsTail hd).trans s4.fetchExecute_keepsTail
      have consumed : s4.fetchExecute.wRec = none :=
        tail.wRec.trans (hwRec.trans (State.writeBackExecute_wRec hw))
      obtain ⟨hdone, hwait⟩ := inv.advance_waits consumed (tail.answered answered)
      refine State.inv_iff.2 ⟨inv.advance.endTick, rfl, ?_, hdone, hwait⟩
      exact (State.advance_keeps _).fSquashed.trans s4.fetchExecute_fSquashed

end Sys2Proof.Machine
end

section
/-! SUPPORT. The records in flight along a tick: their claims against the register file's enables, and their
addresses (spec/10_state.md R43 (3), (7)). -/

namespace Sys2Proof.Machine

/-! ## The records in flight -/

theorem State.allClaims_eq (s : State) :
    s.allClaims =
      claimsOf s.wRec ++ claimsOf s.mRec ++ claimsOf s.xRec ++ claimsOf s.dRec ++ claimsOf s.fRec := by
  have one (latch : Option Record) : latch.toList.flatMap Record.claims = claimsOf latch := by
    cases latch <;> simp
  simp only [State.allClaims, State.inFlight, List.flatMap_append, one]

/-- The addresses of the records in flight, oldest first. -/
def State.flightPcs (s : State) : List Word := s.inFlight.map Record.pc

/-- The address of the record a latch holds, if any. -/
def pcOf (latch : Option Record) : List Word := latch.toList.map Record.pc

@[simp] theorem pcOf_none : pcOf none = [] := rfl
@[simp] theorem pcOf_some (rec : Record) : pcOf (some rec) = [rec.pc] := rfl

theorem State.flightPcs_eq (s : State) :
    s.flightPcs = pcOf s.wRec ++ pcOf s.mRec ++ pcOf s.xRec ++ pcOf s.dRec ++ pcOf s.fRec := by
  simp only [State.flightPcs, State.inFlight, List.map_append, pcOf]

/-- The advance phase hands records on and keeps their order (R142). -/
theorem State.advance_inFlight (s : State) : s.advance.inFlight = s.inFlight := by
  have memory : s.advanceMemory.inFlight = s.inFlight := by
    obtain ⟨eq, _⟩ | ⟨rec, hr, hw, eq⟩ := s.advanceMemory_cases <;> rw [eq]
    simp [State.inFlight, hr, hw]
  have execute (s : State) : s.advanceExecute.inFlight = s.inFlight := by
    obtain ⟨eq, _⟩ | ⟨rec, hr, hm, eq⟩ := s.advanceExecute_cases <;> rw [eq]
    simp [State.inFlight, hr, hm]
  have decode (s : State) : s.advanceDecode.inFlight = s.inFlight := by
    obtain eq | ⟨rec, hr, _, hx, eq⟩ := s.advanceDecode_cases <;> rw [eq]
    simp [State.inFlight, hr, hx]
  have fetch (s : State) : s.advanceFetch.inFlight = s.inFlight := by
    obtain eq | ⟨rec, hr, hd, eq⟩ := s.advanceFetch_cases <;> rw [eq]
    simp [State.inFlight, hr, hd]
  simp only [State.advance, fetch, decode, execute, memory]

/-! ## Claims and enables -/

/-- No register is claimed twice, and the claimed registers are exactly the blocked ones (R43 (3)). -/
def RegFile.Held (regs : RegFile) (claims : List Reg) : Prop :=
  claims.Nodup ∧ ∀ r : Reg, (regs.entry r).readEnable = false ↔ r ∈ claims

/-- Register 0 is never blocked (R22), so no record claims it. -/
theorem RegFile.Held.zero_not_mem {regs : RegFile} {claims : List Reg} (h : regs.Held claims)
    (hinv : regs.Inv) : 0#5 ∉ claims := by
  intro hr
  have blocked := (h.2 0#5).2 hr
  rw [hinv.1] at blocked
  cases blocked

/-- Releasing the claims of one record leaves the others' (R182, R183, R187). -/
theorem RegFile.Held.release {regs regs' : RegFile} {claims rest : List Reg}
    (h : regs.Held (claims ++ rest)) (h0 : 0#5 ∉ claims)
    (he : ∀ q, (regs'.entry q).readEnable = ((regs.release claims).entry q).readEnable) :
    regs'.Held rest := by
  obtain ⟨_, nodup, disjoint⟩ := List.nodup_append'.1 h.1
  refine ⟨nodup, fun r => ?_⟩
  rw [he, RegFile.readEnable_release]
  by_cases hr : r ∈ claims
  · rw [if_pos ⟨hr, fun e => h0 (e ▸ hr)⟩]
    exact iff_of_false (by simp) (disjoint hr)
  · rw [if_neg fun e => hr e.1, h.2 r, List.mem_append, or_iff_right hr]

theorem RegFile.Held.not_mem_of_readable {regs : RegFile} {claims : List Reg} (h : regs.Held claims)
    {r : Reg} (hr : r ≠ 0#5) (hread : regs.read r = some (regs.readNb r)) : r ∉ claims := by
  intro hm
  obtain ⟨_, h0 | he⟩ := RegFile.read_eq_some.1 hread
  · exact hr h0
  · exact absurd (((h.2 r).2 hm).symm.trans he) (by simp)

/-- Claiming two registers that read free (R161, R162, R165). -/
theorem RegFile.Held.block {regs : RegFile} {claims : List Reg} (h : regs.Held claims) {a b : Reg}
    (ha : regs.read a = some (regs.readNb a)) (hb : regs.read b = some (regs.readNb b)) :
    ((regs.block a).block b).Held (claims ++ claimSet a b) := by
  refine ⟨List.nodup_append'.2 ⟨h.1, claimSet_nodup a b, fun r hr hclaim => ?_⟩, fun r => ?_⟩
  · obtain ⟨hr0, rfl | rfl⟩ := mem_claimSet.1 hclaim
    · exact h.not_mem_of_readable hr0 ha hr
    · exact h.not_mem_of_readable hr0 hb hr
  · rw [RegFile.readEnable_block, RegFile.readEnable_block, List.mem_append, mem_claimSet, ← h.2 r]
    by_cases hb : r = b ∧ b ≠ 0#5
    · obtain ⟨rfl, hr0⟩ := hb
      simp [hr0]
    · rw [if_neg hb]
      by_cases ha : r = a ∧ a ≠ 0#5
      · obtain ⟨rfl, hr0⟩ := ha
        simp [hr0]
      · rw [if_neg ha, or_iff_left]
        rintro ⟨hr0, rfl | rfl⟩
        · exact ha ⟨rfl, hr0⟩
        · exact hb ⟨rfl, hr0⟩

/-! ### Write-Back's release -/

/-- What Write-Back's work on a decoded record does to the claims: it faults, it jumps with no claim of the
record's own (R163), or it releases them and changes but the register file. -/
inductive WriteBackRelease (s : State) (rec : Record) (t : State) : Prop where
  | faults (hfault : t.fault ≠ none)
  | jumps (regs : RegFile) (henables : ∀ q, (regs.entry q).readEnable = (s.regs.entry q).readEnable)
      (hclaims : rec.claims = [])
      (eq : t = State.squashAll { s with wRec := none, regs := regs, pc := rec.destMemAddr })
  | commits (regs : RegFile)
      (henables : ∀ q,
        (regs.entry q).readEnable = ((s.regs.release rec.claims).entry q).readEnable)
      (eq : t = { s with wRec := none, regs := regs })

theorem WriteBackStep.release_of_fault {s t : State} {rec : Record} (hw : WriteBackStep s rec t)
    (hf : rec.fault ≠ none) : WriteBackRelease s rec t := by
  cases hw with
  | faults k _ eq => exact .faults (by simp [eq])
  | commits _ _ hnone => exact absurd hnone hf
  | notTaken hnone => exact absurd hnone hf
  | jumps hnone => exact absurd hnone hf

theorem WriteBackStep.release_of_no_claims {s t : State} {rec : Record} (hw : WriteBackStep s rec t)
    (hclaims : rec.claims = []) : WriteBackRelease s rec t := by
  cases hw with
  | faults k _ eq => exact .faults (by simp [eq])
  | commits regs hregs _ eq =>
    refine .commits regs (fun q => ?_) eq
    obtain rfl | ⟨rd, rfl⟩ := hregs <;> simp
  | notTaken _ _ eq => exact .commits s.regs (fun q => by rw [hclaims, RegFile.release_nil]) eq
  | jumps _ _ eq =>
    refine .jumps _ (fun q => ?_) hclaims eq
    split <;> simp

/-- A non-Control record that is not marked is committed by releasing its claims and writing at most two
registers (R182, R183). -/
theorem State.commitResult_release {s : State} {rec : Record} (hr : s.wRec = some rec)
    (hf : rec.fault = none) (rd : Reg) : WriteBackRelease s rec (s.commitResult rd) := by
  rw [State.commitResult, State.onWriteBack_of hr hf]
  split <;> exact .commits _ (by simp) rfl

/-- A Control record claims nothing and an `Invalid` one is marked (R163, R166), so Write-Back leaves no
claim of a record it consumes without a fault. -/
theorem State.writeBackExecute_release {p : Params} {s t : State} {rec : Record} (hr : s.wRec = some rec)
    (hd : rec.Decoded p) (ht : s.writeBackExecute = .next t) :
    WriteBackRelease { s with stage := .writeBack } rec t := by
  have hstep : WriteBackStep { s with stage := .writeBack } rec t := by
    obtain ⟨hn, _⟩ | ⟨rec', u, hr', h', hw⟩ := s.writeBackExecute_cases
    · cases hr.symm.trans hn
    · cases hr.symm.trans hr'
      cases ht.symm.trans h'
      exact hw
  obtain ⟨_, hkind⟩ := hd
  cases hop : rec.op with
  | undecoded => rw [hop] at hkind; exact hkind.elim
  | invalid =>
    rw [hop] at hkind
    exact hstep.release_of_fault (by simp [hkind.1])
  | instr i =>
    rw [hop] at hkind
    cases hc : i.isControl with
    | true => exact hstep.release_of_no_claims (hkind.2 hc)
    | false =>
      by_cases hf : rec.fault = none
      · obtain ⟨rd, hrd⟩ := Instr.destination_of_isControl hc
        rw [State.writeBackExecute_of_instr hr hop] at ht
        rw [exec_writeBack_of_destination (s := { s with stage := .writeBack }) rfl hrd ht]
        exact State.commitResult_release (s := { s with stage := .writeBack }) hr hf rd
      · exact hstep.release_of_fault hf

/-! ### Claims along a tick -/

/-- R43 (3) within a tick: the claims in flight are exactly the blocked registers. -/
def State.ClaimsHeld (s : State) : Prop := s.regs.Held s.allClaims

theorem State.claimsOk_iff {s : State} : s.ClaimsOk ↔ (s.fault = none → s.ClaimsHeld) := Iff.rfl

theorem RegFile.Held.congr {regs regs' : RegFile} {claims : List Reg} (h : regs.Held claims)
    (he : ∀ q, (regs'.entry q).readEnable = (regs.entry q).readEnable) : regs'.Held claims :=
  ⟨h.1, fun r => by rw [he, h.2 r]⟩

theorem claimsOf_of_undecoded {latch : Option Record} (h : Holds Record.Undecoded latch) :
    claimsOf latch = [] := by
  cases latch with
  | none => rfl
  | some rec => exact (h rec rfl).1

/-- A squash releases the claims of M, X and D (R187, R188). -/
theorem State.squashAll_held {s : State}
    (h : s.regs.Held (claimsOf s.mRec ++ (claimsOf s.xRec ++ (claimsOf s.dRec ++ []))))
    (h0 : 0#5 ∉ claimsOf s.mRec ++ (claimsOf s.xRec ++ (claimsOf s.dRec ++ []))) :
    s.squashAll.regs.Held [] := by
  simp only [List.mem_append, not_or] at h0
  obtain ⟨hm, hx, hd, _⟩ := h0
  rw [State.squashAll_regs]
  exact ((h.release hm fun _ => rfl).release hx fun _ => rfl).release hd fun _ => rfl

theorem State.ClaimsHeld.writeBackExecute {s t : State} (h : s.ClaimsHeld) (inv : s.TickInv)
    (ht : s.writeBackExecute = .next t) (hf : t.fault = none) : t.ClaimsHeld := by
  cases hr : s.wRec with
  | none => cases (State.writeBackExecute_of_none hr).symm.trans ht; exact h
  | some rec =>
    have zero := h.zero_not_mem inv.regs
    rw [State.ClaimsHeld, State.allClaims_eq, hr, claimsOf_some] at h
    rw [State.allClaims_eq, hr, claimsOf_some] at zero
    simp only [List.append_assoc] at h zero
    have own : 0#5 ∉ rec.claims := fun e => zero (List.mem_append_left _ e)
    cases State.writeBackExecute_release hr (inv.committing rec hr) ht with
    | faults hfault => exact absurd hf hfault
    | commits regs henables eq =>
      subst eq
      rw [State.ClaimsHeld, State.allClaims_eq]
      simpa using h.release own henables
    | jumps regs henables hclaims eq =>
      rw [claimsOf_of_undecoded inv.fetched, hclaims] at h zero
      subst eq
      exact State.squashAll_held (h.congr henables) zero

/-- What Memory, Execute and the advance phase leave: the records' claims and addresses, in their order, the
register file, `pc` and a pending halt. -/
structure KeepsFlight (s t : State) : Prop where
  regs : t.regs = s.regs
  claims : t.allClaims = s.allClaims
  pcs : t.flightPcs = s.flightPcs
  pc : t.pc = s.pc
  haltPending : t.haltPending = s.haltPending

theorem KeepsFlight.claimsHeld {s t : State} (h : KeepsFlight s t) (hs : s.ClaimsHeld) : t.ClaimsHeld := by
  rw [State.ClaimsHeld, h.regs, h.claims]
  exact hs

theorem State.memoryExecute_keepsFlight {s t : State} (ht : s.memoryExecute = .next t) :
    KeepsFlight s t := by
  obtain ⟨_, h'⟩ | ⟨rec, u, hr, h', ⟨rfl, _⟩ | ⟨_, rec', mem, waiting, done, rfl, hclaims, _, _, hpc, _⟩⟩ :=
    s.memoryExecute_cases
  · cases ht.symm.trans h'; exact ⟨rfl, rfl, rfl, rfl, rfl⟩
  · cases ht.symm.trans h'; exact ⟨rfl, rfl, rfl, rfl, rfl⟩
  · cases ht.symm.trans h'
    refine ⟨rfl, ?_, ?_, rfl, rfl⟩
    · simp only [State.allClaims_eq, hr, claimsOf_some, hclaims]
    · simp only [State.flightPcs_eq, hr, pcOf_some, hpc]

theorem State.executeExecute_keepsFlight {s t : State} (ht : s.executeExecute = .next t) :
    KeepsFlight s t := by
  obtain ⟨_, h'⟩ | ⟨rec, u, hr, h', ⟨rfl, _⟩ | ⟨_, rec', flags, rfl, hclaims, _, _, hpc⟩⟩ :=
    s.executeExecute_cases
  · cases ht.symm.trans h'; exact ⟨rfl, rfl, rfl, rfl, rfl⟩
  · cases ht.symm.trans h'; exact ⟨rfl, rfl, rfl, rfl, rfl⟩
  · cases ht.symm.trans h'
    refine ⟨rfl, ?_, ?_, rfl, rfl⟩
    · simp only [State.allClaims_eq, hr, claimsOf_some, hclaims]
    · simp only [State.flightPcs_eq, hr, pcOf_some, hpc]

theorem State.advance_keepsFlight (s : State) : KeepsFlight s s.advance := by
  obtain ⟨regs, pc, _, haltPending⟩ := s.advance_keeps
  exact ⟨regs, by rw [State.allClaims, State.advance_inFlight]; rfl,
    by rw [State.flightPcs, State.advance_inFlight]; rfl, pc, haltPending⟩

theorem DecodeStep.claimsHeld {s t : State} {rec : Record} (hd : DecodeStep s rec t) (inv : s.TickInv)
    (hr : s.dRec = some rec) (hu : rec.Undecoded) (h : s.ClaimsHeld) : t.ClaimsHeld := by
  obtain ⟨hnone, _⟩ := hu
  rw [State.ClaimsHeld, State.allClaims_eq, hr, claimsOf_some, hnone,
    claimsOf_of_undecoded inv.fetched] at h
  cases hd with
  | claims a b rec' readA readB eq hclaims =>
    subst eq
    rw [State.ClaimsHeld, State.allClaims_eq]
    simpa [hclaims, claimsOf_of_undecoded inv.fetched] using h.block readA readB
  | noClaims rec' eq hclaims =>
    subst eq
    rw [State.ClaimsHeld, State.allClaims_eq]
    simpa [hclaims, claimsOf_of_undecoded inv.fetched] using h
  | waits rec' eq hclaims =>
    subst eq
    rw [State.ClaimsHeld, State.allClaims_eq]
    simpa [hclaims, hnone, claimsOf_of_undecoded inv.fetched] using h
  | halts eq =>
    subst eq
    rw [State.ClaimsHeld, State.allClaims_eq]
    simpa using h

theorem State.ClaimsHeld.decodeExecute {s t : State} (h : s.ClaimsHeld) (inv : s.TickInv)
    (ht : s.decodeExecute = .next t) : t.ClaimsHeld := by
  obtain rfl | ⟨rec, hr, hf, ⟨i, _, hd⟩ | rfl⟩ := State.decodeExecute_step ht
  · exact h
  · have fresh := inv.undecoded hr hf
    refine hd.claimsHeld (inv.withOp hr hf _ _) rfl fresh ?_
    rw [State.ClaimsHeld, State.allClaims_eq, hr] at h
    rw [State.ClaimsHeld, State.allClaims_eq]
    exact h
  · rw [State.ClaimsHeld, State.allClaims_eq, hr, claimsOf_some, (inv.undecoded hr hf).1] at h
    rw [State.ClaimsHeld, State.allClaims_eq]
    exact h

/-- Fetch claims nothing (R151). -/
theorem State.ClaimsHeld.fetchExecute {s : State} (h : s.ClaimsHeld) : s.fetchExecute.ClaimsHeld := by
  obtain ⟨_, eq⟩ | ⟨_, _, eq⟩ | ⟨_, hn, _, _, r, m, _, eq | ⟨v, _, _, eq⟩⟩ := s.fetchExecute_cases
  · rw [eq]; exact h
  · rw [eq]; exact h
  · rw [eq]; exact h
  · rw [State.ClaimsHeld, State.allClaims_eq, hn] at h
    rw [eq, State.ClaimsHeld, State.allClaims_eq]
    exact h

/-! ## Order -/

theorem consecutive_iff_isChain (l : List Word) :
    Consecutive l ↔ l.IsChain fun a b => b = a + 1#32 := by
  induction l with
  | nil => simp [Consecutive]
  | cons a rest ih =>
    cases rest with
    | nil => simp [Consecutive]
    | cons b rest => rw [Consecutive, ih, List.isChain_cons_cons]

theorem Consecutive.left_of_append {l r : List Word} (h : Consecutive (l ++ r)) : Consecutive l := by
  rw [consecutive_iff_isChain] at h ⊢
  exact h.left_of_append

theorem Consecutive.right_of_append {l r : List Word} (h : Consecutive (l ++ r)) : Consecutive r := by
  rw [consecutive_iff_isChain] at h ⊢
  exact h.right_of_append

theorem Consecutive.concat_succ {l : List Word} {a : Word} (h : Consecutive (l ++ [a])) :
    Consecutive (l ++ [a] ++ [a + 1#32]) := by
  rw [consecutive_iff_isChain] at h ⊢
  rw [List.append_assoc, List.singleton_append]
  exact List.isChain_append_cons_cons.2 ⟨h, rfl, List.isChain_singleton _⟩

theorem KeepsFlight.inOrder {s t : State} (h : KeepsFlight s t) (hs : s.InOrder) : t.InOrder := by
  obtain ⟨_, _, pcs, pc, haltPending⟩ := h
  rw [State.InOrder, ← State.flightPcs, pcs, pc, haltPending]
  exact hs

/-- The oldest record may leave the pipeline (R180). -/
theorem State.InOrder.consume {s t : State} {rec : Record} (h : s.InOrder) (hr : s.wRec = some rec)
    (hpcs : t.flightPcs = pcOf s.mRec ++ pcOf s.xRec ++ pcOf s.dRec ++ pcOf s.fRec)
    (hpc : t.pc = s.pc) (hhalt : t.haltPending = s.haltPending) : t.InOrder := by
  have pcs : s.flightPcs = [rec.pc] ++ t.flightPcs := by
    rw [State.flightPcs_eq, hr, hpcs]
    simp
  obtain ⟨records, next⟩ := h
  rw [← State.flightPcs, pcs] at records
  rw [← State.flightPcs, pcs, List.append_assoc, ← hhalt, ← hpc] at next
  exact ⟨records.right_of_append, fun hp => (next hp).right_of_append⟩

theorem WriteBackStep.inOrder {s t : State} {rec : Record} (hw : WriteBackStep s rec t)
    (hr : s.wRec = some rec) (h : s.InOrder) : t.InOrder := by
  cases hw with
  | faults k _ eq => subst eq; exact h.consume hr (by rw [State.flightPcs_eq]; rfl) rfl rfl
  | commits regs _ _ eq => subst eq; exact h.consume hr (by rw [State.flightPcs_eq]; rfl) rfl rfl
  | notTaken _ _ eq => subst eq; exact h.consume hr (by rw [State.flightPcs_eq]; rfl) rfl rfl
  | jumps _ _ eq => subst eq; exact ⟨trivial, fun _ => trivial⟩

theorem State.InOrder.atTurn {s : State} (h : s.InOrder) (turn : Stage) :
    State.InOrder { s with stage := turn } := h

theorem State.InOrder.writeBackExecute {s t : State} (h : s.InOrder) (ht : s.writeBackExecute = .next t) :
    t.InOrder := by
  obtain ⟨_, h'⟩ | ⟨rec, u, hr, h', hw⟩ := s.writeBackExecute_cases
  · cases ht.symm.trans h'; exact h
  · cases ht.symm.trans h'; exact hw.inOrder hr (h.atTurn _)

/-- Decode's record may be rewritten when its address stays. -/
theorem State.InOrder.rewrite {s t : State} {rec : Record} (h : s.InOrder) (hr : s.dRec = some rec)
    (hpcs : t.flightPcs = pcOf s.wRec ++ pcOf s.mRec ++ pcOf s.xRec ++ [rec.pc] ++ pcOf s.fRec)
    (hpc : t.pc = s.pc) (hhalt : t.haltPending = s.haltPending) : t.InOrder := by
  rw [State.InOrder, ← State.flightPcs, State.flightPcs_eq, hr] at h
  rw [State.InOrder, ← State.flightPcs, hpcs, hpc, hhalt]
  exact h

/-- Decode keeps the records' addresses, or drops the halt sentinel and the record behind it (R164). -/
theorem DecodeStep.inOrder {s t : State} {rec : Record} (hd : DecodeStep s rec t)
    (hr : s.dRec = some rec) (h : s.InOrder) : t.InOrder := by
  cases hd with
  | claims a b rec' _ _ eq _ _ hpc =>
    subst eq
    exact h.rewrite hr (by rw [← hpc]; exact State.flightPcs_eq _) rfl rfl
  | noClaims rec' eq _ _ hpc =>
    subst eq
    exact h.rewrite hr (by rw [← hpc]; exact State.flightPcs_eq _) rfl rfl
  | waits rec' eq _ _ hpc =>
    subst eq
    exact h.rewrite hr (by rw [← hpc]; exact State.flightPcs_eq _) rfl rfl
  | halts eq =>
    subst eq
    refine ⟨?_, fun hp => by cases hp⟩
    obtain ⟨records, _⟩ := h
    rw [← State.flightPcs, State.flightPcs_eq, List.append_assoc] at records
    rw [← State.flightPcs, State.flightPcs_eq]
    simpa using records.left_of_append

theorem State.InOrder.decodeExecute {s t : State} (h : s.InOrder) (ht : s.decodeExecute = .next t) :
    t.InOrder := by
  obtain rfl | ⟨rec, hr, hf, ⟨i, _, hd⟩ | rfl⟩ := State.decodeExecute_step ht
  · exact h
  · exact hd.inOrder rfl (h.rewrite hr (State.flightPcs_eq _) rfl rfl)
  · exact h.rewrite hr (State.flightPcs_eq _) rfl rfl

/-- A fetched record follows the others, and `pc` follows it (R151). -/
theorem State.InOrder.fetchExecute {s : State} (h : s.InOrder) : s.fetchExecute.InOrder := by
  obtain ⟨_, eq⟩ | ⟨_, _, eq⟩ | ⟨_, hn, hp, _, r, m, _, eq | ⟨v, _, _, eq⟩⟩ := s.fetchExecute_cases
  · rw [eq]; exact h
  · rw [eq]; exact h
  · rw [eq]; exact h
  · have next := h.2 hp
    have pcs : s.fetchExecute.flightPcs = s.flightPcs ++ [s.pc] := by
      rw [State.flightPcs_eq, State.flightPcs_eq, hn, eq]
      simp
    have pc : s.fetchExecute.pc = s.pc + 1#32 := by rw [eq]
    rw [State.InOrder, ← State.flightPcs, pcs, pc]
    exact ⟨next, fun _ => next.concat_succ⟩

end Sys2Proof.Machine
end

section
/-! SUPPORT. Proofs that every step keeps the claims and the order of the records in flight (spec/10_state.md
R43 (3), (7)), and that the invariants hold after reset (R45, R340). -/

namespace Sys2Proof.Machine

/-- Settles O51: Write-Back releases what it consumes, Decode claims what it blocks, and the other parts of
a tick leave claims and enables alone. -/
theorem stepKeepsClaims : Obligations.StepKeepsClaims := by
  intro s t hinv h ht
  cases hs : s.stopped with
  | true => cases (step_of_stopped hs).symm.trans ht; exact h
  | false =>
    obtain ⟨s1, hw, ⟨hf, ht'⟩ | ⟨hf, s2, s3, s4, hm, hx, hd, ht'⟩⟩ := State.tick_cases hs
    · cases ht'.symm.trans ht
      exact fun hnone => absurd hnone hf
    · cases ht'.symm.trans ht
      have inv1 := (State.inv_iff.1 hinv).1.writeBackExecute hw
      have inv3 := (inv1.memoryExecute hm).executeExecute hx
      have held := State.claimsOk_iff.1 h (State.halted_fault_of_running hs).2
      have held1 := held.writeBackExecute (State.inv_iff.1 hinv).1 hw hf
      have held3 := (State.executeExecute_keepsFlight hx).claimsHeld
        ((State.memoryExecute_keepsFlight hm).claimsHeld held1)
      have held4 := (held3.decodeExecute inv3 hd).fetchExecute
      exact State.claimsOk_iff.2 fun _ => (State.advance_keepsFlight _).claimsHeld held4

/-- Settles O52: records leave at the old end, are dropped or added at the young end, and are handed on in
order. -/
theorem stepKeepsOrder : Obligations.StepKeepsOrder := by
  intro s t _ h ht
  cases hs : s.stopped with
  | true => cases (step_of_stopped hs).symm.trans ht; exact h
  | false =>
    obtain ⟨s1, hw, ⟨hf, ht'⟩ | ⟨hf, s2, s3, s4, hm, hx, hd, ht'⟩⟩ := State.tick_cases hs
    · cases ht'.symm.trans ht
      exact h.writeBackExecute hw
    · cases ht'.symm.trans ht
      have order2 := (State.memoryExecute_keepsFlight hm).inOrder (h.writeBackExecute hw)
      have order3 := (State.executeExecute_keepsFlight hx).inOrder order2
      exact (State.advance_keepsFlight _).inOrder (order3.decodeExecute hd).fetchExecute

/-! ## `InvariantsAfterReset` -/

theorem resetWith_entry (p : Params) (cells : RamCells) (r : Reg) :
    (State.resetWith p cells).regs.entry r = { value := 0#32, readEnable := true, writeEnable := true } := by
  simp [State.resetWith, RegFile.entry]

/-- A set of the cache after reset: the ranks are `0 .. W-1` in order and no way is valid (R45). -/
theorem waysInv_reset (p : Params) : waysInv p ((List.range p.ways).map (resetLine p)) := by
  refine ⟨by simp, ?_, fun l hl => ?_, ?_⟩
  · have ranks : (List.range p.ways).map (Line.lru ∘ resetLine p) = List.range p.ways := List.map_id _
    rw [List.map_map, ranks]
  · obtain ⟨w, _, rfl⟩ := List.mem_map.1 hl
    exact ⟨List.length_replicate, Nat.two_pow_pos 32⟩
  · rw [List.pairwise_map]
    exact List.pairwise_of_forall fun _ _ => nofun

theorem resetCache_inv (p : Params) : (resetCache p).Inv p := by
  refine ⟨?_, fun ways hways => ?_, Nat.zero_le _, fun _ => ⟨rfl, rfl⟩, nofun, nofun, fun _ => rfl⟩
  · unfold resetCache
    cases p.cached <;> simp
  · unfold resetCache at hways
    cases hc : p.cached with
    | false => simp [hc] at hways
    | true =>
      rw [hc] at hways
      rw [List.eq_of_mem_replicate hways]
      exact waysInv_reset p

theorem resetWith_inv {p : Params} (hp : p.valid = true) {cells : RamCells} (hc : cells.wf = true) :
    (State.resetWith p cells).Inv := by
  have regs : (State.resetWith p cells).regs.Inv :=
    ⟨resetWith_entry p cells _, fun r => by rw [resetWith_entry]⟩
  have ram : Ram.Inv p (State.resetWith p cells).mem.ram :=
    ⟨hc, Nat.zero_le _, iff_of_true rfl rfl, nofun, fun _ => .inl rfl⟩
  refine State.inv_iff.2 ⟨?_, rfl, rfl, rfl, nofun⟩
  exact ⟨hp, regs, ⟨ram, resetCache_inv p⟩, fun _ => rfl, fun _ => rfl, fun _ => ⟨rfl, rfl⟩, nofun, .none,
    .empty, .none, .none, .none⟩

theorem resetWith_claimsOk (p : Params) (cells : RamCells) : (State.resetWith p cells).ClaimsOk := by
  refine fun _ => ⟨List.nodup_nil, fun r => ?_⟩
  rw [resetWith_entry]
  exact iff_of_false nofun List.not_mem_nil

theorem resetWith_inOrder (p : Params) (cells : RamCells) : (State.resetWith p cells).InOrder :=
  ⟨trivial, fun _ => trivial⟩

/-- Settles O53: `State.load` and `State.reset` are both `State.resetWith`. -/
theorem invariantsAfterReset : Obligations.InvariantsAfterReset := by
  refine ⟨fun p image s h => ?load, ?reset⟩
  case load =>
    unfold State.load at h
    split at h
    · next hc =>
      cases h
      rw [Bool.and_eq_true] at hc
      exact ⟨resetWith_inv hc.1 (RamCells.wf_loadWords rfl 0 image), resetWith_claimsOk _ _,
        resetWith_inOrder _ _⟩
    · cases h
  case reset =>
    exact ⟨resetWith_inv (by decide) rfl, resetWith_claimsOk _ _, resetWith_inOrder _ _⟩

end Sys2Proof.Machine
end

section
/-! SUPPORT. Proofs of the statements about the RAM's contents: its ports, what Memory's stage and a whole
step do to them, and what load leaves (spec/20_memory.md R62 to R71, spec/40_pipeline.md R176 to R178,
spec/70_reset_and_hazards.md R340). -/

namespace Sys2Proof.Machine

/-! ## `RamPorts` -/

section
variable {p : Params} {m : MemSys} {a : Nat} {who : Requester} {r : Ram}

theorem MemSys.ramRead_of_wait (h : m.ram.service p.ramDelay who = (.wait, r)) :
    m.ramRead p a who = (.wait, { m with ram := r }) := by
  simp only [MemSys.ramRead, h]

theorem MemSys.ramRead_of_ready (h : m.ram.service p.ramDelay who = (.ready, r)) :
    m.ramRead p a who = (.success (r.cells.word (a % p.ramWords)), { m with ram := r }) := by
  simp only [MemSys.ramRead, h]

theorem MemSys.ramWrite_of_wait {v : Word} (h : m.ram.service p.ramDelay who = (.wait, r)) :
    m.ramWrite p a who v = (.wait, { m with ram := r }) := by
  simp only [MemSys.ramWrite, h]

theorem MemSys.ramWrite_of_ready {v : Word} (h : m.ram.service p.ramDelay who = (.ready, r)) :
    m.ramWrite p a who v =
      (.success (), { m with ram := { r with cells := r.cells.setWord (a % p.ramWords) v } }) := by
  simp only [MemSys.ramWrite, h]

end

theorem Ram.cells_of_service {d : Nat} {who : Requester} {r r' : Ram} {g : Grant}
    (h : r.service d who = (g, r')) : r'.cells = r.cells := by
  rw [← r.service_cells d who, h]

/-- Settles O6: a port's answer is the service's, and a granted write is `RamCells.setWord`. -/
theorem ramPorts : Obligations.RamPorts := by
  intro p m a who v hwf
  rcases hs : m.ram.service p.ramDelay who with ⟨g, r⟩
  have hcells : r.cells = m.ram.cells := Ram.cells_of_service hs
  cases g with
  | wait =>
    rw [MemSys.ramRead_of_wait hs, MemSys.ramWrite_of_wait hs]
    exact ⟨fun _ => ⟨rfl, rfl, hcells⟩, nofun, hcells⟩
  | ready =>
    rw [MemSys.ramRead_of_ready hs, MemSys.ramWrite_of_ready hs, hcells]
    exact ⟨nofun, fun _ => ⟨rfl, rfl, fun b => RamCells.word_setWord hwf _ b v⟩, rfl⟩

/-! ## What Memory's work does to the RAM -/

/-- Memory's work is a store for STW and PUSH, and a pass or a load for every other instruction. -/
theorem exec_memory_work {s t : State} {i : Instr} (hs : s.stage = .memory) (h : exec i s = .next t) :
    (i.isStore = true ∧ ∃ next, t = s.memoryStore next) ∨
      (i.isStore = false ∧ (t = s.memoryPass ∨ ∃ next, t = s.memoryLoad next)) := by
  cases i with
  | stw | push => exact .inl ⟨rfl, _, State.atStage_memory hs h⟩
  | ldw | pop => exact .inr ⟨rfl, .inr ⟨_, State.atStage_memory hs h⟩⟩
  | _ => exact .inr ⟨rfl, .inl (State.atStage_memory hs h)⟩

theorem State.memoryPass_cells (s : State) : s.memoryPass.mem.ram.cells = s.mem.ram.cells := by
  obtain ⟨eq, _⟩ | ⟨_, _, _, _, eq⟩ := s.memoryPass_cases <;> rw [eq]

theorem State.memoryLoad_cells (s : State) (next : Word → Word) :
    (s.memoryLoad next).mem.ram.cells = s.mem.ram.cells := by
  obtain ⟨eq, _⟩ | ⟨_, _, _, _, eq⟩ := s.memoryLoad_cases next
  · rw [eq]
  · exact eq

/-- `t` has the RAM's contents of `s` but for the store of the unmarked record Memory holds in `s` (R178). -/
def State.RamStored (s t : State) : Prop :=
  ∃ rec, s.mRec = some rec ∧ rec.fault = none ∧
    t.mem.ram.cells =
      s.mem.ram.cells.setWord (rec.destMemAddr.toNat % s.params.ramWords) rec.result

theorem State.memoryStore_cells (s : State) (next : Word → Word) :
    (s.memoryStore next).mem.ram.cells = s.mem.ram.cells ∨ s.RamStored (s.memoryStore next) := by
  unfold State.memoryStore
  obtain ⟨eq, _⟩ | ⟨rec, hr, _, ⟨_, eq⟩ | ⟨hf, eq⟩⟩ := s.onMemory_cases _ <;> rw [eq]
  · exact .inl rfl
  · exact .inl rfl
  · rcases hm : s.mem.cacheWrite s.params rec.destMemAddr .memory rec.result with ⟨answer, m⟩
    obtain ⟨rfl, hc⟩ | ⟨hne, hc⟩ := MemSys.cacheWrite_cells hm
    · exact .inr ⟨rec, hr, hf, hc⟩
    · cases answer with
      | success => exact absurd rfl hne
      | wait | waitNextLevel => exact .inl hc

/-- An instruction at Memory's turn leaves the RAM's contents, or it is a store and one word of them is
replaced (R176 to R178). -/
theorem exec_memory_cells {s t : State} {i : Instr} (hs : s.stage = .memory) (h : exec i s = .next t) :
    t.mem.ram.cells = s.mem.ram.cells ∨ i.isStore = true ∧ s.RamStored t := by
  obtain ⟨hi, next, rfl⟩ | ⟨_, rfl | ⟨next, rfl⟩⟩ := exec_memory_work hs h
  · exact (s.memoryStore_cells next).imp_right fun stored => ⟨hi, stored⟩
  · exact .inl s.memoryPass_cells
  · exact .inl (s.memoryLoad_cells next)

/-! ## `MemoryFrame` -/

/-- A store of a word changes none of the bytes outside it (R62, R71). -/
theorem RamCells.byte_setWord_of_ne {m : RamCells} (h : m.wf = true) {a k : Nat} (hk : k / 4 ≠ a)
    (v : Word) : (m.setWord a v).byte k = m.byte k := by
  rw [RamCells.byte_setWord h, if_neg (by omega), if_neg (by omega), if_neg (by omega),
    if_neg (by omega)]

/-- Settles O38: the frame of `MemoryStep`, and the RAM by `exec_memory_cells`. -/
theorem memoryFrame : Obligations.MemoryFrame := by
  intro s t i hs hwf h
  have cells := exec_memory_cells hs h
  refine ⟨?frame, fun hn => ?empty, fun hi k => ?other, fun _ rec hr k hk => ?store⟩
  case frame =>
    obtain ⟨rfl, _⟩ | ⟨_, _, _, _, _, _, _, rfl, _⟩ := exec_memory hs h <;> rfl
  case empty =>
    obtain ⟨eq, _⟩ | ⟨rec, hr, _⟩ := exec_memory hs h
    · exact eq
    · cases hn.symm.trans hr
  case other =>
    obtain eq | ⟨hstore, _⟩ := cells
    · rw [eq]
    · cases hi.symm.trans hstore
  case store =>
    obtain eq | ⟨_, rec', hr', _, eq⟩ := cells
    · rw [eq]
    · cases hr.symm.trans hr'
      rw [eq, RamCells.byte_setWord_of_ne hwf hk]

/-! ## `StoresChangeRam` -/

/-- Memory's part of a tick leaves the RAM's contents, or it is the store of an unmarked STW or PUSH. -/
theorem State.memoryExecute_cells {s t : State} (h : s.memoryExecute = .next t) :
    t.mem.ram.cells = s.mem.ram.cells ∨
      ∃ i, s.mRec.map Record.op = some (.instr i) ∧ i.isStore = true ∧ s.RamStored t := by
  have pass (e : s.memoryExecute = .next (State.memoryPass { s with stage := .memory })) :
      t.mem.ram.cells = s.mem.ram.cells := by
    cases h.symm.trans e
    exact State.memoryPass_cells _
  cases hr : s.mRec with
  | none => cases h.symm.trans (State.memoryExecute_of_none hr); exact .inl rfl
  | some rec =>
    cases hi : rec.op with
    | instr i =>
      rw [State.memoryExecute_of_instr hr hi] at h
      obtain eq | ⟨hstore, stored⟩ := exec_memory_cells (s := { s with stage := .memory }) rfl h
      · exact .inl eq
      · exact .inr ⟨i, congrArg some hi, hstore, stored⟩
    | invalid => exact .inl (pass (by simp only [State.memoryExecute, hr, hi]))
    | undecoded => exact .inl (pass (by simp only [State.memoryExecute, hr, hi]))

/-- Write-Back leaves the memory, and squashes Memory's record if it does not leave it (R187). -/
theorem WriteBackStep.mem_mRec {s t : State} {rec : Record} (h : WriteBackStep s rec t) :
    t.mem = s.mem ∧ (t.mRec = s.mRec ∨ t.mRec = none) := by
  cases h with
  | faults _ _ eq => subst eq; exact ⟨rfl, .inl rfl⟩
  | commits _ _ _ eq => subst eq; exact ⟨rfl, .inl rfl⟩
  | notTaken _ _ eq => subst eq; exact ⟨rfl, .inl rfl⟩
  | jumps _ _ eq => subst eq; exact ⟨rfl, .inr rfl⟩

theorem State.writeBackExecute_mem_mRec {s t : State} (h : s.writeBackExecute = .next t) :
    t.mem = s.mem ∧ (t.mRec = s.mRec ∨ t.mRec = none) := by
  obtain ⟨_, h'⟩ | ⟨rec, u, _, h', hw⟩ := s.writeBackExecute_cases
  · cases h.symm.trans h'; exact ⟨rfl, .inl rfl⟩
  · cases h.symm.trans h'; exact hw.mem_mRec

theorem State.executeExecute_mem {s t : State} (h : s.executeExecute = .next t) : t.mem = s.mem := by
  obtain ⟨_, h'⟩ | ⟨rec, u, _, h', ⟨rfl, _⟩ | ⟨_, _, _, rfl, _⟩⟩ := s.executeExecute_cases
  all_goals cases h.symm.trans h'; rfl

theorem DecodeStep.mem {s t : State} {rec : Record} (h : DecodeStep s rec t) : t.mem = s.mem := by
  cases h with
  | claims _ _ _ _ _ eq => subst eq; rfl
  | noClaims _ eq => subst eq; rfl
  | waits _ eq => subst eq; rfl
  | halts eq => subst eq; rfl

theorem State.decodeInvalid_mem (s : State) : s.decodeInvalid.mem = s.mem := by
  unfold State.decodeInvalid
  obtain ⟨eq, _⟩ | ⟨rec, _, _, eq⟩ := s.onDecode_cases _ <;> rw [eq]
  rfl

theorem State.decodeExecute_mem {s t : State} (h : s.decodeExecute = .next t) : t.mem = s.mem := by
  obtain ⟨_, h'⟩ | ⟨rec, u, _, _, h', ⟨i, _, hd⟩ | ⟨_, rfl⟩⟩ := s.decodeExecute_cases
  · cases h.symm.trans h'; rfl
  · cases h.symm.trans h'; exact hd.mem
  · cases h.symm.trans h'; exact State.decodeInvalid_mem _

/-- Fetch's request is a read (R151). -/
theorem State.fetchExecute_cells (s : State) : s.fetchExecute.mem.ram.cells = s.mem.ram.cells := by
  obtain ⟨_, eq⟩ | ⟨_, _, eq⟩ | ⟨_, _, _, _, r, m, hm, eq | ⟨v, _, _, eq⟩⟩ := s.fetchExecute_cases
  · rw [eq]
  · rw [eq]
  · rw [eq]; exact MemSys.cacheRead_cells hm
  · rw [eq]; exact MemSys.cacheRead_cells hm

theorem State.advance_mem (s : State) : s.advance.mem = s.mem := by
  have memory : s.advanceMemory.mem = s.mem := by unfold State.advanceMemory; split <;> rfl
  have execute (s : State) : s.advanceExecute.mem = s.mem := by
    unfold State.advanceExecute; split <;> rfl
  have decode (s : State) : s.advanceDecode.mem = s.mem := by
    unfold State.advanceDecode; split <;> rfl
  have fetch (s : State) : s.advanceFetch.mem = s.mem := by
    unfold State.advanceFetch; split <;> rfl
  exact (fetch _).trans ((decode _).trans ((execute _).trans memory))

/-- Settles O49: of the parts of a tick only Memory's can change the RAM's contents, and the record it works
on is the one Memory held before the tick. -/
theorem storesChangeRam : Obligations.StoresChangeRam := by
  intro s t ht
  cases hs : s.stopped with
  | true => cases (step_of_stopped hs).symm.trans ht; exact .inl rfl
  | false =>
    obtain ⟨s1, hw, ⟨_, ht'⟩ | ⟨_, s2, s3, s4, hm, hx, hd, ht'⟩⟩ := State.tick_cases hs
    · cases ht'.symm.trans ht
      exact .inl (by rw [(State.writeBackExecute_mem_mRec hw).1])
    · cases ht'.symm.trans ht
      obtain ⟨hmem, hrec⟩ := State.writeBackExecute_mem_mRec hw
      have rest : s4.fetchExecute.advance.endTick.mem.ram.cells = s2.mem.ram.cells := by
        rw [State.endTick_mem, State.advance_mem, State.fetchExecute_cells,
          State.decodeExecute_mem hd, State.executeExecute_mem hx]
      rw [rest, ← hmem, ← (State.writeBackExecute_params_clock hw).1]
      obtain eq | ⟨i, hop, hstore, rec, hr, hf, eq⟩ := State.memoryExecute_cells hm
      · exact .inl eq
      · rw [hr] at hop hrec
        obtain hrec | hrec := hrec
        · exact .inr ⟨rec, i, hrec.symm, Option.some.inj hop, hstore, hf, eq⟩
        · cases hrec

/-! ## `LoadResets` -/

/-- A word after loading an image at `a`: below it and beyond its end the old word (R340). -/
theorem RamCells.word_loadWords {m : RamCells} (h : m.wf = true) (a : Nat) (ws : List Word) (b : Nat) :
    (m.loadWords a ws).word b = if b < a then m.word b else ws.getD (b - a) (m.word b) := by
  induction ws generalizing m a with
  | nil => simp [RamCells.loadWords]
  | cons w rest ih =>
    rw [RamCells.loadWords, ih (RamCells.wf_setWord h a w), RamCells.word_setWord h]
    obtain hlt | rfl | hgt := Nat.lt_trichotomy b a
    · rw [if_pos (by omega), if_neg (by omega), if_pos hlt]
    · simp
    · obtain ⟨n, rfl⟩ : ∃ n, b = a + 1 + n := ⟨b - (a + 1), by omega⟩
      rw [if_neg (by omega), if_neg (by omega), if_neg (by omega), Nat.add_sub_cancel_left,
        show a + 1 + n - a = n + 1 by omega, List.getD_cons_succ]

theorem State.load_eq_none {p : Params} {image : List Word} :
    State.load p image = none ↔ p.valid = false ∨ p.ramWords < image.length := by
  simp [State.load, imp_iff_not_or]

theorem State.load_eq_some {p : Params} {image : List Word} {s : State}
    (h : State.load p image = some s) : s = State.resetWith p (RamCells.loadWords [] 0 image) := by
  unfold State.load at h
  split at h
  · exact (Option.some.inj h).symm
  · cases h

/-- Every set of a cache after reset (R45). -/
theorem resetCache_set {p : Params} (hc : p.cached = true) {i : Nat} (hi : i < p.sets) :
    (resetCache p).set i = (List.range p.ways).map (resetLine p) := by
  simp [Cache.set, resetCache, hc, hi]

/-- Settles O54: what load leaves is `State.resetWith` of the image. -/
theorem loadResets : Obligations.LoadResets := by
  refine fun p image => ⟨State.load_eq_none, fun s hs => ?_⟩
  obtain rfl := State.load_eq_some hs
  refine ⟨fun a => ?ram, rfl, rfl, rfl, rfl, rfl, fun hc => ?bypass, fun hc => ⟨?sets, fun i hi => ?set⟩,
    rfl, rfl, resetWith_entry p _, rfl, rfl, rfl, rfl, rfl, rfl, rfl, rfl, rfl, rfl, rfl⟩
  case ram => exact (RamCells.word_loadWords rfl 0 image a).trans (by simp)
  case bypass => simp [State.resetWith, resetCache, hc]
  case sets => simp [State.resetWith, resetCache, hc]
  case set =>
    have eq : (State.resetWith p (RamCells.loadWords [] 0 image)).mem.cache.set i =
        (List.range p.ways).map (resetLine p) := resetCache_set hc hi
    rw [eq]
    exact ⟨by simp, fun w hw => by simp [hw, resetLine]⟩

end Sys2Proof.Machine
end

section
/-! SUPPORT. The ways of a cache set (spec/20_memory.md R77 to R80): the LRU ranks, and what one way given a
tag and words, as every fill and store does it, leaves to be looked up, read and ranked. -/

namespace Sys2Proof.Machine

/-! ## `LruIsPermutation` -/

/-- The way touched takes rank 0, whatever the ranks were (R77). -/
theorem rankOf_touch_self (ways : List Line) (w : Nat) : rankOf (touch ways w) w = 0 := by
  by_cases hw : w < ways.length
  · rw [rankOf_touch hw, if_pos rfl]
  · simp [rankOf, hw]

/-- The ways not touched keep their order when no two ranks are equal (R77). -/
theorem rankOf_touch_lt_iff {ways : List Line} {w i j : Nat}
    (h : (ways.map Line.lru).Perm (List.range ways.length)) (hw : w < ways.length)
    (hi : i < ways.length) (hj : j < ways.length) (hiw : i ≠ w) (hjw : j ≠ w) :
    rankOf (touch ways w) i < rankOf (touch ways w) j ↔ rankOf ways i < rankOf ways j := by
  have hinj := ((ranks_perm_iff ways).1 h).2
  have hri : rankOf ways i ≠ rankOf ways w := fun e => hiw (hinj i hi w hw e)
  have hrj : rankOf ways j ≠ rankOf ways w := fun e => hjw (hinj j hj w hw e)
  rw [rankOf_touch hi, rankOf_touch hj, if_neg hiw, if_neg hjw]
  split_ifs <;> omega

theorem le_maxRank {ways : List Line} {l : Line} (h : l ∈ ways) : l.lru ≤ maxRank ways := by
  induction ways with
  | nil => cases h
  | cons k rest ih =>
    obtain _ | ⟨_, h⟩ := h
    · exact Nat.le_max_left ..
    · exact (ih h).trans (Nat.le_max_right ..)

theorem rankOf_of_lt {ways : List Line} {w : Nat} (h : w < ways.length) :
    rankOf ways w = ways[w].lru := by
  simp [rankOf, h]

/-- When the ranks are a permutation the victim has the last of them (R78). -/
theorem rankOf_victim {ways : List Line} (hne : ways ≠ [])
    (h : (ways.map Line.lru).Perm (List.range ways.length)) :
    rankOf ways (victim ways) = ways.length - 1 := by
  have hlt := ((ranks_perm_iff ways).1 h).1 _ (victim_lt hne)
  have hpos : 0 < ways.length := List.length_pos_iff.2 hne
  obtain ⟨l, hl, hlast⟩ : ∃ l ∈ ways, l.lru = ways.length - 1 :=
    List.mem_map.1 (h.mem_iff.2 (List.mem_range.2 (Nat.sub_lt hpos Nat.one_pos)))
  have hmax : l.lru ≤ rankOf ways (victim ways) := by
    rw [rankOf_of_lt (victim_lt hne), victim_rank hne]
    exact le_maxRank hl
  omega

/-- Settles O13: the ranks after `touch` are `rankOf_touch`, and the victim's rank is `rankOf_victim`. -/
theorem lruIsPermutation : Obligations.LruIsPermutation := by
  intro ways w hw h
  have hne : ways ≠ [] := List.length_pos_iff.1 (Nat.zero_lt_of_lt hw)
  have hlast := rankOf_victim hne h
  refine ⟨touch_ranks_perm h hw, rankOf_touch_self ways w,
    fun i j hi hj hiw hjw => rankOf_touch_lt_iff h hw hi hj hiw hjw, victim_lt hne, fun hr => ?_, ?_⟩
  · exact ((ranks_perm_iff ways).1 h).2 w hw _ (victim_lt hne) (hr.trans hlast.symm)
  · rintro rfl
    exact hlast

/-! ## Rewriting one way -/

/-- Way `w` takes tag `t`, has its words changed by `data`, and is touched: the one thing that a fill (R79
step 4) and a store (R80 step 2) do to a set, by `fillWay_eq` and `storeWay_eq`. -/
def setLine (ways : List Line) (w t : Nat) (data : List Word → List Word) : List Line :=
  touch (ways.modify w fun l => { l with valid := true, tag := t, data := data l.data }) w

section
variable (ways : List Line) (w t : Nat) (data : List Word → List Word)

@[simp] theorem setLine_length : (setLine ways w t data).length = ways.length := by simp [setLine]

/-- The way rewritten is the most recently used one. -/
theorem rankOf_setLine_self : rankOf (setLine ways w t data) w = 0 := rankOf_touch_self _ w

/-- The contents of every way, its rank aside. -/
theorem setLine_getElem? (i : Nat) :
    ((setLine ways w t data)[i]?).map (fun l => (l.valid, l.tag, l.data)) =
      (ways[i]?).map fun l =>
        if i = w then (true, t, data l.data) else (l.valid, l.tag, l.data) := by
  rw [setLine, touch_getElem?, List.getElem?_modify]
  by_cases h : w = i
  · subst h
    cases ways[w]? <;> simp
  · cases ways[i]? <;> simp [h, Ne.symm h]

end

variable {ways : List Line} {w t : Nat} {data : List Word → List Word}

/-- The other ways keep their lines. -/
theorem setLine_getElem?_of_ne {i : Nat} (h : i ≠ w) :
    ((setLine ways w t data)[i]?).map (fun l => (l.valid, l.tag, l.data)) =
      (ways[i]?).map fun l => (l.valid, l.tag, l.data) := by
  rw [setLine_getElem?]
  simp only [if_neg h]

theorem wordOf_eq (ways : List Line) (i offset : Nat) :
    wordOf ways i offset =
      (((ways[i]?).map fun l => (l.valid, l.tag, l.data)).map
        fun c => c.2.2.getD offset 0#32).getD 0#32 := by
  rw [wordOf, Option.map_map]
  rfl

theorem wordOf_setLine_of_ne {i : Nat} (h : i ≠ w) (offset : Nat) :
    wordOf (setLine ways w t data) i offset = wordOf ways i offset := by
  rw [wordOf_eq, setLine_getElem?_of_ne h, ← wordOf_eq]

theorem wordOf_setLine_self (hw : w < ways.length) (offset : Nat) :
    wordOf (setLine ways w t data) w offset = (data ways[w].data).getD offset 0#32 := by
  rw [wordOf_eq, setLine_getElem?, List.getElem?_eq_getElem hw]
  simp

/-- The first way that holds a tag is the one a lookup hits (R79 step 2). -/
theorem hitWay_eq_some_iff :
    hitWay ways t = some w ↔
      ∃ hw : w < ways.length, (ways[w].valid = true ∧ ways[w].tag = t) ∧
        ∀ l ∈ ways.take w, ¬(l.valid = true ∧ l.tag = t) := by
  unfold hitWay
  rw [List.findIdx?_eq_some_iff_getElem]
  refine exists_congr fun hw => and_congr (by simp) ⟨fun h l hl => ?_, fun h j hj => ?_⟩
  · obtain ⟨j, hj, rfl⟩ := List.mem_take_iff_getElem.1 hl
    simpa using h j (by omega)
  · simpa using h _ (List.mem_take_iff_getElem.2 ⟨j, by omega, rfl⟩)

/-- The way rewritten is hit by its tag if no way before it is. -/
theorem hitWay_setLine (hw : w < ways.length)
    (hbefore : ∀ l ∈ ways.take w, ¬(l.valid = true ∧ l.tag = t)) :
    hitWay (setLine ways w t data) t = some w := by
  rw [setLine, hitWay_touch, hitWay_eq_some_iff]
  refine ⟨by simpa using hw, by simp, ?_⟩
  rw [List.take_modify, List.modify_eq_self (List.length_take_le ..)]
  exact hbefore

theorem modify_eq_self_of_fixed {f : Line → Line} (h : ∀ l, ways[w]? = some l → f l = l) :
    ways.modify w f = ways := by
  refine List.ext_getElem? fun i => ?_
  rw [List.getElem?_modify]
  cases hl : ways[i]? with
  | none => rfl
  | some l =>
    by_cases hi : w = i
    · subst hi
      simp [h l hl]
    · simp [hi]

/-- Rewriting a way a second time changes nothing when the words have had their change. -/
theorem setLine_setLine (hdata : ∀ d, data (data d) = data d) :
    setLine (setLine ways w t data) w t data = setLine ways w t data := by
  generalize hs : setLine ways w t data = written
  have hrank : rankOf written w = 0 := hs ▸ rankOf_setLine_self ways w t data
  have hfixed (l : Line) (hl : written[w]? = some l) :
      { l with valid := true, tag := t, data := data l.data } = l := by
    have hc := setLine_getElem? ways w t data w
    rw [hs, hl] at hc
    obtain ⟨k, -, hk⟩ := Option.map_eq_some_iff.1 hc.symm
    simp only [if_true, Prod.mk.injEq] at hk
    obtain ⟨hvalid, htag, hwords⟩ := hk
    rw [← hwords, hdata, hwords, htag, hvalid]
  rw [setLine, modify_eq_self_of_fixed hfixed, touch, if_pos hrank]

/-! ## Fills and stores -/

/-- A fill rewrites the victim way (R79 step 4). -/
theorem fillWay_eq (ways : List Line) (t : Nat) (line : List Word) :
    fillWay ways t line = setLine ways (victim ways) t fun _ => line := rfl

/-- The way a store of tag `t` writes: the way hit, or else the victim (R80 step 2). -/
def storedWay (ways : List Line) (t : Nat) : Nat := (hitWay ways t).getD (victim ways)

theorem storedWay_of_hit (h : hitWay ways t = some w) : storedWay ways t = w := by
  rw [storedWay, h, Option.getD_some]

theorem storedWay_of_miss (h : hitWay ways t = none) : storedWay ways t = victim ways := by
  rw [storedWay, h, Option.getD_none]

theorem storeWay_of_hit (h : hitWay ways t = some w) (offset : Nat) (v : Word) :
    storeWay ways t offset v = storeHit ways w offset v := by
  simp only [storeWay, h]

theorem storeWay_of_miss (h : hitWay ways t = none) (offset : Nat) (v : Word) :
    storeWay ways t offset v = storeMiss ways t offset v := by
  simp only [storeWay, h]

/-- A store, hit or miss, rewrites one word of the way it writes: a way hit holds the tag already. -/
theorem storeWay_eq (ways : List Line) (t offset : Nat) (v : Word) :
    storeWay ways t offset v = setLine ways (storedWay ways t) t fun d => d.set offset v := by
  cases h : hitWay ways t with
  | none => rw [storeWay_of_miss h, storedWay_of_miss h]; rfl
  | some w =>
    obtain ⟨k, hk, hvalid, htag⟩ := hitWay_some h
    rw [storeWay_of_hit h, storedWay_of_hit h, storeHit, setLine]
    congr 1
    refine List.ext_getElem? fun i => ?_
    rw [List.getElem?_modify, List.getElem?_modify]
    by_cases hi : w = i
    · subst hi
      simp [hk, hvalid, htag]
    · simp [hi]

theorem storedWay_lt (hne : ways ≠ []) (t : Nat) : storedWay ways t < ways.length := by
  cases h : hitWay ways t with
  | none => rw [storedWay_of_miss h]; exact victim_lt hne
  | some w => rw [storedWay_of_hit h]; exact hitWay_lt h

/-- No way before the one a store writes holds the tag (R79). -/
theorem not_holds_before_storedWay {l : Line} (h : l ∈ ways.take (storedWay ways t)) :
    ¬(l.valid = true ∧ l.tag = t) := by
  cases hh : hitWay ways t with
  | none => exact hitWay_none.1 hh l (List.mem_of_mem_take h)
  | some w =>
    rw [storedWay_of_hit hh] at h
    obtain ⟨_, _, hbefore⟩ := hitWay_eq_some_iff.1 hh
    exact hbefore l h

/-- After a store its tag hits, in the way written (R80). -/
theorem hitWay_storeWay (hne : ways ≠ []) (t offset : Nat) (v : Word) :
    hitWay (storeWay ways t offset v) t = some (storedWay ways t) := by
  rw [storeWay_eq]
  exact hitWay_setLine (storedWay_lt hne t) fun _ => not_holds_before_storedWay

/-- Reading a line's words after storing one of them. -/
theorem getD_set_word {d : List Word} {offset : Nat} (v : Word) (o : Nat) :
    (d.set offset v).getD o 0#32 =
      if o = offset ∧ offset < d.length then v else d.getD o 0#32 := by
  simp only [List.getD_eq_getElem?_getD, List.getElem?_set]
  by_cases ho : offset = o
  · subst ho
    by_cases hd : offset < d.length <;> simp [hd]
  · simp [ho, Ne.symm ho]

/-- A store changes one word of a set (R80 step 2). -/
theorem wordOf_storeWay_of_ne {i o offset : Nat} (h : i ≠ storedWay ways t ∨ o ≠ offset) (v : Word) :
    wordOf (storeWay ways t offset v) i o = wordOf ways i o := by
  rw [storeWay_eq]
  by_cases hi : i = storedWay ways t
  · have ho : o ≠ offset := h.resolve_left fun hne => hne hi
    subst hi
    by_cases hw : storedWay ways t < ways.length
    · rw [wordOf_setLine_self hw, getD_set_word, if_neg fun e => ho e.1]
      simp [wordOf, hw]
    · simp [wordOf, hw]
  · exact wordOf_setLine_of_ne hi o

/-- The word stored is the one read back from the way written. -/
theorem wordOf_storeWay_self (hne : ways ≠ []) {offset : Nat}
    (hdata : ∀ l ∈ ways, offset < l.data.length) (t : Nat) (v : Word) :
    wordOf (storeWay ways t offset v) (storedWay ways t) offset = v := by
  have hw := storedWay_lt hne t
  rw [storeWay_eq, wordOf_setLine_self hw, getD_set_word,
    if_pos ⟨rfl, hdata _ (List.getElem_mem hw)⟩]

/-- A store repeated changes nothing: a refused write may store its word in the set again at every call
(R80). -/
theorem storeWay_storeWay (ways : List Line) (t offset : Nat) (v : Word) :
    storeWay (storeWay ways t offset v) t offset v = storeWay ways t offset v := by
  by_cases hne : ways = []
  · subst hne
    exact List.length_eq_zero_iff.1 (by simp)
  · have again : storedWay (storeWay ways t offset v) t = storedWay ways t :=
      storedWay_of_hit (hitWay_storeWay hne t offset v)
    rw [storeWay_eq (storeWay ways t offset v), again, storeWay_eq ways]
    exact setLine_setLine fun d => List.set_set ..

end Sys2Proof.Machine
end

section
/-! SUPPORT. Transactions: the countdowns of the RAM's and the cache's services, and from them what every call
of a read or a write answers and leaves, one call a tick (spec/20_memory.md R68, R76 to R81). -/

namespace Sys2Proof.Machine

/-! ## The countdowns -/

/-- The RAM after `k` refused calls of `who` that found its slot free, with delay `d` (R68). -/
def Ram.held (r : Ram) (d : Nat) (who : Requester) : Nat → Ram
  | 0 => r
  | k + 1 => { r with req := some who, left := d - k }

@[simp] theorem Ram.held_cells (r : Ram) (d : Nat) (who : Requester) (k : Nat) :
    (r.held d who k).cells = r.cells := by
  cases k <;> rfl

section
variable {r : Ram} {d k : Nat} {who : Requester}

theorem Ram.service_of_holder (h : r.req = some who) :
    r.service d who =
      if r.left - 1 = 0 then (.ready, { r with req := none, left := 0 })
      else (.wait, { r with left := r.left - 1 }) := by
  simp [Ram.service, h]

/-- The first `d` calls are refused (R68). -/
theorem Ram.service_held_wait (hr : r.req = none) (hk : k < d) :
    (r.held d who k).service d who = (.wait, r.held d who (k + 1)) := by
  cases k with
  | zero =>
    have hd : d ≠ 0 := by omega
    simp [Ram.held, Ram.service, hr, hd]
  | succ k =>
    have hleft : ¬d - k - 1 = 0 := by omega
    rw [Ram.held, Ram.service_of_holder rfl, if_neg hleft, Ram.held, Nat.sub_sub]

/-- The call after `d` refused ones is granted (R68). -/
theorem Ram.service_held_ready (hr : r.req = none) :
    ∃ r', (r.held d who d).service d who = (.ready, r') := by
  cases d with
  | zero => exact ⟨r, by simp [Ram.held, Ram.service, hr]⟩
  | succ k =>
    have hleft : k + 1 - k - 1 = 0 := by omega
    exact ⟨_, by rw [Ram.held, Ram.service_of_holder rfl, if_pos hleft]⟩

/-- While the slot is held another requester is refused and nothing changes (R68). -/
theorem Ram.service_held_other {other : Requester} (h : other ≠ who) :
    (r.held d who (k + 1)).service d other = (.wait, r.held d who (k + 1)) := by
  simp [Ram.held, Ram.service, h.symm]

/-- A granted call leaves the slot free (R68). -/
theorem Ram.req_of_service_ready {r' : Ram} (h : r.service d who = (.ready, r')) : r'.req = none := by
  obtain ⟨_, hr, _, rfl⟩ | ⟨hg, _⟩ | ⟨_, _, _, rfl⟩ | ⟨hg, _⟩ | ⟨hg, _⟩ := Ram.service_cases h
  · exact hr
  · cases hg
  · rfl
  · cases hg
  · cases hg

end

/-- The cache after `k` calls of `who` that found its slot free, with delay `d` (R76). -/
def Cache.held (c : Cache) (d : Nat) (who : Requester) : Nat → Cache
  | 0 => c
  | k + 1 => { c with req := some who, left := d - k }

@[simp] theorem Cache.held_lines (c : Cache) (d : Nat) (who : Requester) (k : Nat) :
    (c.held d who k).lines = c.lines := by
  cases k <;> rfl

section
variable {c : Cache} {d k : Nat} {who : Requester}

/-- The first `d` calls are refused, and the next one is not (R76). -/
theorem Cache.service_held (hreq : c.req = none) (hwait : c.waitNext = false) (hk : k ≤ d) :
    (c.held d who k).service d who = (if k < d then .wait else .ready, c.held d who (k + 1)) := by
  cases k with
  | zero => cases d <;> simp [Cache.held, Cache.service, hreq]
  | succ k =>
    simp only [Cache.held, Cache.service, hwait, if_true, Bool.false_eq_true, if_false, Nat.sub_sub]
    by_cases hlt : k + 1 < d
    · rw [if_neg (by omega), if_pos hlt]
    · rw [if_pos (by omega), if_neg hlt]

/-- While the cache waits for the RAM its holder's call goes on to the RAM (R76). -/
theorem Cache.service_waitNext (hreq : c.req = some who) (hwait : c.waitNext = true) :
    c.service d who = (.ready, c) := by
  simp [Cache.service, hreq, hwait]

end

/-! ## A transaction -/

/-- `n` calls from `m` on are refused, the one after `k` others with `refusal k`, and the next is answered
with `answer`; `during k` is the memory after `k` calls and `final` the memory at the end (R81). -/
structure Transaction {α : Type} (call : MemSys → Answer α × MemSys) (m : MemSys) (n : Nat)
    (refusal : Nat → Answer α) (during : Nat → MemSys) (answer : Answer α) (final : MemSys) : Prop where
  start : during 0 = m
  refused : ∀ k < n, call (during k) = (refusal k, during (k + 1))
  granted : call (during n) = (answer, final)

/-- The memory after `k` calls, and the answers, of any caller that calls once a tick. -/
theorem Transaction.outcome {α : Type} {call : MemSys → Answer α × MemSys} {m final : MemSys} {n : Nat}
    {refusal : Nat → Answer α} {during : Nat → MemSys} {answer : Answer α}
    (h : Transaction call m n refusal during answer final) {after : Nat → MemSys → MemSys}
    {answers : Nat → MemSys → Answer α} (hzero : ∀ m, after 0 m = m)
    (hsucc : ∀ k m, after (k + 1) m = after k (call m).2)
    (hanswers : ∀ k m, answers k m = (call (after k m)).1) :
    (∀ k ≤ n, after k m = during k) ∧ (∀ k < n, answers k m = refusal k) ∧ answers n m = answer ∧
      after (n + 1) m = final := by
  have last (k : Nat) (m : MemSys) : after (k + 1) m = (call (after k m)).2 := by
    induction k generalizing m with
    | zero => rw [hsucc, hzero, hzero]
    | succ k ih => rw [hsucc, ih, ← hsucc]
  have states (k : Nat) (hk : k ≤ n) : after k m = during k := by
    induction k with
    | zero => rw [hzero, h.start]
    | succ k ih => rw [last, ih (by omega), h.refused k hk]
  refine ⟨states, fun k hk => ?_, ?_, ?_⟩
  · rw [hanswers, states k hk.le, h.refused k hk]
  · rw [hanswers, states n le_rfl, h.granted]
  · rw [last, states n le_rfl, h.granted]

section
variable {p : Params} {a v : Word} {who : Requester} {m final : MemSys} {n : Nat} {during : Nat → MemSys}

theorem Transaction.reads {refusal : Nat → Answer Word} {answer : Answer Word}
    (h : Transaction (fun m => m.cacheRead p a who) m n refusal during answer final) :
    (∀ k ≤ n, m.afterReads p a who k = during k) ∧ (∀ k < n, m.readAnswer p a who k = refusal k) ∧
      m.readAnswer p a who n = answer ∧ m.afterReads p a who (n + 1) = final :=
  h.outcome (after := MemSys.afterReads p a who) (answers := MemSys.readAnswer p a who)
    (fun _ => rfl) (fun _ _ => rfl) fun _ _ => rfl

theorem Transaction.writes {refusal : Nat → Answer Unit} {answer : Answer Unit}
    (h : Transaction (fun m => m.cacheWrite p a who v) m n refusal during answer final) :
    (∀ k ≤ n, m.afterWrites p a who v k = during k) ∧
      (∀ k < n, m.writeAnswer p a who v k = refusal k) ∧ m.writeAnswer p a who v n = answer ∧
      m.afterWrites p a who v (n + 1) = final :=
  h.outcome (after := MemSys.afterWrites p a who v) (answers := MemSys.writeAnswer p a who v)
    (fun _ => rfl) (fun _ _ => rfl) fun _ _ => rfl

end

/-! ## `BypassTransaction` -/

section
variable {p : Params} {m : MemSys} {who : Requester} {r : Ram}

theorem MemSys.bypass_read_transaction (hc : p.cached = false) (hr : m.ram.req = none) (a : Word)
    (hs : (m.ram.held p.ramDelay who p.ramDelay).service p.ramDelay who = (.ready, r)) :
    Transaction (fun m => m.cacheRead p a who) m p.ramDelay (fun _ => .wait)
      (fun k => { m with ram := m.ram.held p.ramDelay who k })
      (.success (r.cells.word (a.toNat % p.ramWords))) { m with ram := r } where
  start := rfl
  refused k hk := by
    rw [MemSys.cacheRead_bypass hc]
    exact MemSys.ramRead_of_wait (Ram.service_held_wait hr hk)
  granted := by
    rw [MemSys.cacheRead_bypass hc, MemSys.ramRead_of_ready hs, Nat.mod_mod]

theorem MemSys.bypass_write_transaction (hc : p.cached = false) (hr : m.ram.req = none) (a v : Word)
    (hs : (m.ram.held p.ramDelay who p.ramDelay).service p.ramDelay who = (.ready, r)) :
    Transaction (fun m => m.cacheWrite p a who v) m p.ramDelay (fun _ => .wait)
      (fun k => { m with ram := m.ram.held p.ramDelay who k }) (.success ())
      { m with ram := { r with cells := r.cells.setWord (a.toNat % p.ramWords) v } } where
  start := rfl
  refused k hk := by
    rw [MemSys.cacheWrite_bypass hc]
    exact MemSys.ramWrite_of_wait (Ram.service_held_wait hr hk)
  granted := by
    rw [MemSys.cacheWrite_bypass hc, MemSys.ramWrite_of_ready hs, Nat.mod_mod]

/-- In bypass a call that the RAM refuses without a change is refused without a change (R75). -/
theorem MemSys.bypass_refused (hc : p.cached = false)
    (hs : m.ram.service p.ramDelay who = (.wait, m.ram)) (b u : Word) :
    m.cacheRead p b who = (.wait, m) ∧ m.cacheWrite p b who u = (.wait, m) := by
  rw [MemSys.cacheRead_bypass hc, MemSys.cacheWrite_bypass hc]
  exact ⟨MemSys.ramRead_of_wait hs, MemSys.ramWrite_of_wait hs⟩

end

/-- Settles O7: the transactions are the RAM's countdown, which another requester cannot disturb. -/
theorem bypassTransaction : Obligations.BypassTransaction := by
  intro p m a v who other hc hr
  obtain ⟨r, hs⟩ := Ram.service_held_ready (d := p.ramDelay) (who := who) hr
  have hcells : r.cells = m.ram.cells := (Ram.cells_of_service hs).trans (Ram.held_cells ..)
  have hfree := Ram.req_of_service_ready hs
  obtain ⟨during, waits, answer, last⟩ := (MemSys.bypass_read_transaction hc hr a hs).reads
  obtain ⟨during', waits', answer', last'⟩ := (MemSys.bypass_write_transaction hc hr a v hs).writes
  rw [answer, answer', last, last', hcells]
  refine ⟨fun k hk => ⟨waits k hk, waits' k hk, ?_⟩, rfl, rfl, rfl, hfree, rfl, hfree,
    fun hne k hk b u m' hm' => ?_⟩
  · rw [during' k hk.le]
    exact Ram.held_cells ..
  · have held : m' = { m with ram := m.ram.held p.ramDelay who (k + 1) } := by
      rw [during (k + 1) hk, during' (k + 1) hk] at hm'
      simpa using hm'
    rw [held]
    exact MemSys.bypass_refused hc (Ram.service_held_other hne) b u

/-! ## Calls of a present cache -/

/-- `call` first counts down the cache's delay and then goes `through` to the lines and the RAM (R79, R80). -/
structure CachedCall {α : Type} (p : Params) (who : Requester)
    (call through : MemSys → Answer α × MemSys) : Prop where
  wait : ∀ {m c}, m.cache.service p.cacheDelay who = (.wait, c) → call m = (.wait, { m with cache := c })
  ready : ∀ {m c}, m.cache.service p.cacheDelay who = (.ready, c) → call m = through { m with cache := c }

theorem MemSys.cacheRead_cachedCall {p : Params} (hc : p.cached = true) (a : Word) (who : Requester) :
    CachedCall p who (fun m => m.cacheRead p a who) fun m => m.readThrough p (a.toNat % p.ramWords) where
  wait h := by simp [MemSys.cacheRead, hc, h]
  ready h := by simp [MemSys.cacheRead, hc, h]

theorem MemSys.cacheWrite_cachedCall {p : Params} (hc : p.cached = true) (a v : Word)
    (who : Requester) :
    CachedCall p who (fun m => m.cacheWrite p a who v)
      fun m => m.writeThrough p (a.toNat % p.ramWords) v where
  wait h := by simp [MemSys.cacheWrite, hc, h]
  ready h := by simp [MemSys.cacheWrite, hc, h]

/-- The memory after `k` calls of the cache's countdown. -/
def MemSys.counting (p : Params) (who : Requester) (m : MemSys) (k : Nat) : MemSys :=
  { m with cache := m.cache.held p.cacheDelay who k }

/-- The memory as the RAM is asked for the call after `j` that it has refused: from the first of them on,
the lines are `lines` (R79, R80). -/
def MemSys.asking (p : Params) (who : Requester) (lines : List (List Line)) (m : MemSys) : Nat → MemSys
  | 0 => m.counting p who (p.cacheDelay + 1)
  | j + 1 =>
    { ram := m.ram.held p.ramDelay .cache (j + 1)
      cache := { lines := lines, req := some who, left := 0, waitNext := true } }

/-- The memory after `k` calls of a transaction that asks the RAM. -/
def MemSys.during (p : Params) (who : Requester) (lines : List (List Line)) (m : MemSys) (k : Nat) :
    MemSys :=
  if k ≤ p.cacheDelay then m.counting p who k else m.asking p who lines (k - p.cacheDelay)

/-- How the call after `k` others is refused: by the cache, then by the RAM behind it (R81). -/
def refusal {α : Type} (p : Params) (k : Nat) : Answer α :=
  if k < p.cacheDelay then .wait else .waitNextLevel

section
variable {p : Params} {who : Requester} {lines : List (List Line)} {m : MemSys}

theorem MemSys.asking_ram (j : Nat) :
    (m.asking p who lines j).ram = m.ram.held p.ramDelay .cache j := by
  cases j <;> rfl

theorem MemSys.asking_lines (j : Nat) :
    (m.asking p who lines j).cache.lines = if j = 0 then m.cache.lines else lines := by
  cases j <;> rfl

/-- The RAM's refusal: the cache notes that it waits, with whatever it has made of its lines. -/
theorem MemSys.asking_succ {j : Nat} {c : Cache} (hlines : c.lines = lines)
    (hreq : c.req = (m.asking p who lines j).cache.req)
    (hleft : c.left = (m.asking p who lines j).cache.left) :
    { ram := m.ram.held p.ramDelay .cache (j + 1), cache := { c with waitNext := true } } =
      m.asking p who lines (j + 1) := by
  subst hlines
  rw [MemSys.asking, hreq, hleft]
  cases j with
  | zero => simp [MemSys.asking, MemSys.counting, Cache.held]
  | succ j => rfl

theorem MemSys.during_of_counting {k : Nat} (hk : k ≤ p.cacheDelay) :
    m.during p who lines k = m.counting p who k := if_pos hk

theorem MemSys.during_of_asking (j : Nat) :
    m.during p who lines (p.cacheDelay + j + 1) = m.asking p who lines (j + 1) := by
  rw [MemSys.during, if_neg (by omega)]
  congr 1
  omega

theorem MemSys.during_cells (k : Nat) : (m.during p who lines k).ram.cells = m.ram.cells := by
  unfold MemSys.during
  split
  · rfl
  · rw [MemSys.asking_ram, Ram.held_cells]

variable {α : Type} {call through : MemSys → Answer α × MemSys} {answer : Answer α} {final : MemSys}

theorem CachedCall.counting_wait (h : CachedCall p who call through) (hq : m.quiet) {k : Nat}
    (hk : k < p.cacheDelay) : call (m.counting p who k) = (.wait, m.counting p who (k + 1)) := by
  obtain ⟨_, hreq, hwait⟩ := hq
  have hs := Cache.service_held (who := who) hreq hwait hk.le
  rw [if_pos hk] at hs
  exact h.wait hs

theorem CachedCall.counting_ready (h : CachedCall p who call through) (hq : m.quiet) :
    call (m.counting p who p.cacheDelay) = through (m.counting p who (p.cacheDelay + 1)) := by
  obtain ⟨_, hreq, hwait⟩ := hq
  have hs := Cache.service_held (d := p.cacheDelay) (who := who) hreq hwait le_rfl
  rw [if_neg (Nat.lt_irrefl _)] at hs
  exact h.ready hs

/-- A transaction that the cache answers alone (R81). -/
theorem CachedCall.transaction_of_counted (h : CachedCall p who call through) (hq : m.quiet)
    (hgranted : through (m.counting p who (p.cacheDelay + 1)) = (answer, final)) :
    Transaction call m p.cacheDelay (fun _ => .wait) (m.counting p who) answer final where
  start := rfl
  refused _ hk := h.counting_wait hq hk
  granted := (h.counting_ready hq).trans hgranted

/-- Once the cache has counted down every call goes through. -/
theorem CachedCall.during_ready (h : CachedCall p who call through) (hq : m.quiet) (j : Nat) :
    call (m.during p who lines (p.cacheDelay + j)) = through (m.asking p who lines j) := by
  cases j with
  | zero => rw [Nat.add_zero, MemSys.during_of_counting le_rfl, h.counting_ready hq]; rfl
  | succ j =>
    rw [← Nat.add_assoc, MemSys.during_of_asking]
    exact h.ready (Cache.service_waitNext rfl rfl)

/-- A transaction that asks the RAM too (R81). -/
theorem CachedCall.transaction_of_asked (h : CachedCall p who call through) (hq : m.quiet)
    (hrefused : ∀ j < p.ramDelay,
      through (m.asking p who lines j) = (.waitNextLevel, m.asking p who lines (j + 1)))
    (hgranted : through (m.asking p who lines p.ramDelay) = (answer, final)) :
    Transaction call m (p.cacheDelay + p.ramDelay) (refusal p) (m.during p who lines) answer final where
  start := MemSys.during_of_counting (Nat.zero_le _)
  refused k hk := by
    unfold refusal
    by_cases hlt : k < p.cacheDelay
    · rw [MemSys.during_of_counting hlt.le, MemSys.during_of_counting hlt, if_pos hlt,
        h.counting_wait hq hlt]
    · obtain ⟨j, rfl⟩ := Nat.exists_eq_add_of_le (Nat.le_of_not_lt hlt)
      rw [h.during_ready hq, hrefused j (by omega), MemSys.during_of_asking, if_neg hlt]
  granted := (h.during_ready hq _).trans hgranted

end

/-! ## What a granted call leaves -/

/-- No transaction is under way, the RAM's contents are `cells`, and of the lines only set `i` has changed,
which is now `ways`. -/
structure MemSys.Settled (m final : MemSys) (cells : RamCells) (i : Nat) (ways : List Line) : Prop where
  quiet : final.quiet
  cells : final.ram.cells = cells
  lines : final.cache.lines = m.cache.lines.set i ways

section
variable {m final : MemSys} {cells : RamCells} {i j : Nat} {ways : List Line}

theorem Cache.set_eq_of_lines {c c' : Cache} (h : c'.lines = c.lines) (i : Nat) : c'.set i = c.set i := by
  rw [Cache.set, h, Cache.set]

/-- A set that the cache does not have has no ways, and a set's replacement has as many ways as the set. -/
theorem Cache.set_of_lines_set {c c' : Cache} (h : c'.lines = c.lines.set i ways)
    (hlen : ways.length = (c.set i).length) : c'.set i = ways := by
  rw [Cache.set, h, List.getD_eq_getElem?_getD, List.getElem?_set_self']
  cases hi : c.lines[i]? with
  | some _ => rfl
  | none =>
    refine (List.length_eq_zero_iff.1 (hlen.trans ?_)).symm
    simp [Cache.set, hi]

theorem MemSys.Settled.set_self (h : m.Settled final cells i ways)
    (hlen : ways.length = (m.cache.set i).length) : final.cache.set i = ways :=
  Cache.set_of_lines_set h.lines hlen

theorem MemSys.Settled.set_of_ne (h : m.Settled final cells i ways) (hj : j ≠ i) :
    final.cache.set j = m.cache.set j := by
  rw [Cache.set, h.lines, List.getD_eq_getElem?_getD, List.getElem?_set_ne hj.symm,
    ← List.getD_eq_getElem?_getD, Cache.set]

end

end Sys2Proof.Machine
end

section
/-! SUPPORT. Proofs of the statements about the transactions of a present cache: read hits, read misses and
writes, and what a later read answers (spec/20_memory.md R77 to R81, R90, R92). -/

namespace Sys2Proof.Machine

/-! ## Reads -/

/-- The line of RAM that holds address `a` (R70). -/
def MemSys.ramLine (p : Params) (m : MemSys) (a : Nat) : List Word :=
  (List.range p.lineWords).map fun i => m.ram.cells.word ((a - offsetOf p a + i) % p.ramWords)

section
variable {p : Params} {m : MemSys} {a : Nat}

theorem MemSys.readThrough_of_hit {w : Nat}
    (h : hitWay (m.cache.set (indexOf p a)) (tagOf p a) = some w) :
    m.readThrough p a =
      (.success (wordOf (m.cache.set (indexOf p a)) w (offsetOf p a)),
        { m with
          cache := (m.cache.putSet (indexOf p a) (touch (m.cache.set (indexOf p a)) w)).clear }) := by
  simp only [MemSys.readThrough, h]

variable {r : Ram} (h : hitWay (m.cache.set (indexOf p a)) (tagOf p a) = none)
include h

theorem MemSys.readThrough_of_wait (hs : m.ram.service p.ramDelay .cache = (.wait, r)) :
    m.readThrough p a =
      (.waitNextLevel, { ram := r, cache := { m.cache with waitNext := true } }) := by
  simp only [MemSys.readThrough, h, MemSys.ramReadMulti, hs]

theorem MemSys.readThrough_of_ready (hs : m.ram.service p.ramDelay .cache = (.ready, r)) :
    m.readThrough p a =
      (.success ((m.ramLine p a).getD (offsetOf p a) 0#32),
        { ram := r
          cache := (m.cache.putSet (indexOf p a)
            (fillWay (m.cache.set (indexOf p a)) (tagOf p a) (m.ramLine p a))).clear }) := by
  simp only [MemSys.readThrough, h, MemSys.ramReadMulti, hs, Ram.cells_of_service hs, MemSys.ramLine]

end

theorem MemSys.counting_set (p : Params) (who : Requester) (m : MemSys) (k i : Nat) :
    (m.counting p who k).cache.set i = m.cache.set i :=
  Cache.set_eq_of_lines (Cache.held_lines ..) i

/-- A read that asks the RAM leaves the lines until it is granted. -/
theorem MemSys.asking_set (p : Params) (who : Requester) (m : MemSys) (j i : Nat) :
    (m.asking p who m.cache.lines j).cache.set i = m.cache.set i :=
  Cache.set_eq_of_lines (by rw [MemSys.asking_lines, ite_self]) i

/-! ## `CacheReadHit` -/

theorem MemSys.readHit_transaction {p : Params} {m : MemSys} {a : Word} {w : Nat} (who : Requester)
    (hc : p.cached = true) (hq : m.quiet) (hhit : m.hit p a = some w) :
    ∃ final,
      Transaction (fun m => m.cacheRead p a who) m p.cacheDelay (fun _ => .wait) (m.counting p who)
        (.success (wordOf (m.cache.set (indexOf p (a.toNat % p.ramWords))) w
          (offsetOf p (a.toNat % p.ramWords)))) final ∧
      final.ram = m.ram ∧
      m.Settled final m.ram.cells (indexOf p (a.toNat % p.ramWords))
        (touch (m.cache.set (indexOf p (a.toNat % p.ramWords))) w) := by
  have served := MemSys.readThrough_of_hit (m := m.counting p who (p.cacheDelay + 1))
    (by rw [MemSys.counting_set]; exact hhit)
  rw [MemSys.counting_set] at served
  have transaction :=
    (MemSys.cacheRead_cachedCall hc a who).transaction_of_counted hq served
  exact ⟨_, transaction, rfl, ⟨hq.1, rfl, rfl⟩, rfl, rfl⟩

/-- Settles O8: a read hit is the cache's countdown and `touch`. -/
theorem cacheReadHit : Obligations.CacheReadHit := by
  intro p m a who w hc hq hhit idx after
  obtain ⟨final, transaction, hram, settled⟩ := MemSys.readHit_transaction who hc hq hhit
  obtain ⟨_, waits, answer, last⟩ := transaction.reads
  have hafter : after = final := last
  rw [hafter]
  refine ⟨waits, answer, hram, settled.quiet, fun i => ?_⟩
  split
  · next hi => rw [hi]; exact settled.set_self (touch_length ..)
  · next hi => exact settled.set_of_ne hi

/-! ## `CacheReadMiss` -/

theorem refusal_of_lt {α : Type} {p : Params} {k : Nat} (hk : k < p.cacheDelay) :
    (refusal p k : Answer α) = .wait := if_pos hk

theorem refusal_of_le {α : Type} {p : Params} {k : Nat} (hk : p.cacheDelay ≤ k) :
    (refusal p k : Answer α) = .waitNextLevel := if_neg (Nat.not_lt.2 hk)

theorem Params.lineWords_pos {p : Params} (hc : p.cached = true) : 0 < p.lineWords := by
  simp only [Params.cached, Bool.and_eq_true, bne_iff_ne] at hc
  omega

theorem offsetOf_lt {p : Params} (hc : p.cached = true) (a : Nat) : offsetOf p a < p.lineWords :=
  Nat.mod_lt _ (Params.lineWords_pos hc)

/-- Two addresses of one line select one set and one tag (R74). -/
theorem sameLine_iff {p : Params} {a b : Word} :
    sameLine p a b = true ↔
      a.toNat % p.ramWords / p.lineWords = b.toNat % p.ramWords / p.lineWords := beq_iff_eq

theorem indexOf_eq_of_div {p : Params} {a b : Nat} (h : a / p.lineWords = b / p.lineWords) :
    indexOf p b = indexOf p a := by
  rw [indexOf, ← h, indexOf]

theorem tagOf_eq_of_div {p : Params} {a b : Nat} (h : a / p.lineWords = b / p.lineWords) :
    tagOf p b = tagOf p a := by
  rw [tagOf, ← Nat.div_div_eq_div_mul, ← h, Nat.div_div_eq_div_mul, tagOf]

/-- The line of RAM at `a` holds the word of every address of the line at its offset (R70, R74). -/
theorem MemSys.ramLine_getD {p : Params} (hc : p.cached = true) (m : MemSys) {a b : Nat}
    (h : a / p.lineWords = b / p.lineWords) :
    (m.ramLine p a).getD (offsetOf p b) 0#32 = m.ram.cells.word (b % p.ramWords) := by
  have hb : a - offsetOf p a + offsetOf p b = b := by
    have ha := Nat.div_add_mod a p.lineWords
    have hb := Nat.div_add_mod b p.lineWords
    rw [h] at ha
    unfold offsetOf
    omega
  simp [MemSys.ramLine, offsetOf_lt hc, hb]

theorem MemSys.ramLine_asking (p : Params) (who : Requester) (lines : List (List Line)) (m : MemSys)
    (j a : Nat) : (m.asking p who lines j).ramLine p a = m.ramLine p a := by
  simp only [MemSys.ramLine, MemSys.asking_ram, Ram.held_cells]

theorem MemSys.readMiss_transaction {p : Params} {m : MemSys} {a : Word} (who : Requester)
    (hc : p.cached = true) (hq : m.quiet) (hmiss : m.hit p a = none) :
    ∃ final,
      Transaction (fun m => m.cacheRead p a who) m (p.cacheDelay + p.ramDelay) (refusal p)
        (m.during p who m.cache.lines) (.success (m.ram.cells.word (a.toNat % p.ramWords))) final ∧
      m.Settled final m.ram.cells (indexOf p (a.toNat % p.ramWords))
        (fillWay (m.cache.set (indexOf p (a.toNat % p.ramWords))) (tagOf p (a.toNat % p.ramWords))
          (m.ramLine p (a.toNat % p.ramWords))) := by
  have misses (j : Nat) :
      hitWay ((m.asking p who m.cache.lines j).cache.set (indexOf p (a.toNat % p.ramWords)))
        (tagOf p (a.toNat % p.ramWords)) = none := by
    rw [MemSys.asking_set]; exact hmiss
  have refused (j : Nat) (hj : j < p.ramDelay) :
      (m.asking p who m.cache.lines j).readThrough p (a.toNat % p.ramWords) =
        (.waitNextLevel, m.asking p who m.cache.lines (j + 1)) := by
    have hs := Ram.service_held_wait (who := .cache) hq.1 hj
    rw [← MemSys.asking_ram (p := p) (who := who) (lines := m.cache.lines)] at hs
    rw [MemSys.readThrough_of_wait (misses j) hs, MemSys.asking_succ _ rfl rfl]
    rw [MemSys.asking_lines, ite_self]
  obtain ⟨r, hs⟩ := Ram.service_held_ready (d := p.ramDelay) (who := .cache) hq.1
  have hcells : r.cells = m.ram.cells := (Ram.cells_of_service hs).trans (Ram.held_cells ..)
  have hfree := Ram.req_of_service_ready hs
  rw [← MemSys.asking_ram (p := p) (who := who) (lines := m.cache.lines)] at hs
  have granted := MemSys.readThrough_of_ready (misses p.ramDelay) hs
  rw [MemSys.ramLine_asking, MemSys.asking_set, MemSys.ramLine_getD hc m rfl, Nat.mod_mod] at granted
  have transaction := (MemSys.cacheRead_cachedCall hc a who).transaction_of_asked hq refused granted
  refine ⟨_, transaction, ⟨hfree, rfl, rfl⟩, hcells, ?_⟩
  rw [Cache.clear_lines, Cache.putSet_lines, MemSys.asking_lines, ite_self]

theorem Cache.Inv.set_ne_nil {p : Params} {c : Cache} (h : c.Inv p) (hc : p.cached = true) (a : Nat) :
    c.set (indexOf p a) ≠ [] := by
  obtain ⟨hlen, _⟩ := h.set hc a
  have hpos := (Params.pos_of_cached hc).2
  exact List.length_pos_iff.1 (by omega)

/-- Settles O9: a read miss is both countdowns and `fillWay`, and `cacheReadHit` then speaks of the line. -/
theorem cacheReadMiss : Obligations.CacheReadMiss := by
  intro p m a who hc hq hmiss idx way after
  obtain ⟨final, transaction, settled⟩ := MemSys.readMiss_transaction who hc hq hmiss
  obtain ⟨_, refusals, answer, last⟩ := transaction.reads
  have hafter : after = final := last
  have hset : final.cache.set idx = _ := settled.set_self (fillWay_length ..)
  rw [fillWay_eq] at hset
  rw [hafter]
  refine ⟨fun k hk => (refusals k (by omega)).trans (refusal_of_lt hk),
    fun k hle hk => (refusals k hk).trans (refusal_of_le hle), answer, settled.cells, settled.quiet,
    fun i hi => settled.set_of_ne hi, fun hinv => ⟨?rank, fun b who' hb => ?hits, fun w hw => ?others⟩⟩
  case rank => rw [hset]; exact rankOf_setLine_self ..
  case others => rw [hset]; exact setLine_getElem?_of_ne hw
  case hits =>
    have hdiv := sameLine_iff.1 hb
    have hway : way < (m.cache.set idx).length := victim_lt (hinv.2.set_ne_nil hc _)
    have hhit : final.hit p b = some way := by
      rw [MemSys.hit, indexOf_eq_of_div hdiv, tagOf_eq_of_div hdiv, hset]
      exact hitWay_setLine hway fun l hl => hitWay_none.1 hmiss l (List.mem_of_mem_take hl)
    obtain ⟨waits, hanswer, _⟩ := cacheReadHit p final b who' way hc settled.quiet hhit
    refine ⟨hhit, waits, hanswer.trans ?_⟩
    rw [indexOf_eq_of_div hdiv, hset, wordOf_setLine_self hway, MemSys.ramLine_getD hc m hdiv,
      Nat.mod_mod]

/-! ## Writes -/

/-- The lines after a store to address `a` (R80 step 2). -/
def MemSys.storedLines (p : Params) (m : MemSys) (a : Nat) (v : Word) : List (List Line) :=
  m.cache.lines.set (indexOf p a)
    (storeWay (m.cache.set (indexOf p a)) (tagOf p a) (offsetOf p a) v)

section
variable {p : Params} {m : MemSys} {a : Nat} {r : Ram} {v : Word}

theorem MemSys.writeThrough_of_wait (hs : m.ram.service p.ramDelay .cache = (.wait, r)) :
    m.writeThrough p a v =
      (.waitNextLevel,
        { ram := r
          cache := { { m.cache with lines := m.storedLines p a v } with waitNext := true } }) := by
  simp only [MemSys.writeThrough, MemSys.ramWrite, hs, MemSys.storedLines, Cache.putSet]

theorem MemSys.writeThrough_of_ready (hs : m.ram.service p.ramDelay .cache = (.ready, r)) :
    m.writeThrough p a v =
      (.success (),
        { ram := { r with cells := r.cells.setWord (a % p.ramWords) v }
          cache := Cache.clear { m.cache with lines := m.storedLines p a v } }) := by
  simp only [MemSys.writeThrough, MemSys.ramWrite, hs, MemSys.storedLines, Cache.putSet]

/-- The store repeated at every refused call is the one of the first (R80). -/
theorem MemSys.storedLines_asking (who : Requester) (j : Nat) :
    (m.asking p who (m.storedLines p a v) j).storedLines p a v = m.storedLines p a v := by
  have hlines := MemSys.asking_lines (p := p) (who := who) (lines := m.storedLines p a v) (m := m) j
  by_cases hj : j = 0
  · rw [if_pos hj] at hlines
    rw [MemSys.storedLines, hlines, Cache.set_eq_of_lines hlines, ← MemSys.storedLines]
  · rw [if_neg hj] at hlines
    rw [MemSys.storedLines, hlines, Cache.set_of_lines_set hlines (storeWay_length ..),
      storeWay_storeWay, MemSys.storedLines, List.set_set]

end

theorem MemSys.write_transaction {p : Params} {m : MemSys} (a v : Word) (who : Requester)
    (hc : p.cached = true) (hq : m.quiet) :
    ∃ final,
      Transaction (fun m => m.cacheWrite p a who v) m (p.cacheDelay + p.ramDelay) (refusal p)
        (m.during p who (m.storedLines p (a.toNat % p.ramWords) v)) (.success ()) final ∧
      m.Settled final (m.ram.cells.setWord (a.toNat % p.ramWords) v)
        (indexOf p (a.toNat % p.ramWords))
        (storeWay (m.cache.set (indexOf p (a.toNat % p.ramWords))) (tagOf p (a.toNat % p.ramWords))
          (offsetOf p (a.toNat % p.ramWords)) v) := by
  generalize hl : m.storedLines p (a.toNat % p.ramWords) v = lines
  have stored (j : Nat) :
      (m.asking p who lines j).storedLines p (a.toNat % p.ramWords) v = lines := by
    subst hl; exact MemSys.storedLines_asking who j
  have refused (j : Nat) (hj : j < p.ramDelay) :
      (m.asking p who lines j).writeThrough p (a.toNat % p.ramWords) v =
        (.waitNextLevel, m.asking p who lines (j + 1)) := by
    have hs := Ram.service_held_wait (who := .cache) hq.1 hj
    rw [← MemSys.asking_ram (p := p) (who := who) (lines := lines)] at hs
    rw [MemSys.writeThrough_of_wait hs, stored]
    exact congrArg (Prod.mk _) <|
      MemSys.asking_succ (c := { (m.asking p who lines j).cache with lines := lines }) rfl rfl rfl
  obtain ⟨r, hs⟩ := Ram.service_held_ready (d := p.ramDelay) (who := .cache) hq.1
  have hcells : r.cells = m.ram.cells := (Ram.cells_of_service hs).trans (Ram.held_cells ..)
  have hfree := Ram.req_of_service_ready hs
  rw [← MemSys.asking_ram (p := p) (who := who) (lines := lines)] at hs
  have granted :=
    MemSys.writeThrough_of_ready (p := p) (a := a.toNat % p.ramWords) (v := v) hs
  rw [stored, hcells, Nat.mod_mod] at granted
  have transaction := (MemSys.cacheWrite_cachedCall hc a v who).transaction_of_asked hq refused granted
  exact ⟨_, transaction, ⟨hfree, rfl, rfl⟩, rfl, hl.symm⟩

/-- Under the invariant every way of a set has a word at an address's offset (R34, R74). -/
theorem Cache.Inv.offsetOf_lt_data {p : Params} {c : Cache} (h : c.Inv p) (hc : p.cached = true)
    (a : Nat) : ∀ l ∈ c.set (indexOf p a), offsetOf p a < l.data.length := by
  obtain ⟨_, _, hlines, _⟩ := h.set hc a
  intro l hl
  rw [(hlines l hl).1]
  exact offsetOf_lt hc a

/-! ## `CacheWriteTransaction` -/

/-- Settles O10: a write is both countdowns, with the store in the lines made once by `storeWay_storeWay`. -/
theorem cacheWriteTransaction : Obligations.CacheWriteTransaction := by
  intro p m a v who hc hq idx off ways after
  obtain ⟨final, transaction, settled⟩ := MemSys.write_transaction a v who hc hq
  obtain ⟨states, refusals, answer, last⟩ := transaction.writes
  have hafter : after = final := last
  have hset : final.cache.set idx = _ := settled.set_self (storeWay_length ..)
  rw [hafter]
  refine ⟨fun k hk => (refusals k (by omega)).trans (refusal_of_lt hk),
    fun k hle hk => (refusals k hk).trans (refusal_of_le hle), answer,
    fun k hk => by rw [states k hk, MemSys.during_cells], settled.cells, settled.quiet,
    fun i hi => settled.set_of_ne hi, fun w hhit => ⟨?touched, fun hinv => ?word, fun w' o hne => ?other⟩,
    fun hmiss => ?miss⟩
  case touched => exact hset.trans (storeWay_of_hit hhit ..)
  case word =>
    rw [hset, ← storedWay_of_hit hhit]
    exact wordOf_storeWay_self (hinv.2.set_ne_nil hc _) (hinv.2.offsetOf_lt_data hc _) _ v
  case other =>
    rw [hset]
    rw [← storedWay_of_hit hhit] at hne
    exact wordOf_storeWay_of_ne hne v
  case miss => exact hset.trans (storeWay_of_miss hmiss ..)

/-! ## `StaleNeighbour` -/

/-- After a store every address of its set and tag hits the way written and reads the word there (R79, R80).
-/
theorem MemSys.Settled.readAnswer_of_stored {p : Params} {m final : MemSys} {cells : RamCells} {a : Nat}
    {b v : Word} (hc : p.cached = true) (hinv : m.cache.Inv p)
    (h : m.Settled final cells (indexOf p a)
      (storeWay (m.cache.set (indexOf p a)) (tagOf p a) (offsetOf p a) v))
    (hindex : indexOf p (b.toNat % p.ramWords) = indexOf p a)
    (htag : tagOf p (b.toNat % p.ramWords) = tagOf p a) (who : Requester) :
    final.readAnswer p b who p.cacheDelay =
      .success (wordOf (storeWay (m.cache.set (indexOf p a)) (tagOf p a) (offsetOf p a) v)
        (storedWay (m.cache.set (indexOf p a)) (tagOf p a)) (offsetOf p (b.toNat % p.ramWords))) := by
  have hset := h.set_self (storeWay_length ..)
  have hhit : final.hit p b = some (storedWay (m.cache.set (indexOf p a)) (tagOf p a)) := by
    rw [MemSys.hit, hindex, htag, hset]
    exact hitWay_storeWay (hinv.set_ne_nil hc a) ..
  obtain ⟨_, answer, _⟩ := cacheReadHit p final b who _ hc h.quiet hhit
  rw [answer, hindex, hset]

/-- Settles O12: the store of the miss is of one word, and the read of the other hits the way it wrote. -/
theorem staleNeighbour : Obligations.StaleNeighbour := by
  intro p m a b v who who' hc hinv hq hmiss hindex htag hoffset
  obtain ⟨final, transaction, settled⟩ := MemSys.write_transaction a v who hc hq
  obtain ⟨_, _, _, last⟩ := transaction.writes
  rw [last, settled.readAnswer_of_stored hc hinv.2 hindex htag,
    wordOf_storeWay_of_ne (.inr hoffset), storedWay_of_miss hmiss]

/-! ## `LoadAfterStore` -/

/-- A granted write leaves no transaction under way, its word in RAM and in the set (R71, R80). -/
theorem MemSys.settled_of_cacheWrite {p : Params} {m m' : MemSys} {a v : Word} {who : Requester}
    (hc : p.cached = true) (h : m.cacheWrite p a who v = (.success (), m')) :
    m.Settled m' (m.ram.cells.setWord (a.toNat % p.ramWords) v) (indexOf p (a.toNat % p.ramWords))
      (storeWay (m.cache.set (indexOf p (a.toNat % p.ramWords))) (tagOf p (a.toNat % p.ramWords))
        (offsetOf p (a.toNat % p.ramWords)) v) := by
  have call := MemSys.cacheWrite_cachedCall hc a v who
  rcases hs : m.cache.service p.cacheDelay who with ⟨_ | _, c⟩
  · have hlines : c.lines = m.cache.lines := by rw [← m.cache.service_lines p.cacheDelay who, hs]
    have through := (call.ready hs).symm.trans h
    rcases hr : m.ram.service p.ramDelay .cache with ⟨_ | _, r⟩
    · rw [MemSys.writeThrough_of_ready (m := { m with cache := c }) hr] at through
      have hfree := Ram.req_of_service_ready hr
      cases through
      refine ⟨⟨hfree, rfl, rfl⟩, ?_, ?_⟩
      · rw [Ram.cells_of_service hr, Nat.mod_mod]
      · rw [← Cache.set_eq_of_lines hlines, ← hlines]
        rfl
    · rw [MemSys.writeThrough_of_wait (m := { m with cache := c }) hr] at through
      cases through
  · cases (call.wait hs).symm.trans h

theorem MemSys.req_of_bypass_write {p : Params} {m m' : MemSys} {a v : Word} {who : Requester}
    (hc : p.cached = false) (h : m.cacheWrite p a who v = (.success (), m')) : m'.ram.req = none := by
  rw [MemSys.cacheWrite_bypass hc] at h
  rcases hr : m.ram.service p.ramDelay who with ⟨_ | _, r⟩
  · rw [MemSys.ramWrite_of_ready hr] at h
    have hfree := Ram.req_of_service_ready hr
    cases h
    exact hfree
  · rw [MemSys.ramWrite_of_wait hr] at h
    cases h

/-- Settles O11: with the cache the read hits the way written, in bypass it reads the word the RAM has
stored. -/
theorem loadAfterStore : Obligations.LoadAfterStore := by
  intro p m m' a v who who' hinv h
  cases hc : p.cached with
  | true =>
    have settled := MemSys.settled_of_cacheWrite hc h
    rw [if_pos rfl, settled.readAnswer_of_stored hc hinv.2 rfl rfl,
      wordOf_storeWay_self (hinv.2.set_ne_nil hc _) (hinv.2.offsetOf_lt_data hc _)]
  | false =>
    have hcells : m'.ram.cells = m.ram.cells.setWord (a.toNat % p.ramWords) v := by
      obtain ⟨_, eq⟩ | ⟨hne, _⟩ := MemSys.cacheWrite_cells h
      · exact eq
      · exact absurd rfl hne
    obtain ⟨_, answer, _⟩ :=
      bypassTransaction p m' a v who' who' hc (MemSys.req_of_bypass_write hc h)
    rw [if_neg Bool.false_ne_true, answer, hcells, RamCells.word_setWord hinv.1.1, if_pos rfl]

end Sys2Proof.Machine
end

section
/-! SUPPORT. Proofs of the statements about the codec (spec/30_encoding.md R110 to R129): a word of each format
is the append of its fields, `decode` reads one of four formats, and each format's decoder and packer undo
each other. -/

namespace Sys2Proof

/-! ## A word from its fields -/

/-- A field joined to all the bits below it. -/
theorem extractLsb'_append_rest {n : Nat} (w : BitVec n) (start len : Nat) :
    w.extractLsb' start len ++ w.extractLsb' 0 start = w.extractLsb' 0 (len + start) :=
  BitVec.extractLsb'_append_extractLsb'_eq_extractLsb' (Nat.zero_add start).symm

/-- The fields of a Control word (R115); RegImm has its reserved bits in `CtrlMode`'s place (R112). -/
theorem append_controlFields (w : Word) :
    fieldImm w ++ (fieldCtrlMode w ++ (fieldAlu w ++ (fieldReg w ++
      (fieldOptype w ++ fieldDtype w)))) = w := by
  unfold fieldImm fieldCtrlMode fieldAlu fieldReg fieldOptype fieldDtype
  repeat rw [extractLsb'_append_rest]
  exact extractLsb'_all w

/-- The fields of a RegReg word and its unused bits (R113). -/
theorem append_regRegFields (w : Word) :
    w.extractLsb' 18 14 ++ (fieldRs w ++ (fieldAlu w ++ (fieldReg w ++
      (fieldOptype w ++ fieldDtype w)))) = w := by
  unfold fieldRs fieldAlu fieldReg fieldOptype fieldDtype
  repeat rw [extractLsb'_append_rest]
  exact extractLsb'_all w

/-- The fields of a LoadStore word (R114). -/
theorem append_loadStoreFields (w : Word) :
    fieldImm w ++ (fieldRMem w ++ (fieldMemMode w ++ (fieldReg w ++
      (fieldOptype w ++ fieldDtype w)))) = w := by
  unfold fieldImm fieldRMem fieldMemMode fieldReg fieldOptype fieldDtype
  repeat rw [extractLsb'_append_rest]
  exact extractLsb'_all w

/-- The format bits of a word (R111). -/
theorem extractLsb'_format (w : Word) : w.extractLsb' 0 4 = fieldOptype w ++ fieldDtype w :=
  (extractLsb'_append_rest w 2 2).symm

/-- The `(CtrlMode, CtrlFlag)` pair of a word (R122). -/
theorem extractLsb'_controlPair (w : Word) : w.extractLsb' 9 7 = fieldCtrlMode w ++ fieldAlu w :=
  (BitVec.extractLsb'_append_extractLsb'_eq_extractLsb' (start₁ := 9) (len₁ := 4) rfl).symm

theorem extractLsb'_dtype (w : Word) : w.extractLsb' 0 2 = fieldDtype w := rfl

theorem extractLsb'_alu (w : Word) : w.extractLsb' 9 4 = fieldAlu w := rfl

section
variable {w : Word} (hdtype : fieldDtype w = 0b01#2)
include hdtype

/-- A RegImm word is its fields but for bits 15..13 (R126). -/
theorem packRegImm_fields (hoptype : fieldOptype w = 0b00#2) :
    packRegImm (fieldAlu w) (fieldReg w) (fieldImm w) = w &&& 0xFFFF1FFF#32 := by
  symm
  calc w &&& 0xFFFF1FFF#32
    _ = (fieldImm w ++ (fieldCtrlMode w ++ (fieldAlu w ++ (fieldReg w ++
          (fieldOptype w ++ fieldDtype w))))) &&&
        (BitVec.allOnes 16 ++ (0#3 ++ (BitVec.allOnes 4 ++ (BitVec.allOnes 5 ++
          (BitVec.allOnes 2 ++ BitVec.allOnes 2))))) := by rw [append_controlFields]; rfl
    _ = packRegImm (fieldAlu w) (fieldReg w) (fieldImm w) := by
      simp only [BitVec.and_append, BitVec.and_allOnes, BitVec.and_zero, hdtype, hoptype, packRegImm]

/-- A RegReg word is its fields but for bits 31..18 (R126). -/
theorem packRegReg_fields (hoptype : fieldOptype w = 0b01#2) :
    packRegReg (fieldAlu w) (fieldReg w) (fieldRs w) = w &&& 0x0003FFFF#32 := by
  symm
  calc w &&& 0x0003FFFF#32
    _ = (w.extractLsb' 18 14 ++ (fieldRs w ++ (fieldAlu w ++ (fieldReg w ++
          (fieldOptype w ++ fieldDtype w))))) &&&
        (0#14 ++ (BitVec.allOnes 5 ++ (BitVec.allOnes 4 ++ (BitVec.allOnes 5 ++
          (BitVec.allOnes 2 ++ BitVec.allOnes 2))))) := by rw [append_regRegFields]; rfl
    _ = packRegReg (fieldAlu w) (fieldReg w) (fieldRs w) := by
      simp only [BitVec.and_append, BitVec.and_allOnes, BitVec.and_zero, hdtype, hoptype, packRegReg]

theorem packLoadStore_fields (hoptype : fieldOptype w = 0b10#2) :
    packLoadStore (fieldMemMode w) (fieldReg w) (fieldRMem w) (fieldImm w) = w := by
  unfold packLoadStore
  rw [← hdtype, ← hoptype]
  exact append_loadStoreFields w

theorem packControl_fields (hoptype : fieldOptype w = 0b11#2) :
    packControl (fieldCtrlMode w) (fieldAlu w) (fieldReg w) (fieldImm w) = w := by
  unfold packControl
  rw [← hdtype, ← hoptype]
  exact append_controlFields w

/-- What the HLT test of R123 looks at in a Control word. -/
theorem packControl_operands (hoptype : fieldOptype w = 0b11#2) :
    packControl 0#3 0#4 (fieldReg w) (fieldImm w) = w &&& 0xFFFF01FF#32 := by
  symm
  calc w &&& 0xFFFF01FF#32
    _ = (fieldImm w ++ (fieldCtrlMode w ++ (fieldAlu w ++ (fieldReg w ++
          (fieldOptype w ++ fieldDtype w))))) &&&
        (BitVec.allOnes 16 ++ (0#3 ++ (0#4 ++ (BitVec.allOnes 5 ++
          (BitVec.allOnes 2 ++ BitVec.allOnes 2))))) := by rw [append_controlFields]; rfl
    _ = packControl 0#3 0#4 (fieldReg w) (fieldImm w) := by
      simp only [BitVec.and_append, BitVec.and_allOnes, BitVec.and_zero, hdtype, hoptype, packControl]

end

/-! ## Which decoder reads a word -/

/-- `decode` reads a word by its format, or rejects its data type (R111, R125). -/
inductive WordFormat (w : Word) : Prop where
  | notInteger (hdtype : fieldDtype w ≠ 0b01#2) (eq : decode w = .error .notIntegerType)
  | regImm (hdtype : fieldDtype w = 0b01#2) (hoptype : fieldOptype w = 0b00#2)
      (eq : decode w = decodeRegImm (fieldAlu w) (fieldReg w) (fieldImm w))
  | regReg (hdtype : fieldDtype w = 0b01#2) (hoptype : fieldOptype w = 0b01#2)
      (eq : decode w = .ok (decodeRegReg (fieldAlu w) (fieldReg w) (fieldRs w)))
  | loadStore (hdtype : fieldDtype w = 0b01#2) (hoptype : fieldOptype w = 0b10#2)
      (eq : decode w =
        .ok (decodeLoadStore (fieldMemMode w) (fieldReg w) (fieldRMem w) (fieldImm w)))
  | control (hdtype : fieldDtype w = 0b01#2) (hoptype : fieldOptype w = 0b11#2)
      (eq : decode w = decodeControl (fieldCtrlMode w) (fieldAlu w) (fieldReg w) (fieldImm w))

theorem twoBits_cases (t : BitVec 2) : t = 0b00#2 ∨ t = 0b01#2 ∨ t = 0b10#2 ∨ t = 0b11#2 := by
  revert t; decide

/-- Every word is read in one of these ways. -/
theorem word_format (w : Word) : WordFormat w := by
  by_cases hd : fieldDtype w = 0b01#2
  · rcases twoBits_cases (fieldOptype w) with ho | ho | ho | ho
    · exact .regImm hd ho (by simp [decode, hd, ho])
    · exact .regReg hd ho (by simp [decode, hd, ho])
    · exact .loadStore hd ho (by simp [decode, hd, ho])
    · exact .control hd ho (by simp [decode, hd, ho])
  · exact .notInteger hd (by simp [decode, hd])

theorem decode_packRegImm (alu : BitVec 4) (rd : Reg) (imm : Imm16) :
    decode (packRegImm alu rd imm) = decodeRegImm alu rd imm := by
  simp [decode]

theorem decode_packRegReg (alu : BitVec 4) (rd rs : Reg) :
    decode (packRegReg alu rd rs) = .ok (decodeRegReg alu rd rs) := by
  simp [decode]

theorem decode_packLoadStore (mode : BitVec 2) (rd rm : Reg) (imm : Imm16) :
    decode (packLoadStore mode rd rm imm) = .ok (decodeLoadStore mode rd rm imm) := by
  simp [decode]

theorem decode_packControl (mode : BitVec 3) (flag : BitVec 4) (rm : Reg) (imm : Imm16) :
    decode (packControl mode flag rm imm) = decodeControl mode flag rm imm := by
  simp [decode]

/-! ## What the format's decoder answers -/

theorem decodeRegImm_ok {alu : BitVec 4} {rd : Reg} {imm : Imm16} {i : Instr}
    (h : decodeRegImm alu rd imm = .ok i) :
    i.wellFormed = true ∧ encode i = packRegImm alu rd imm := by
  obtain ⟨code⟩ := alu
  fin_cases code
  all_goals cases h
  all_goals exact ⟨rfl, rfl⟩

theorem decodeRegReg_encodes (alu : BitVec 4) (rd rs : Reg) :
    (decodeRegReg alu rd rs).wellFormed = true ∧
      encode (decodeRegReg alu rd rs) = packRegReg alu rd rs := by
  obtain ⟨code⟩ := alu
  fin_cases code
  all_goals exact ⟨rfl, rfl⟩

theorem decodeLoadStore_encodes (mode : BitVec 2) (rd rm : Reg) (imm : Imm16) :
    (decodeLoadStore mode rd rm imm).wellFormed = true ∧
      encode (decodeLoadStore mode rd rm imm) = packLoadStore mode rd rm imm := by
  rcases twoBits_cases mode with rfl | rfl | rfl | rfl
  all_goals exact ⟨rfl, rfl⟩

/-- The operands of the halt sentinel (R123). -/
theorem branchOperandOk_eq_false {rm : Reg} {imm : Imm16} :
    branchOperandOk rm imm = false ↔ rm = 0#5 ∧ imm = 0xFFFF#16 := by
  simp [branchOperandOk]

theorem decodeControl_of_halt {mode : BitVec 3} {flag : BitVec 4} {rm : Reg} {imm : Imm16}
    (h : branchOperandOk rm imm = false) : decodeControl mode flag rm imm = .ok (.hlt mode flag) := by
  simp [decodeControl, h]

/-- A code by its value, the form in which `decodeControl` matches on a pair. -/
theorem eq_ofNat_toNat {n : Nat} (v : BitVec n) : v = BitVec.ofNat n v.toNat := by
  rw [BitVec.ofNat_toNat, BitVec.setWidth_eq]

theorem decodeControl_ok {mode : BitVec 3} {flag : BitVec 4} {rm : Reg} {imm : Imm16} {i : Instr}
    (h : decodeControl mode flag rm imm = .ok i) :
    i.wellFormed = true ∧ encode i = packControl mode flag rm imm := by
  cases hop : branchOperandOk rm imm with
  | false =>
    obtain ⟨rfl, rfl⟩ := branchOperandOk_eq_false.1 hop
    cases (decodeControl_of_halt hop).symm.trans h
    exact ⟨rfl, rfl⟩
  | true =>
    rw [eq_ofNat_toNat mode, eq_ofNat_toNat flag]
    unfold decodeControl at h
    rw [hop] at h
    generalize mode.toNat = m, flag.toNat = f at h ⊢
    split at h
    · contradiction
    · split at h
      all_goals cases h
      all_goals exact ⟨hop, rfl⟩

/-! ## What the format's decoder rejects -/

/-- RegImm rejects code 15 alone (R217). -/
theorem decodeRegImm_error {alu : BitVec 4} {rd : Reg} {imm : Imm16} :
    (∃ e, decodeRegImm alu rd imm = .error e) ↔ alu = 0b1111#4 := by
  constructor
  · rintro ⟨e, h⟩
    unfold decodeRegImm at h
    split at h
    case h_16 =>
      have hlt := alu.isLt
      simp only [imp_false] at *
      exact BitVec.eq_of_toNat_eq (show alu.toNat = 15 by omega)
    all_goals cases h
  · rintro rfl
    exact ⟨_, rfl⟩

/-- The eleven listed pairs are branches (R122). -/
theorem decodeControl_of_listed {mode : BitVec 3} {flag : BitVec 4} {rm : Reg} {imm : Imm16}
    (hop : branchOperandOk rm imm = true) (hpair : mode ++ flag ∈ controlPairs) :
    ∃ i, decodeControl mode flag rm imm = .ok i := by
  have hmode : (mode ++ flag).extractLsb' 4 3 = mode := by
    rw [extractLsb'_append_high _ _ _ _ (by decide)]; exact extractLsb'_all mode
  have hflag : (mode ++ flag).extractLsb' 0 4 = flag := extractLsb'_append_first mode flag
  generalize mode ++ flag = pair at hmode hflag hpair
  subst hmode hflag
  unfold decodeControl
  rw [hop]
  fin_cases hpair
  all_goals exact ⟨_, rfl⟩

/-- Control rejects a pair that is not listed, unless the operands are the halt sentinel's (R123, R295). -/
theorem decodeControl_error {mode : BitVec 3} {flag : BitVec 4} {rm : Reg} {imm : Imm16} :
    (∃ e, decodeControl mode flag rm imm = .error e) ↔
      branchOperandOk rm imm = true ∧ mode ++ flag ∉ controlPairs := by
  constructor
  · rintro ⟨e, h⟩
    cases hop : branchOperandOk rm imm with
    | false => cases (decodeControl_of_halt hop).symm.trans h
    | true =>
      refine ⟨rfl, fun hpair => ?_⟩
      obtain ⟨i, hi⟩ := decodeControl_of_listed hop hpair
      cases hi.symm.trans h
  · rintro ⟨hop, hpair⟩
    rw [eq_ofNat_toNat mode, eq_ofNat_toNat flag] at hpair
    unfold decodeControl
    rw [hop]
    generalize mode.toNat = m, flag.toNat = f at hpair ⊢
    split
    · contradiction
    · split
      case h_12 => exact ⟨_, rfl⟩
      all_goals exact absurd hpair (by decide)

/-- The halt sentinel's test as R313 (c) writes it. -/
theorem branchOperandOk_fields {w : Word} (hdtype : fieldDtype w = 0b01#2)
    (hoptype : fieldOptype w = 0b11#2) :
    branchOperandOk (fieldReg w) (fieldImm w) = true ↔ w &&& 0xFFFF01FF#32 ≠ 0xFFFF000D#32 := by
  rw [← Bool.not_eq_false, not_iff_not, branchOperandOk_eq_false, ← packControl_operands hdtype hoptype]
  constructor
  · rintro ⟨hreg, himm⟩
    rw [hreg, himm]
    rfl
  · intro h
    have hreg := congrArg fieldReg h
    have himm := congrArg fieldImm h
    rw [fieldReg_packControl] at hreg
    rw [fieldImm_packControl] at himm
    exact ⟨hreg, himm⟩

/-! ## The statements -/

/-- Settles O1: each instruction is packed in its format, whose fields the format's decoder reads back; on
Control it turns on the operands not being the halt sentinel's. -/
theorem decodeOfEncode : Obligations.DecodeOfEncode := by
  intro i hwf
  cases i with
  | addI | subI | mulI | andI | xorI | orI | notI | negI | shrI | sarI | shlI | rolI | ldi | ldx
  | cmpI => exact decode_packRegImm ..
  | addR | subR | mulR | divR | remR | orR | xorR | andR | notR | shlR | shrR | sarR | rolR | cmpR
  | cpy | nsa => exact decode_packRegReg ..
  | ldw | pop | push | stw => exact decode_packLoadStore ..
  | beq rm imm | bne rm imm | blt rm imm | bge rm imm | blu rm imm | bae rm imm | ba rm imm
  | bof rm imm | bnf rm imm | bunc rm imm | call rm imm =>
    have hop : branchOperandOk rm imm = true := hwf
    rw [encode, decode_packControl, decodeControl, hop]
    rfl
  | hlt => exact (decode_packControl ..).trans (decodeControl_of_halt rfl)

/-- Settles O2: what a format's decoder answers packs into the fields it was read from, and these fields are
the word's significant bits. -/
theorem encodeOfDecode : Obligations.EncodeOfDecode := by
  intro w i h
  cases word_format w with
  | notInteger _ eq => cases eq.symm.trans h
  | regImm hd ho eq =>
    obtain ⟨hwf, henc⟩ := decodeRegImm_ok (eq.symm.trans h)
    refine ⟨hwf, ?_⟩
    rw [henc, packRegImm_fields hd ho, significantBits, if_pos ho]
  | regReg hd ho eq =>
    cases eq.symm.trans h
    obtain ⟨hwf, henc⟩ := decodeRegReg_encodes (fieldAlu w) (fieldReg w) (fieldRs w)
    refine ⟨hwf, ?_⟩
    rw [henc, packRegReg_fields hd ho, significantBits, ho]
    rfl
  | loadStore hd ho eq =>
    cases eq.symm.trans h
    obtain ⟨hwf, henc⟩ :=
      decodeLoadStore_encodes (fieldMemMode w) (fieldReg w) (fieldRMem w) (fieldImm w)
    refine ⟨hwf, ?_⟩
    rw [henc, packLoadStore_fields hd ho, significantBits, ho]
    exact BitVec.and_allOnes.symm
  | control hd ho eq =>
    obtain ⟨hwf, henc⟩ := decodeControl_ok (eq.symm.trans h)
    refine ⟨hwf, ?_⟩
    rw [henc, packControl_fields hd ho, significantBits, ho]
    exact BitVec.and_allOnes.symm

/-- Settles O3: by the word's format, of which RegReg and LoadStore reject nothing. -/
theorem decodeRejects : Obligations.DecodeRejects := by
  intro w
  rw [extractLsb'_format, extractLsb'_controlPair, extractLsb'_dtype, extractLsb'_alu]
  cases word_format w with
  | notInteger hd eq => exact iff_of_true ⟨_, eq⟩ (.inl hd)
  | regImm hd ho eq =>
    rw [eq, decodeRegImm_error, ho, hd]
    simp
  | regReg hd ho eq => simp [eq, ho, hd]
  | loadStore hd ho eq => simp [eq, ho, hd]
  | control hd ho eq =>
    rw [eq, decodeControl_error, branchOperandOk_fields hd ho, ho, hd]
    simp

/-- Settles O4: by running the decoder on each word. -/
theorem specWordsDecode : Obligations.SpecWordsDecode :=
  ⟨rfl, rfl, rfl, rfl, rfl, rfl, rfl, rfl, rfl, rfl⟩

end Sys2Proof
end

section
/-! SUPPORT. Proofs of the statements about Control and LoadStore instructions at Decode and at Execute
(spec/40_pipeline.md R163 to R165, R173): the work of each shared operation on the record whose turn it is. -/

namespace Sys2Proof.Machine

/-! ## The part of a meaning whose turn it is -/

theorem AtDecode.atStage {s : State} {rec : Record} (h : AtDecode s rec) (d x m w : State) :
    s.atStage d x m w = .next d := by
  rw [State.atStage_eq, h.turn]

theorem AtExecute.atStage {s : State} {rec : Record} (h : AtExecute s rec) (d x m w : State) :
    s.atStage d x m w = .next x := by
  rw [State.atStage_eq, h.turn]

theorem AtDecode.onDecode {s : State} {rec : Record} (h : AtDecode s rec) (work : Record → State) :
    s.onDecode work = work rec :=
  State.onDecode_of h.holds h.pending work

theorem AtExecute.onExecute {s : State} {rec : Record} (h : AtExecute s rec)
    (work : Record → State → State) : s.onExecute work = work rec { s with xDone := true } :=
  State.onExecute_of h.holds h.fresh h.unmarked work

/-! ## The work of Decode -/

section
variable {s : State} {rec : Record} (h : AtDecode s rec)
include h

/-- A branch whose base is not `Blocked` (R163). -/
theorem AtDecode.decodeBranch {rm : Reg} {imm : Imm16} {v : Word} (aux : Reg)
    (hbase : s.controlBase rec rm = some v) :
    s.decodeBranch rm imm aux = s.decoded s.regs
      { rec with
        claims := [], destMemAddr := v, operand := sext16 imm, writeBack := true, auxReg := aux } := by
  unfold State.decodeBranch
  rw [h.onDecode, hbase]

/-- A LoadStore instruction both of whose registers read (R165). -/
theorem AtDecode.decodeLoadStore {rd m : Reg} {imm : Imm16} {v1 v2 : Word} (i : Instr) (loads : Bool)
    (aux : Reg) (hrd : s.regs.read rd = some v1) (hm : s.regs.read m = some v2) :
    s.decodeLoadStore i rd m imm loads aux = s.decoded ((s.regs.block rd).block m)
      { rec with
        op := .instr i, claims := claimSet rd m, result := v1, destMemAddr := v2
        operand := sext16 imm, writeBack := loads, auxReg := aux } := by
  unfold State.decodeLoadStore
  rw [h.onDecode, hrd, hm]

/-- The halt sentinel (R164). -/
theorem AtDecode.decodeHalt :
    s.decodeHalt = { s.squashFetch with haltPending := true, dRec := none, dState := .free } := by
  unfold State.decodeHalt
  rw [h.onDecode]

end

/-- The branches that write no link share one meaning but for their condition (R282). -/
theorem exec_plainBranch {i : Instr} {rm : Reg} {imm : Imm16} (hi : i ∈ plainBranches rm imm)
    (s : State) : ∃ cond, exec i s = s.branch rm imm 0#5 cond := by
  simp only [plainBranches, List.mem_cons, List.not_mem_nil, or_false] at hi
  rcases hi with rfl | rfl | rfl | rfl | rfl | rfl | rfl | rfl | rfl | rfl
  all_goals exact ⟨_, rfl⟩

/-- Settles O15: the meaning of a branch at Decode is `decodeBranch`, with CALL's auxiliary register or none. -/
theorem controlDecode : Obligations.ControlDecode := by
  intro s rec rm imm v h hbase
  have branch (aux : Reg) (cond : Flags → Bool) :
      s.branch rm imm aux cond = .next (s.decoded s.regs
        { rec with
          claims := [], destMemAddr := v, operand := sext16 imm, writeBack := true
          auxReg := aux }) := by
    rw [State.branch, h.atStage, h.decodeBranch aux hbase]
  refine ⟨fun i hi => ?_, branch linkReg _⟩
  obtain ⟨cond, eq⟩ := exec_plainBranch hi s
  exact eq.trans (branch 0#5 cond)

/-- Settles O16: HLT's meaning at Decode is `decodeHalt`, which does not look at the pair. -/
theorem haltDecode : Obligations.HaltDecode := by
  intro s rec mode flag h
  have work : exec (.hlt mode flag) s = .next s.decodeHalt := h.atStage ..
  rw [work, h.decodeHalt]
  rfl

/-- Settles O17: each of the four is `decodeLoadStore`, with register 30 as the base of POP and PUSH. -/
theorem loadStoreDecode : Obligations.LoadStoreDecode := by
  intro s rec rd rm imm v1 v2 h hrd
  have work (i : Instr) (m : Reg) (loads : Bool) (aux : Reg) (x y w : State)
      (hm : s.regs.read m = some v2) :
      s.atStage (s.decodeLoadStore i rd m imm loads aux) x y w =
        .next (s.decoded ((s.regs.block rd).block m)
          { rec with
            op := .instr i, claims := claimSet rd m, result := v1, destMemAddr := v2
            operand := sext16 imm, writeBack := loads, auxReg := aux }) := by
    rw [h.atStage, h.decodeLoadStore i loads aux hrd hm]
  refine ⟨fun hm => ⟨?ldw, ?stw⟩, fun hm => ⟨?pop, ?push⟩⟩
  case ldw => exact work (.ldw rd rm imm) rm true 0#5 _ _ _ hm
  case stw => exact work (.stw rd rm imm) rm false 0#5 _ _ _ hm
  case pop => exact work (.pop rd spReg imm) spReg true spReg _ _ _ hm
  case push => exact work (.push rd spReg imm) spReg false spReg _ _ _ hm

/-! ## The work of Execute -/

/-- The RAM's size divides the range of a word, so reducing modulo `N` forgets the sum's wrap (R5, R61). -/
theorem Params.ramWords_dvd {p : Params} (h : p.valid = true) : p.ramWords ∣ 2 ^ 32 := by
  simp only [Params.valid, isPowerOfTwo, Bool.and_eq_true, beq_iff_eq, decide_eq_true_eq] at h
  obtain ⟨⟨⟨⟨hpow, hle⟩, _⟩, _⟩, _⟩ := h
  rw [hpow] at hle ⊢
  exact Nat.pow_dvd_pow 2 ((Nat.pow_le_pow_iff_right Nat.one_lt_two).1 hle)

/-- The effective address is the exact sum modulo `N` (R172, R173, R265). -/
theorem effectiveAddress_eq {p : Params} (h : p.valid = true) (base disp : Word) :
    effectiveAddress p base disp = BitVec.ofNat 32 ((base.toNat + disp.toNat) % p.ramWords) := by
  rw [effectiveAddress, BitVec.toNat_add, Nat.mod_mod_of_dvd _ (Params.ramWords_dvd h)]

/-- The conditions of R122 are those of the meanings: an instruction with a condition is a branch on it. -/
theorem exec_of_takenWhen {i : Instr} {s : State} {taken : Bool} (h : i.takenWhen s.flags = some taken) :
    ∃ rm imm aux cond, exec i s = s.branch rm imm aux cond ∧ cond s.flags = taken := by
  cases i with
  | beq | bne | blt | blu | bae | bof | bnf | bunc | call =>
    exact ⟨_, _, _, _, rfl, Option.some.inj h⟩
  | bge =>
    have ge : (s.flags.sf == s.flags.ovf) = !(s.flags.sf ^^ s.flags.ovf) := (Bool.not_not _).symm
    exact ⟨_, _, _, _, rfl, ge.trans (Option.some.inj h)⟩
  | ba =>
    have above : (!s.flags.cf && !s.flags.zf) = !(s.flags.cf || s.flags.zf) := (Bool.not_or ..).symm
    exact ⟨_, _, _, _, rfl, above.trans (Option.some.inj h)⟩
  | _ => cases h

theorem AtExecute.executeBranch_taken {s : State} {rec : Record} {cond : Flags → Bool}
    (h : AtExecute s rec) (hc : cond s.flags = true) :
    s.executeBranch cond =
      { s with
        xDone := true
        xRec := some
          { rec with
            branchTaken := true
            destMemAddr := effectiveAddress s.params rec.destMemAddr rec.operand } } := by
  unfold State.executeBranch
  rw [h.onExecute]
  exact if_pos hc

theorem AtExecute.executeBranch_notTaken {s : State} {rec : Record} {cond : Flags → Bool}
    (h : AtExecute s rec) (hc : cond s.flags = false) :
    s.executeBranch cond =
      { s with xDone := true, xRec := some { rec with branchTaken := false, writeBack := false } } := by
  unfold State.executeBranch
  rw [h.onExecute]
  exact if_neg (Bool.eq_false_iff.1 hc)

/-- Settles O26: an instruction with a condition is a branch on it, whose Execute takes one of two ways. -/
theorem branchExecute : Obligations.BranchExecute := by
  intro s rec i h hvalid
  constructor
  · intro htaken
    obtain ⟨rm, imm, aux, cond, eq, hc⟩ := exec_of_takenWhen htaken
    rw [eq, State.branch, h.atStage, h.executeBranch_taken hc, effectiveAddress_eq hvalid]
  · intro hnot
    obtain ⟨rm, imm, aux, cond, eq, hc⟩ := exec_of_takenWhen hnot
    rw [eq, State.branch, h.atStage, h.executeBranch_notTaken hc]

end Sys2Proof.Machine
end

section
/-! SUPPORT. Proofs of the statements about RegImm and RegReg at Decode, about every reading instruction that
meets a `Blocked` register, and about Execute's and Memory's work on one record (spec/40_pipeline.md R160 to
R178). -/

namespace Sys2Proof.Machine

/-! ## The meanings of one format -/

/-- The RegImm instructions share one meaning but for their operation (R216). -/
theorem exec_of_mem_regImm {i : Instr} {rd : Reg} {imm : Imm16} (hi : i ∈ regImmInstrs rd imm)
    (s : State) : ∃ alu compare, exec i s = s.regImm rd imm alu compare := by
  simp only [regImmInstrs, List.mem_cons, List.not_mem_nil, or_false] at hi
  rcases hi with rfl | rfl | rfl | rfl | rfl | rfl | rfl | rfl | rfl | rfl | rfl | rfl | rfl | rfl | rfl
  all_goals exact ⟨_, _, rfl⟩

/-- The RegReg instructions share one meaning but for their operation (R230). -/
theorem exec_of_mem_regReg {i : Instr} {rd rs : Reg} (hi : i ∈ regRegInstrs rd rs) (s : State) :
    ∃ alu compare, exec i s = s.regReg rd rs alu compare := by
  simp only [regRegInstrs, List.mem_cons, List.not_mem_nil, or_false] at hi
  rcases hi with rfl | rfl | rfl | rfl | rfl | rfl | rfl | rfl | rfl | rfl | rfl | rfl | rfl | rfl | rfl |
    rfl
  all_goals exact ⟨_, _, rfl⟩

/-- CALL and the branches that write no link share one meaning but for the link and the condition (R282). -/
theorem exec_of_mem_branches {i : Instr} {rm : Reg} {imm : Imm16}
    (hi : i ∈ .call rm imm :: plainBranches rm imm) (s : State) :
    ∃ aux cond, exec i s = s.branch rm imm aux cond := by
  obtain rfl | hi := List.mem_cons.1 hi
  · exact ⟨_, _, rfl⟩
  · exact ⟨_, exec_plainBranch hi s⟩

/-! ## The work of Decode -/

theorem claimSet_self (r : Reg) : claimSet r r = if r = 0#5 then [] else [r] := by
  by_cases h : r = 0#5 <;> simp [claimSet, h]

section
variable {s : State} {rec : Record} (h : AtDecode s rec)
include h

/-- A RegImm instruction whose register reads (R161). -/
theorem AtDecode.decodeRegImm {rd : Reg} {v : Word} (imm : Imm16) (hrd : s.regs.read rd = some v) :
    s.decodeRegImm rd imm = s.decoded (s.regs.block rd)
      { rec with
        claims := claimSet rd rd, result := v, operand := sext16 imm, writeBack := rd != 0#5
        auxReg := 0#5 } := by
  unfold State.decodeRegImm
  rw [h.onDecode, hrd]

/-- A RegReg instruction both of whose registers read (R162). -/
theorem AtDecode.decodeRegReg {rd rs : Reg} {v1 v2 : Word} (hrd : s.regs.read rd = some v1)
    (hrs : s.regs.read rs = some v2) :
    s.decodeRegReg rd rs = s.decoded ((s.regs.block rd).block rs)
      { rec with
        claims := claimSet rd rs, result := v1, operand := v2, writeBack := rd != 0#5
        auxReg := 0#5 } := by
  unfold State.decodeRegReg
  rw [h.onDecode, hrd, hrs]

/-- A record that waits unchanged leaves only Decode's state changed (R160). -/
theorem AtDecode.awaitRead : s.awaitRead rec = { s with dState := .awaitingRegRead } := by
  rw [State.awaitRead, ← h.holds]

theorem AtDecode.decodeRegImm_blocked {rd : Reg} (imm : Imm16) (hrd : s.regs.read rd = none) :
    s.decodeRegImm rd imm = { s with dState := .awaitingRegRead } := by
  unfold State.decodeRegImm
  rw [h.onDecode, hrd]
  exact h.awaitRead

theorem AtDecode.decodeRegReg_blocked {rd rs : Reg}
    (hb : s.regs.read rd = none ∨ s.regs.read rs = none) :
    s.decodeRegReg rd rs = { s with dState := .awaitingRegRead } := by
  unfold State.decodeRegReg
  rw [h.onDecode]
  split
  · next h1 h2 => simp [h1, h2] at hb
  · exact h.awaitRead

theorem AtDecode.decodeBranch_blocked {rm : Reg} (imm : Imm16) (aux : Reg) (h0 : rm ≠ 0#5)
    (hrm : s.regs.read rm = none) :
    s.decodeBranch rm imm aux = { s with dState := .awaitingRegRead } := by
  have base : s.controlBase rec rm = none := (if_neg h0).trans hrm
  unfold State.decodeBranch
  rw [h.onDecode, base]
  exact h.awaitRead

theorem AtDecode.decodeLoadStore_blocked {rd m : Reg} (i : Instr) (imm : Imm16) (loads : Bool) (aux : Reg)
    (hb : s.regs.read rd = none ∨ s.regs.read m = none) :
    s.decodeLoadStore i rd m imm loads aux =
      { s with dState := .awaitingRegRead, dRec := some { rec with op := .instr i } } := by
  unfold State.decodeLoadStore
  rw [h.onDecode]
  split
  · next h1 h2 => simp [h1, h2] at hb
  · rfl

end

/-- Settles O14: each instruction of a format is that format's meaning, whose Decode reads and claims. -/
theorem aluDecode : Obligations.AluDecode := by
  intro s rec rd rs imm v1 v2 h hrd
  have names : (rd != 0#5) = decide (rd ≠ 0#5) := by by_cases h0 : rd = 0#5 <;> simp [h0]
  refine ⟨fun i hi => ?regImm, fun hrs i hi => ?regReg⟩
  case regImm =>
    obtain ⟨alu, compare, eq⟩ := exec_of_mem_regImm hi s
    rw [eq, State.regImm, h.atStage, h.decodeRegImm imm hrd, claimSet_self, names]
    rfl
  case regReg =>
    obtain ⟨alu, compare, eq⟩ := exec_of_mem_regReg hi s
    rw [eq, State.regReg, h.atStage, h.decodeRegReg hrd hrs, names]
    rfl

/-- Settles O18: a format's Decode that meets a `Blocked` read waits; POP and PUSH read register 30. -/
theorem blockedReadWaits : Obligations.BlockedReadWaits := by
  intro s rec rd rs imm h
  have work (i : Instr) (m : Reg) (loads : Bool) (aux : Reg) (x y w : State)
      (hb : s.regs.read rd = none ∨ s.regs.read m = none) :
      s.atStage (s.decodeLoadStore i rd m imm loads aux) x y w =
        .next { s with dState := .awaitingRegRead, dRec := some { rec with op := .instr i } } := by
    rw [h.atStage, h.decodeLoadStore_blocked i imm loads aux hb]
  refine ⟨fun hb i hi => ?regImm, fun hb i hi => ?regReg, fun h0 hb i hi => ?branch,
    fun hb i hi => ?based, fun hb => ⟨?pop, ?push⟩⟩
  case regImm =>
    obtain ⟨alu, compare, eq⟩ := exec_of_mem_regImm hi s
    rw [eq, State.regImm, h.atStage, h.decodeRegImm_blocked imm hb]
  case regReg =>
    obtain ⟨alu, compare, eq⟩ := exec_of_mem_regReg hi s
    rw [eq, State.regReg, h.atStage, h.decodeRegReg_blocked hb]
  case branch =>
    obtain ⟨aux, cond, eq⟩ := exec_of_mem_branches hi s
    rw [eq, State.branch, h.atStage, h.decodeBranch_blocked imm aux h0 hb]
  case based =>
    simp only [List.mem_cons, List.not_mem_nil, or_false] at hi
    obtain rfl | rfl := hi
    · exact work (.ldw rd rs imm) rs true 0#5 _ _ _ hb
    · exact work (.stw rd rs imm) rs false 0#5 _ _ _ hb
  case pop => exact work (.pop rd spReg imm) spReg true spReg _ _ _ hb
  case push => exact work (.push rd spReg imm) spReg false spReg _ _ _ hb

/-! ## The work of Execute -/

section
variable {s : State} {rec : Record} (h : AtExecute s rec)
include h

/-- An operation that faults marks the record (R171, R312). -/
theorem AtExecute.executeAlu_fault {alu : Word → Word → AluOut} {kind : Fault} (compare : Bool)
    (hk : alu rec.result rec.operand = .fault kind) :
    s.executeAlu alu compare = s.afterMark rec kind := by
  unfold State.executeAlu
  rw [h.onExecute, hk]
  rfl

/-- An operation that completes gives the record its result and the machine its flags; CMP gives up its
write-back (R171). -/
theorem AtExecute.executeAlu_done {alu : Word → Word → AluOut} {res : Word} {flags : Flags}
    (compare : Bool) (hd : alu rec.result rec.operand = .done res flags) :
    s.executeAlu alu compare = s.afterAlu rec res flags (rec.writeBack && !compare) := by
  unfold State.executeAlu
  rw [h.onExecute, hd]
  rfl

theorem AtExecute.executeAddress :
    s.executeAddress =
      { s with
        xDone := true
        xRec := some
          { rec with destMemAddr := effectiveAddress s.params rec.destMemAddr rec.operand } } := by
  unfold State.executeAddress
  rw [h.onExecute]

theorem AtExecute.executeNothing : s.executeNothing = { s with xDone := true } := by
  unfold State.executeNothing
  rw [h.onExecute]

end

/-- Settles O24: the operations of LDX and NSA are `aluUnspecified`; DIV and REM test their divisor first. -/
theorem markedInExecute : Obligations.MarkedInExecute := by
  intro s rec rd rs imm h
  have marks (alu : Word → Word → AluOut) (kind : Fault) (x y w : State)
      (hk : alu rec.result rec.operand = .fault kind) :
      s.atStage x (s.executeAlu alu false) y w = .next (s.afterMark rec kind) := by
    rw [h.atStage, h.executeAlu_fault false hk]
  refine ⟨fun h0 => ⟨?div, ?rem⟩, ?ldx, ?nsa⟩
  case div => exact marks (aluDiv s.params.divSigned) .divideByZero _ _ _ (if_pos h0)
  case rem => exact marks (aluRem s.params.divSigned) .divideByZero _ _ _ (if_pos h0)
  case ldx => exact marks aluUnspecified .unspecifiedOperation _ _ _ rfl
  case nsa => exact marks aluUnspecified .unspecifiedOperation _ _ _ rfl

/-- Settles O25: the wrapped sum modulo `N` is the exact sum modulo `N` by `effectiveAddress_eq`. -/
theorem addressExecute : Obligations.AddressExecute := by
  intro s rec rd rm imm h
  refine ⟨fun hvalid i hi => ?based, fun i hi => ?stack⟩
  case based =>
    have work (x y w : State) : s.atStage x s.executeAddress y w = .next
        { s with
          xDone := true
          xRec := some
            { rec with
              destMemAddr := BitVec.ofNat 32
                ((rec.destMemAddr.toNat + rec.operand.toNat) % s.params.ramWords) } } := by
      rw [h.atStage, h.executeAddress, effectiveAddress_eq hvalid]
    simp only [List.mem_cons, List.not_mem_nil, or_false] at hi
    obtain rfl | rfl := hi <;> exact work _ _ _
  case stack =>
    have work (x y w : State) : s.atStage x s.executeNothing y w = .next { s with xDone := true } := by
      rw [h.atStage, h.executeNothing]
    simp only [List.mem_cons, List.not_mem_nil, or_false] at hi
    obtain rfl | rfl := hi <;> exact work _ _ _

/-! ## The work of Memory -/

section
variable {s : State} {rec : Record} (h : AtMemory s rec)
include h

theorem AtMemory.atStage (d x m w : State) : s.atStage d x m w = .next m := by
  rw [State.atStage_eq, h.turn]

theorem AtMemory.onMemory (work : Record → State) : s.onMemory work = work rec :=
  State.onMemory_of h.holds h.fresh h.unmarked work

theorem AtMemory.memoryPass : s.memoryPass = { s with mDone := true } := h.onMemory _

/-- A read that is answered (R177). -/
theorem AtMemory.memoryLoad_success {v : Word} {m : MemSys} (next : Word → Word)
    (hr : s.mem.cacheRead s.params rec.destMemAddr .memory = (.success v, m)) :
    s.memoryLoad next =
      { s with
        mem := m, mWaiting := false, mDone := true
        mRec := some { rec with result := v, destMemAddr := next rec.destMemAddr } } := by
  unfold State.memoryLoad
  rw [h.onMemory, hr]

/-- A read that is refused holds the record (R177). -/
theorem AtMemory.memoryLoad_refused {r : Answer Word} {m : MemSys} (next : Word → Word)
    (hr : s.mem.cacheRead s.params rec.destMemAddr .memory = (r, m))
    (hrefused : r = .wait ∨ r = .waitNextLevel) :
    s.memoryLoad next = { s with mem := m, mWaiting := true } := by
  unfold State.memoryLoad
  rw [h.onMemory, hr]
  obtain rfl | rfl := hrefused <;> rfl

/-- A store that is answered (R178). -/
theorem AtMemory.memoryStore_success {m : MemSys} (next : Word → Word)
    (hr : s.mem.cacheWrite s.params rec.destMemAddr .memory rec.result = (.success (), m)) :
    s.memoryStore next =
      { s with
        mem := m, mWaiting := false, mDone := true
        mRec := some { rec with destMemAddr := next rec.destMemAddr } } := by
  unfold State.memoryStore
  rw [h.onMemory, hr]

/-- A store that is refused holds the record (R178). -/
theorem AtMemory.memoryStore_refused {r : Answer Unit} {m : MemSys} (next : Word → Word)
    (hr : s.mem.cacheWrite s.params rec.destMemAddr .memory rec.result = (r, m))
    (hrefused : r = .wait ∨ r = .waitNextLevel) :
    s.memoryStore next = { s with mem := m, mWaiting := true } := by
  unfold State.memoryStore
  rw [h.onMemory, hr]
  obtain rfl | rfl := hrefused <;> rfl

end

/-- Settles O28: RegImm, RegReg and the branches share `memoryPass` as their Memory work. -/
theorem memoryPassThrough : Obligations.MemoryPassThrough := by
  intro s rec rd rs imm h i hi
  have work (d x w : State) : s.atStage d x s.memoryPass w = .next { s with mDone := true } := by
    rw [h.atStage, h.memoryPass]
  obtain hi | hi := List.mem_append.1 hi
  · obtain hi | hi := List.mem_append.1 hi
    · obtain ⟨alu, compare, eq⟩ := exec_of_mem_regImm hi s
      exact eq.trans (work _ _ _)
    · obtain ⟨alu, compare, eq⟩ := exec_of_mem_regReg hi s
      exact eq.trans (work _ _ _)
  · obtain ⟨aux, cond, eq⟩ := exec_of_mem_branches hi s
    exact eq.trans (work _ _ _)

/-- Settles O29: LDW and POP are one load but for what becomes of the address. -/
theorem loadMemory : Obligations.LoadMemory := by
  intro s rec rd rm imm r m h hr
  refine ⟨fun v hv => ?answered, fun hrefused i hi => ?refused⟩
  case answered =>
    subst hv
    have work (next : Word → Word) (d x w : State) :
        s.atStage d x (s.memoryLoad next) w = .next
          { s with
            mem := m, mWaiting := false, mDone := true
            mRec := some { rec with result := v, destMemAddr := next rec.destMemAddr } } := by
      rw [h.atStage, h.memoryLoad_success next hr]
    exact ⟨work (fun a => a) _ _ _, work (fun a => a - 1#32) _ _ _⟩
  case refused =>
    have work (next : Word → Word) (d x w : State) :
        s.atStage d x (s.memoryLoad next) w = .next { s with mem := m, mWaiting := true } := by
      rw [h.atStage, h.memoryLoad_refused next hr hrefused]
    simp only [List.mem_cons, List.not_mem_nil, or_false] at hi
    obtain rfl | rfl := hi <;> exact work _ _ _ _

/-- Settles O30: STW and PUSH are one store but for what becomes of the address. -/
theorem storeMemory : Obligations.StoreMemory := by
  intro s rec rd rm imm r m h hr
  refine ⟨fun hv => ?answered, fun hrefused i hi => ?refused⟩
  case answered =>
    subst hv
    have work (next : Word → Word) (d x w : State) :
        s.atStage d x (s.memoryStore next) w = .next
          { s with
            mem := m, mWaiting := false, mDone := true
            mRec := some { rec with destMemAddr := next rec.destMemAddr } } := by
      rw [h.atStage, h.memoryStore_success next hr]
    refine ⟨?_, work (fun a => a + 1#32) _ _ _⟩
    rw [h.holds]
    exact work (fun a => a) _ _ _
  case refused =>
    have work (next : Word → Word) (d x w : State) :
        s.atStage d x (s.memoryStore next) w = .next { s with mem := m, mWaiting := true } := by
      rw [h.atStage, h.memoryStore_refused next hr hrefused]
    simp only [List.mem_cons, List.not_mem_nil, or_false] at hi
    obtain rfl | rfl := hi <;> exact work _ _ _ _

/-! ## Marked records -/

section
variable {s : State} {rec : Record} {kind : Fault} (hk : rec.fault = some kind)
include hk

/-- Execute does nothing with a marked record (R170). -/
theorem State.onExecute_of_marked (hr : s.xRec = some rec) (hd : s.xDone = false)
    (work : Record → State → State) : s.onExecute work = { s with xDone := true } := by
  simp [State.onExecute, hr, hd, hk]

/-- Memory does nothing with a marked record (R176). -/
theorem State.onMemory_of_marked (hr : s.mRec = some rec) (hd : s.mDone = false)
    (work : Record → State) : s.onMemory work = { s with mDone := true } := by
  simp [State.onMemory, hr, hd, hk]

/-- Write-Back takes a marked record's fault and does nothing else (R184). -/
theorem State.onWriteBack_of_marked (hr : s.wRec = some rec) (work : Record → State → State) :
    s.onWriteBack work = { s with wRec := none, fault := some kind } := by
  simp [State.onWriteBack, hr, hk, State.takeFault]

end

/-- Each stage's work in the meaning of an instruction is guarded: on a marked record it comes to one state,
whatever the instruction. -/
theorem exec_of_guarded (i : Instr) (s : State) :
    ∃ decode execute memory writeBack,
      exec i s = s.atStage decode (s.onExecute execute) (s.onMemory memory) (s.onWriteBack writeBack) := by
  cases exec_shape i s with
  | alu rd _ alu compare eq => exact ⟨_, _, _, _, eq⟩
  | loadStore rd m imm loads aux j x y eq hexecute hmemory =>
    obtain rfl | rfl := hexecute
    all_goals obtain ⟨next, rfl⟩ | ⟨next, rfl⟩ := hmemory
    all_goals exact ⟨_, _, _, _, eq⟩
  | branch _ _ _ _ eq => exact ⟨_, _, _, _, eq⟩
  | halt eq => exact ⟨_, _, _, _, eq⟩

/-- Settles O35: every meaning's work is behind the stages' guards, which stop a marked record. -/
theorem markedRecord : Obligations.MarkedRecord := by
  intro s rec kind i hk
  obtain ⟨decode, execute, memory, writeBack, eq⟩ := exec_of_guarded i s
  refine ⟨fun hs hr hd => ?_, fun hs hr hd => ?_, fun hs hr => ?_⟩
  · simp only [eq, State.atStage, hs, State.onExecute_of_marked hk hr hd]
  · simp only [eq, State.atStage, hs, State.onMemory_of_marked hk hr hd]
  · simp only [eq, State.atStage, hs, State.onWriteBack_of_marked hk hr]

end Sys2Proof.Machine
end

section
/-! SUPPORT. Proofs of the statements about Write-Back's work on one record (spec/40_pipeline.md R180 to R188):
what the register file reads after the claims are released and the results written. -/

namespace Sys2Proof.Machine

/-! ## The register file after a commit -/

/-- A file with the enables that a release leaves reads, through the blocking port, the released registers and
those that read before it (R23, R182, R183). -/
theorem RegFile.read_of_released {regs regs' : RegFile} {claims : List Reg}
    (he : ∀ q, (regs'.entry q).readEnable = ((regs.release claims).entry q).readEnable) (q : Reg) :
    regs'.read q =
      if q ∈ claims ∨ regs.read q ≠ none then some (regs'.readNb q) else none := by
  have readable : q ∈ claims ∨ regs.read q ≠ none ↔ q = 0#5 ∨ (regs'.entry q).readEnable = true := by
    rw [he, RegFile.readEnable_release, Ne, RegFile.read_eq_none]
    by_cases h0 : q = 0#5 <;> by_cases hc : q ∈ claims <;> simp [h0, hc]
  split
  · next h => exact RegFile.read_eq_some.2 ⟨rfl, readable.1 h⟩
  · next h =>
    rw [readable, not_or, Bool.not_eq_true] at h
    exact RegFile.read_eq_none.2 h

/-- `RegFile.readNb_writeNb` with register 0 ruled out on the reader's side. -/
theorem RegFile.readNb_writeNb_of_reader (regs : RegFile) (r q : Reg) (v : Word) :
    (regs.writeNb r v).readNb q = if q = r ∧ q ≠ 0#5 then v else regs.readNb q := by
  rw [RegFile.readNb_writeNb]
  congr 1
  exact propext (and_congr_right fun e => by rw [e])

/-- A register whose write enable is set may be written through the blocking port (R24, R182). -/
theorem RegFile.writeOrKeep_of_writable {regs : RegFile} {r : Reg}
    (h : r ≠ 0#5 → (regs.entry r).writeEnable = true) (v : Word) :
    regs.writeOrKeep r v = regs.writeNb r v :=
  RegFile.writeOrKeep_of_enabled (or_iff_not_imp_left.2 h) v

theorem RegFile.writeEnable_release_of_mem (regs : RegFile) {claims : List Reg} {r : Reg}
    (hr : r ≠ 0#5 → r ∈ claims) (h0 : r ≠ 0#5) :
    ((regs.release claims).entry r).writeEnable = true := by
  rw [RegFile.writeEnable_release, if_pos ⟨hr h0, h0⟩]

theorem RegFile.writeAux_of_zero (regs : RegFile) {rec : Record} (h : rec.auxReg = 0#5) :
    regs.writeAux rec = regs :=
  if_pos h

/-- The new SP is written when its register has been released (R182, R183). -/
theorem RegFile.writeAux_of_writable {regs : RegFile} {rec : Record} (h0 : rec.auxReg ≠ 0#5)
    (hw : (regs.entry rec.auxReg).writeEnable = true) :
    regs.writeAux rec = regs.writeNb rec.auxReg rec.destMemAddr :=
  (if_neg h0).trans (RegFile.writeOrKeep_of_writable (fun _ => hw) _)

/-- The link write of a taken branch, through the non-blocking port (R25, R181). -/
def RegFile.linked (regs : RegFile) (rec : Record) : RegFile :=
  if rec.auxReg = 0#5 then regs else regs.writeNb rec.auxReg (rec.pc + 1#32)

theorem RegFile.readNb_linked (regs : RegFile) (rec : Record) (q : Reg) :
    (regs.linked rec).readNb q =
      if q = rec.auxReg ∧ q ≠ 0#5 then rec.pc + 1#32 else regs.readNb q := by
  unfold RegFile.linked
  by_cases h0 : rec.auxReg = 0#5
  · rw [if_pos h0, h0, if_neg fun e => e.2 e.1]
  · rw [if_neg h0, RegFile.readNb_writeNb_of_reader]

theorem RegFile.readEnable_linked (regs : RegFile) (rec : Record) (q : Reg) :
    ((regs.linked rec).entry q).readEnable = (regs.entry q).readEnable := by
  unfold RegFile.linked
  split <;> simp

/-! ## The work of Write-Back -/

section
variable {s : State} {rec : Record} (h : AtWriteBack s rec)
include h

theorem AtWriteBack.atStage (d x m w : State) : s.atStage d x m w = .next w := by
  rw [State.atStage_eq, h.turn]

theorem AtWriteBack.onWriteBack (work : Record → State → State) :
    s.onWriteBack work = work rec { s with wRec := none } :=
  State.onWriteBack_of h.holds h.unmarked work

/-- A record with its write-back (R182). -/
theorem AtWriteBack.commitResult_write (rd : Reg) (hb : rec.writeBack = true) :
    s.commitResult rd =
      { s with
        wRec := none
        regs := ((s.regs.release rec.claims).writeOrKeep rd rec.result).writeAux rec } := by
  unfold State.commitResult
  rw [h.onWriteBack]
  exact if_pos hb

/-- A record without write-back (R183). -/
theorem AtWriteBack.commitResult_none (rd : Reg) (hb : rec.writeBack = false) :
    s.commitResult rd =
      { s with wRec := none, regs := (s.regs.release rec.claims).writeAux rec } := by
  unfold State.commitResult
  rw [h.onWriteBack]
  exact if_neg (Bool.eq_false_iff.1 hb)

theorem AtWriteBack.commitBranch_notTaken (hb : rec.branchTaken = false) :
    s.commitBranch = { s with wRec := none } := by
  unfold State.commitBranch
  rw [h.onWriteBack]
  exact if_neg (Bool.eq_false_iff.1 hb)

theorem AtWriteBack.commitBranch_taken (hb : rec.branchTaken = true) :
    s.commitBranch = State.squashAll
      { s with
        wRec := none
        regs := s.regs.linked rec
        pc := rec.destMemAddr } := by
  unfold State.commitBranch
  rw [h.onWriteBack]
  exact if_pos hb

end

/-- A non-Control instruction's meaning at Write-Back is `commitResult` (R182, R183). -/
theorem AtWriteBack.exec_eq {s : State} {rec : Record} (h : AtWriteBack s rec) {i : Instr} {rd : Reg}
    (hi : i.destination = some rd) : exec i s = .next (s.commitResult rd) := by
  obtain ⟨t, ht⟩ := exec_answers i s
  rw [ht, exec_writeBack_of_destination h.turn hi ht]

theorem destination_of_mem_regImm {i : Instr} {rd : Reg} {imm : Imm16} (hi : i ∈ regImmInstrs rd imm) :
    i.destination = some rd := by
  simp only [regImmInstrs, List.mem_cons, List.not_mem_nil, or_false] at hi
  rcases hi with rfl | rfl | rfl | rfl | rfl | rfl | rfl | rfl | rfl | rfl | rfl | rfl | rfl | rfl | rfl
  all_goals rfl

theorem destination_of_mem_regReg {i : Instr} {rd rs : Reg} (hi : i ∈ regRegInstrs rd rs) :
    i.destination = some rd := by
  simp only [regRegInstrs, List.mem_cons, List.not_mem_nil, or_false] at hi
  rcases hi with rfl | rfl | rfl | rfl | rfl | rfl | rfl | rfl | rfl | rfl | rfl | rfl | rfl | rfl | rfl |
    rfl
  all_goals rfl

/-- One LoadStore instruction that names `rd`, and all RegImm and RegReg instructions that do. -/
theorem destination_of_mem_cons {i j : Instr} {rd rs : Reg} {imm : Imm16} (hj : j.destination = some rd)
    (hi : i ∈ j :: (regImmInstrs rd imm ++ regRegInstrs rd rs)) : i.destination = some rd := by
  obtain rfl | hi := List.mem_cons.1 hi
  · exact hj
  · exact (List.mem_append.1 hi).elim destination_of_mem_regImm destination_of_mem_regReg

/-- Settles O31: the claim on `Rd` has been released, so its write through the blocking port takes place. -/
theorem resultCommits : Obligations.ResultCommits := by
  intro s rec rd rs imm h hb haux hrd i hi
  refine ⟨_, (h.exec_eq (destination_of_mem_cons rfl hi)).trans
    (congrArg Host.Outcome.next (h.commitResult_write rd hb)), fun q => ⟨?value, ?read⟩⟩
  case value =>
    rw [RegFile.writeAux_of_zero _ haux,
      RegFile.writeOrKeep_of_writable (s.regs.writeEnable_release_of_mem hrd),
      RegFile.readNb_writeNb_of_reader, RegFile.readNb_release]
  case read => exact RegFile.read_of_released (fun q => by simp) q

/-- Settles O32: without write-back and auxiliary register only the release is left. -/
theorem nothingCommits : Obligations.NothingCommits := by
  intro s rec rd rs imm h hb haux i hi
  refine ⟨_, (h.exec_eq (destination_of_mem_cons rfl hi)).trans
    (congrArg Host.Outcome.next (h.commitResult_none rd hb)), fun q => ?_⟩
  rw [RegFile.writeAux_of_zero _ haux]
  refine ⟨RegFile.readNb_release .., ?_⟩
  rw [RegFile.read_of_released (fun _ => rfl), RegFile.readNb_release]

/-- Settles O33: both registers have been released, and the new SP is written last. -/
theorem stackCommits : Obligations.StackCommits := by
  intro s rec rd rm imm h haux hsp hrd
  have sp0 : rec.auxReg ≠ 0#5 := by rw [haux]; decide
  have released : ((s.regs.release rec.claims).entry rec.auxReg).writeEnable = true :=
    s.regs.writeEnable_release_of_mem (fun _ => haux ▸ hsp) sp0
  refine ⟨fun hb => ?pop, fun hb => ?push⟩
  case pop =>
    refine ⟨_, (h.exec_eq rfl).trans (congrArg Host.Outcome.next (h.commitResult_write rd hb)),
      fun q => ⟨?_, RegFile.read_of_released (fun q => by simp) q⟩⟩
    rw [RegFile.writeAux_of_writable sp0 (by rwa [RegFile.writeEnable_writeOrKeep]),
      RegFile.writeOrKeep_of_writable (s.regs.writeEnable_release_of_mem hrd), RegFile.readNb_writeNb,
      RegFile.readNb_writeNb, RegFile.readNb_release, haux]
    by_cases hq : q = rd <;> simp [hq]
  case push =>
    refine ⟨_, (h.exec_eq rfl).trans (congrArg Host.Outcome.next (h.commitResult_none rd hb)),
      fun q => ⟨?_, RegFile.read_of_released (fun q => by simp) q⟩⟩
    rw [RegFile.writeAux_of_writable sp0 released, RegFile.readNb_writeNb, RegFile.readNb_release, haux]
    simp

/-! ## Branches -/

/-- A release frees the registers it names and no other (R23, R26). -/
theorem RegFile.read_release_eq_none {regs : RegFile} {claims : List Reg} {q : Reg} :
    (regs.release claims).read q = none ↔ regs.read q = none ∧ q ∉ claims := by
  rw [RegFile.read_of_released (fun _ => rfl)]
  by_cases hc : q ∈ claims <;> simp [hc]

theorem RegFile.read_eq_none_congr {regs regs' : RegFile}
    (he : ∀ q, (regs'.entry q).readEnable = (regs.entry q).readEnable) (q : Reg) :
    regs'.read q = none ↔ regs.read q = none := by
  rw [RegFile.read_eq_none, RegFile.read_eq_none, he]

/-- Settles O34: a taken branch is `squashAll` after the link and the jump; the squash only releases. -/
theorem branchCommits : Obligations.BranchCommits := by
  intro s rec rm imm h
  refine ⟨fun hb i hi => ?notTaken, fun hb i hi haux => ?taken⟩
  case notTaken =>
    obtain ⟨aux, cond, eq⟩ := exec_of_mem_branches hi s
    rw [eq, State.branch, h.atStage, h.commitBranch_notTaken hb]
  case taken =>
    obtain ⟨aux, cond, eq⟩ := exec_of_mem_branches hi s
    rw [State.branch, h.atStage, h.commitBranch_taken hb] at eq
    refine ⟨(((s.regs.linked rec).release (claimsOf s.mRec)).release (claimsOf s.xRec)).release
      (claimsOf s.dRec), eq, fun q => ⟨?_, ?_⟩⟩
    · simp only [RegFile.readNb_release, RegFile.readNb_linked, haux]
      by_cases hc : i = .call rm imm <;> by_cases hq : q = 31#5 <;> simp [hc, hq]
    · simp only [RegFile.read_release_eq_none,
        RegFile.read_eq_none_congr (s.regs.readEnable_linked rec), and_assoc]

end Sys2Proof.Machine
end

section
/-! SUPPORT. Proofs of the statements about a tick as a whole (spec/40_pipeline.md R140 to R154, R184 to
R193): Fetch's work, the tick of an empty machine, of a fault, of a taken branch and of a halt. -/

namespace Sys2Proof.Machine

/-! ## Stopped machines -/

theorem State.stopped_of {s : State} (h : s.halted = true ∨ s.fault ≠ none) : s.stopped = true := by
  simpa [State.stopped, Option.isSome_iff_ne_none] using h

/-- Settles O43: a halted or faulted machine is `stopped`. -/
theorem stoppedStepIsIdentity : Obligations.StoppedStepIsIdentity :=
  fun _ h => step_of_stopped (State.stopped_of h)

/-- Settles O44: the host's Halt leaves a halted machine. -/
theorem hostHaltStops : Obligations.HostHaltStops :=
  fun _ => ⟨rfl, rfl, step_of_stopped (State.stopped_of (.inl rfl))⟩

/-! ## A fault at Write-Back -/

/-- Write-Back's part of the tick for a marked record, whatever its op (R184). -/
theorem State.writeBackExecute_of_marked {s : State} {rec : Record} {kind : Fault}
    (hs : s.stage = .writeBack) (hr : s.wRec = some rec) (hk : rec.fault = some kind) :
    s.writeBackExecute = .next { s with wRec := none, fault := some kind } := by
  obtain ⟨hn, _⟩ | ⟨rec', t, hr', ht, hw⟩ := s.writeBackExecute_cases
  · cases hr.symm.trans hn
  · cases hr.symm.trans hr'
    cases hw with
    | faults k hk' eq => cases hk.symm.trans hk'; rw [ht, eq, hs]
    | commits _ _ hf => cases hk.symm.trans hf
    | notTaken hf => cases hk.symm.trans hf
    | jumps hf => cases hk.symm.trans hf

/-- Settles O45: the fault ends the tick after Write-Back, and the machine is stopped from then on. -/
theorem faultStep : Obligations.FaultStep := by
  intro s rec kind h hs hr hk
  refine ⟨?_, step_of_stopped (State.stopped_of (.inr nofun))⟩
  simp [step, State.tick, andThen, h, State.writeBackExecute_of_marked hs hr hk]

/-! ## Fetch -/

theorem State.fetchExecute_of_squashed {s : State} (h : s.fSquashed = true) :
    s.fetchExecute = { s with fSquashed := false } :=
  if_pos h

theorem State.fetchExecute_of_held {s : State} (hq : s.fSquashed = false) (h : s.fetchHeld = true) :
    s.fetchExecute = s := by
  simp [State.fetchExecute, hq, h]

theorem State.fetchExecute_of_free {s : State} (hq : s.fSquashed = false) (h : s.fetchHeld = false) :
    s.fetchExecute = s.acceptFetch (s.mem.cacheRead s.params s.pc .fetch) := by
  simp [State.fetchExecute, hq, h]

/-- What holds Fetch back (R150, R192). -/
theorem State.fetchHeld_iff {s : State} :
    s.fetchHeld = true ↔ s.fRec ≠ none ∨ s.haltPending = true ∨
      s.params.scalar = true ∧ (s.dRec ≠ none ∨ s.xRec ≠ none ∨ s.mRec ≠ none) := by
  simp only [State.fetchHeld, State.scalarHold, Bool.or_eq_true, Bool.and_eq_true,
    Option.isSome_iff_ne_none, or_assoc]

/-- A request that is refused or answered with a zero word makes no record (R151). -/
theorem State.acceptFetch_none (s : State) {r : Answer Word} (m : MemSys)
    (h : r = .wait ∨ r = .waitNextLevel ∨ r = .success 0#32) :
    s.acceptFetch (r, m) = { s with mem := m } := by
  obtain rfl | rfl | rfl := h <;> rfl

/-- Any other word makes a record (R151). -/
theorem State.acceptFetch_record (s : State) {v : Word} (m : MemSys) (h : v ≠ 0#32) :
    s.acceptFetch (.success v, m) =
      { s with mem := m, fRec := some (newRecord v s.pc), pc := s.pc + 1#32 } :=
  if_neg h

/-- The advance phase moves nothing when no latch of F, D, X and M holds a record (R142). -/
theorem State.advance_of_none {s : State} (hm : s.mRec = none) (hx : s.xRec = none) (hd : s.dRec = none)
    (hf : s.fRec = none) : s.advance = s := by
  have noMemory : s.advanceMemory = s := by simp [State.advanceMemory, hm]
  have noExecute : s.advanceExecute = s := by simp [State.advanceExecute, hx]
  have noDecode : s.advanceDecode = s := by simp [State.advanceDecode, hd]
  have noFetch : s.advanceFetch = s := by simp [State.advanceFetch, hf]
  simp only [State.advance, noMemory, noExecute, noDecode, noFetch]

/-- A tick in which Fetch is held back goes on to the advance phase (R150). -/
theorem step_of_held {s t u : State} (h : step s = .next t.fetchExecute.advance.endTick)
    (hq : t.fSquashed = false) (hheld : t.fetchHeld = true) (hadvance : t.advance = u) :
    step s = .next u.endTick := by
  rw [h, State.fetchExecute_of_held hq hheld, hadvance]

/-- A tick that has emptied the latches and squashed Fetch clears the squash and moves no record (R152). -/
theorem step_of_squashed {s t : State} (h : step s = .next t.fetchExecute.advance.endTick)
    (hq : t.fSquashed = true) (hm : t.mRec = none) (hx : t.xRec = none) (hd : t.dRec = none)
    (hf : t.fRec = none) : step s = .next (State.endTick { t with fSquashed := false }) := by
  rw [h, State.fetchExecute_of_squashed hq, State.advance_of_none]
  · exact hm
  · exact hx
  · exact hd
  · exact hf

/-- The tick in which an empty machine's request makes no record (R151). -/
theorem step_of_empty_unfetched {s : State} (h : Empty s) {r : Answer Word} {m : MemSys}
    (hr : s.mem.cacheRead s.params s.pc .fetch = (r, m))
    (hnone : r = .wait ∨ r = .waitNextLevel ∨ r = .success 0#32) :
    step s = .next { s with mem := m, clock := s.clock + 1 } := by
  rw [step_of_empty h, h.fetchExecute_eq, hr, State.acceptFetch_none s m hnone, State.advance_of_none]
  · simp [State.endTick, h.noHalt, h.turn]
  · exact h.memoryEmpty
  · exact h.executeEmpty
  · exact h.decodeEmpty
  · exact h.fetchEmpty

/-- Settles O41: `fetchExecute` on its three ways and `acceptFetch` on its two, then the empty machine's
tick, whose request an idle machine's memory grants at once. -/
theorem fetchDelivers : Obligations.FetchDelivers := by
  intro s
  refine ⟨State.fetchExecute_of_squashed, fun hq held => ?held, fun r m hr => ⟨fun hq free => ?request,
    fun h => ?empty⟩, fun h => ?idle⟩
  case held => exact State.fetchExecute_of_held hq (State.fetchHeld_iff.2 held)
  case request =>
    have work : s.fetchExecute = s.acceptFetch (r, m) := by
      rw [State.fetchExecute_of_free hq (Bool.eq_false_iff.2 fun e => free (State.fetchHeld_iff.1 e)), hr]
    refine ⟨fun hnone => work.trans (s.acceptFetch_none m hnone), fun v hv hsuccess => ?_⟩
    subst hsuccess
    exact work.trans (s.acceptFetch_record m hv)
  case empty =>
    refine ⟨step_of_empty_unfetched h hr, fun v hv hsuccess => ?_⟩
    subst hsuccess
    exact step_of_empty_fetched h hr hv
  case idle =>
    refine ⟨step_of_idle_fetched h, fun hzero => ?_⟩
    exact step_of_empty_unfetched h.toEmpty h.cacheRead_eq (.inr (.inr (congrArg _ hzero)))

/-! ## The halt -/

/-- No stage but the end of a tick halts the machine (R190). -/
theorem WriteBackStep.halted {s t : State} {rec : Record} (h : WriteBackStep s rec t) :
    t.halted = s.halted := by
  cases h with
  | faults _ _ eq => subst eq; rfl
  | commits _ _ _ eq => subst eq; rfl
  | notTaken _ _ eq => subst eq; rfl
  | jumps _ _ eq => subst eq; rfl

theorem State.writeBackExecute_halted {s t : State} (h : s.writeBackExecute = .next t) :
    t.halted = s.halted := by
  obtain ⟨_, h'⟩ | ⟨rec, u, _, h', hw⟩ := s.writeBackExecute_cases
  · cases h.symm.trans h'; rfl
  · cases h.symm.trans h'; exact hw.halted

theorem State.memoryExecute_halted {s t : State} (h : s.memoryExecute = .next t) :
    t.halted = s.halted := by
  obtain ⟨_, h'⟩ | ⟨rec, u, _, h', ⟨rfl, _⟩ | ⟨_, _, _, _, _, rfl, _⟩⟩ := s.memoryExecute_cases
  all_goals cases h.symm.trans h'; rfl

theorem State.executeExecute_halted {s t : State} (h : s.executeExecute = .next t) :
    t.halted = s.halted := by
  obtain ⟨_, h'⟩ | ⟨rec, u, _, h', ⟨rfl, _⟩ | ⟨_, _, _, rfl, _⟩⟩ := s.executeExecute_cases
  all_goals cases h.symm.trans h'; rfl

theorem State.decodeExecute_halted {s t : State} (h : s.decodeExecute = .next t) :
    t.halted = s.halted := by
  obtain rfl | ⟨rec, _, _, ⟨i, _, hd⟩ | rfl⟩ := State.decodeExecute_step h
  · rfl
  · rw [hd.frame]
  · rfl

theorem State.fetchExecute_halted (s : State) : s.fetchExecute.halted = s.halted := by
  obtain ⟨_, eq⟩ | ⟨_, _, eq⟩ | ⟨_, _, _, _, r, m, _, eq | ⟨v, _, _, eq⟩⟩ := s.fetchExecute_cases
  all_goals rw [eq]

theorem State.advance_halted (s : State) : s.advance.halted = s.halted := by
  have memory : s.advanceMemory.halted = s.halted := by
    obtain ⟨eq, _⟩ | ⟨_, _, _, eq⟩ := s.advanceMemory_cases <;> rw [eq]
  have execute (s : State) : s.advanceExecute.halted = s.halted := by
    obtain ⟨eq, _⟩ | ⟨_, _, _, eq⟩ := s.advanceExecute_cases <;> rw [eq]
  have decode (s : State) : s.advanceDecode.halted = s.halted := by
    obtain eq | ⟨_, _, _, _, eq⟩ := s.advanceDecode_cases <;> rw [eq]
  have fetch (s : State) : s.advanceFetch.halted = s.halted := by
    obtain eq | ⟨_, _, _, eq⟩ := s.advanceFetch_cases <;> rw [eq]
  simp only [State.advance, fetch, decode, execute, memory]

theorem State.drained_iff {s : State} :
    s.drained = true ↔ s.xRec = none ∧ s.mRec = none ∧ s.wRec = none := by
  simp only [State.drained, Bool.and_eq_true, Option.isNone_iff_eq_none, and_assoc]

/-- Settles O47: only the end of a tick sets `halted`, on exactly the drained condition, and a fault ends the
tick before it. -/
theorem haltWhenDrained : Obligations.HaltWhenDrained := by
  intro s t h ht
  obtain ⟨running, hnone⟩ := State.halted_fault_of_running h
  obtain ⟨s1, hw, ⟨hf, ht'⟩ | ⟨hf, s2, s3, s4, hm, hx, hd, ht'⟩⟩ := State.tick_cases h
  · cases ht'.symm.trans ht
    have notHalted := (State.writeBackExecute_halted hw).trans running
    exact iff_of_false (by simp [notHalted]) fun e => hf e.1
  · cases ht'.symm.trans ht
    have notHalted : s4.fetchExecute.advance.halted = false := by
      rw [State.advance_halted, State.fetchExecute_halted, State.decodeExecute_halted hd,
        State.executeExecute_halted hx, State.memoryExecute_halted hm, State.writeBackExecute_halted hw,
        running]
    have unfaulted : s4.fetchExecute.advance.fault = none :=
      ((State.memoryExecute_keepsGlobals hm).trans <| (State.executeExecute_keepsGlobals hx).trans <|
        (State.decodeExecute_keepsGlobals hd).trans <|
          s4.fetchExecute_keepsGlobals.trans (State.advance_keepsGlobals _)).fault.trans hf
    rw [State.endTick_halted, notHalted, Bool.false_or, Bool.and_eq_true, State.drained_iff]
    simp only [State.endTick_fault, State.endTick_haltPending, State.endTick_xRec, State.endTick_mRec,
      State.endTick_wRec, unfaulted, true_and]

/-! ## A taken branch at Write-Back -/

/-- A Control instruction's work at Write-Back (R181). -/
theorem exec_writeBack_of_control {s t : State} {i : Instr} (hs : s.stage = .writeBack)
    (hi : i.isControl = true) (h : exec i s = .next t) : t = s.commitBranch := by
  cases exec_shape i s with
  | alu _ _ _ _ _ _ _ hdest => rw [Instr.isControl_of_destination hdest] at hi; cases hi
  | loadStore _ _ _ _ _ _ _ _ _ _ _ _ hdest =>
    rw [Instr.isControl_of_destination hdest] at hi; cases hi
  | branch _ _ _ _ eq => exact State.atStage_writeBack hs (eq.symm.trans h)
  | halt eq => exact State.atStage_writeBack hs (eq.symm.trans h)

/-- The state Write-Back leaves after the taken branch `rec` (R181, R188). -/
def State.jumped (s : State) (rec : Record) : State :=
  State.squashAll { s with wRec := none, regs := s.regs.linked rec, pc := rec.destMemAddr }

/-- Write-Back's part of the tick for a taken branch: only a Control record is one. -/
theorem State.writeBackExecute_of_taken {p : Params} {s : State} {rec : Record}
    (hs : s.stage = .writeBack) (hr : s.wRec = some rec) (hd : rec.Decoded p) (hf : rec.fault = none)
    (hb : rec.branchTaken = true) :
    s.writeBackExecute = .next (s.jumped rec) := by
  obtain ⟨_, i, hop, hi⟩ := hd.1 hb
  have turn : { s with stage := .writeBack } = s := by rw [← hs]
  obtain ⟨t, ht⟩ := exec_answers i s
  rw [State.writeBackExecute_of_instr hr hop, turn, ht, exec_writeBack_of_control hs hi ht,
    AtWriteBack.commitBranch_taken ⟨hs, hr, hf⟩ hb]
  rfl

/-- Settles O46: the squash empties every latch, so the rest of the tick does nothing; the claims released
are all there were, so R43 (3) leaves every register free. -/
theorem takenBranchStep : Obligations.TakenBranchStep := by
  intro s rec hinv hclaims h hr hf hb
  obtain ⟨inv, hstage, _⟩ := State.inv_iff.1 hinv
  obtain ⟨running, hnone⟩ := State.halted_fault_of_running h
  have hw := State.writeBackExecute_of_taken hstage hr (inv.committing rec hr) hf hb
  have held : (s.jumped rec).ClaimsHeld :=
    (State.claimsOk_iff.1 hclaims hnone).writeBackExecute inv hw hnone
  have tick := step_of_stages h hw hnone (State.memoryExecute_of_none rfl)
    (State.executeExecute_of_none rfl) (State.decodeExecute_of_none rfl)
  refine ⟨_, step_of_squashed tick rfl rfl rfl rfl rfl, rfl, rfl, rfl, rfl, rfl, ?_, rfl,
    fun q => ⟨fun blocked => ?_, ?_⟩⟩
  · exact (Bool.or_false _).trans running
  · exact List.not_mem_nil ((held.2 q).1 (RegFile.read_eq_none.1 blocked).2)
  · exact (RegFile.readNb_release ..).trans <| (RegFile.readNb_release ..).trans <|
      (RegFile.readNb_release ..).trans (s.regs.readNb_linked rec q)

end Sys2Proof.Machine
end

section
/-! SUPPORT. Proofs of the statements that follow one RegImm, RegReg or HLT instruction from its fetch to its
commit (spec/40_pipeline.md R141, R143, R190, R192): the ticks of a machine with one record in flight, and the
operations' results as bit-vector operations (spec/41_regimm_alu.md R200). -/

namespace Sys2Proof.Machine

/-! ## `HaltCommits` -/

/-- Settles O59: the second tick drops the sentinel and Fetch's squash with it, and the drained machine halts
at its end. -/
theorem haltCommits : Obligations.HaltCommits := by
  intro s mode flag h hi
  rw [run_succ (step_of_idle_fetched h (ne_zero_of_decode hi))]
  refine run_succ (k := 0) ?_
  have work (t : State) (rec : Record) (ht : AtDecode t rec) : exec (.hlt mode flag) t =
      .next { t.squashFetch with haltPending := true, dRec := none, dState := .free } :=
    (ht.atStage ..).trans (congrArg _ ht.decodeHalt)
  refine Eq.trans (step_of_squashed (step_of_decoded_instr h.running h.writeBackEmpty h.memoryEmpty
    h.executeEmpty rfl nofun hi (work _ _ ⟨rfl, rfl, nofun⟩)) rfl h.memoryEmpty h.executeEmpty rfl rfl) ?_
  simp [State.endTick, State.drained, State.squashFetch, h.executeEmpty, h.memoryEmpty, h.writeBackEmpty,
    h.fetchEmpty, h.noSquash, h.decodeEmpty, h.decodeFree, h.turn]

/-! ## The ticks of a machine with one record in flight -/

/-- Registers, flags, memory, `pc` and clock do not matter to whether a machine is empty. -/
theorem Empty.update {e : State} (h : Empty e) (regs : RegFile) (flags : Flags) (mem : MemSys) (pc : Word)
    (clock : Nat) :
    Empty { e with regs := regs, flags := flags, mem := mem, pc := pc, clock := clock } :=
  ⟨h.running, h.turn, h.noHalt, h.noSquash, h.fetchEmpty, h.decodeEmpty, h.decodeFree, h.executeEmpty,
    h.executeFresh, h.memoryEmpty, h.memoryFresh, h.memoryReady, h.writeBackEmpty⟩

section
variable {s : State} {rec : Record} (hf : s.fRec = none)
include hf

/-- The advance phase with a decoded record alone in flight (R168). -/
theorem State.advance_of_decoded (hm : s.mRec = none) (hx : s.xRec = none) (hd : s.dRec = some rec)
    (hfree : s.dState = .free) :
    s.advance = { s with xRec := some rec, dRec := none, xDone := false } := by
  have noMemory : s.advanceMemory = s := by simp [State.advanceMemory, hm]
  have noExecute : s.advanceExecute = s := by simp [State.advanceExecute, hx]
  simp [State.advance, noMemory, noExecute, State.advanceDecode, State.advanceFetch, hd, hfree, hx, hf]

/-- The advance phase with an executed record alone in flight (R175). -/
theorem State.advance_of_executed (hm : s.mRec = none) (hx : s.xRec = some rec) (hdone : s.xDone = true)
    (hd : s.dRec = none) :
    s.advance =
      { s with mRec := some rec, xRec := none, xDone := false, mDone := false, mWaiting := false } := by
  have noMemory : s.advanceMemory = s := by simp [State.advanceMemory, hm]
  simp [State.advance, noMemory, State.advanceExecute, State.advanceDecode, State.advanceFetch, hx, hdone,
    hm, hd, hf]

/-- The advance phase with a record alone in flight whose memory work is done (R179). -/
theorem State.advance_of_memoryDone (hw : s.wRec = none) (hm : s.mRec = some rec) (hdone : s.mDone = true)
    (hx : s.xRec = none) (hd : s.dRec = none) :
    s.advance = { s with wRec := some rec, mRec := none, mDone := false, mWaiting := false } := by
  simp [State.advance, State.advanceMemory, State.advanceExecute, State.advanceDecode,
    State.advanceFetch, hw, hm, hdone, hx, hd, hf]

end

section
variable {e : State} {rec rec' : Record} {i : Instr} (h : Empty e)
include h

/-- Decode finishes its record, and the advance phase hands it to Execute (R168, R192). -/
theorem Empty.step_decode {regs : RegFile} (hscalar : e.params.scalar = true) (hi : decode rec.raw = .ok i)
    (he : exec i
        { e with dRec := some { rec with op := .instr i }, dState := .busy, stage := .decode } =
      .next { e with regs := regs, dRec := some rec', dState := .free, stage := .decode }) :
    step { e with dRec := some rec, dState := .busy } =
      .next { e with regs := regs, xRec := some rec', clock := e.clock + 1 } := by
  refine Eq.trans (step_of_held (step_of_decoded_instr h.running h.writeBackEmpty h.memoryEmpty
    h.executeEmpty rfl nofun hi he) h.noSquash
    (State.fetchHeld_iff.2 (.inr (.inr ⟨hscalar, .inl (Option.some_ne_none _)⟩)))
    (State.advance_of_decoded h.fetchEmpty h.memoryEmpty h.executeEmpty rfl rfl)) ?_
  simp [State.endTick, h.executeFresh, h.decodeEmpty, h.decodeFree, h.noHalt, h.turn]

/-- Execute finishes its record, and the advance phase hands it to Memory (R175, R192). -/
theorem Empty.step_execute {flags : Flags} (hscalar : e.params.scalar = true) (hop : rec.op = .instr i)
    (he : exec i { e with xRec := some rec, stage := .execute } =
      .next { e with flags := flags, xRec := some rec', xDone := true, stage := .execute }) :
    step { e with xRec := some rec } =
      .next { e with flags := flags, mRec := some rec', clock := e.clock + 1 } := by
  have work := (State.executeExecute_of_instr (s := { e with xRec := some rec }) rfl hop).trans he
  refine Eq.trans (step_of_held (step_of_stages h.running (State.writeBackExecute_of_none h.writeBackEmpty)
    (State.halted_fault_of_running h.running).2 (State.memoryExecute_of_none h.memoryEmpty) work
    (State.decodeExecute_of_none h.decodeEmpty)) h.noSquash
    (State.fetchHeld_iff.2 (.inr (.inr ⟨hscalar, .inr (.inl (Option.some_ne_none _))⟩)))
    (State.advance_of_executed h.fetchEmpty h.memoryEmpty rfl rfl h.decodeEmpty)) ?_
  simp [State.endTick, h.memoryFresh, h.memoryReady, h.executeEmpty, h.executeFresh, h.noHalt, h.turn]

/-- Memory finishes its record, and the advance phase hands it to Write-Back (R179, R192). -/
theorem Empty.step_memory {mem : MemSys} (hscalar : e.params.scalar = true) (hop : rec.op = .instr i)
    (he : exec i { e with mRec := some rec, stage := .memory } =
      .next { e with mem := mem, mRec := some rec', mDone := true, stage := .memory }) :
    step { e with mRec := some rec } =
      .next { e with mem := mem, wRec := some rec', clock := e.clock + 1 } := by
  have work := (State.memoryExecute_of_instr (s := { e with mRec := some rec }) rfl hop).trans he
  refine Eq.trans (step_of_held (step_of_stages h.running (State.writeBackExecute_of_none h.writeBackEmpty)
    (State.halted_fault_of_running h.running).2 work (State.executeExecute_of_none h.executeEmpty)
    (State.decodeExecute_of_none h.decodeEmpty)) h.noSquash
    (State.fetchHeld_iff.2 (.inr (.inr ⟨hscalar, .inr (.inr (Option.some_ne_none _))⟩)))
    (State.advance_of_memoryDone h.fetchEmpty h.writeBackEmpty rfl rfl h.executeEmpty h.decodeEmpty)) ?_
  simp [State.endTick, h.memoryEmpty, h.memoryFresh, h.memoryReady, h.noHalt, h.turn]

/-- Write-Back consumes its record, and the rest of the tick is an empty machine's (R141, R180). -/
theorem Empty.step_writeBack {regs : RegFile} (hop : rec.op = .instr i)
    (he : exec i { e with wRec := some rec, stage := .writeBack } =
      .next { e with regs := regs, stage := .writeBack }) :
    step { e with wRec := some rec } = step { e with regs := regs } := by
  have turn : { e with regs := regs, stage := .writeBack } = { e with regs := regs } := by rw [← h.turn]
  have work := (State.writeBackExecute_of_instr (s := { e with wRec := some rec }) rfl hop).trans he
  rw [turn] at work
  refine Eq.trans (step_of_stages h.running work (State.halted_fault_of_running h.running).2
    (State.memoryExecute_of_none h.memoryEmpty) (State.executeExecute_of_none h.executeEmpty)
    (State.decodeExecute_of_none h.decodeEmpty)) ?_
  exact (step_of_empty (h.update regs e.flags e.mem e.pc e.clock)).symm

end

/-- Machines that take the same step run alike. -/
theorem run_congr {s t : State} (h : step s = step t) (k : Nat) :
    Host.Core.run core (k + 1) s = Host.Core.run core (k + 1) t := by
  have h' : core.step s = core.step t := h
  simp only [Host.Core.run, h']

/-- An idle machine's tick changes nothing that a program reads but `pc` (R151). -/
theorem Idle.commits_one {s : State} (h : Idle s) : s.Commits 1 s.regs s.flags s.mem.ram.cells := by
  obtain ⟨running, unfaulted⟩ := State.halted_fault_of_running h.running
  by_cases hw : s.nextWord = 0#32
  · have tick := step_of_empty_unfetched h.toEmpty h.cacheRead_eq (.inr (.inr (congrArg _ hw)))
    exact ⟨_, run_succ tick 0, unfaulted, running, rfl, rfl, rfl, h.executeEmpty, h.memoryEmpty,
      h.writeBackEmpty⟩
  · exact ⟨_, run_succ (step_of_idle_fetched h hw) 0, unfaulted, running, rfl, rfl, rfl, h.executeEmpty,
      h.memoryEmpty, h.writeBackEmpty⟩

/-! ## The registers of one instruction -/

/-- Every register is free (R26). -/
def RegFile.AllFree (regs : RegFile) : Prop :=
  ∀ r : Reg, (regs.entry r).readEnable = true ∧ (regs.entry r).writeEnable = true

theorem RegFile.AllFree.read {regs : RegFile} (h : regs.AllFree) (r : Reg) :
    regs.read r = some (regs.readNb r) :=
  RegFile.read_eq_some.2 ⟨rfl, .inr (h r).1⟩

theorem RegFile.AllFree.writeNb {regs : RegFile} (h : regs.AllFree) (r : Reg) (v : Word) :
    (regs.writeNb r v).AllFree :=
  fun q => ⟨(regs.readEnable_writeNb r q v).trans (h q).1, (regs.writeEnable_writeNb r q v).trans (h q).2⟩

/-- The registers a RegImm or RegReg instruction leaves: CMP writes none (R182, R183). -/
def RegFile.afterAlu (regs : RegFile) (rd : Reg) (v : Word) (compare : Bool) : RegFile :=
  if compare = true then regs else regs.writeNb rd v

theorem RegFile.AllFree.afterAlu {regs : RegFile} (h : regs.AllFree) (rd : Reg) (v : Word)
    (compare : Bool) : (regs.afterAlu rd v compare).AllFree := by
  unfold RegFile.afterAlu
  split
  · exact h
  · exact h.writeNb rd v

/-- Blocking and releasing change no stored value. -/
theorem RegFile.value_block (regs : RegFile) (r q : Reg) :
    ((regs.block r).entry q).value = (regs.entry q).value := by
  unfold RegFile.block
  rw [RegFile.entry_setEntry]
  split
  · next h => rw [h.1]
  · rfl

theorem RegFile.value_release (regs : RegFile) (claims : List Reg) (q : Reg) :
    ((regs.release claims).entry q).value = (regs.entry q).value := by
  induction claims generalizing regs with
  | nil => rfl
  | cons c rest ih =>
    rw [RegFile.release_cons, ih, RegFile.unblock, RegFile.entry_setEntry]
    split
    · next h => rw [h.1]
    · rfl

/-- Releasing what Decode has claimed of a free register file restores it (R161, R162, R182). -/
theorem RegFile.AllFree.release_block {regs : RegFile} (h : regs.AllFree) (a b : Reg) :
    ((regs.block a).block b).release (claimSet a b) = regs := by
  have claimed (q : Reg) (hq : ¬(q ∈ claimSet a b ∧ q ≠ 0#5)) :
      ¬(q = a ∧ a ≠ 0#5) ∧ ¬(q = b ∧ b ≠ 0#5) := by
    constructor <;> rintro ⟨rfl, h0⟩ <;> exact hq ⟨mem_claimSet.2 ⟨h0, by simp⟩, h0⟩
  apply RegFile.ext_entry
  intro q
  obtain ⟨readable, writable⟩ := h q
  have value : ((((regs.block a).block b).release (claimSet a b)).entry q).value = (regs.entry q).value := by
    rw [RegFile.value_release, RegFile.value_block, RegFile.value_block]
  have read : ((((regs.block a).block b).release (claimSet a b)).entry q).readEnable = true := by
    rw [RegFile.readEnable_release]
    split
    · rfl
    · next hq =>
      obtain ⟨ha, hb⟩ := claimed q hq
      rw [RegFile.readEnable_block, if_neg hb, RegFile.readEnable_block, if_neg ha, readable]
  have write : ((((regs.block a).block b).release (claimSet a b)).entry q).writeEnable = true := by
    rw [RegFile.writeEnable_release]
    split
    · rfl
    · next hq =>
      obtain ⟨ha, hb⟩ := claimed q hq
      rw [RegFile.writeEnable_block, if_neg hb, RegFile.writeEnable_block, if_neg ha, writable]
  cases he : regs.entry q
  cases hc : (((regs.block a).block b).release (claimSet a b)).entry q
  simp_all

/-! ## RegImm and RegReg from fetch to commit -/

/-- The record Decode makes of a RegImm or RegReg instruction that names `rd` and `rs` (R161, R162). -/
def Record.readOperands (rec : Record) (rd rs : Reg) (a b : Word) : Record :=
  { rec with
    claims := claimSet rd rs, result := a, operand := b, writeBack := rd != 0#5, auxReg := 0#5 }

/-- A record that gives up its write-back, or whose `Rd` is register 0, writes nothing (R22, R183). -/
theorem AtWriteBack.commitResult_alu {s : State} {rec : Record} (h : AtWriteBack s rec) {regs : RegFile}
    (hfree : regs.AllFree) (hregs : s.regs.release rec.claims = regs) (haux : rec.auxReg = 0#5) {rd : Reg}
    {compare : Bool} (hb : rec.writeBack = (rd != 0#5 && !compare)) :
    s.commitResult rd =
      { s with wRec := none, regs := regs.afterAlu rd rec.result compare } := by
  cases hw : rec.writeBack with
  | true =>
    simp only [hw, Bool.true_eq, Bool.and_eq_true, Bool.not_eq_true'] at hb
    rw [h.commitResult_write rd hw, hregs, RegFile.writeAux_of_zero _ haux, hb.2,
      RegFile.writeOrKeep_of_writable fun _ => (hfree rd).2]
    rfl
  | false =>
    rw [h.commitResult_none rd hw, hregs, RegFile.writeAux_of_zero _ haux]
    cases compare with
    | true => rfl
    | false =>
      have zero : rd = 0#5 := by simpa [hw] using hb
      rw [zero, RegFile.afterAlu, if_neg Bool.false_ne_true, RegFile.writeNb_zero]

/-- The record Execute makes of it: the result, and CMP's write-back given up (R171). -/
def Record.computed (rec : Record) (res : Word) (compare : Bool) : Record :=
  { rec with result := res, writeBack := rec.writeBack && !compare }

/-- The record Decode makes of such an instruction `i` when the idle machine `s` has fetched it. -/
def State.aluRecord (s : State) (i : Instr) (rd rs : Reg) (b : Word) : Record :=
  Record.readOperands { newRecord s.nextWord s.pc with op := .instr i } rd rs (s.regs.readNb rd) b

/-- The life of a RegImm or RegReg instruction on the registers and parameters of `s` (R216, R230): Decode
reads `rd` and the word `b` and claims `rd` and `rs`, Execute is the operation `alu`. -/
structure AluLife (s : State) (i : Instr) (rd rs : Reg) (b : Word) (alu : Word → Word → AluOut)
    (compare : Bool) : Prop where
  decode : ∀ {t rec}, AtDecode t rec → t.params = s.params → t.regs = s.regs →
    exec i t = .next (t.decoded ((s.regs.block rd).block rs)
      (rec.readOperands rd rs (s.regs.readNb rd) b))
  execute : ∀ {t rec}, AtExecute t rec → t.params = s.params →
    exec i t = .next (t.executeAlu alu compare)
  memory : ∀ {t rec}, AtMemory t rec → t.params = s.params → exec i t = .next { t with mDone := true }
  writeBack : ∀ {t rec}, AtWriteBack t rec → t.params = s.params →
    exec i t = .next (t.commitResult rd)

section
variable {s : State} {i : Instr} {rd rs : Reg} {b : Word} {alu : Word → Word → AluOut} {compare : Bool}
  {v : Word} {flags : Flags}

section
variable (life : AluLife s i rd rs b alu compare) {e : State} (h : Empty e)
  (hparams : e.params = s.params) {rec : Record}
include life h hparams

theorem AluLife.step_decode (hregs : e.regs = s.regs) (hscalar : e.params.scalar = true)
    (hi : Sys2Proof.decode rec.raw = .ok i) :
    step { e with dRec := some rec, dState := .busy } = .next
      { e with
        regs := (s.regs.block rd).block rs
        xRec := some (Record.readOperands { rec with op := .instr i } rd rs (s.regs.readNb rd) b)
        clock := e.clock + 1 } := by
  have turn : AtDecode
      { e with dRec := some { rec with op := .instr i }, dState := .busy, stage := .decode }
      { rec with op := .instr i } := ⟨rfl, rfl, nofun⟩
  exact h.step_decode hscalar hi (life.decode turn hparams hregs)

theorem AluLife.step_execute (hscalar : e.params.scalar = true) (hop : rec.op = .instr i)
    (hf : rec.fault = none) (halu : alu rec.result rec.operand = .done v flags) :
    step { e with xRec := some rec } = .next
      { e with flags := flags, mRec := some (rec.computed v compare), clock := e.clock + 1 } := by
  have turn : AtExecute { e with xRec := some rec, stage := .execute } rec :=
    ⟨rfl, rfl, h.executeFresh, hf⟩
  refine h.step_execute hscalar hop ((life.execute turn hparams).trans ?_)
  rw [turn.executeAlu_done compare halu]
  rfl

theorem AluLife.step_memory (hscalar : e.params.scalar = true) (hop : rec.op = .instr i)
    (hf : rec.fault = none) :
    step { e with mRec := some rec } = .next { e with wRec := some rec, clock := e.clock + 1 } := by
  have turn : AtMemory { e with mRec := some rec, stage := .memory } rec :=
    ⟨rfl, rfl, h.memoryFresh, hf⟩
  exact h.step_memory hscalar hop (life.memory turn hparams)

theorem AluLife.step_writeBack {regs : RegFile} (hop : rec.op = .instr i) (hf : rec.fault = none)
    (hfree : regs.AllFree) (hregs : e.regs.release rec.claims = regs) (haux : rec.auxReg = 0#5)
    (hb : rec.writeBack = (rd != 0#5 && !compare)) :
    step { e with wRec := some rec } = step { e with regs := regs.afterAlu rd rec.result compare } := by
  have turn : AtWriteBack { e with wRec := some rec, stage := .writeBack } rec := ⟨rfl, rfl, hf⟩
  refine h.step_writeBack hop ((life.writeBack turn hparams).trans ?_)
  rw [turn.commitResult_alu hfree hregs haux hb, ← h.writeBackEmpty]

end

/-- The five ticks: fetch, Decode, Execute, Memory's pass-through and Write-Back, in the last of which Fetch
works again. -/
theorem AluLife.commits (life : AluLife s i rd rs b alu compare) (h : Idle s)
    (hscalar : s.params.scalar = true) (hi : Sys2Proof.decode s.nextWord = .ok i)
    (halu : alu (s.regs.readNb rd) b = .done v flags) :
    s.Commits 5 (s.regs.afterAlu rd v compare) flags s.mem.ram.cells := by
  have empty (regs : RegFile) (flags : Flags) (clock : Nat) :
      Empty { s with regs := regs, flags := flags, pc := s.pc + 1#32, clock := clock } :=
    h.toEmpty.update regs flags s.mem _ clock
  have idle (clock : Nat) : Idle
      { s with
        regs := s.regs.afterAlu rd v compare, flags := flags, pc := s.pc + 1#32, clock := clock } :=
    ⟨empty _ _ _, RegFile.AllFree.afterAlu h.free rd v compare, h.bypass, h.noDelay, h.noRequest⟩
  obtain ⟨t, ht, rest⟩ := (idle (s.clock + 1 + 1 + 1 + 1)).commits_one
  refine ⟨t, ?_, rest⟩
  have fetch := step_of_idle_fetched h (ne_zero_of_decode hi)
  have decode := life.step_decode (empty s.regs s.flags (s.clock + 1)) rfl
    (rec := newRecord s.nextWord s.pc) rfl hscalar hi
  have execute := life.step_execute (empty ((s.regs.block rd).block rs) s.flags (s.clock + 1 + 1)) rfl
    (rec := s.aluRecord i rd rs b) hscalar rfl rfl halu
  have memory := life.step_memory (empty ((s.regs.block rd).block rs) flags (s.clock + 1 + 1 + 1)) rfl
    (rec := (s.aluRecord i rd rs b).computed v compare) hscalar rfl rfl
  have writeBack := life.step_writeBack
    (empty ((s.regs.block rd).block rs) flags (s.clock + 1 + 1 + 1 + 1)) rfl
    (rec := (s.aluRecord i rd rs b).computed v compare) rfl rfl h.free
    (RegFile.AllFree.release_block h.free rd rs) rfl rfl
  exact (run_succ fetch 4).trans <| (run_succ decode 3).trans <| (run_succ execute 2).trans <|
    (run_succ memory 1).trans <| (run_congr writeBack 0).trans ht

end

section
variable {s : State} {i : Instr} {rd rs : Reg} {imm : Imm16} {alu : Word → Word → AluOut} {compare : Bool}
  {v : Word} {flags : Flags}

/-- A RegImm instruction reads and claims `Rd` alone (R161). -/
theorem AluLife.of_regImm (hfree : s.regs.AllFree)
    (eq : ∀ t, t.params = s.params → exec i t = t.regImm rd imm alu compare) :
    AluLife s i rd rd (sext16 imm) alu compare where
  decode turn hp hregs := by
    have hread := hregs ▸ hfree.read rd
    rw [eq _ hp, State.regImm, turn.atStage, turn.decodeRegImm imm hread, hregs, RegFile.block_block]
    rfl
  execute turn hp := (eq _ hp).trans (turn.atStage ..)
  memory turn hp := (eq _ hp).trans ((turn.atStage ..).trans (congrArg _ turn.memoryPass))
  writeBack turn hp := (eq _ hp).trans (turn.atStage ..)

/-- A RegReg instruction reads and claims `Rd` and `Rs` (R162). -/
theorem AluLife.of_regReg (hfree : s.regs.AllFree)
    (eq : ∀ t, t.params = s.params → exec i t = t.regReg rd rs alu compare) :
    AluLife s i rd rs (s.regs.readNb rs) alu compare where
  decode turn hp hregs := by
    have hread (r : Reg) := hregs ▸ hfree.read r
    rw [eq _ hp, State.regReg, turn.atStage, turn.decodeRegReg (hread rd) (hread rs), hregs]
    rfl
  execute turn hp := (eq _ hp).trans (turn.atStage ..)
  memory turn hp := (eq _ hp).trans ((turn.atStage ..).trans (congrArg _ turn.memoryPass))
  writeBack turn hp := (eq _ hp).trans (turn.atStage ..)

end

/-! ## The operations as bit-vector operations (R200 to R212, R231 to R243) -/

section
variable (a b : Word)

theorem aluAdd_done : aluAdd a b = .done (a + b) (addFlags a b (a + b)) := by
  rw [← ofNat_toNat_add]
  rfl

theorem aluSub_done : aluSub a b = .done (a - b) (subFlags a b (a - b)) := by
  rw [← ofInt_toNat_sub]
  rfl

theorem aluMul_done : aluMul a b = .done (a * b) (mulFlags a b (a * b)) := by
  rw [← ofNat_toNat_mul]
  rfl

theorem aluNeg_done : aluNeg a b = .done (-b) (subFlags 0#32 b (-b)) := by
  rw [aluNeg, aluSub_done, BitVec.zero_sub]

theorem aluShr_done : aluShr a b = .done (a >>> (b.toNat % 32)) (logicFlags (a >>> (b.toNat % 32))) := by
  rw [← ofNat_div_two_pow]
  rfl

theorem aluShl_done : aluShl a b = .done (a <<< (b.toNat % 32)) (logicFlags (a <<< (b.toNat % 32))) := by
  rw [← ofNat_mul_two_pow]
  rfl

theorem aluSar_done :
    aluSar a b = .done (a.sshiftRight (b.toNat % 32)) (logicFlags (a.sshiftRight (b.toNat % 32))) := by
  rw [← ofInt_div_two_pow]
  rfl

theorem aluRol_done :
    aluRol a b = .done (a.rotateLeft (b.toNat % 32)) (logicFlags (a.rotateLeft (b.toNat % 32))) := by
  have rotated := rotate_eq a (shiftAmount_lt b)
  rw [← ofNat_mul_two_pow, ← ofNat_div_two_pow] at rotated
  exact congrArg logicOut rotated

variable {b}

theorem aluDiv_done (signed : Bool) (hb : b ≠ 0#32) :
    aluDiv signed a b = logicOut (if signed = true then a.sdiv b else a / b) := by
  rw [aluDiv, if_neg hb, ofInt_tdiv, ofNat_toNat_div, apply_ite logicOut]

theorem aluRem_done (signed : Bool) (hb : b ≠ 0#32) :
    aluRem signed a b = logicOut (if signed = true then a.srem b else a % b) := by
  rw [aluRem, if_neg hb, ofInt_tmod, ofNat_toNat_mod, apply_ite logicOut]

end

/-! ## `AluCommits` -/

/-- Settles O55: each instruction has an `AluLife` with its operation, whose value and flags are the
operation's `_done` lemma; those of the logic operations, LDI and CPY are their definitions. -/
theorem aluCommits : Obligations.AluCommits := by
  intro s i rd rs imm h hscalar hi a b c done
  have immediate {j : Instr} {alu : Word → Word → AluOut} (compare : Bool) {v : Word} {flags : Flags}
      (eq : ∀ t, t.params = s.params → exec j t = t.regImm rd imm alu compare)
      (halu : alu a c = .done v flags) (e : i = j) :
      s.Commits 5 (s.regs.afterAlu rd v compare) flags s.mem.ram.cells :=
    (AluLife.of_regImm h.free eq).commits h hscalar (hi.trans (congrArg _ e)) halu
  have register {j : Instr} {alu : Word → Word → AluOut} (compare : Bool) {v : Word} {flags : Flags}
      (eq : ∀ t, t.params = s.params → exec j t = t.regReg rd rs alu compare)
      (halu : alu a b = .done v flags) (e : i = j) :
      s.Commits 5 (s.regs.afterAlu rd v compare) flags s.mem.ram.cells :=
    (AluLife.of_regReg h.free eq).commits h hscalar (hi.trans (congrArg _ e)) halu
  refine ⟨
    immediate false (fun _ _ => rfl) (aluAdd_done a c), register false (fun _ _ => rfl) (aluAdd_done a b),
    immediate false (fun _ _ => rfl) (aluSub_done a c), register false (fun _ _ => rfl) (aluSub_done a b),
    immediate true (fun _ _ => rfl) (aluSub_done a c), register true (fun _ _ => rfl) (aluSub_done a b),
    immediate false (fun _ _ => rfl) (aluMul_done a c), register false (fun _ _ => rfl) (aluMul_done a b),
    immediate false (fun _ _ => rfl) (aluNeg_done a c),
    immediate false (fun _ _ => rfl) rfl, register false (fun _ _ => rfl) rfl,
    immediate false (fun _ _ => rfl) rfl, register false (fun _ _ => rfl) rfl,
    immediate false (fun _ _ => rfl) rfl, register false (fun _ _ => rfl) rfl,
    immediate false (fun _ _ => rfl) rfl, register false (fun _ _ => rfl) rfl,
    immediate false (fun _ _ => rfl) rfl, register false (fun _ _ => rfl) rfl,
    immediate false (fun _ _ => rfl) (aluShr_done a c), register false (fun _ _ => rfl) (aluShr_done a b),
    immediate false (fun _ _ => rfl) (aluShl_done a c), register false (fun _ _ => rfl) (aluShl_done a b),
    immediate false (fun _ _ => rfl) (aluSar_done a c), register false (fun _ _ => rfl) (aluSar_done a b),
    immediate false (fun _ _ => rfl) (aluRol_done a c), register false (fun _ _ => rfl) (aluRol_done a b),
    fun e hb => register false (fun t ht => ?div) (aluDiv_done a s.params.divSigned hb) e,
    fun e hb => register false (fun t ht => ?rem) (aluRem_done a s.params.divSigned hb) e⟩
  case div => rw [← ht]; rfl
  case rem => rw [← ht]; rfl

end Sys2Proof.Machine
end

section
/-! SUPPORT. Proofs of the statements about the operations of RegImm and RegReg at Execute (spec/40_pipeline.md
R171; spec/41_regimm_alu.md R200 to R219): the flags of a completed operation as conditions on its operands, and
what Execute then leaves. -/

namespace Sys2Proof.Machine

/-! ## The flags as conditions on the operands (R200 to R203, R208) -/

section
variable (a b res : Word)

/-- The overflow of ADD: operands of one sign and a result of the other (R201). -/
theorem addFlags_eq : addFlags a b res =
    { cf := decide (2 ^ 32 ≤ a.toNat + b.toNat), ovf := decide (a.msb = b.msb ∧ res.msb ≠ a.msb)
      zf := decide (res = 0#32), sf := res.msb } := by
  have overflow : (a.msb == b.msb && res.msb != a.msb) = decide (a.msb = b.msb ∧ res.msb ≠ a.msb) := by
    rw [Bool.decide_and, decide_not]
    rfl
  rw [addFlags, overflow]
  rfl

/-- The overflow of SUB: operands of two signs and a result without the first one's (R202). -/
theorem subFlags_eq : subFlags a b res =
    { cf := decide (a.toNat < b.toNat), ovf := decide (a.msb ≠ b.msb ∧ res.msb ≠ a.msb)
      zf := decide (res = 0#32), sf := res.msb } := by
  have overflow : (a.msb != b.msb && res.msb != a.msb) = decide (a.msb ≠ b.msb ∧ res.msb ≠ a.msb) := by
    rw [Bool.decide_and, decide_not, decide_not]
    rfl
  rw [subFlags, overflow]
  rfl

theorem mulFlags_eq : mulFlags a b res =
    { cf := decide (2 ^ 32 ≤ a.toNat * b.toNat), ovf := decide (a.toInt * b.toInt ≠ res.toInt)
      zf := decide (res = 0#32), sf := res.msb } := rfl

theorem logicFlags_eq : logicFlags res =
    { cf := false, ovf := false, zf := decide (res = 0#32), sf := res.msb } := rfl

/-- `0 - b` overflows on the least signed word alone: no other negative word has a negative negation. -/
theorem neg_overflow_iff : ((0#32).msb ≠ b.msb ∧ (-b).msb ≠ (0#32).msb) ↔ b = 0x80000000#32 := by
  rw [BitVec.msb_zero, BitVec.msb_neg]
  constructor
  · rintro ⟨differ, stays⟩
    have negative : b.msb = true := Bool.eq_true_of_not_eq_false differ.symm
    have nonzero : b ≠ 0#32 := by
      rintro rfl
      cases negative
    have isMin : b = BitVec.intMin 32 := by simpa [negative, nonzero] using stays
    exact isMin
  · rintro rfl
    decide

/-- The flags of SUB on 0 and `b` (R208): a borrow unless `b` is 0. -/
theorem subFlags_zero : subFlags 0#32 b (-b) =
    { cf := decide (b ≠ 0#32), ovf := decide (b = 0x80000000#32)
      zf := decide (-b = 0#32), sf := (-b).msb } := by
  have borrow : (0#32).toNat < b.toNat ↔ b ≠ 0#32 := by
    rw [BitVec.toNat_zero, Nat.pos_iff_ne_zero]
    exact (BitVec.toNat_inj (y := 0#32)).not
  simp only [subFlags_eq, borrow, neg_overflow_iff]

end

/-! ## What Execute leaves of an operation that completes (R171) -/

section
variable {s : State} {rec : Record} (h : AtExecute s rec) {alu : Word → Word → AluOut} {res : Word}
  {flags : Flags}
include h

theorem AtExecute.atStage_alu (d m w : State) (hd : alu rec.result rec.operand = .done res flags) :
    s.atStage d (s.executeAlu alu false) m w = .next (s.afterAlu rec res flags rec.writeBack) := by
  rw [h.atStage, h.executeAlu_done false hd, Bool.not_false, Bool.and_true]

/-- An operation that leaves `CF = OVF = 0` (R200). -/
theorem AtExecute.atStage_logic (d m w : State) (hd : alu rec.result rec.operand = logicOut res) :
    s.atStage d (s.executeAlu alu false) m w = .next (s.afterAlu rec res
      { cf := false, ovf := false, zf := decide (res = 0#32), sf := res.msb } rec.writeBack) := by
  rw [h.atStage_alu d m w hd, logicFlags_eq]

/-- CMP: the flags are written, the write-back is given up. -/
theorem AtExecute.atStage_compare (d m w : State) (hd : alu rec.result rec.operand = .done res flags) :
    s.atStage d (s.executeAlu alu true) m w = .next (s.afterAlu rec res flags false) := by
  rw [h.atStage, h.executeAlu_done true hd, Bool.not_true, Bool.and_false]

end

/-! ## `ArithmeticExecute`, `ShiftExecute`, `LogicExecute` -/

/-- Settles O19: each operation's `_done` lemma gives its result and the flags of ADD, SUB or MUL, whose
conditions are those of `addFlags_eq`, `subFlags_eq` (for NEG `subFlags_zero`) and `mulFlags_eq`. -/
theorem arithmeticExecute : Obligations.ArithmeticExecute := by
  intro s rec rd rs imm h a b
  have add := (aluAdd_done a b).trans (congrArg _ (addFlags_eq a b (a + b)))
  have sub := (aluSub_done a b).trans (congrArg _ (subFlags_eq a b (a - b)))
  have mul := (aluMul_done a b).trans (congrArg _ (mulFlags_eq a b (a * b)))
  have neg := (aluNeg_done a b).trans (congrArg _ (subFlags_zero b))
  simp only [List.forall_mem_cons, List.not_mem_nil, false_implies, implies_true, and_true]
  exact ⟨
    ⟨h.atStage_alu _ _ _ add, h.atStage_alu _ _ _ add⟩,
    ⟨h.atStage_alu _ _ _ sub, h.atStage_alu _ _ _ sub⟩,
    ⟨h.atStage_compare _ _ _ sub, h.atStage_compare _ _ _ sub⟩,
    ⟨h.atStage_alu _ _ _ mul, h.atStage_alu _ _ _ mul⟩,
    h.atStage_alu _ _ _ neg⟩

/-- Settles O21: the low five bits of the operand are its remainder modulo 32, by which the operations' `_done`
lemmas shift and rotate. -/
theorem shiftExecute : Obligations.ShiftExecute := by
  intro s rec rd rs imm h a k _
  have amount : rec.operand.toNat % 32 = k := shiftAmount_eq rec.operand
  have shr : aluShr a rec.operand = logicOut (a >>> k) := amount ▸ aluShr_done a rec.operand
  have sar : aluSar a rec.operand = logicOut (a.sshiftRight k) := amount ▸ aluSar_done a rec.operand
  have shl : aluShl a rec.operand = logicOut (a <<< k) := amount ▸ aluShl_done a rec.operand
  have rol : aluRol a rec.operand = logicOut (a.rotateLeft k) := amount ▸ aluRol_done a rec.operand
  exact ⟨h.atStage_logic _ _ _ shr, h.atStage_logic _ _ _ shr, h.atStage_logic _ _ _ sar,
    h.atStage_logic _ _ _ sar, h.atStage_logic _ _ _ shl, h.atStage_logic _ _ _ shl,
    h.atStage_logic _ _ _ rol, h.atStage_logic _ _ _ rol⟩

/-- Settles O20: the operations are bitwise by definition, and all but the result is Execute's common work. -/
theorem logicExecute : Obligations.LogicExecute := by
  intro s rec rd rs imm h a b _
  have and : aluAnd a b = logicOut (a &&& b) := rfl
  have xor : aluXor a b = logicOut (a ^^^ b) := rfl
  have or : aluOr a b = logicOut (a ||| b) := rfl
  have not : aluNot a b = logicOut (~~~b) := rfl
  have ldi : aluLdi a b = logicOut b := rfl
  have cpy : aluCpy a b = logicOut b := rfl
  exact ⟨h.atStage_logic _ _ _ and, h.atStage_logic _ _ _ and, h.atStage_logic _ _ _ xor,
    h.atStage_logic _ _ _ xor, h.atStage_logic _ _ _ or, h.atStage_logic _ _ _ or,
    h.atStage_logic _ _ _ not, h.atStage_logic _ _ _ not, h.atStage_logic _ _ _ ldi,
    h.atStage_logic _ _ _ cpy⟩

end Sys2Proof.Machine
end

section
/-! SUPPORT. Proofs of the statements about DIV and REM at Execute (spec/42_regreg_alu.md R234, R235, R247):
division with remainder on words, the operations' completion, and the dividend recovered from both results. -/

namespace Sys2Proof.Machine

/-! ## Division with remainder on words (R234, R235) -/

section
variable (a b : Word)

/-- Division of naturals, narrowed to words. -/
theorem udiv_mul_add_umod : a / b * b + a % b = a :=
  calc a / b * b + a % b
      = BitVec.ofNat 32 (a.toNat / b.toNat * b.toNat + a.toNat % b.toNat) := by
        rw [BitVec.ofNat_add, BitVec.ofNat_mul, ofNat_toNat_div, ofNat_toNat_mod, BitVec.ofNat_toNat,
          BitVec.setWidth_eq]
    _ = a := by rw [Nat.div_add_mod', BitVec.ofNat_toNat, BitVec.setWidth_eq]

/-- Division of integers towards zero, narrowed to words; the quotient that overflows (R247) wraps. -/
theorem sdiv_mul_add_srem : a.sdiv b * b + a.srem b = a :=
  calc a.sdiv b * b + a.srem b
      = BitVec.ofInt 32 (a.toInt.tdiv b.toInt * b.toInt
          + (a.toInt - a.toInt.tdiv b.toInt * b.toInt)) := by
        rw [BitVec.ofInt_add, BitVec.ofInt_mul, ofInt_tdiv, ofInt_tmod, BitVec.ofInt_toInt]
    _ = a := by rw [add_sub_cancel, BitVec.ofInt_toInt]

end

/-- The record that Execute leaves carries the operation's result. -/
theorem result_of_next_afterAlu {s t : State} {rec recT : Record} {res : Word} {flags : Flags}
    {writeBack : Bool}
    (ht : (.next (s.afterAlu rec res flags writeBack) : Outcome State) = .next t)
    (hrec : t.xRec = some recT) : recT.result = res := by
  cases ht
  cases hrec
  rfl

/-! ## `DivideExecute`, `DivideIdentity` -/

/-- Settles O22: by a divisor other than 0 both operations complete, with the results of their `_done` lemmas
under either setting of DIV_SIGNED. -/
theorem divideExecute : Obligations.DivideExecute := by
  intro s rec rd rs h hb a b _
  have div := aluDiv_done a s.params.divSigned hb
  have rem := aluRem_done a s.params.divSigned hb
  exact ⟨h.atStage_logic _ _ _ div, h.atStage_logic _ _ _ rem⟩

/-- Settles O23: the two results are those of `divideExecute`, and under each setting division with remainder
recovers the dividend. -/
theorem divideIdentity : Obligations.DivideIdentity := by
  intro s t u rec recQ recR rd rs h hb hdiv hrem hq hr
  obtain ⟨div, rem⟩ := divideExecute s rec rd rs h hb
  rw [result_of_next_afterAlu (div.symm.trans hdiv) hq, result_of_next_afterAlu (rem.symm.trans hrem) hr]
  cases s.params.divSigned with
  | false => exact (udiv_mul_add_umod rec.result rec.operand).symm
  | true => exact (sdiv_mul_add_srem rec.result rec.operand).symm

end Sys2Proof.Machine
end

section
/-! SUPPORT. Proof of the statement that follows one LDW, STW, POP or PUSH from its fetch to its commit
(spec/43_loadstore.md R261 to R265): the four are one access of memory, which differs in its base register, in
what Execute makes of the address, in the direction of the transfer and in the new SP. -/

namespace Sys2Proof.Machine

/-! ## The simplest memory -/

/-- The memory after a store at an address reduced modulo `N` (R61, R71). -/
def MemSys.stored (p : Params) (m : MemSys) (a v : Word) : MemSys :=
  { m with ram := { m.ram with cells := m.ram.cells.setWord (a.toNat % p.ramWords) v } }

section
variable {p : Params} {m : MemSys} (hbypass : p.cached = false) (hdelay : p.ramDelay = 0)
  (hfree : m.ram.req = none)
include hdelay hfree

/-- With no delay a request of a free RAM is granted at once (R68). -/
theorem Ram.service_of_noDelay (who : Requester) : m.ram.service p.ramDelay who = (.ready, m.ram) := by
  simp [Ram.service, hdelay, hfree]

include hbypass

theorem MemSys.cacheRead_of_noDelay (a : Word) (who : Requester) :
    m.cacheRead p a who = (.success (m.ram.cells.word (a.toNat % p.ramWords)), m) := by
  rw [MemSys.cacheRead_bypass hbypass, MemSys.ramRead_of_ready (Ram.service_of_noDelay hdelay hfree who),
    Nat.mod_mod]

theorem MemSys.cacheWrite_of_noDelay (a v : Word) (who : Requester) :
    m.cacheWrite p a who v = (.success (), m.stored p a v) := by
  rw [MemSys.cacheWrite_bypass hbypass, MemSys.ramWrite_of_ready (Ram.service_of_noDelay hdelay hfree who),
    Nat.mod_mod]
  rfl

end

/-- The effective address is already reduced, so the request's own reduction changes nothing (R61, R265). -/
theorem effectiveAddress_toNat_mod (p : Params) (base disp : Word) :
    (effectiveAddress p base disp).toNat % p.ramWords = (base + disp).toNat % p.ramWords := by
  have bound : (base + disp).toNat % p.ramWords < 2 ^ 32 :=
    (Nat.mod_le _ _).trans_lt (base + disp).isLt
  rw [effectiveAddress, BitVec.toNat_ofNat, Nat.mod_eq_of_lt bound, Nat.mod_mod]

/-! ## The four instructions as one access -/

/-- What distinguishes one LoadStore instruction from another (R261 to R264): its registers and immediate,
whether it loads, the address Execute makes of base and displacement, and what Memory then makes of the
address, which an instruction with an auxiliary register writes there. -/
structure Access where
  rd : Reg
  base : Reg
  imm : Imm16
  loads : Bool
  aux : Reg
  address : Params → Word → Word → Word
  next : Word → Word

/-- The access of LDW and STW (R261, R263). -/
def Access.indexed (rd rm : Reg) (imm : Imm16) (loads : Bool) : Access where
  rd := rd
  base := rm
  imm := imm
  loads := loads
  aux := 0#5
  address := effectiveAddress
  next := fun a => a

/-- The access of POP and PUSH, whose immediate is not added (R262, R264). -/
def Access.stack (rd : Reg) (imm : Imm16) (loads : Bool) (next : Word → Word) : Access where
  rd := rd
  base := spReg
  imm := imm
  loads := loads
  aux := spReg
  address := fun _ base _ => base
  next := next

/-- The record Decode makes of it, with `j` as its op (R165). -/
def Access.decoded (acc : Access) (j : Instr) (rec : Record) (v base : Word) : Record :=
  { rec with
    op := .instr j, claims := claimSet acc.rd acc.base, result := v, destMemAddr := base
    operand := sext16 acc.imm, writeBack := acc.loads, auxReg := acc.aux }

/-- The record Execute makes of it (R172). -/
def Access.addressed (acc : Access) (p : Params) (rec : Record) : Record :=
  { rec with destMemAddr := acc.address p rec.destMemAddr rec.operand }

/-- The word in the record and the memory after the transfer of a record's word (R177, R178). -/
def Access.transfer (acc : Access) (p : Params) (m : MemSys) (a v : Word) : Word × MemSys :=
  if acc.loads then (m.ram.cells.word (a.toNat % p.ramWords), m) else (v, m.stored p a v)

/-- The record Memory makes of it (R177, R178). -/
def Access.transferred (acc : Access) (p : Params) (m : MemSys) (rec : Record) : Record :=
  { rec with
    result := (acc.transfer p m rec.destMemAddr rec.result).1, destMemAddr := acc.next rec.destMemAddr }

/-- The RAM is as free after a transfer as before it (R68). -/
theorem Access.transfer_req (acc : Access) (p : Params) (m : MemSys) (a v : Word) :
    (acc.transfer p m a v).2.ram.req = m.ram.req := by
  unfold Access.transfer
  split <;> rfl

/-- `i` is an instruction whose meaning is the access `acc`; Decode writes `j` into its record, with the base
register it has put in (R165). -/
structure Access.IsMeaning (acc : Access) (i j : Instr) : Prop where
  decode : ∀ {t rec}, AtDecode t rec →
    exec i t = .next (t.decodeLoadStore j acc.rd acc.base acc.imm acc.loads acc.aux)
  execute : ∀ {t rec}, AtExecute t rec →
    exec j t = .next { t with xDone := true, xRec := some (acc.addressed t.params rec) }
  memory : ∀ {t rec}, AtMemory t rec →
    exec j t = .next (if acc.loads then t.memoryLoad acc.next else t.memoryStore acc.next)
  destination : j.destination = some acc.rd

/-- `AtExecute.executeNothing` with the record that stays in the latch. -/
theorem AtExecute.executeNothing_record {s : State} {rec : Record} (h : AtExecute s rec) :
    s.executeNothing = { s with xDone := true, xRec := some rec } := by
  rw [h.executeNothing, ← h.holds]

/-- LDW and STW, whose base register Decode leaves (R165). -/
theorem Access.isMeaning_indexed {i : Instr} {rd rm : Reg} {imm : Imm16} {loads : Bool}
    (hdest : i.destination = some rd)
    (eq : ∀ t, exec i t = t.atStage (t.decodeLoadStore i rd rm imm loads 0#5) t.executeAddress
      (if loads then t.memoryLoad fun a => a else t.memoryStore fun a => a) (t.commitResult rd)) :
    (Access.indexed rd rm imm loads).IsMeaning i i where
  decode turn := (eq _).trans (turn.atStage ..)
  execute turn := (eq _).trans ((turn.atStage ..).trans (congrArg _ turn.executeAddress))
  memory turn := (eq _).trans (turn.atStage ..)
  destination := hdest

/-- POP and PUSH have one meaning whatever base register `op` is given: Decode puts in register 30. -/
theorem Access.isMeaning_stack {op : Reg → Instr} {rd : Reg} {imm : Imm16} {loads : Bool}
    {next : Word → Word} (hdest : (op spReg).destination = some rd)
    (eq : ∀ rm t, exec (op rm) t =
      t.atStage (t.decodeLoadStore (op spReg) rd spReg imm loads spReg) t.executeNothing
        (if loads then t.memoryLoad next else t.memoryStore next) (t.commitResult rd)) (rm : Reg) :
    (Access.stack rd imm loads next).IsMeaning (op rm) (op spReg) where
  decode turn := (eq _ _).trans (turn.atStage ..)
  execute turn := (eq _ _).trans ((turn.atStage ..).trans (congrArg _ turn.executeNothing_record))
  memory turn := (eq _ _).trans (turn.atStage ..)
  destination := hdest

/-! ## The stages of an access -/

/-- A record commits to a register file that its release leaves free: `Rd` takes the result if it has its
write-back, and then the auxiliary register the address (R182, R183). -/
theorem AtWriteBack.commitResult_free {s : State} {rec : Record} (h : AtWriteBack s rec) {regs : RegFile}
    (hfree : regs.AllFree) (hregs : s.regs.release rec.claims = regs) (rd : Reg) :
    s.commitResult rd =
      { s with
        wRec := none
        regs := (if rec.writeBack then regs.writeNb rd rec.result else regs).writeNb rec.auxReg
          rec.destMemAddr } := by
  have aux {regs : RegFile} (hfree : regs.AllFree) :
      regs.writeAux rec = regs.writeNb rec.auxReg rec.destMemAddr := by
    by_cases h0 : rec.auxReg = 0#5
    · rw [RegFile.writeAux_of_zero _ h0, h0, RegFile.writeNb_zero]
    · exact RegFile.writeAux_of_writable h0 (hfree _).2
  cases hw : rec.writeBack with
  | true =>
    rw [h.commitResult_write rd hw, hregs, RegFile.writeOrKeep_of_writable fun _ => (hfree rd).2,
      aux (hfree.writeNb rd _), if_pos rfl]
  | false => rw [h.commitResult_none rd hw, hregs, aux hfree, if_neg Bool.false_ne_true]

section
variable {acc : Access} {i j : Instr} (meaning : acc.IsMeaning i j)
include meaning

/-- Memory's work on the simplest memory (R177, R178). -/
theorem Access.IsMeaning.memory_of_noDelay {t : State} {rec : Record} (turn : AtMemory t rec)
    (hbypass : t.params.cached = false) (hdelay : t.params.ramDelay = 0) (hfree : t.mem.ram.req = none) :
    exec j t = .next
      { t with
        mem := (acc.transfer t.params t.mem rec.destMemAddr rec.result).2
        mWaiting := false, mDone := true
        mRec := some (acc.transferred t.params t.mem rec) } := by
  rw [meaning.memory turn]
  unfold Access.transferred Access.transfer
  cases acc.loads with
  | true =>
    exact congrArg _ (turn.memoryLoad_success _ (MemSys.cacheRead_of_noDelay hbypass hdelay hfree _ _))
  | false =>
    exact congrArg _ (turn.memoryStore_success _ (MemSys.cacheWrite_of_noDelay hbypass hdelay hfree _ _ _))

variable {e : State} (h : Empty e) {rec : Record}
include h

theorem Access.IsMeaning.step_decode (hfree : e.regs.AllFree) (hscalar : e.params.scalar = true)
    (hi : Sys2Proof.decode rec.raw = .ok i) :
    step { e with dRec := some rec, dState := .busy } = .next
      { e with
        regs := (e.regs.block acc.rd).block acc.base
        xRec := some (acc.decoded j rec (e.regs.readNb acc.rd) (e.regs.readNb acc.base))
        clock := e.clock + 1 } := by
  have turn : AtDecode
      { e with dRec := some { rec with op := .instr i }, dState := .busy, stage := .decode }
      { rec with op := .instr i } := ⟨rfl, rfl, nofun⟩
  refine h.step_decode hscalar hi ((meaning.decode turn).trans ?_)
  rw [turn.decodeLoadStore _ _ _ (hfree.read acc.rd) (hfree.read acc.base)]
  rfl

theorem Access.IsMeaning.step_execute (hscalar : e.params.scalar = true) (hop : rec.op = .instr j)
    (hf : rec.fault = none) :
    step { e with xRec := some rec } = .next
      { e with mRec := some (acc.addressed e.params rec), clock := e.clock + 1 } := by
  have turn : AtExecute { e with xRec := some rec, stage := .execute } rec :=
    ⟨rfl, rfl, h.executeFresh, hf⟩
  exact h.step_execute hscalar hop (meaning.execute turn)

theorem Access.IsMeaning.step_memory (hbypass : e.params.cached = false) (hdelay : e.params.ramDelay = 0)
    (hfree : e.mem.ram.req = none) (hscalar : e.params.scalar = true) (hop : rec.op = .instr j)
    (hf : rec.fault = none) :
    step { e with mRec := some rec } = .next
      { e with
        mem := (acc.transfer e.params e.mem rec.destMemAddr rec.result).2
        wRec := some (acc.transferred e.params e.mem rec), clock := e.clock + 1 } := by
  have turn : AtMemory { e with mRec := some rec, stage := .memory } rec :=
    ⟨rfl, rfl, h.memoryFresh, hf⟩
  refine h.step_memory hscalar hop ((meaning.memory_of_noDelay turn hbypass hdelay hfree).trans ?_)
  rw [← h.memoryReady]

theorem Access.IsMeaning.step_writeBack {regs : RegFile} (hop : rec.op = .instr j) (hf : rec.fault = none)
    (hfree : regs.AllFree) (hregs : e.regs.release rec.claims = regs) :
    step { e with wRec := some rec } = step
      { e with
        regs := (if rec.writeBack then regs.writeNb acc.rd rec.result else regs).writeNb rec.auxReg
          rec.destMemAddr } := by
  have turn : AtWriteBack { e with wRec := some rec, stage := .writeBack } rec := ⟨rfl, rfl, hf⟩
  refine h.step_writeBack hop ((turn.exec_eq meaning.destination).trans ?_)
  rw [turn.commitResult_free hfree hregs, ← h.writeBackEmpty]

end

/-! ## From fetch to commit -/

/-- The registers while an access of the idle machine `s` is in flight (R165). -/
def Access.blockedIn (acc : Access) (s : State) : RegFile := (s.regs.block acc.rd).block acc.base

/-- The record Decode makes when the idle machine `s` has fetched it. -/
def Access.decodedIn (acc : Access) (j : Instr) (s : State) : Record :=
  acc.decoded j (newRecord s.nextWord s.pc) (s.regs.readNb acc.rd) (s.regs.readNb acc.base)

/-- The address an access makes on the registers of `s` (R172). -/
def Access.addressIn (acc : Access) (s : State) : Word :=
  acc.address s.params (s.regs.readNb acc.base) (sext16 acc.imm)

/-- What its transfer leaves there. -/
def Access.transferIn (acc : Access) (s : State) : Word × MemSys :=
  acc.transfer s.params s.mem (acc.addressIn s) (s.regs.readNb acc.rd)

/-- The registers it leaves (R182, R183). -/
def Access.regsAfter (acc : Access) (s : State) : RegFile :=
  (if acc.loads then s.regs.writeNb acc.rd (acc.transferIn s).1 else s.regs).writeNb acc.aux
    (acc.next (acc.addressIn s))

theorem Access.regsAfter_allFree {s : State} (h : s.regs.AllFree) (acc : Access) :
    (acc.regsAfter s).AllFree := by
  unfold Access.regsAfter
  split
  · exact (h.writeNb _ _).writeNb _ _
  · exact h.writeNb _ _

/-- The five ticks: fetch, Decode, Execute, Memory's transfer and Write-Back, in the last of which Fetch works
again, on the memory the transfer has left. -/
theorem Access.IsMeaning.commits {acc : Access} {i j : Instr} (meaning : acc.IsMeaning i j) {s : State}
    (h : Idle s) (hscalar : s.params.scalar = true) (hi : Sys2Proof.decode s.nextWord = .ok i) :
    s.Commits 5 (acc.regsAfter s) s.flags (acc.transferIn s).2.ram.cells := by
  have empty (regs : RegFile) (mem : MemSys) (clock : Nat) :
      Empty { s with regs := regs, mem := mem, pc := s.pc + 1#32, clock := clock } :=
    h.toEmpty.update regs s.flags mem _ clock
  have idle (clock : Nat) : Idle
      { s with
        regs := acc.regsAfter s, mem := (acc.transferIn s).2, pc := s.pc + 1#32, clock := clock } :=
    ⟨empty _ _ _, acc.regsAfter_allFree h.free, h.bypass, h.noDelay,
      (acc.transfer_req ..).trans h.noRequest⟩
  obtain ⟨t, ht, rest⟩ := (idle (s.clock + 1 + 1 + 1 + 1)).commits_one
  refine ⟨t, ?_, rest⟩
  have fetch := step_of_idle_fetched h (ne_zero_of_decode hi)
  have decode := meaning.step_decode (empty s.regs s.mem (s.clock + 1)) (rec := newRecord s.nextWord s.pc)
    h.free hscalar hi
  have execute := meaning.step_execute (empty (acc.blockedIn s) s.mem (s.clock + 1 + 1))
    (rec := acc.decodedIn j s) hscalar rfl rfl
  have memory := meaning.step_memory (empty (acc.blockedIn s) s.mem (s.clock + 1 + 1 + 1))
    (rec := acc.addressed s.params (acc.decodedIn j s)) h.bypass h.noDelay h.noRequest hscalar rfl rfl
  have writeBack := meaning.step_writeBack
    (empty (acc.blockedIn s) (acc.transferIn s).2 (s.clock + 1 + 1 + 1 + 1))
    (rec := acc.transferred s.params s.mem (acc.addressed s.params (acc.decodedIn j s))) rfl rfl h.free
    (RegFile.AllFree.release_block h.free acc.rd acc.base)
  exact (run_succ fetch 4).trans <| (run_succ decode 3).trans <| (run_succ execute 2).trans <|
    (run_succ memory 1).trans <| (run_congr writeBack 0).trans ht

/-! ## `LoadStoreCommits` -/

/-- Settles O56: each of the four is an access, whose registers and RAM after the five ticks are those of the
statement; LDW and STW have no auxiliary register, so the last write of `regsAfter` is void. -/
theorem loadStoreCommits : Obligations.LoadStoreCommits := by
  intro s i rd rm imm h hscalar hi v ea sp
  have reduced : (effectiveAddress s.params (s.regs.readNb rm) (sext16 imm)).toNat % s.params.ramWords = ea :=
    effectiveAddress_toNat_mod ..
  refine ⟨?ldw, ?stw, ?pop, ?push⟩
  case ldw =>
    rintro rfl
    have meaning : (Access.indexed rd rm imm true).IsMeaning (.ldw rd rm imm) (.ldw rd rm imm) :=
      Access.isMeaning_indexed rfl fun _ => rfl
    have regs : (Access.indexed rd rm imm true).regsAfter s =
        s.regs.writeNb rd (s.mem.ram.cells.word ea) := by
      rw [← reduced]
      exact RegFile.writeNb_zero ..
    exact regs ▸ meaning.commits h hscalar hi
  case stw =>
    rintro rfl
    have meaning : (Access.indexed rd rm imm false).IsMeaning (.stw rd rm imm) (.stw rd rm imm) :=
      Access.isMeaning_indexed rfl fun _ => rfl
    have regs : (Access.indexed rd rm imm false).regsAfter s = s.regs := RegFile.writeNb_zero ..
    have commits := meaning.commits h hscalar hi
    rw [regs] at commits
    exact reduced ▸ commits
  case pop =>
    rintro rfl
    have meaning : (Access.stack rd imm true (· - 1#32)).IsMeaning (.pop rd rm imm) (.pop rd spReg imm) :=
      Access.isMeaning_stack (op := (.pop rd · imm)) rfl (fun _ _ => rfl) rm
    exact meaning.commits h hscalar hi
  case push =>
    rintro rfl
    have meaning : (Access.stack rd imm false (· + 1#32)).IsMeaning (.push rd rm imm) (.push rd spReg imm) :=
      Access.isMeaning_stack (op := (.push rd · imm)) rfl (fun _ _ => rfl) rm
    exact meaning.commits h hscalar hi

end Sys2Proof.Machine
end

section
/-! SUPPORT. Proof of the statement about the conditions after CMP, SUB and ADD (spec/44_control.md R283 to R292,
R298; spec/41_regimm_alu.md R201, R202): the flags of a sum and of a difference against the exact integers. -/

namespace Sys2Proof.Machine

/-! ## Signed overflow (R201, R202) -/

/-- Narrowing a sum or difference of two words takes away or adds one modulus, or neither. -/
theorem bmod_word_cases {x : Int} (lower : -2 ^ 32 ≤ x) (upper : x < 2 ^ 32) :
    (-2 ^ 31 ≤ x ∧ x < 2 ^ 31 ∧ x.bmod (2 ^ 32) = x) ∨ (2 ^ 31 ≤ x ∧ x.bmod (2 ^ 32) = x - 2 ^ 32) ∨
      (x < -2 ^ 31 ∧ x.bmod (2 ^ 32) = x + 2 ^ 32) := by
  rw [Int.bmod_def]
  omega

section
variable (a b : Word)

/-- The range of a word's signed value. -/
theorem toInt_bounds : -2 ^ 31 ≤ a.toInt ∧ a.toInt < 2 ^ 31 :=
  ⟨BitVec.le_toInt a, BitVec.toInt_lt⟩

theorem add_overflow_iff :
    (a.msb = b.msb ∧ (a + b).msb ≠ a.msb) ↔ (a + b).toInt ≠ a.toInt + b.toInt := by
  obtain ⟨ha, ha'⟩ := toInt_bounds a
  obtain ⟨hb, hb'⟩ := toInt_bounds b
  have wrap := bmod_word_cases (x := a.toInt + b.toInt) (by omega) (by omega)
  simp only [BitVec.msb_eq_toInt, BitVec.toInt_add, ne_eq, decide_eq_decide]
  omega

theorem sub_overflow_iff :
    (a.msb ≠ b.msb ∧ (a - b).msb ≠ a.msb) ↔ (a - b).toInt ≠ a.toInt - b.toInt := by
  obtain ⟨ha, ha'⟩ := toInt_bounds a
  obtain ⟨hb, hb'⟩ := toInt_bounds b
  have wrap := bmod_word_cases (x := a.toInt - b.toInt) (by omega) (by omega)
  simp only [BitVec.msb_eq_toInt, BitVec.toInt_sub, ne_eq, decide_eq_decide]
  omega

/-- The sign of the difference, corrected by the overflow, is that of the exact difference (R285): on overflow
the difference has the sign of `b` and the exact one that of `a`. -/
theorem sub_sign_xor_overflow :
    ((a - b).msb ^^ decide ((a - b).toInt ≠ a.toInt - b.toInt)) = decide (a.toInt < b.toInt) := by
  have overflow := sub_overflow_iff a b
  simp only [BitVec.msb_eq_toInt, ne_eq, decide_eq_decide] at overflow
  rw [BitVec.msb_eq_toInt, Bool.eq_iff_iff, Bool.xor_iff_ne, ne_eq, decide_eq_decide, decide_eq_true_eq]
  omega

/-- Neither below nor equal is above (R289). -/
theorem not_below_or_equal :
    (!(decide (a.toNat < b.toNat) || decide (a = b))) = decide (b.toNat < a.toNat) := by
  rw [← Bool.decide_or, ← decide_not, decide_eq_decide, ← BitVec.toNat_inj]
  omega

/-- The flags of ADD on the operands (R201). -/
theorem addFlags_add : addFlags a b (a + b) =
    { cf := decide (2 ^ 32 ≤ a.toNat + b.toNat), ovf := decide ((a + b).toInt ≠ a.toInt + b.toInt)
      zf := decide (a + b = 0#32), sf := (a + b).msb } := by
  simp only [addFlags_eq, add_overflow_iff]

/-- The flags of SUB and CMP on the operands (R202). -/
theorem subFlags_sub : subFlags a b (a - b) =
    { cf := decide (a.toNat < b.toNat), ovf := decide ((a - b).toInt ≠ a.toInt - b.toInt)
      zf := decide (a = b), sf := (a - b).msb } := by
  have equal : a - b = 0#32 ↔ a = b := sub_eq_zero
  simp only [subFlags_eq, sub_overflow_iff, equal]

end

/-! ## `CompareThenBranch` -/

/-- The flags Execute leaves are the operation's. -/
theorem flags_of_next_afterAlu {s t : State} {rec : Record} {res : Word} {flags : Flags} {writeBack : Bool}
    (ht : (.next (s.afterAlu rec res flags writeBack) : Outcome State) = .next t) : t.flags = flags := by
  cases ht
  rfl

section
variable {s t : State} {rec : Record} (h : AtExecute s rec) {i : Instr} {rd rs : Reg} {imm : Imm16}
include h

/-- CMP and SUB leave the flags of SUB (R215, R244). -/
theorem AtExecute.flags_of_subtraction (hi : i ∈ ([.cmpI rd imm, .cmpR rd rs, .subI rd imm, .subR rd rs] :
    List Instr)) (ht : exec i s = .next t) :
    t.flags = subFlags rec.result rec.operand (rec.result - rec.operand) := by
  obtain ⟨_, sub, cmp, _⟩ := arithmeticExecute s rec rd rs imm h
  rw [← subFlags_eq] at sub cmp
  obtain hc | hs := List.mem_append (s := [_, _]).1 hi
  · exact flags_of_next_afterAlu ((cmp i hc).symm.trans ht)
  · exact flags_of_next_afterAlu ((sub i hs).symm.trans ht)

theorem AtExecute.flags_of_addition (hi : i ∈ ([.addI rd imm, .addR rd rs] : List Instr))
    (ht : exec i s = .next t) :
    t.flags = addFlags rec.result rec.operand (rec.result + rec.operand) := by
  obtain ⟨add, _⟩ := arithmeticExecute s rec rd rs imm h
  rw [← addFlags_eq] at add
  exact flags_of_next_afterAlu ((add i hi).symm.trans ht)

end

/-- Settles O27: BLT and BGE read the sign of the exact difference by `sub_sign_xor_overflow`; each other
condition reads flags that `subFlags_sub` and `addFlags_add` give as comparisons, or their negation. -/
theorem compareThenBranch : Obligations.CompareThenBranch := by
  intro s t rec rd rs rm imm disp h a b
  refine ⟨fun i hi ht => ?compare, fun i hi ht => ?add⟩
  case compare =>
    have signed := sub_sign_xor_overflow a b
    rw [h.flags_of_subtraction hi ht, subFlags_sub]
    refine ⟨rfl, congrArg some decide_not.symm, congrArg some signed, ?bge, rfl, ?bae,
      congrArg some (not_below_or_equal a b), rfl, ?bnf⟩
    case bge =>
      exact congrArg some ((congrArg _ signed).trans (decide_not.symm.trans (decide_eq_decide.2 not_lt)))
    case bae => exact congrArg some (decide_not.symm.trans (decide_eq_decide.2 not_lt))
    case bnf => exact congrArg some (decide_not.symm.trans (decide_eq_decide.2 not_not))
  case add =>
    rw [h.flags_of_addition hi ht, addFlags_add]
    exact ⟨rfl, rfl⟩

end Sys2Proof.Machine
end

section
/-! SUPPORT. Proof of the statement that follows one branch or CALL from its fetch to its commit
(spec/44_control.md R281 to R294, spec/40_pipeline.md R181, R193): the eleven are one life, which differs in its
condition and in its link register, and Execute decides which of two ways its commit takes. -/

namespace Sys2Proof.Machine

/-! ## The eleven instructions as one branch -/

/-- The register an instruction links: register 31 for CALL, none for the others (R294). -/
def linkOf (i : Instr) (rm : Reg) (imm : Imm16) : Reg := if i = .call rm imm then linkReg else 0#5

/-- `i` is a branch on `cond`, at every stage and in the conditions of R122 (R282). -/
structure IsBranch (i : Instr) (rm : Reg) (imm : Imm16) (cond : Flags → Bool) : Prop where
  eq : ∀ t, exec i t = t.branch rm imm (linkOf i rm imm) cond
  takenWhen : ∀ f, i.takenWhen f = some (cond f)

theorem isBranch_call (rm : Reg) (imm : Imm16) :
    IsBranch (.call rm imm) rm imm Flags.condAlways where
  eq t := by
    rw [linkOf, if_pos rfl]
    rfl
  takenWhen _ := rfl

theorem isBranch_of_mem_plain {i : Instr} {rm : Reg} {imm : Imm16} (hi : i ∈ plainBranches rm imm) :
    ∃ cond, IsBranch i rm imm cond := by
  simp only [plainBranches, List.mem_cons, List.not_mem_nil, or_false] at hi
  rcases hi with rfl | rfl | rfl | rfl | rfl | rfl | rfl | rfl | rfl | rfl
  · exact ⟨Flags.condEq, fun _ => rfl, fun _ => rfl⟩
  · exact ⟨Flags.condNe, fun _ => rfl, fun _ => rfl⟩
  · exact ⟨Flags.condLt, fun _ => rfl, fun _ => rfl⟩
  · exact ⟨Flags.condGe, fun _ => rfl, fun _ => congrArg some (Bool.not_not _)⟩
  · exact ⟨Flags.condLu, fun _ => rfl, fun _ => rfl⟩
  · exact ⟨Flags.condAe, fun _ => rfl, fun _ => rfl⟩
  · exact ⟨Flags.condA, fun _ => rfl, fun _ => congrArg some (Bool.not_or ..)⟩
  · exact ⟨Flags.condOf, fun _ => rfl, fun _ => rfl⟩
  · exact ⟨Flags.condNf, fun _ => rfl, fun _ => rfl⟩
  · exact ⟨Flags.condAlways, fun _ => rfl, fun _ => rfl⟩

theorem isBranch_of_mem {i : Instr} {rm : Reg} {imm : Imm16}
    (hi : i ∈ .call rm imm :: plainBranches rm imm) : ∃ cond, IsBranch i rm imm cond := by
  obtain rfl | hi := List.mem_cons.1 hi
  · exact ⟨_, isBranch_call rm imm⟩
  · exact isBranch_of_mem_plain hi

/-- The base of the target: the branch's own address for `RMem = 0`, else the register (R281). -/
def RegFile.branchBase (regs : RegFile) (pc : Word) (rm : Reg) : Word :=
  if rm = 0#5 then pc else regs.readNb rm

theorem RegFile.AllFree.controlBase {t : State} (h : t.regs.AllFree) (rec : Record) (rm : Reg) :
    t.controlBase rec rm = some (t.regs.branchBase rec.pc rm) := by
  unfold State.controlBase RegFile.branchBase
  split
  · rfl
  · exact h.read rm

/-- The record Decode makes of a branch `i` with the base `v`; it claims nothing (R163). -/
def Record.branchDecoded (rec : Record) (i : Instr) (v : Word) (imm : Imm16) (aux : Reg) : Record :=
  { rec with
    op := .instr i, claims := [], destMemAddr := v, operand := sext16 imm, writeBack := true
    auxReg := aux }

/-- The record Execute makes of it: taken, with its target, or with its write-back given up (R173). -/
def Record.resolved (p : Params) (taken : Bool) (rec : Record) : Record :=
  if taken then
    { rec with
      branchTaken := true, destMemAddr := effectiveAddress p rec.destMemAddr rec.operand }
  else { rec with branchTaken := false, writeBack := false }

theorem AtExecute.executeBranch {s : State} {rec : Record} (h : AtExecute s rec) (cond : Flags → Bool) :
    s.executeBranch cond =
      { s with xDone := true, xRec := some (rec.resolved s.params (cond s.flags)) } := by
  unfold Record.resolved
  cases hc : cond s.flags with
  | true => exact h.executeBranch_taken hc
  | false => exact h.executeBranch_notTaken hc

theorem Record.resolved_op (p : Params) (taken : Bool) (rec : Record) :
    (rec.resolved p taken).op = rec.op := by
  cases taken <;> rfl

theorem Record.resolved_fault (p : Params) (taken : Bool) (rec : Record) :
    (rec.resolved p taken).fault = rec.fault := by
  cases taken <;> rfl

/-! ## The ticks of a branch -/

section
variable {i : Instr} {rm : Reg} {imm : Imm16} {cond : Flags → Bool} (branch : IsBranch i rm imm cond)
  {e : State} (h : Empty e) {rec : Record}
include branch h

theorem IsBranch.step_decode (hfree : e.regs.AllFree) (hscalar : e.params.scalar = true)
    (hi : decode rec.raw = .ok i) :
    step { e with dRec := some rec, dState := .busy } = .next
      { e with
        xRec := some (rec.branchDecoded i (e.regs.branchBase rec.pc rm) imm (linkOf i rm imm))
        clock := e.clock + 1 } := by
  have turn : AtDecode
      { e with dRec := some { rec with op := .instr i }, dState := .busy, stage := .decode }
      { rec with op := .instr i } := ⟨rfl, rfl, nofun⟩
  refine h.step_decode hscalar hi ?_
  rw [branch.eq, State.branch, turn.atStage, turn.decodeBranch _ (RegFile.AllFree.controlBase hfree _ rm)]
  rfl

theorem IsBranch.step_execute (hscalar : e.params.scalar = true) (hop : rec.op = .instr i)
    (hf : rec.fault = none) :
    step { e with xRec := some rec } = .next
      { e with mRec := some (rec.resolved e.params (cond e.flags)), clock := e.clock + 1 } := by
  have turn : AtExecute { e with xRec := some rec, stage := .execute } rec :=
    ⟨rfl, rfl, h.executeFresh, hf⟩
  refine h.step_execute hscalar hop ?_
  rw [branch.eq, State.branch, turn.atStage, turn.executeBranch]

theorem IsBranch.step_memory (hscalar : e.params.scalar = true) (hop : rec.op = .instr i)
    (hf : rec.fault = none) :
    step { e with mRec := some rec } = .next { e with wRec := some rec, clock := e.clock + 1 } := by
  have turn : AtMemory { e with mRec := some rec, stage := .memory } rec :=
    ⟨rfl, rfl, h.memoryFresh, hf⟩
  refine h.step_memory hscalar hop ?_
  rw [branch.eq, State.branch, turn.atStage, turn.memoryPass]

/-- A branch that is not taken leaves an empty machine's tick (R181). -/
theorem IsBranch.step_notTaken (hop : rec.op = .instr i) (hf : rec.fault = none)
    (hb : rec.branchTaken = false) : step { e with wRec := some rec } = step e := by
  have turn : AtWriteBack { e with wRec := some rec, stage := .writeBack } rec := ⟨rfl, rfl, hf⟩
  refine h.step_writeBack hop ?_
  rw [branch.eq, State.branch, turn.atStage, turn.commitBranch_notTaken hb, ← h.writeBackEmpty]

/-- A taken branch links and jumps; its squash finds nothing but Fetch, which it holds for the tick (R152,
R181, R188). -/
theorem IsBranch.step_taken (hop : rec.op = .instr i) (hf : rec.fault = none)
    (hb : rec.branchTaken = true) :
    step { e with wRec := some rec } = .next
      { e with regs := e.regs.linked rec, pc := rec.destMemAddr, clock := e.clock + 1 } := by
  have turn : AtWriteBack { e with wRec := some rec, stage := .writeBack } rec := ⟨rfl, rfl, hf⟩
  have work : State.writeBackExecute { e with wRec := some rec } =
      .next (State.jumped { e with wRec := some rec, stage := .writeBack } rec) := by
    rw [State.writeBackExecute_of_instr rfl hop, branch.eq, State.branch, turn.atStage,
      turn.commitBranch_taken hb]
    rfl
  refine Eq.trans (step_of_squashed (step_of_stages h.running work
    (State.halted_fault_of_running h.running).2 (State.memoryExecute_of_none rfl)
    (State.executeExecute_of_none rfl) (State.decodeExecute_of_none rfl)) rfl rfl rfl rfl rfl) ?_
  simp [State.endTick, State.jumped, State.squashAll, h.fetchEmpty, h.noSquash, h.decodeEmpty,
    h.decodeFree, h.executeEmpty, h.executeFresh, h.memoryEmpty, h.memoryReady, h.memoryFresh,
    h.writeBackEmpty, h.noHalt, h.turn]

end

/-! ## From fetch to commit -/

/-- The record of the branch `i` that the idle machine `s` has fetched, when Execute has resolved it. -/
def State.branchRecord (s : State) (i : Instr) (rm : Reg) (imm : Imm16) (taken : Bool) : Record :=
  ((newRecord s.nextWord s.pc).branchDecoded i (s.regs.branchBase s.pc rm) imm (linkOf i rm imm)).resolved
    s.params taken

/-- The link write of an instruction other than CALL is void (R25, R294). -/
theorem State.linked_branchRecord (s : State) (i : Instr) (rm : Reg) (imm : Imm16) :
    s.regs.linked (s.branchRecord i rm imm true) =
      if i = .call rm imm then s.regs.writeNb 31#5 (s.pc + 1#32) else s.regs := by
  have aux : (s.branchRecord i rm imm true).auxReg = linkOf i rm imm := rfl
  rw [RegFile.linked, aux, linkOf]
  split <;> rfl

section
variable {i : Instr} {rm : Reg} {imm : Imm16} {cond : Flags → Bool} (branch : IsBranch i rm imm cond)
  {s : State} (h : Idle s)

include h

theorem Idle.empty_later (clock : Nat) : Empty { s with pc := s.pc + 1#32, clock := clock } :=
  h.toEmpty.update s.regs s.flags s.mem _ clock

include branch

/-- Fetch, Decode, Execute and Memory's pass-through bring a branch to Write-Back; nothing but its record, `pc`
and the clock changes on the way. -/
theorem IsBranch.run_to_writeBack (hscalar : s.params.scalar = true) (hi : decode s.nextWord = .ok i)
    (k : Nat) :
    Host.Core.run core (k + 4) s = Host.Core.run core k
      { s with
        wRec := some (s.branchRecord i rm imm (cond s.flags)), pc := s.pc + 1#32
        clock := s.clock + 1 + 1 + 1 + 1 } := by
  have fetch := step_of_idle_fetched h (ne_zero_of_decode hi)
  have decode := branch.step_decode (h.empty_later (s.clock + 1)) (rec := newRecord s.nextWord s.pc) h.free
    hscalar hi
  have execute := branch.step_execute (h.empty_later (s.clock + 1 + 1)) (rec :=
    (newRecord s.nextWord s.pc).branchDecoded i (s.regs.branchBase s.pc rm) imm (linkOf i rm imm)) hscalar
    rfl rfl
  have memory := branch.step_memory (h.empty_later (s.clock + 1 + 1 + 1))
    (rec := s.branchRecord i rm imm (cond s.flags)) hscalar (Record.resolved_op ..)
    (Record.resolved_fault ..)
  exact (run_succ fetch (k + 3)).trans <| (run_succ decode (k + 2)).trans <|
    (run_succ execute (k + 1)).trans (run_succ memory k)

theorem IsBranch.commits_of_notTaken (hscalar : s.params.scalar = true) (hi : decode s.nextWord = .ok i)
    (hc : cond s.flags = false) : s.Commits 5 s.regs s.flags s.mem.ram.cells := by
  have empty := h.empty_later (s.clock + 1 + 1 + 1 + 1)
  have idle : Idle { s with pc := s.pc + 1#32, clock := s.clock + 1 + 1 + 1 + 1 } :=
    ⟨empty, h.free, h.bypass, h.noDelay, h.noRequest⟩
  have arrives := branch.run_to_writeBack h hscalar hi 1
  rw [hc] at arrives
  obtain ⟨t, ht, rest⟩ := idle.commits_one
  exact ⟨t, arrives.trans ((run_congr (branch.step_notTaken empty rfl rfl rfl) 0).trans ht), rest⟩

theorem IsBranch.jumps_of_taken (hscalar : s.params.scalar = true) (hi : decode s.nextWord = .ok i)
    (hc : cond s.flags = true) :
    s.Jumps 5 (s.regs.linked (s.branchRecord i rm imm true))
      (effectiveAddress s.params (s.regs.branchBase s.pc rm) (sext16 imm)) := by
  have empty := h.empty_later (s.clock + 1 + 1 + 1 + 1)
  obtain ⟨running, unfaulted⟩ := State.halted_fault_of_running h.running
  have arrives := branch.run_to_writeBack h hscalar hi 1
  rw [hc] at arrives
  refine ⟨_, arrives.trans (run_succ (branch.step_taken empty rfl rfl rfl) 0), unfaulted, running, rfl, rfl,
    rfl, rfl, ?_⟩
  simp [State.inFlight, h.writeBackEmpty, h.memoryEmpty, h.executeEmpty, h.decodeEmpty, h.fetchEmpty]

end

/-! ## `BranchCommitsWhole` -/

/-- Settles O57: each of the eleven is an `IsBranch`, whose condition says which way its commit takes. -/
theorem branchCommitsWhole : Obligations.BranchCommitsWhole := by
  intro s i rm imm h hscalar hi hmem base target
  obtain ⟨cond, branch⟩ := isBranch_of_mem hmem
  rw [branch.takenWhen]
  refine ⟨fun hc => ?taken, fun hc => branch.commits_of_notTaken h hscalar hi (Option.some.inj hc)⟩
  case taken =>
    rw [← s.linked_branchRecord i rm imm]
    exact branch.jumps_of_taken h hscalar hi (Option.some.inj hc)

end Sys2Proof.Machine
end

section
/-! SUPPORT. Proof of the statement that follows one faulting instruction, or one word with no meaning, from its
fetch to the stop (spec/60_exceptions.md R312 to R315, R325): Decode or Execute marks the record, and from there
on its op does not matter. -/

namespace Sys2Proof.Machine

/-! ## Marked records, whatever their op -/

section
variable {s : State} {rec : Record} {kind : Fault} (hk : rec.fault = some kind)
include hk

/-- Execute's part of the tick for a marked record (R170). -/
theorem State.executeExecute_of_marked (hr : s.xRec = some rec) (hd : s.xDone = false) :
    s.executeExecute = .next { s with xDone := true, stage := .execute } := by
  have pass (e : s.executeExecute = .next (State.executeNothing { s with stage := .execute })) :
      s.executeExecute = .next { s with xDone := true, stage := .execute } :=
    e.trans (congrArg _ (State.onExecute_of_marked (s := { s with stage := .execute }) hk hr hd _))
  cases hop : rec.op with
  | instr i =>
    obtain ⟨work, _, _⟩ := markedRecord { s with stage := .execute } rec kind i hk
    exact (State.executeExecute_of_instr hr hop).trans (work rfl hr hd)
  | invalid => exact pass (by simp only [State.executeExecute, hr, hop])
  | undecoded => exact pass (by simp only [State.executeExecute, hr, hop])

/-- Memory's part of the tick for a marked record (R176). -/
theorem State.memoryExecute_of_marked (hr : s.mRec = some rec) (hd : s.mDone = false) :
    s.memoryExecute = .next { s with mDone := true, stage := .memory } := by
  have pass (e : s.memoryExecute = .next (State.memoryPass { s with stage := .memory })) :
      s.memoryExecute = .next { s with mDone := true, stage := .memory } :=
    e.trans (congrArg _ (State.onMemory_of_marked (s := { s with stage := .memory }) hk hr hd _))
  cases hop : rec.op with
  | instr i =>
    obtain ⟨_, work, _⟩ := markedRecord { s with stage := .memory } rec kind i hk
    exact (State.memoryExecute_of_instr hr hop).trans (work rfl hr hd)
  | invalid => exact pass (by simp only [State.memoryExecute, hr, hop])
  | undecoded => exact pass (by simp only [State.memoryExecute, hr, hop])

variable {e : State} (h : Empty e)
include h

/-- Execute passes a marked record, and the advance phase hands it to Memory (R170, R175, R192). -/
theorem Empty.step_execute_marked (hscalar : e.params.scalar = true) :
    step { e with xRec := some rec } = .next { e with mRec := some rec, clock := e.clock + 1 } := by
  refine Eq.trans (step_of_held (step_of_stages h.running (State.writeBackExecute_of_none h.writeBackEmpty)
    (State.halted_fault_of_running h.running).2 (State.memoryExecute_of_none h.memoryEmpty)
    (State.executeExecute_of_marked hk rfl h.executeFresh)
    (State.decodeExecute_of_none h.decodeEmpty)) h.noSquash
    (State.fetchHeld_iff.2 (.inr (.inr ⟨hscalar, .inr (.inl (Option.some_ne_none _))⟩)))
    (State.advance_of_executed h.fetchEmpty h.memoryEmpty rfl rfl h.decodeEmpty)) ?_
  simp [State.endTick, h.memoryFresh, h.memoryReady, h.executeEmpty, h.executeFresh, h.noHalt, h.turn]

/-- Memory passes a marked record, and the advance phase hands it to Write-Back (R176, R179, R192). -/
theorem Empty.step_memory_marked (hscalar : e.params.scalar = true) :
    step { e with mRec := some rec } = .next { e with wRec := some rec, clock := e.clock + 1 } := by
  refine Eq.trans (step_of_held (step_of_stages h.running (State.writeBackExecute_of_none h.writeBackEmpty)
    (State.halted_fault_of_running h.running).2 (State.memoryExecute_of_marked hk rfl h.memoryFresh)
    (State.executeExecute_of_none h.executeEmpty) (State.decodeExecute_of_none h.decodeEmpty)) h.noSquash
    (State.fetchHeld_iff.2 (.inr (.inr ⟨hscalar, .inr (.inr (Option.some_ne_none _))⟩)))
    (State.advance_of_memoryDone h.fetchEmpty h.writeBackEmpty rfl rfl h.executeEmpty h.decodeEmpty)) ?_
  simp [State.endTick, h.memoryEmpty, h.memoryFresh, h.memoryReady, h.noHalt, h.turn]

/-- Write-Back takes a marked record's fault, and nothing else of the tick happens (R184). -/
theorem Empty.step_writeBack_marked :
    step { e with wRec := some rec } = .next { e with fault := some kind } := by
  rw [(faultStep { e with wRec := some rec } rec kind h.running h.turn rfl hk).1, ← h.writeBackEmpty]

end

/-! ## A word with no meaning at Decode -/

/-- The record Decode makes of a word with no meaning (R166). -/
def Record.malformed (rec : Record) : Record :=
  { rec.markFault .malformedInstruction with op := .invalid, claims := [] }

theorem AtDecode.decodeInvalid {s : State} {rec : Record} (h : AtDecode s rec) :
    s.decodeInvalid = s.decoded s.regs rec.malformed :=
  h.onDecode _

theorem State.decodeExecute_of_error {s : State} {rec : Record} {err : DecodeError} (h : s.dRec = some rec)
    (hf : s.dState ≠ .free) (he : decode rec.raw = .error err) :
    s.decodeExecute =
      .next (State.decoded { s with stage := .decode } s.regs rec.malformed) := by
  have turn : AtDecode { s with stage := .decode } rec := ⟨rfl, h, hf⟩
  have work : s.decodeExecute = .next (State.decodeInvalid { s with stage := .decode }) := by
    simp only [State.decodeExecute, h, if_neg hf, he]
  exact work.trans (congrArg _ turn.decodeInvalid)

/-- Decode marks the record of such a word, and the advance phase hands it to Execute (R166, R168, R192). -/
theorem Empty.step_decode_malformed {e : State} (h : Empty e) {rec : Record} {err : DecodeError}
    (hscalar : e.params.scalar = true) (he : decode rec.raw = .error err) :
    step { e with dRec := some rec, dState := .busy } =
      .next { e with xRec := some rec.malformed, clock := e.clock + 1 } := by
  refine Eq.trans (step_of_held (step_of_decode h.running h.writeBackEmpty h.memoryEmpty h.executeEmpty
    (State.decodeExecute_of_error rfl nofun he)) h.noSquash
    (State.fetchHeld_iff.2 (.inr (.inr ⟨hscalar, .inl (Option.some_ne_none _)⟩)))
    (State.advance_of_decoded h.fetchEmpty h.memoryEmpty h.executeEmpty rfl rfl)) ?_
  simp [State.decoded, State.endTick, h.executeFresh, h.decodeEmpty, h.decodeFree, h.noHalt, h.turn]

/-! ## An operation that faults at Execute -/

/-- Execute marks the record, the flags stay, and the advance phase hands it to Memory (R171, R312). -/
theorem AluLife.step_execute_fault {s e : State} {i : Instr} {rd rs : Reg} {b : Word}
    {alu : Word → Word → AluOut} {compare : Bool} {rec : Record} {kind : Fault}
    (life : AluLife s i rd rs b alu compare) (h : Empty e) (hparams : e.params = s.params)
    (hscalar : e.params.scalar = true) (hop : rec.op = .instr i) (hf : rec.fault = none)
    (halu : alu rec.result rec.operand = .fault kind) :
    step { e with xRec := some rec } =
      .next { e with mRec := some (rec.markFault kind), clock := e.clock + 1 } := by
  have turn : AtExecute { e with xRec := some rec, stage := .execute } rec :=
    ⟨rfl, rfl, h.executeFresh, hf⟩
  refine h.step_execute (flags := e.flags) hscalar hop ((life.execute turn hparams).trans ?_)
  rw [turn.executeAlu_fault compare halu]
  rfl

/-! ## From fetch to the stop -/

/-- The machine `s` stopped with a fault in its fifth tick, which does not count the clock (R140, R325). -/
def State.faulted (s : State) (regs : RegFile) (kind : Fault) : State :=
  { s with regs := regs, fault := some kind, pc := s.pc + 1#32, clock := s.clock + 1 + 1 + 1 + 1 }

section
variable {s : State} (h : Idle s)
include h

theorem Idle.empty_claimed (regs : RegFile) (clock : Nat) :
    Empty { s with regs := regs, pc := s.pc + 1#32, clock := clock } :=
  h.toEmpty.update regs s.flags s.mem _ clock

variable (hscalar : s.params.scalar = true)
include hscalar

/-- The last two ticks, from a marked record in Memory. -/
theorem Idle.run_faulted_of_marked {rec : Record} {kind : Fault} (hk : rec.fault = some kind)
    (regs : RegFile) :
    Host.Core.run core 2
      { s with regs := regs, mRec := some rec, pc := s.pc + 1#32, clock := s.clock + 1 + 1 + 1 } =
      .next (s.faulted regs kind) :=
  (run_succ (Empty.step_memory_marked hk (h.empty_claimed regs _) hscalar) 1).trans
    (run_succ (Empty.step_writeBack_marked hk (h.empty_claimed regs (s.clock + 1 + 1 + 1 + 1))) 0)

/-- A word with no meaning is marked in Decode and claims nothing (R313). -/
theorem Idle.faults_of_malformed (hw : s.nextWord ≠ 0#32) {err : DecodeError}
    (he : decode s.nextWord = .error err) :
    Host.Core.run core 5 s = .next (s.faulted s.regs .malformedInstruction) := by
  have decode := (h.empty_claimed s.regs (s.clock + 1)).step_decode_malformed
    (rec := newRecord s.nextWord s.pc) hscalar he
  have execute := Empty.step_execute_marked (rec := (newRecord s.nextWord s.pc).malformed) rfl
    (h.empty_claimed s.regs (s.clock + 1 + 1)) hscalar
  exact (run_succ (step_of_idle_fetched h hw) 4).trans <| (run_succ decode 3).trans <|
    (run_succ execute 2).trans (h.run_faulted_of_marked hscalar rfl s.regs)

/-- An operation that faults is marked in Execute; the claims of Decode stay (R314, R315, R325). -/
theorem AluLife.faults {i : Instr} {rd rs : Reg} {b : Word} {alu : Word → Word → AluOut} {compare : Bool}
    {kind : Fault} (life : AluLife s i rd rs b alu compare) (hi : Sys2Proof.decode s.nextWord = .ok i)
    (halu : alu (s.regs.readNb rd) b = .fault kind) :
    Host.Core.run core 5 s = .next (s.faulted ((s.regs.block rd).block rs) kind) := by
  have decode := life.step_decode (h.empty_claimed s.regs (s.clock + 1)) rfl
    (rec := newRecord s.nextWord s.pc) rfl hscalar hi
  have execute := life.step_execute_fault
    (h.empty_claimed ((s.regs.block rd).block rs) (s.clock + 1 + 1)) rfl (rec := s.aluRecord i rd rs b)
    hscalar rfl rfl halu
  exact (run_succ (step_of_idle_fetched h (ne_zero_of_decode hi)) 4).trans <|
    (run_succ decode 3).trans <| (run_succ execute 2).trans (h.run_faulted_of_marked hscalar rfl _)

end

/-! ## `FaultCommits` -/

/-- What a program reads of the machine stopped in its fifth tick, given that the claims taken leave the
registers' values (R325). -/
theorem State.precise_of_faulted {s : State} {regs : RegFile} {kind : Fault} (running : s.halted = false)
    (hregs : ∀ q, regs.readNb q = s.regs.readNb q)
    (hrun : Host.Core.run core 5 s = .next (s.faulted regs kind)) :
    ∃ t, Host.Core.run core 5 s = .next t ∧ t.fault = some kind ∧ t.halted = false ∧
      (∀ q, t.regs.readNb q = s.regs.readNb q) ∧ t.flags = s.flags ∧ t.mem = s.mem ∧
      t.pc = s.pc + 1#32 ∧ t.clock = s.clock + 4 :=
  ⟨_, hrun, rfl, running, hregs, rfl, rfl, rfl, rfl⟩

/-- Settles O60: a word with no meaning is marked by Decode, the four instructions by the operation of their
`AluLife`; Memory and Write-Back then treat every marked record alike. -/
theorem faultCommits : Obligations.FaultCommits := by
  intro s kind h hscalar hw cause
  have running := (State.halted_fault_of_running h.running).1
  have operation {i : Instr} {rd rs : Reg} {b : Word} {alu : Word → Word → AluOut}
      (life : AluLife s i rd rs b alu false) (hi : decode s.nextWord = .ok i)
      (halu : alu (s.regs.readNb rd) b = .fault kind) :=
    State.precise_of_faulted running (fun q => by simp only [RegFile.readNb_block])
      (life.faults h hscalar hi halu)
  obtain ⟨⟨err, he⟩, rfl⟩ | ⟨⟨rd, imm, hi⟩, rfl⟩ | ⟨⟨rd, rs, hi⟩, rfl⟩ |
    ⟨⟨rd, rs, hi | hi, h0⟩, rfl⟩ := cause
  · exact State.precise_of_faulted running (fun _ => rfl) (h.faults_of_malformed hscalar hw he)
  · exact operation (AluLife.of_regImm h.free fun _ _ => rfl) hi rfl
  · exact operation (AluLife.of_regReg h.free fun _ _ => rfl) hi rfl
  · exact operation (alu := aluDiv s.params.divSigned)
      (AluLife.of_regReg h.free fun _ ht => by rw [← ht]; rfl) hi (if_pos h0)
  · exact operation (alu := aluRem s.params.divSigned)
      (AluLife.of_regReg h.free fun _ ht => by rw [← ht]; rfl) hi (if_pos h0)

end Sys2Proof.Machine
end

section
/-! SUPPORT. A program's instructions one at a time (spec/70_reset_and_hazards.md R360): the form of an
instruction as a function of it, what each stage makes of its record as a function of the record and of what
the stage reads, and the architectural state that the instructions in program order lead through. -/

namespace Sys2Proof.Machine

/-! ## The form of an instruction -/

/-- What the stages do with a word, by its format (R216, R230, R261 to R264, R282, R296, R166). An access names
the instruction Decode writes into the record, with the base register it has put in. -/
inductive Form where
  | alu (i : Instr) (rd rs : Reg) (imm : Option Imm16) (op : Word → Word → AluOut) (compare : Bool)
  | access (j : Instr) (acc : Access)
  | branch (i : Instr) (rm : Reg) (imm : Imm16) (link : Reg) (cond : Flags → Bool)
  | halt
  | invalid

/-- The form of an instruction, under the setting of DIV_SIGNED. -/
def formOf (signed : Bool) (i : Instr) : Form :=
  match i with
  | .addI rd imm => .alu i rd rd (some imm) aluAdd false
  | .subI rd imm => .alu i rd rd (some imm) aluSub false
  | .mulI rd imm => .alu i rd rd (some imm) aluMul false
  | .andI rd imm => .alu i rd rd (some imm) aluAnd false
  | .xorI rd imm => .alu i rd rd (some imm) aluXor false
  | .orI rd imm => .alu i rd rd (some imm) aluOr false
  | .notI rd imm => .alu i rd rd (some imm) aluNot false
  | .negI rd imm => .alu i rd rd (some imm) aluNeg false
  | .shrI rd imm => .alu i rd rd (some imm) aluShr false
  | .sarI rd imm => .alu i rd rd (some imm) aluSar false
  | .shlI rd imm => .alu i rd rd (some imm) aluShl false
  | .rolI rd imm => .alu i rd rd (some imm) aluRol false
  | .ldi rd imm => .alu i rd rd (some imm) aluLdi false
  | .ldx rd imm => .alu i rd rd (some imm) aluUnspecified false
  | .cmpI rd imm => .alu i rd rd (some imm) aluSub true
  | .addR rd rs => .alu i rd rs none aluAdd false
  | .subR rd rs => .alu i rd rs none aluSub false
  | .mulR rd rs => .alu i rd rs none aluMul false
  | .divR rd rs => .alu i rd rs none (aluDiv signed) false
  | .remR rd rs => .alu i rd rs none (aluRem signed) false
  | .orR rd rs => .alu i rd rs none aluOr false
  | .xorR rd rs => .alu i rd rs none aluXor false
  | .andR rd rs => .alu i rd rs none aluAnd false
  | .notR rd rs => .alu i rd rs none aluNot false
  | .shlR rd rs => .alu i rd rs none aluShl false
  | .shrR rd rs => .alu i rd rs none aluShr false
  | .sarR rd rs => .alu i rd rs none aluSar false
  | .rolR rd rs => .alu i rd rs none aluRol false
  | .cmpR rd rs => .alu i rd rs none aluSub true
  | .cpy rd rs => .alu i rd rs none aluCpy false
  | .nsa rd rs => .alu i rd rs none aluUnspecified false
  | .ldw rd rm imm => .access i (Access.indexed rd rm imm true)
  | .stw rd rm imm => .access i (Access.indexed rd rm imm false)
  | .pop rd _ imm => .access (.pop rd spReg imm) (Access.stack rd imm true (· - 1#32))
  | .push rd _ imm => .access (.push rd spReg imm) (Access.stack rd imm false (· + 1#32))
  | .beq rm imm => .branch i rm imm 0#5 Flags.condEq
  | .bne rm imm => .branch i rm imm 0#5 Flags.condNe
  | .blt rm imm => .branch i rm imm 0#5 Flags.condLt
  | .bge rm imm => .branch i rm imm 0#5 Flags.condGe
  | .blu rm imm => .branch i rm imm 0#5 Flags.condLu
  | .bae rm imm => .branch i rm imm 0#5 Flags.condAe
  | .ba rm imm => .branch i rm imm 0#5 Flags.condA
  | .bof rm imm => .branch i rm imm 0#5 Flags.condOf
  | .bnf rm imm => .branch i rm imm 0#5 Flags.condNf
  | .bunc rm imm => .branch i rm imm 0#5 Flags.condAlways
  | .call rm imm => .branch i rm imm linkReg Flags.condAlways
  | .hlt _ _ => .halt

/-- A RegImm meaning with the immediate, else a RegReg one. -/
def State.aluMeaning (t : State) (rd rs : Reg) (imm : Option Imm16) (op : Word → Word → AluOut)
    (compare : Bool) : Outcome State :=
  match imm with
  | some c => t.regImm rd c op compare
  | none => t.regReg rd rs op compare

/-- The form of `i` is what its meaning is made of. -/
inductive Form.Of (signed : Bool) (i : Instr) : Form → Prop where
  | alu (rd rs : Reg) (imm : Option Imm16) (op : Word → Word → AluOut) (compare : Bool)
      (himm : imm ≠ none → rs = rd) (halu : i.isAlu = true)
      (eq : ∀ t : State, t.params.divSigned = signed → exec i t = t.aluMeaning rd rs imm op compare) :
      Form.Of signed i (.alu i rd rs imm op compare)
  | access (j : Instr) (acc : Access) (meaning : acc.IsMeaning i j) (hform : formOf signed j = .access j acc)
      (hload : j.isLoad = acc.loads) (hstore : j.isStore = !acc.loads) (halu : i.isAlu = false) :
      Form.Of signed i (.access j acc)
  | branch (rm : Reg) (imm : Imm16) (link : Reg) (cond : Flags → Bool)
      (eq : ∀ t, exec i t = t.branch rm imm link cond) (hcontrol : i.isControl = true)
      (hcond : i.readsFlags = false → ∀ f g, cond f = cond g) :
      Form.Of signed i (.branch i rm imm link cond)
  | halt (eq : ∀ t, exec i t = t.atStage t.decodeHalt t.executeNothing t.memoryPass t.commitBranch)
      (hhalt : i.isHalt = true) : Form.Of signed i .halt

theorem formOf_of (signed : Bool) (i : Instr) : Form.Of signed i (formOf signed i) := by
  cases i with
  | hlt => exact .halt (fun _ => rfl) rfl
  | ldw =>
    exact .access _ _ (Access.isMeaning_indexed rfl fun _ => rfl) rfl rfl rfl rfl
  | stw =>
    exact .access _ _ (Access.isMeaning_indexed rfl fun _ => rfl) rfl rfl rfl rfl
  | pop rd rm imm =>
    exact .access _ _ (Access.isMeaning_stack (op := (.pop rd · imm)) rfl (fun _ _ => rfl) rm) rfl rfl rfl rfl
  | push rd rm imm =>
    exact .access _ _ (Access.isMeaning_stack (op := (.push rd · imm)) rfl (fun _ _ => rfl) rm) rfl rfl rfl rfl
  | bunc => exact .branch _ _ _ _ (fun _ => rfl) rfl fun _ _ _ => rfl
  | call => exact .branch _ _ _ _ (fun _ => rfl) rfl fun _ _ _ => rfl
  | divR => exact .alu _ _ _ _ _ (by simp) rfl fun t ht => by rw [← ht]; rfl
  | remR => exact .alu _ _ _ _ _ (by simp) rfl fun t ht => by rw [← ht]; rfl
  | beq | bne | blt | bge | blu | bae | ba | bof | bnf => exact .branch _ _ _ _ (fun _ => rfl) rfl nofun
  | _ => exact .alu _ _ _ _ _ (by simp) rfl fun _ _ => rfl

/-- The form of a word: of its instruction, if it has one (R124). -/
def wordForm (signed : Bool) (w : Word) : Form :=
  match decode w with
  | .ok i => formOf signed i
  | .error _ => .invalid

end Sys2Proof.Machine
end

section
/-! SUPPORT. What each stage makes of a record of a given form, as a function, and that the stages of a tick do
exactly that (spec/40_pipeline.md R160 to R184). -/

namespace Sys2Proof.Machine

/-! ## What the stages make of a record -/

/-- The op Decode writes into the record. -/
def Form.op : Form → Op
  | .alu i _ _ _ _ _ => .instr i
  | .access j _ => .instr j
  | .branch i _ _ _ _ => .instr i
  | .halt => .undecoded
  | .invalid => .invalid

/-- The registers Decode reads (R161 to R165); register 0 stands for a PC-relative branch's base. -/
def Form.reads : Form → List Reg
  | .alu _ rd rs _ _ _ => [rd, rs]
  | .access _ acc => [acc.rd, acc.base]
  | .branch _ rm _ _ _ => [rm]
  | .halt | .invalid => []

/-- The registers Decode claims (R161 to R166). -/
def Form.claims : Form → List Reg
  | .alu _ rd rs _ _ _ => claimSet rd rs
  | .access _ acc => claimSet acc.rd acc.base
  | .branch .. | .halt | .invalid => []

/-- The auxiliary register (R161 to R165). -/
def Form.aux : Form → Reg
  | .access _ acc => acc.aux
  | .branch _ _ _ link _ => link
  | .alu .. | .halt | .invalid => 0#5

def Form.isHalt : Form → Bool
  | .halt => true
  | _ => false

def Form.isBranch : Form → Bool
  | .branch .. => true
  | _ => false

/-- The record Decode makes when the registers hold `v` (R161 to R166). -/
def Form.decoded (f : Form) (v : Reg → Word) (rec : Record) : Record :=
  match f with
  | .alu i rd rs imm _ _ =>
    Record.readOperands { rec with op := .instr i } rd rs (v rd)
      (match imm with
        | some c => sext16 c
        | none => v rs)
  | .access j acc => acc.decoded j rec (v acc.rd) (v acc.base)
  | .branch i rm imm link _ => rec.branchDecoded i (if rm = 0#5 then rec.pc else v rm) imm link
  | .halt => rec
  | .invalid => { (rec.markFault .malformedInstruction) with op := .invalid, claims := [] }

/-- The record and the flags Execute leaves (R170 to R173). -/
def Form.executed (f : Form) (p : Params) (flags : Flags) (rec : Record) : Record × Flags :=
  if rec.fault.isSome then (rec, flags)
  else
    match f with
    | .alu _ _ _ _ op compare =>
      match op rec.result rec.operand with
      | .done res flags' => (rec.computed res compare, flags')
      | .fault kind => (rec.markFault kind, flags)
    | .access _ acc => (acc.addressed p rec, flags)
    | .branch _ _ _ _ cond => (rec.resolved p (cond flags), flags)
    | .halt | .invalid => (rec, flags)

/-- The record a load makes of the word it has read (R177). -/
def Access.loaded (acc : Access) (rec : Record) (v : Word) : Record :=
  { rec with result := v, destMemAddr := acc.next rec.destMemAddr }

/-- The record a store leaves (R178). -/
def Access.storedRecord (acc : Access) (rec : Record) : Record :=
  { rec with destMemAddr := acc.next rec.destMemAddr }

/-- The record and the RAM's contents Memory leaves (R176 to R178). -/
def Form.accessed (f : Form) (p : Params) (cells : RamCells) (rec : Record) : Record × RamCells :=
  if rec.fault.isSome then (rec, cells)
  else
    match f with
    | .access _ acc =>
      if acc.loads then
        (acc.loaded rec (cells.word (rec.destMemAddr.toNat % p.ramWords)), cells)
      else
        (acc.storedRecord rec, cells.setWord (rec.destMemAddr.toNat % p.ramWords) rec.result)
    | _ => (rec, cells)

/-- The registers' values after a write of `x` to `r` (R22, R25). -/
def setReg (v : Reg → Word) (r : Reg) (x : Word) : Reg → Word :=
  fun q => if q = r ∧ r ≠ 0#5 then x else v q

/-- The registers' values Write-Back leaves (R181 to R183). -/
def Form.committed (f : Form) (v : Reg → Word) (rec : Record) : Reg → Word :=
  match f with
  | .alu _ rd _ _ _ _ => if rec.writeBack then setReg v rd rec.result else v
  | .access _ acc =>
    setReg (if rec.writeBack then setReg v acc.rd rec.result else v) rec.auxReg rec.destMemAddr
  | .branch .. => if rec.branchTaken then setReg v rec.auxReg (rec.pc + 1#32) else v
  | .halt | .invalid => v

/-- What Decode has settled of a record for all later stages. -/
structure Form.Carries (f : Form) (rec : Record) : Prop where
  op : rec.op = f.op
  claims : rec.claims = f.claims
  aux : rec.auxReg = f.aux
  taken : rec.branchTaken = true → f.isBranch = true

section
variable {f : Form} {rec : Record}

theorem Form.decoded_carries (hhalt : f.isHalt = false) (hb : rec.branchTaken = false) (haux : rec.auxReg = 0#5)
    (v : Reg → Word) : f.Carries (f.decoded v rec) := by
  have untaken : rec.branchTaken = true → f.isBranch = true := fun h => by simp [hb] at h
  cases f with
  | alu i rd rs imm op compare => exact ⟨rfl, rfl, rfl, untaken⟩
  | access j acc => exact ⟨rfl, rfl, rfl, untaken⟩
  | branch i rm imm link cond => exact ⟨rfl, rfl, rfl, untaken⟩
  | halt => cases hhalt
  | invalid => exact ⟨rfl, rfl, haux, untaken⟩

theorem Form.Carries.executed (h : f.Carries rec) (p : Params) (flags : Flags) :
    f.Carries (f.executed p flags rec).1 := by
  obtain ⟨op, claims, aux, taken⟩ := h
  unfold Form.executed
  split
  · exact ⟨op, claims, aux, taken⟩
  · cases f with
    | alu i rd rs imm alu compare =>
      dsimp only
      split <;> exact ⟨op, claims, aux, taken⟩
    | access j acc => exact ⟨op, claims, aux, taken⟩
    | branch i rm imm link cond =>
      dsimp only [Record.resolved]
      split <;> exact ⟨op, claims, aux, fun _ => rfl⟩
    | halt => exact ⟨op, claims, aux, taken⟩
    | invalid => exact ⟨op, claims, aux, taken⟩

theorem Form.Carries.accessed (h : f.Carries rec) (p : Params) (cells : RamCells) :
    f.Carries (f.accessed p cells rec).1 := by
  obtain ⟨op, claims, aux, taken⟩ := h
  unfold Form.accessed
  split
  · exact ⟨op, claims, aux, taken⟩
  · cases f with
    | access j acc =>
      dsimp only
      split <;> exact ⟨op, claims, aux, taken⟩
    | _ => exact ⟨op, claims, aux, taken⟩

/-- Execute keeps the word and the address of a record. -/
theorem Form.executed_source (f : Form) (p : Params) (flags : Flags) (rec : Record) :
    (f.executed p flags rec).1.raw = rec.raw ∧ (f.executed p flags rec).1.pc = rec.pc := by
  unfold Form.executed
  split
  · exact ⟨rfl, rfl⟩
  · cases f with
    | alu i rd rs imm alu compare =>
      dsimp only
      split <;> exact ⟨rfl, rfl⟩
    | branch i rm imm link cond =>
      dsimp only [Record.resolved]
      split <;> exact ⟨rfl, rfl⟩
    | _ => exact ⟨rfl, rfl⟩

/-- Memory keeps the word, the address and the marks of a record. -/
theorem Form.accessed_source (f : Form) (p : Params) (cells : RamCells) (rec : Record) :
    (f.accessed p cells rec).1.raw = rec.raw ∧ (f.accessed p cells rec).1.pc = rec.pc ∧
      (f.accessed p cells rec).1.fault = rec.fault ∧
      (f.accessed p cells rec).1.branchTaken = rec.branchTaken := by
  unfold Form.accessed
  split
  · exact ⟨rfl, rfl, rfl, rfl⟩
  · cases f with
    | access j acc =>
      dsimp only
      split <;> exact ⟨rfl, rfl, rfl, rfl⟩
    | _ => exact ⟨rfl, rfl, rfl, rfl⟩

theorem Form.decoded_source (f : Form) (v : Reg → Word) (rec : Record) :
    (f.decoded v rec).raw = rec.raw ∧ (f.decoded v rec).pc = rec.pc := by
  cases f <;> exact ⟨rfl, rfl⟩

/-- Decode depends on the registers it reads alone. -/
theorem Form.decoded_congr {v v' : Reg → Word} (h : ∀ q ∈ f.reads, v q = v' q) (rec : Record) :
    f.decoded v rec = f.decoded v' rec := by
  cases f with
  | alu i rd rs imm op compare =>
    have hrd := h rd (by simp [Form.reads])
    have hrs := h rs (by simp [Form.reads])
    simp only [Form.decoded, hrd, hrs]
  | access j acc =>
    have hrd := h acc.rd (by simp [Form.reads])
    have hbase := h acc.base (by simp [Form.reads])
    simp only [Form.decoded, hrd, hbase]
  | branch i rm imm link cond =>
    have hrm := h rm (by simp [Form.reads])
    simp only [Form.decoded, hrm]
  | halt => rfl
  | invalid => rfl

/-- Decode overwrites the op (R160). -/
theorem Form.decoded_withOp (hhalt : f.isHalt = false) (v : Reg → Word) (rec : Record) (op : Op) :
    f.decoded v { rec with op := op } = f.decoded v rec := by
  cases f with
  | halt => cases hhalt
  | _ => rfl

end

/-! ## The stages do it -/

/-- `f` is the form of some word. -/
def Form.OfWord (signed : Bool) (f : Form) : Prop := ∃ w, f = wordForm signed w

theorem Form.OfWord.cases {signed : Bool} {f : Form} (h : f.OfWord signed) :
    f = .invalid ∨ ∃ i, f.Of signed i := by
  obtain ⟨w, rfl⟩ := h
  unfold wordForm
  split
  · next i _ => exact .inr ⟨i, formOf_of signed i⟩
  · exact .inl rfl

/-- The op of a form has this form again, and is not HLT. -/
theorem Form.OfWord.of_op {signed : Bool} {f : Form} (h : f.OfWord signed) {j : Instr} (hj : f.op = .instr j) :
    f = formOf signed j ∧ f.Of signed j := by
  obtain rfl | ⟨i, hi⟩ := h.cases
  · cases hj
  · have again : f = formOf signed j := by
      obtain ⟨w, hw⟩ := h
      unfold wordForm at hw
      split at hw
      · next i' _ =>
        have hi' := formOf_of signed i'
        rw [← hw] at hi'
        cases hi' with
        | alu => cases hj; exact hw
        | access j' acc _ hform => cases hj; exact hform.symm
        | branch => cases hj; exact hw
        | halt => cases hj
      · rw [hw] at hj; cases hj
    exact ⟨again, again ▸ formOf_of signed j⟩

/-- A RegImm or RegReg meaning but for its Decode. -/
theorem State.aluMeaning_atStage (t : State) (rd rs : Reg) (imm : Option Imm16)
    (op : Word → Word → AluOut) (compare : Bool) :
    ∃ d, t.aluMeaning rd rs imm op compare =
      t.atStage d (t.executeAlu op compare) t.memoryPass (t.commitResult rd) := by
  cases imm <;> exact ⟨_, rfl⟩

/-! ### Execute -/

section
variable {s : State} {rec : Record} {f : Form}

theorem Form.executed_of_marked (p : Params) (flags : Flags) (h : rec.fault ≠ none) :
    f.executed p flags rec = (rec, flags) :=
  if_pos (Option.isSome_iff_ne_none.2 h)

theorem Form.executed_of_unmarked (p : Params) (flags : Flags) (h : rec.fault = none) :
    f.executed p flags rec =
      match f with
      | .alu _ _ _ _ op compare =>
        match op rec.result rec.operand with
        | .done res flags' => (rec.computed res compare, flags')
        | .fault kind => (rec.markFault kind, flags)
      | .access _ acc => (acc.addressed p rec, flags)
      | .branch _ _ _ _ cond => (rec.resolved p (cond flags), flags)
      | .halt | .invalid => (rec, flags) := by
  unfold Form.executed
  rw [h]
  rfl

/-- The state Execute leaves: what the form makes of its record and of the flags. -/
def State.afterExecute (s : State) (f : Form) (rec : Record) : State :=
  { s with
    flags := (f.executed s.params s.flags rec).2
    xRec := some (f.executed s.params s.flags rec).1
    xDone := true }

theorem State.onExecute_marked_eq (hr : s.xRec = some rec) (hd : s.xDone = false) (hm : rec.fault ≠ none)
    (f : Form) (work : Record → State → State) : s.onExecute work = s.afterExecute f rec := by
  obtain ⟨k, hk⟩ := Option.ne_none_iff_exists'.1 hm
  rw [State.onExecute_of_marked hk hr hd]
  simp only [State.afterExecute, Form.executed_of_marked _ _ hm, ← hr]

/-- Execute's work of an instruction that Decode has written into the record. -/
theorem exec_execute_form {i j : Instr} (hof : f.Of s.params.divSigned i) (hj : f.op = .instr j)
    (hs : s.stage = .execute) (hr : s.xRec = some rec) (hd : s.xDone = false) :
    exec j s = .next (s.afterExecute f rec) := by
  by_cases hm : rec.fault = none
  · have turn : AtExecute s rec := ⟨hs, hr, hd, hm⟩
    cases hof with
    | alu rd rs imm op compare _ _ eq =>
      cases hj
      have work : exec i s = .next (s.executeAlu op compare) := by
        obtain ⟨d, hd⟩ := s.aluMeaning_atStage rd rs imm op compare
        rw [eq s rfl, hd, turn.atStage]
      rw [work, State.executeAlu, turn.onExecute]
      simp only [State.afterExecute, Form.executed_of_unmarked _ _ hm]
      cases op rec.result rec.operand with
      | done res flags => rfl
      | fault kind => rfl
    | access j' acc meaning =>
      cases hj
      rw [meaning.execute turn]
      simp only [State.afterExecute, Form.executed_of_unmarked _ _ hm]
    | branch rm imm link cond eq =>
      cases hj
      rw [eq, State.branch, turn.atStage, turn.executeBranch]
      simp only [State.afterExecute, Form.executed_of_unmarked _ _ hm]
    | halt => cases hj
  · have marked := State.onExecute_marked_eq hr hd hm f
    obtain ⟨t, ht⟩ := exec_answers j s
    rw [ht]
    congr 1
    cases exec_shape j s with
    | alu _ _ _ _ eq =>
      obtain rfl := State.atStage_execute hs (eq.symm.trans ht)
      exact marked _
    | loadStore _ _ _ _ _ _ _ _ eq hexecute =>
      obtain rfl := State.atStage_execute hs (eq.symm.trans ht)
      obtain rfl | rfl := hexecute <;> exact marked _
    | branch _ _ _ _ eq =>
      obtain rfl := State.atStage_execute hs (eq.symm.trans ht)
      exact marked _
    | halt eq =>
      obtain rfl := State.atStage_execute hs (eq.symm.trans ht)
      exact marked _

theorem State.executeNothing_form (hr : s.xRec = some rec) (hd : s.xDone = false) :
    s.executeNothing = s.afterExecute .invalid rec := by
  by_cases hm : rec.fault = none
  · rw [State.executeNothing, State.onExecute_of hr hd hm]
    simp only [State.afterExecute, Form.executed_of_unmarked _ _ hm, ← hr]
  · exact State.onExecute_marked_eq hr hd hm _ _

/-- A form that stays in the pipeline is written into the record as an instruction or as `Invalid`. -/
theorem Form.op_cases (hhalt : f.isHalt = false) : f = .invalid ∨ ∃ j, f.op = .instr j := by
  cases f with
  | halt => cases hhalt
  | invalid => exact .inl rfl
  | _ => exact .inr ⟨_, rfl⟩

/-- Execute's part of a tick on a record of a form that it has not executed yet. -/
theorem State.executeExecute_form (hf : f.OfWord s.params.divSigned) (hhalt : f.isHalt = false)
    (hop : rec.op = f.op) (hr : s.xRec = some rec) (hd : s.xDone = false) :
    s.executeExecute = .next (State.afterExecute { s with stage := .execute } f rec) := by
  obtain rfl | ⟨j, hj⟩ := Form.op_cases hhalt
  · have work : s.executeExecute = .next (State.executeNothing { s with stage := .execute }) := by
      simp only [State.executeExecute, hr, hop, Form.op]
    rw [work, State.executeNothing_form (s := { s with stage := .execute }) hr hd]
  · obtain ⟨_, hof⟩ := hf.of_op hj
    rw [State.executeExecute_of_instr hr (hop.trans hj)]
    exact exec_execute_form (s := { s with stage := .execute }) hof hj rfl hr hd

/-! ### Memory -/

theorem Form.accessed_of_marked (p : Params) (cells : RamCells) (h : rec.fault ≠ none) :
    f.accessed p cells rec = (rec, cells) :=
  if_pos (Option.isSome_iff_ne_none.2 h)

theorem Form.accessed_of_unmarked (p : Params) (cells : RamCells) (h : rec.fault = none) :
    f.accessed p cells rec =
      match f with
      | .access _ acc =>
        if acc.loads then
          (acc.loaded rec (cells.word (rec.destMemAddr.toNat % p.ramWords)), cells)
        else
          (acc.storedRecord rec, cells.setWord (rec.destMemAddr.toNat % p.ramWords) rec.result)
      | _ => (rec, cells) := by
  unfold Form.accessed
  rw [h]
  rfl

/-- The form asks the memory for the record: its load or its store (R177, R178). -/
def Form.asks (f : Form) (rec : Record) : Bool :=
  match f with
  | .access .. => rec.fault.isNone
  | _ => false

/-- What Memory's work on a record of a form can do (R176 to R178). -/
inductive MemoryWork (s : State) (f : Form) (rec : Record) (t : State) : Prop where
  | passes (hasks : f.asks rec = false) (eq : t = { s with mDone := true })
  | reads (j : Instr) (acc : Access) (hform : f = .access j acc) (hloads : acc.loads = true)
      (hf : rec.fault = none) (v : Word) (m : MemSys)
      (hm : s.mem.cacheRead s.params rec.destMemAddr .memory = (.success v, m))
      (eq : t = { s with mem := m, mWaiting := false, mDone := true, mRec := some (acc.loaded rec v) })
  | readWaits (j : Instr) (acc : Access) (hform : f = .access j acc) (hloads : acc.loads = true)
      (hf : rec.fault = none) (r : Answer Word) (hr : r = .wait ∨ r = .waitNextLevel) (m : MemSys)
      (hm : s.mem.cacheRead s.params rec.destMemAddr .memory = (r, m))
      (eq : t = { s with mem := m, mWaiting := true })
  | writes (j : Instr) (acc : Access) (hform : f = .access j acc) (hloads : acc.loads = false)
      (hf : rec.fault = none) (m : MemSys)
      (hm : s.mem.cacheWrite s.params rec.destMemAddr .memory rec.result = (.success (), m))
      (eq : t = { s with mem := m, mWaiting := false, mDone := true, mRec := some (acc.storedRecord rec) })
  | writeWaits (j : Instr) (acc : Access) (hform : f = .access j acc) (hloads : acc.loads = false)
      (hf : rec.fault = none) (r : Answer Unit) (hr : r = .wait ∨ r = .waitNextLevel) (m : MemSys)
      (hm : s.mem.cacheWrite s.params rec.destMemAddr .memory rec.result = (r, m))
      (eq : t = { s with mem := m, mWaiting := true })

theorem exec_memory_form {i j : Instr} (hof : f.Of s.params.divSigned i) (hj : f.op = .instr j)
    (hs : s.stage = .memory) (hr : s.mRec = some rec) (hd : s.mDone = false) :
    ∃ t, exec j s = .next t ∧ MemoryWork s f rec t := by
  by_cases hm : rec.fault = none
  · have turn : AtMemory s rec := ⟨hs, hr, hd, hm⟩
    cases hof with
    | alu rd rs imm op compare _ _ eq =>
      cases hj
      have work : exec i s = .next s.memoryPass := by
        obtain ⟨d, hd⟩ := s.aluMeaning_atStage rd rs imm op compare
        rw [eq s rfl, hd, turn.atStage]
      exact ⟨_, work, .passes rfl turn.memoryPass⟩
    | access j' acc meaning =>
      cases hj
      cases hl : acc.loads with
      | true =>
        refine ⟨_, (meaning.memory turn).trans (by rw [hl]), ?_⟩
        rcases hread : s.mem.cacheRead s.params rec.destMemAddr .memory with ⟨r, m⟩
        cases r with
        | success v => exact .reads _ acc rfl hl hm v m hread (turn.memoryLoad_success _ hread)
        | wait =>
          exact .readWaits _ acc rfl hl hm _ (.inl rfl) m hread (turn.memoryLoad_refused _ hread (.inl rfl))
        | waitNextLevel =>
          exact .readWaits _ acc rfl hl hm _ (.inr rfl) m hread (turn.memoryLoad_refused _ hread (.inr rfl))
      | false =>
        refine ⟨_, (meaning.memory turn).trans (by rw [hl]), ?_⟩
        rcases hwrite : s.mem.cacheWrite s.params rec.destMemAddr .memory rec.result with ⟨r, m⟩
        cases r with
        | success v => exact .writes _ acc rfl hl hm m hwrite (turn.memoryStore_success _ hwrite)
        | wait =>
          exact .writeWaits _ acc rfl hl hm _ (.inl rfl) m hwrite (turn.memoryStore_refused _ hwrite (.inl rfl))
        | waitNextLevel =>
          exact .writeWaits _ acc rfl hl hm _ (.inr rfl) m hwrite (turn.memoryStore_refused _ hwrite (.inr rfl))
    | branch rm imm link cond eq =>
      cases hj
      exact ⟨_, (eq s).trans (turn.atStage ..), .passes rfl turn.memoryPass⟩
    | halt => cases hj
  · have unasked : f.asks rec = false := by
      cases f with
      | access => exact Option.isNone_eq_false_iff.2 (Option.isSome_iff_ne_none.2 hm)
      | _ => rfl
    obtain ⟨k, hk⟩ := Option.ne_none_iff_exists'.1 hm
    have marked (work : Record → State) : s.onMemory work = { s with mDone := true } :=
      State.onMemory_of_marked hk hr hd work
    obtain ⟨t, ht⟩ := exec_answers j s
    refine ⟨t, ht, .passes unasked ?_⟩
    cases exec_shape j s with
    | alu _ _ _ _ eq =>
      obtain rfl := State.atStage_memory hs (eq.symm.trans ht)
      exact marked _
    | loadStore _ _ _ _ _ _ _ _ eq _ hmemory =>
      obtain rfl := State.atStage_memory hs (eq.symm.trans ht)
      obtain ⟨next, rfl⟩ | ⟨next, rfl⟩ := hmemory <;> exact marked _
    | branch _ _ _ _ eq =>
      obtain rfl := State.atStage_memory hs (eq.symm.trans ht)
      exact marked _
    | halt eq =>
      obtain rfl := State.atStage_memory hs (eq.symm.trans ht)
      exact marked _

/-- Memory's part of a tick on a record of a form that it has not finished yet. -/
theorem State.memoryExecute_form (hf : f.OfWord s.params.divSigned) (hhalt : f.isHalt = false)
    (hop : rec.op = f.op) (hr : s.mRec = some rec) (hd : s.mDone = false) :
    ∃ t, s.memoryExecute = .next t ∧ MemoryWork { s with stage := .memory } f rec t := by
  obtain rfl | ⟨j, hj⟩ := Form.op_cases hhalt
  · have work : s.memoryExecute = .next (State.memoryPass { s with stage := .memory }) := by
      simp only [State.memoryExecute, hr, hop, Form.op]
    refine ⟨_, work, .passes rfl ?_⟩
    obtain ⟨_, hn | hn⟩ | ⟨rec', hr', _, ⟨_, h⟩ | ⟨_, h⟩⟩ :=
      State.onMemory_cases { s with stage := .memory } fun _ => { s with stage := .memory, mDone := true }
    · cases hr.symm.trans hn
    · cases hd.symm.trans hn
    · exact h
    · exact h
  · obtain ⟨_, hof⟩ := hf.of_op hj
    rw [State.memoryExecute_of_instr hr (hop.trans hj)]
    exact exec_memory_form (s := { s with stage := .memory }) hof hj rfl hr hd

/-! ### Write-Back -/

/-- What Write-Back's work on a record of a form does (R181 to R184). -/
inductive WriteBackWork (s : State) (f : Form) (rec : Record) (t : State) : Prop where
  | faults (k : Fault) (hk : rec.fault = some k) (eq : t = { s with wRec := none, fault := some k })
  | jumps (hf : rec.fault = none) (hb : rec.branchTaken = true)
      (eq : t = State.squashAll
        { s with wRec := none, regs := s.regs.linked rec, pc := rec.destMemAddr })
  | commits (hf : rec.fault = none) (hb : rec.branchTaken = false) (regs : RegFile)
      (hregs : ∀ q, regs.readNb q = f.committed s.regs.readNb rec q)
      (eq : t = { s with wRec := none, regs := regs })

theorem readNb_writeNb_eq_setReg (regs : RegFile) (r : Reg) (v : Word) :
    (regs.writeNb r v).readNb = setReg regs.readNb r v := by
  funext q
  exact RegFile.readNb_writeNb regs r q v

theorem setReg_zero (v : Reg → Word) (x : Word) : setReg v 0#5 x = v := by
  funext q
  simp [setReg]

theorem readNb_release_eq (regs : RegFile) (claims : List Reg) :
    (regs.release claims).readNb = regs.readNb := by
  funext q
  exact RegFile.readNb_release ..

/-- Both the result and the new SP are written to registers that have just been released (R182, R183). -/
theorem readNb_commit {regs : RegFile} {rec : Record} {rd : Reg} (hrd : rd ≠ 0#5 → rd ∈ rec.claims)
    (haux : rec.auxReg ≠ 0#5 → rec.auxReg ∈ rec.claims) :
    ((if rec.writeBack then (regs.release rec.claims).writeOrKeep rd rec.result
        else regs.release rec.claims).writeAux rec).readNb =
      setReg (if rec.writeBack then setReg regs.readNb rd rec.result else regs.readNb) rec.auxReg
        rec.destMemAddr := by
  have result : (if rec.writeBack then (regs.release rec.claims).writeOrKeep rd rec.result
        else regs.release rec.claims).readNb =
      if rec.writeBack then setReg regs.readNb rd rec.result else regs.readNb := by
    split
    · rw [RegFile.writeOrKeep_of_writable (regs.writeEnable_release_of_mem hrd), readNb_writeNb_eq_setReg,
        readNb_release_eq]
    · exact readNb_release_eq ..
  by_cases h0 : rec.auxReg = 0#5
  · rw [RegFile.writeAux_of_zero _ h0, h0, setReg_zero, result]
  · rw [RegFile.writeAux_of_writable h0, readNb_writeNb_eq_setReg, result]
    split
    · rw [RegFile.writeEnable_writeOrKeep]
      exact regs.writeEnable_release_of_mem haux h0
    · exact regs.writeEnable_release_of_mem haux h0

theorem State.commitResult_readNb (hr : s.wRec = some rec) (hf : rec.fault = none) {rd : Reg}
    (hrd : rd ≠ 0#5 → rd ∈ rec.claims) (haux : rec.auxReg ≠ 0#5 → rec.auxReg ∈ rec.claims) :
    ∃ regs, s.commitResult rd = { s with wRec := none, regs := regs } ∧
      ∀ q, regs.readNb q = setReg (if rec.writeBack then setReg s.regs.readNb rd rec.result
        else s.regs.readNb) rec.auxReg rec.destMemAddr q := by
  refine ⟨_, ?_, fun q => congrFun (readNb_commit hrd haux) q⟩
  rw [State.commitResult, State.onWriteBack_of hr hf]
  split <;> rfl

/-- The auxiliary register of an access is register 0 or its base. -/
def Form.AuxClaimed (f : Form) : Prop := f.isBranch = false → f.aux ≠ 0#5 → f.aux ∈ f.claims

theorem Form.OfWord.auxClaimed {signed : Bool} (h : f.OfWord signed) : f.AuxClaimed := by
  obtain ⟨w, rfl⟩ := h
  unfold wordForm
  split
  · next i _ =>
    cases i with
    | pop | push => exact fun _ h0 => mem_claimSet.2 ⟨h0, .inr rfl⟩
    | beq | bne | blt | bge | blu | bae | ba | bof | bnf | bunc | call => exact nofun
    | _ => exact fun _ h0 => absurd rfl h0
  · exact fun _ h0 => absurd rfl h0

theorem exec_writeBack_form {i j : Instr} (hof : f.Of s.params.divSigned i) (hj : f.op = .instr j)
    (hcarries : f.Carries rec) (haux : f.AuxClaimed) (hs : s.stage = .writeBack) (hr : s.wRec = some rec) :
    ∃ t, exec j s = .next t ∧ WriteBackWork s f rec t := by
  obtain ⟨hop, hclaims, hauxReg, htaken⟩ := hcarries
  have untaken (hb : f.isBranch = false) : rec.branchTaken = false :=
    Bool.eq_false_iff.2 fun e => by simp [htaken e] at hb
  have claimed (hb : f.isBranch = false) : rec.auxReg ≠ 0#5 → rec.auxReg ∈ rec.claims := by
    rw [hauxReg, hclaims]
    exact haux hb
  by_cases hm : rec.fault = none
  · have turn : AtWriteBack s rec := ⟨hs, hr, hm⟩
    cases hof with
    | alu rd rs imm op compare _ _ eq =>
      cases hj
      have work : exec i s = .next (s.commitResult rd) := by
        obtain ⟨d, hd⟩ := s.aluMeaning_atStage rd rs imm op compare
        rw [eq s rfl, hd, turn.atStage]
      obtain ⟨regs, ht, hregs⟩ := State.commitResult_readNb (rd := rd) hr hm
        (fun h0 => by rw [hclaims]; exact mem_claimSet.2 ⟨h0, .inl rfl⟩) (claimed rfl)
      refine ⟨_, work, .commits hm (untaken rfl) regs (fun q => ?_) ht⟩
      have h0 : rec.auxReg = 0#5 := hauxReg
      rw [hregs, h0, setReg_zero]
      rfl
    | access j' acc meaning =>
      cases hj
      obtain ⟨regs, ht, hregs⟩ := State.commitResult_readNb (rd := acc.rd) hr hm
        (fun h0 => by rw [hclaims]; exact mem_claimSet.2 ⟨h0, .inl rfl⟩) (claimed rfl)
      exact ⟨_, turn.exec_eq meaning.destination, .commits hm (untaken rfl) regs hregs ht⟩
    | branch rm imm link cond eq =>
      cases hj
      refine ⟨_, (eq s).trans (turn.atStage ..), ?_⟩
      cases hb : rec.branchTaken with
      | true => exact .jumps hm hb (turn.commitBranch_taken hb)
      | false =>
        refine .commits hm hb s.regs (fun q => ?_) (turn.commitBranch_notTaken hb)
        simp [Form.committed, hb]
    | halt => cases hj
  · obtain ⟨k, hk⟩ := Option.ne_none_iff_exists'.1 hm
    have marked (work : Record → State → State) :
        s.onWriteBack work = { s with wRec := none, fault := some k } :=
      State.onWriteBack_of_marked hk hr work
    obtain ⟨t, ht⟩ := exec_answers j s
    refine ⟨t, ht, .faults k hk ?_⟩
    cases exec_shape j s with
    | alu _ _ _ _ eq =>
      obtain rfl := State.atStage_writeBack hs (eq.symm.trans ht)
      exact marked _
    | loadStore _ _ _ _ _ _ _ _ eq =>
      obtain rfl := State.atStage_writeBack hs (eq.symm.trans ht)
      exact marked _
    | branch _ _ _ _ eq =>
      obtain rfl := State.atStage_writeBack hs (eq.symm.trans ht)
      exact marked _
    | halt eq =>
      obtain rfl := State.atStage_writeBack hs (eq.symm.trans ht)
      exact marked _

/-- Write-Back's part of a tick on a record of a form; an `Invalid` one is marked (R166). -/
theorem State.writeBackExecute_form (hf : f.OfWord s.params.divSigned) (hhalt : f.isHalt = false)
    (hcarries : f.Carries rec) (hinvalid : f = .invalid → rec.fault ≠ none) (hr : s.wRec = some rec) :
    ∃ t, s.writeBackExecute = .next t ∧ WriteBackWork { s with stage := .writeBack } f rec t := by
  obtain rfl | ⟨j, hj⟩ := Form.op_cases hhalt
  · have work : s.writeBackExecute = .next (State.commitNone { s with stage := .writeBack }) := by
      simp only [State.writeBackExecute, hr, hcarries.op, Form.op]
    obtain ⟨k, hk⟩ := Option.ne_none_iff_exists'.1 (hinvalid rfl)
    exact ⟨_, work, .faults k hk (State.onWriteBack_of_marked (s := { s with stage := .writeBack }) hk hr _)⟩
  · obtain ⟨_, hof⟩ := hf.of_op hj
    rw [State.writeBackExecute_of_instr hr (hcarries.op.trans hj)]
    exact exec_writeBack_form (s := { s with stage := .writeBack }) hof hj hcarries hf.auxClaimed rfl hr

/-! ### Decode -/

/-- What Decode's work on a record whose word has the form does (R160 to R166). -/
inductive DecodeWork (s : State) (f : Form) (rec : Record) (t : State) : Prop where
  | halts (hhalt : f.isHalt = true)
      (eq : t = { s.squashFetch with haltPending := true, dRec := none, dState := .free })
  | finishes (hhalt : f.isHalt = false) (hreads : ∀ q ∈ f.reads, s.regs.read q ≠ none) (regs : RegFile)
      (hregs : ∀ q, regs.readNb q = s.regs.readNb q)
      (eq : t = s.decoded regs (f.decoded s.regs.readNb rec))
  | waits (q : Reg) (hq : q ∈ f.reads) (hblocked : s.regs.read q = none) (op : Op)
      (eq : t = s.awaitRead { rec with op := op })

theorem RegFile.read_cases (regs : RegFile) (r : Reg) :
    regs.read r = none ∨ regs.read r = some (regs.readNb r) := by
  cases h : regs.read r with
  | none => exact .inl rfl
  | some v => exact .inr (congrArg some (RegFile.read_eq_some.1 h).1)

theorem exec_decode_form {i : Instr} (hof : f.Of s.params.divSigned i) (hs : s.stage = .decode)
    (hr : s.dRec = some { rec with op := .instr i }) (hp : s.dState ≠ .free) :
    ∃ t, exec i s = .next t ∧ DecodeWork s f rec t := by
  have turn : AtDecode s { rec with op := .instr i } := ⟨hs, hr, hp⟩
  have ne {q : Reg} (h : s.regs.read q = some (s.regs.readNb q)) : s.regs.read q ≠ none := by
    rw [h]; exact Option.some_ne_none _
  have waits {q : Reg} (hq : q ∈ f.reads) (h : s.regs.read q = none) (op : Op) :
      DecodeWork s f rec (s.awaitRead { rec with op := op }) := .waits q hq h op rfl
  have stay : { s with dState := .awaitingRegRead } = s.awaitRead { rec with op := .instr i } :=
    turn.awaitRead.symm
  cases hof with
  | alu rd rs imm op compare himm _ eq =>
    cases imm with
    | some c =>
      obtain rfl := himm (by simp)
      refine ⟨_, (eq s rfl).trans (turn.atStage ..), ?_⟩
      obtain hrd | hrd := s.regs.read_cases rs
      · rw [turn.decodeRegImm_blocked _ hrd, stay]
        exact waits (by simp [Form.reads]) hrd _
      · refine .finishes rfl (fun q hq => ?_) (s.regs.block rs) (fun q => RegFile.readNb_block ..)
          (turn.decodeRegImm _ hrd)
        obtain rfl : q = rs := by simpa [Form.reads] using hq
        exact ne hrd
    | none =>
      refine ⟨_, (eq s rfl).trans (turn.atStage ..), ?_⟩
      obtain hrd | hrd := s.regs.read_cases rd
      · rw [turn.decodeRegReg_blocked (.inl hrd), stay]
        exact waits (by simp [Form.reads]) hrd _
      obtain hrs | hrs := s.regs.read_cases rs
      · rw [turn.decodeRegReg_blocked (.inr hrs), stay]
        exact waits (by simp [Form.reads]) hrs _
      · refine .finishes rfl (fun q hq => ?_) ((s.regs.block rd).block rs) (fun q => by simp)
          (turn.decodeRegReg hrd hrs)
        simp only [Form.reads, List.mem_cons, List.not_mem_nil, or_false] at hq
        obtain rfl | rfl := hq
        · exact ne hrd
        · exact ne hrs
  | access j acc meaning =>
    refine ⟨_, meaning.decode turn, ?_⟩
    obtain hrd | hrd := s.regs.read_cases acc.rd
    · rw [turn.decodeLoadStore_blocked _ _ _ _ (.inl hrd)]
      exact .waits _ (by simp [Form.reads]) hrd (.instr j) rfl
    obtain hb | hb := s.regs.read_cases acc.base
    · rw [turn.decodeLoadStore_blocked _ _ _ _ (.inr hb)]
      exact .waits _ (by simp [Form.reads]) hb (.instr j) rfl
    · refine .finishes rfl (fun q hq => ?_) ((s.regs.block acc.rd).block acc.base) (fun q => by simp)
        (turn.decodeLoadStore _ _ _ hrd hb)
      simp only [Form.reads, List.mem_cons, List.not_mem_nil, or_false] at hq
      obtain rfl | rfl := hq
      · exact ne hrd
      · exact ne hb
  | branch rm imm link cond eq =>
    refine ⟨_, (eq s).trans (turn.atStage ..), ?_⟩
    obtain hrm | hrm := s.regs.read_cases rm
    · rw [turn.decodeBranch_blocked _ _ (RegFile.read_eq_none.1 hrm).1 hrm, stay]
      exact waits (by simp [Form.reads]) hrm _
    · have base : s.controlBase { rec with op := .instr i } rm =
          some (if rm = 0#5 then rec.pc else s.regs.readNb rm) := by
        unfold State.controlBase
        split
        · rfl
        · exact hrm
      refine .finishes rfl (fun q hq => ?_) s.regs (fun q => rfl) (turn.decodeBranch _ base)
      obtain rfl : q = rm := by simpa [Form.reads] using hq
      exact ne hrm
  | halt eq =>
    exact ⟨_, (eq s).trans (turn.atStage ..), .halts rfl turn.decodeHalt⟩

/-- Decode's part of a tick on a record that waits to be decoded. -/
theorem State.decodeExecute_form (hr : s.dRec = some rec) (hp : s.dState ≠ .free) :
    ∃ t, s.decodeExecute = .next t ∧
      DecodeWork { s with stage := .decode } (wordForm s.params.divSigned rec.raw) rec t := by
  cases hw : decode rec.raw with
  | ok i =>
    rw [State.decodeExecute_of_decode hr hp hw]
    obtain ⟨t, ht, work⟩ := exec_decode_form (rec := rec)
      (s := { s with dRec := some { rec with op := .instr i }, stage := .decode })
      (formOf_of s.params.divSigned i) rfl rfl hp
    refine ⟨t, ht, ?_⟩
    have form : wordForm s.params.divSigned rec.raw = formOf s.params.divSigned i := by
      simp only [wordForm, hw]
    rw [form]
    cases work with
    | halts hhalt eq => exact .halts hhalt eq
    | finishes hhalt hreads regs hregs eq => exact .finishes hhalt hreads regs hregs eq
    | waits q hq hblocked op eq => exact .waits q hq hblocked op eq
  | error e =>
    have form : wordForm s.params.divSigned rec.raw = .invalid := by simp only [wordForm, hw]
    have work : s.decodeExecute = .next (State.decodeInvalid { s with stage := .decode }) := by
      simp only [State.decodeExecute, hr, if_neg hp, hw]
    refine ⟨_, work, ?_⟩
    rw [form]
    exact .finishes rfl (by simp [Form.reads]) s.regs (fun _ => rfl)
      (State.onDecode_of (s := { s with stage := .decode }) hr hp _)

end

end Sys2Proof.Machine
end

section
/-! SUPPORT. The architectural state and the run of a program one instruction at a time: what a program commits
(spec/70_reset_and_hazards.md R360), with the stages' functions applied one after another. -/

namespace Sys2Proof.Machine

/-- What a program reads and writes: the registers' values, `pc`, the flags and the RAM's contents. -/
structure Arch where
  regs : Reg → Word
  pc : Word
  flags : Flags
  cells : RamCells

namespace Arch

section
variable (p : Params) (a : Arch)

/-- The word at `pc`. -/
def word : Word := a.cells.word (a.pc.toNat % p.ramWords)

def form : Form := wordForm p.divSigned (a.word p)

/-- The record Fetch makes (R151). -/
def fetched : Record := newRecord (a.word p) a.pc

/-- The record after Decode. -/
def decoded : Record := (a.form p).decoded a.regs (a.fetched p)

/-- The record after Execute. -/
def executed : Record := ((a.form p).executed p a.flags (a.decoded p)).1

/-- The record after Memory. -/
def accessed : Record := ((a.form p).accessed p a.cells (a.executed p)).1

/-- The program stops here: at a zero word, which Fetch polls for ever (R355), at HLT, or with a fault. -/
def stops : Bool := a.word p == 0#32 || (a.form p).isHalt || (a.executed p).fault.isSome

/-- The state after the instruction; a program that stops stays. -/
def next : Arch :=
  if a.stops p then a
  else
    { regs := (a.form p).committed a.regs (a.accessed p)
      pc := if (a.accessed p).branchTaken then (a.accessed p).destMemAddr else a.pc + 1#32
      flags := ((a.form p).executed p a.flags (a.decoded p)).2
      cells := ((a.form p).accessed p a.cells (a.executed p)).2 }

/-- The state after `n` instructions. -/
def run : Nat → Arch
  | 0 => a
  | n + 1 => (run n).next p

/-- There is an instruction other than HLT at `pc`, or a word with no meaning: a record of it goes through
all stages. -/
def Issued : Prop := a.word p ≠ 0#32 ∧ (a.form p).isHalt = false

/-- The instruction does not stop the program and is no taken branch: the next one follows it in RAM. -/
def Straight : Prop := a.stops p = false ∧ (a.executed p).branchTaken = false

/-- The instruction is a taken branch. -/
def Taken : Prop := a.stops p = false ∧ (a.executed p).branchTaken = true

/-- The instruction is a RegImm or RegReg one. -/
def isAlu : Bool := isAluWord (a.word p)

/-- The instruction is a branch that reads the flags. -/
def readsFlags : Bool :=
  match decode (a.word p) with
  | .ok i => i.readsFlags
  | .error _ => false

/-- From here on the flags are written before they are read (R351). -/
def Fresh : Prop := ∀ n, (a.run p n).readsFlags p = true → ∃ m < n, (a.run p m).isAlu p = true

/-- The flags `f` do for the instructions from here on. -/
def FlagsOk (f : Flags) : Prop := f = a.flags ∨ a.Fresh p

end

section
variable {p : Params} {a : Arch}

theorem stops_eq_false_iff :
    a.stops p = false ↔
      a.word p ≠ 0#32 ∧ (a.form p).isHalt = false ∧ (a.executed p).fault = none := by
  simp [stops, and_assoc]

theorem issued_of_running (h : a.stops p = false) : a.Issued p :=
  ⟨(stops_eq_false_iff.1 h).1, (stops_eq_false_iff.1 h).2.1⟩

theorem unmarked_of_running (h : a.stops p = false) : (a.executed p).fault = none :=
  (stops_eq_false_iff.1 h).2.2

theorem Issued.stops_iff (h : a.Issued p) : a.stops p = true ↔ (a.executed p).fault ≠ none := by
  rw [← not_iff_not, Bool.not_eq_true, stops_eq_false_iff, not_not]
  exact ⟨fun e => e.2.2, fun e => ⟨h.1, h.2, e⟩⟩

theorem form_ofWord (p : Params) (a : Arch) : (a.form p).OfWord p.divSigned := ⟨_, rfl⟩

theorem decoded_carries (h : (a.form p).isHalt = false) : (a.form p).Carries (a.decoded p) :=
  Form.decoded_carries h rfl rfl _

theorem executed_carries (h : (a.form p).isHalt = false) : (a.form p).Carries (a.executed p) :=
  (decoded_carries h).executed _ _

theorem accessed_carries (h : (a.form p).isHalt = false) : (a.form p).Carries (a.accessed p) :=
  (executed_carries h).accessed _ _

theorem decoded_pc (p : Params) (a : Arch) : (a.decoded p).pc = a.pc := (Form.decoded_source ..).2

theorem executed_pc (p : Params) (a : Arch) : (a.executed p).pc = a.pc :=
  (Form.executed_source ..).2.trans (decoded_pc p a)

theorem accessed_pc (p : Params) (a : Arch) : (a.accessed p).pc = a.pc :=
  (Form.accessed_source ..).2.1.trans (executed_pc p a)

theorem accessed_fault (p : Params) (a : Arch) : (a.accessed p).fault = (a.executed p).fault :=
  (Form.accessed_source ..).2.2.1

theorem accessed_branchTaken (p : Params) (a : Arch) :
    (a.accessed p).branchTaken = (a.executed p).branchTaken :=
  (Form.accessed_source ..).2.2.2

theorem decoded_fault_of_valid (h : a.form p ≠ .invalid) : (a.decoded p).fault = none := by
  unfold decoded
  cases hf : a.form p with
  | invalid => exact absurd hf h
  | _ => rfl

/-- A word with no meaning is marked by Decode (R166). -/
theorem executed_fault_of_invalid (h : a.form p = .invalid) : (a.executed p).fault ≠ none := by
  have marked : (a.decoded p).fault = some .malformedInstruction := by
    unfold decoded
    rw [h]
    rfl
  rw [executed, Form.executed_of_marked _ _ (by simp [marked]), marked]
  simp

/-! ## The next state -/

theorem next_of_stops (h : a.stops p = true) : a.next p = a := if_pos h

theorem next_of_running (h : a.stops p = false) :
    a.next p =
      { regs := (a.form p).committed a.regs (a.accessed p)
        pc := if (a.accessed p).branchTaken then (a.accessed p).destMemAddr else a.pc + 1#32
        flags := ((a.form p).executed p a.flags (a.decoded p)).2
        cells := ((a.form p).accessed p a.cells (a.executed p)).2 } :=
  if_neg (by simp [h])

theorem Straight.next_pc (h : a.Straight p) : (a.next p).pc = a.pc + 1#32 := by
  rw [next_of_running h.1, accessed_branchTaken, h.2]
  rfl

theorem Taken.next_pc (h : a.Taken p) : (a.next p).pc = (a.accessed p).destMemAddr := by
  rw [next_of_running h.1, accessed_branchTaken, h.2]
  rfl

theorem next_regs (h : a.stops p = false) : (a.next p).regs = (a.form p).committed a.regs (a.accessed p) := by
  rw [next_of_running h]

/-- What Memory makes of the RAM's contents. -/
theorem Issued.next_cells (h : a.Issued p) :
    (a.next p).cells = ((a.form p).accessed p a.cells (a.executed p)).2 := by
  cases hs : a.stops p with
  | false => rw [next_of_running hs]
  | true => rw [next_of_stops hs, Form.accessed_of_marked _ _ (h.stops_iff.1 hs)]

theorem setReg_of_not_mem {claims : List Reg} {v : Reg → Word} {r q : Reg} {x : Word}
    (hr : r ≠ 0#5 → r ∈ claims) (hq : q ∉ claims) : setReg v r x q = v q :=
  if_neg fun (e : q = r ∧ r ≠ 0#5) => hq (e.1 ▸ hr e.2)

/-- An instruction that is no taken branch writes the registers it claims alone (R182, R183). -/
theorem Straight.next_regs_of_not_mem (h : a.Straight p) {q : Reg} (hq : q ∉ (a.form p).claims) :
    (a.next p).regs q = a.regs q := by
  obtain ⟨running, untaken⟩ := h
  have notHalt := (issued_of_running running).2
  have aux := (form_ofWord p a).auxClaimed
  have carries := accessed_carries notHalt
  rw [← accessed_branchTaken] at untaken
  rw [next_regs running]
  generalize a.accessed p = rec at *
  have auxReg := carries.aux
  cases hf : a.form p with
  | alu i rd rs imm op compare =>
    rw [hf] at hq
    simp only [Form.committed]
    split
    · exact setReg_of_not_mem (fun h0 => mem_claimSet.2 ⟨h0, .inl rfl⟩) hq
    · rfl
  | access j acc =>
    rw [hf] at hq aux auxReg
    have claimed : rec.auxReg ≠ 0#5 → rec.auxReg ∈ (Form.access j acc).claims := auxReg ▸ aux rfl
    simp only [Form.committed]
    rw [setReg_of_not_mem claimed hq]
    split
    · exact setReg_of_not_mem (fun h0 => mem_claimSet.2 ⟨h0, .inl rfl⟩) hq
    · rfl
  | branch i rm imm link cond => simp [Form.committed, untaken]
  | halt => rfl
  | invalid => rfl

/-! ## Runs -/

@[simp] theorem run_zero (p : Params) (a : Arch) : a.run p 0 = a := rfl

theorem run_succ (p : Params) (a : Arch) (n : Nat) : a.run p (n + 1) = (a.run p n).next p := rfl

theorem run_add (p : Params) (a : Arch) (m n : Nat) : a.run p (m + n) = (a.run p m).run p n := by
  induction n with
  | zero => rfl
  | succ n ih => rw [← Nat.add_assoc, run_succ, ih, run_succ]

theorem run_of_stops (h : a.stops p = true) (n : Nat) : a.run p n = a := by
  induction n with
  | zero => rfl
  | succ n ih => rw [run_succ, ih, next_of_stops h]

theorem run_one (p : Params) (a : Arch) : a.run p 1 = a.next p := rfl

/-! ## Flags -/

theorem Fresh.not_readsFlags (h : a.Fresh p) : a.readsFlags p = false := by
  by_contra hr
  obtain ⟨m, hm, _⟩ := h 0 (by simpa using hr)
  exact absurd hm (Nat.not_lt_zero m)

theorem Fresh.next (h : a.Fresh p) (halu : a.isAlu p = false) : (a.next p).Fresh p := by
  intro n hn
  rw [← run_one, ← run_add, Nat.add_comm] at hn
  obtain ⟨m, hm, hmalu⟩ := h _ hn
  cases m with
  | zero => exact absurd (halu.symm.trans hmalu) (by simp)
  | succ m =>
    refine ⟨m, by omega, ?_⟩
    rw [← run_one, ← run_add, Nat.add_comm]
    exact hmalu

theorem form_of_decode {i : Instr} (h : decode (a.word p) = .ok i) : a.form p = formOf p.divSigned i := by
  simp only [form, wordForm, h]

theorem isAlu_of_decode {i : Instr} (h : decode (a.word p) = .ok i) : a.isAlu p = i.isAlu := by
  simp only [isAlu, isAluWord, h]

theorem readsFlags_of_decode {i : Instr} (h : decode (a.word p) = .ok i) :
    a.readsFlags p = i.readsFlags := by
  simp only [readsFlags, h]

theorem form_of_error {e : DecodeError} (h : decode (a.word p) = .error e) : a.form p = .invalid := by
  simp only [form, wordForm, h]

/-- With flags that do, Execute makes the record of the sequential run, and leaves flags that do (R351). -/
theorem FlagsOk.executed {f : Flags} (h : a.FlagsOk p f) :
    ((a.form p).executed p f (a.decoded p)).1 = a.executed p ∧
      (a.stops p = false → (a.next p).FlagsOk p ((a.form p).executed p f (a.decoded p)).2) := by
  obtain rfl | fresh := h
  · exact ⟨rfl, fun running => .inl (by rw [next_of_running running])⟩
  · cases hw : decode (a.word p) with
    | error e =>
      have invalid := form_of_error hw
      have fault := executed_fault_of_invalid invalid
      have marked : (a.decoded p).fault ≠ none := by
        unfold decoded
        rw [invalid]
        simp [Form.decoded]
      refine ⟨?_, fun running => absurd (unmarked_of_running running) fault⟩
      rw [Arch.executed, Form.executed_of_marked _ _ marked, Form.executed_of_marked _ _ marked]
    | ok i =>
      have form := form_of_decode hw
      have alu := isAlu_of_decode hw
      have reads := fresh.not_readsFlags
      rw [readsFlags_of_decode hw] at reads
      have of := formOf_of p.divSigned i
      rw [← form] at of
      have unmarked : (a.decoded p).fault = none := decoded_fault_of_valid fun e => by rw [e] at of; cases of
      have after (running : a.stops p = false) := next_of_running running
      have unfaulted (running : a.stops p = false) :
          ((a.form p).executed p a.flags (a.decoded p)).1.fault = none := unmarked_of_running running
      unfold Arch.executed
      rw [Form.executed_of_unmarked _ _ unmarked] at after unfaulted ⊢
      rw [Form.executed_of_unmarked _ _ unmarked]
      generalize a.form p = frm at *
      cases of with
      | alu rd rs imm op compare _ halu =>
        dsimp only at after unfaulted ⊢
        cases ho : op (a.decoded p).result (a.decoded p).operand with
        | done res flags =>
          rw [ho] at after
          exact ⟨rfl, fun running => .inl (by rw [after running])⟩
        | fault kind =>
          refine ⟨rfl, fun running => ?_⟩
          have fault := unfaulted running
          rw [ho] at fault
          cases fault
      | access j acc _ _ _ _ halu => exact ⟨rfl, fun _ => .inr (fresh.next (alu.trans halu))⟩
      | branch rm imm link cond _ hcontrol hcond =>
        refine ⟨?_, fun _ => .inr (fresh.next (alu.trans (Instr.isAlu_of_isControl hcontrol)))⟩
        dsimp only
        rw [hcond reads f a.flags]
      | halt _ hhalt =>
        exact ⟨rfl, fun _ => .inr (fresh.next
          (alu.trans (Instr.isAlu_of_isControl (Instr.isControl_of_isHalt hhalt))))⟩

end

end Arch

end Sys2Proof.Machine
end

section
/-! SUPPORT. The pipeline against the sequential run (spec/40_pipeline.md R140 to R192): the records in flight are
those of the next instructions of the run, up to the first taken branch or fault among them. -/

namespace Sys2Proof.Machine

/-! ## The records in flight and how far they have come -/

/-- The last stage that has done its work on a record. -/
inductive Phase where
  | fetched
  | decoded
  | executed
  | accessed

def Phase.isAccessed : Phase → Bool
  | .accessed => true
  | _ => false

def Phase.isExecuted : Phase → Bool
  | .executed | .accessed => true
  | _ => false

/-- A record in flight. -/
abbrev Slot := Phase × Record

def slotOf (phase : Phase) (latch : Option Record) : List Slot := latch.toList.map (Prod.mk phase)

@[simp] theorem slotOf_none (phase : Phase) : slotOf phase none = [] := rfl
@[simp] theorem slotOf_some (phase : Phase) (rec : Record) : slotOf phase (some rec) = [(phase, rec)] := rfl

theorem slotOf_length_le (phase : Phase) (latch : Option Record) : (slotOf phase latch).length ≤ 1 := by
  cases latch <;> simp

def State.memoryPhase (s : State) : Phase := if s.mDone then .accessed else .executed
def State.executePhase (s : State) : Phase := if s.xDone then .executed else .decoded
def State.decodePhase (s : State) : Phase := if s.dState = .free then .decoded else .fetched

/-- The records in flight, oldest first. -/
def State.slots (s : State) : List Slot :=
  slotOf .accessed s.wRec ++ (slotOf s.memoryPhase s.mRec ++ (slotOf s.executePhase s.xRec ++
    (slotOf s.decodePhase s.dRec ++ slotOf .fetched s.fRec)))

/-- How many of them have done their memory work, and how many have been executed. -/
def accessedCount (slots : List Slot) : Nat := slots.countP (·.1.isAccessed)
def executedCount (slots : List Slot) : Nat := slots.countP (·.1.isExecuted)

@[simp] theorem accessedCount_nil : accessedCount [] = 0 := rfl
@[simp] theorem executedCount_nil : executedCount [] = 0 := rfl

@[simp] theorem accessedCount_append (l r : List Slot) :
    accessedCount (l ++ r) = accessedCount l + accessedCount r := List.countP_append

@[simp] theorem executedCount_append (l r : List Slot) :
    executedCount (l ++ r) = executedCount l + executedCount r := List.countP_append

@[simp] theorem accessedCount_cons (phase : Phase) (rec : Record) (rest : List Slot) :
    accessedCount ((phase, rec) :: rest) = accessedCount rest + phase.isAccessed.toNat := by
  rw [accessedCount, List.countP_cons]
  cases phase <;> rfl

@[simp] theorem executedCount_cons (phase : Phase) (rec : Record) (rest : List Slot) :
    executedCount ((phase, rec) :: rest) = executedCount rest + phase.isExecuted.toNat := by
  rw [executedCount, List.countP_cons]
  cases phase <;> rfl

/-- The advance phase hands records on as they are (R142). -/
theorem State.advance_slots (s : State) : s.advance.slots = s.slots := by
  have memory (s : State) : s.advanceMemory.slots = s.slots := by
    unfold State.advanceMemory
    split
    · next hc =>
      simp only [Bool.and_eq_true, Option.isSome_iff_exists, Option.isNone_iff_eq_none] at hc
      obtain ⟨⟨⟨rec, hr⟩, hd⟩, hw⟩ := hc
      simp [State.slots, State.memoryPhase, State.executePhase, State.decodePhase, hr, hd, hw]
    · rfl
  have execute (s : State) : s.advanceExecute.slots = s.slots := by
    unfold State.advanceExecute
    split
    · next hc =>
      simp only [Bool.and_eq_true, Option.isSome_iff_exists, Option.isNone_iff_eq_none] at hc
      obtain ⟨⟨⟨rec, hr⟩, hd⟩, hm⟩ := hc
      simp [State.slots, State.memoryPhase, State.executePhase, State.decodePhase, hr, hd, hm]
    · rfl
  have decode (s : State) : s.advanceDecode.slots = s.slots := by
    obtain eq | ⟨rec, hr, hf, hx, eq⟩ := s.advanceDecode_cases <;> rw [eq]
    simp [State.slots, State.memoryPhase, State.executePhase, State.decodePhase, hr, hf, hx]
  have fetch (s : State) : s.advanceFetch.slots = s.slots := by
    obtain eq | ⟨rec, hr, hd, eq⟩ := s.advanceFetch_cases <;> rw [eq]
    simp [State.slots, State.memoryPhase, State.executePhase, State.decodePhase, hr, hd]
  simp only [State.advance, fetch, decode, execute, memory]

/-! ## Paths of the run -/

/-- The `n` instructions from the `i`-th on follow one another in RAM. -/
def OnPath (p : Params) (A : Nat → Arch) (i n : Nat) : Prop := ∀ l < n, (A (i + l)).Straight p

/-- The record of the instruction at `a`, as the stages up to a phase have made it. -/
def Matches (p : Params) (a : Arch) : Slot → Prop
  | (.fetched, rec) => a.word p ≠ 0#32 ∧ ∃ op, rec = { a.fetched p with op := op }
  | (.decoded, rec) => a.Issued p ∧ rec = a.decoded p
  | (.executed, rec) => a.Issued p ∧ rec = a.executed p
  | (.accessed, rec) => a.Issued p ∧ rec = a.accessed p

/-- The records are those of the run from the `i`-th instruction on, and `next` holds of the number of the
instruction that follows them; nothing is said behind an instruction that does not let the next in RAM follow. -/
def Follows (p : Params) (A : Nat → Arch) : Nat → List Slot → (Nat → Prop) → Prop
  | i, [], next => next i
  | i, slot :: rest, next => Matches p (A i) slot ∧ ((A i).Straight p → Follows p A (i + 1) rest next)

/-- The flags `f` do after `n` instructions from the `i`-th on, or behind the first taken branch among them. -/
def FlagsAt (p : Params) (A : Nat → Arch) (f : Flags) : Nat → Nat → Prop
  | i, 0 => (A i).FlagsOk p f
  | i, n + 1 =>
    ((A i).Straight p → FlagsAt p A f (i + 1) n) ∧ ((A i).Taken p → (A (i + 1)).FlagsOk p f)

section
variable {p : Params} {A : Nat → Arch} {i n : Nat} {slot : Slot} {L pre post : List Slot} {T T' : Nat → Prop}

@[simp] theorem follows_nil : Follows p A i [] T ↔ T i := Iff.rfl

@[simp] theorem follows_cons :
    Follows p A i (slot :: L) T ↔ Matches p (A i) slot ∧ ((A i).Straight p → Follows p A (i + 1) L T) :=
  Iff.rfl

@[simp] theorem flagsAt_zero {f : Flags} : FlagsAt p A f i 0 ↔ (A i).FlagsOk p f := Iff.rfl

theorem OnPath.zero : OnPath p A i 0 := fun l hl => absurd hl (Nat.not_lt_zero l)

theorem onPath_succ : OnPath p A i (n + 1) ↔ (A i).Straight p ∧ OnPath p A (i + 1) n := by
  refine ⟨fun h => ⟨h 0 (by omega), fun l hl => ?_⟩, fun h l hl => ?_⟩
  · rw [Nat.add_assoc, Nat.add_comm 1]
    exact h (l + 1) (by omega)
  · cases l with
    | zero => exact h.1
    | succ l =>
      rw [Nat.add_comm l, ← Nat.add_assoc]
      exact h.2 l (by omega)

theorem OnPath.drop (h : OnPath p A i n) {m : Nat} (hm : m ≤ n) : OnPath p A (i + m) (n - m) := fun l hl => by
  rw [Nat.add_assoc]
  exact h (m + l) (by omega)

theorem follows_append : Follows p A i (pre ++ post) T ↔ Follows p A i pre fun j => Follows p A j post T := by
  induction pre generalizing i with
  | nil => rfl
  | cons slot pre ih => simp only [List.cons_append, follows_cons, ih]

/-- What is said of the next instruction may be weakened, with all before it on the path. -/
theorem Follows.mono (h : Follows p A i L T)
    (himp : OnPath p A i L.length → T (i + L.length) → T' (i + L.length)) : Follows p A i L T' := by
  induction L generalizing i with
  | nil => exact himp .zero h
  | cons slot L ih =>
    refine ⟨h.1, fun straight => ih (h.2 straight) fun hp ht => ?_⟩
    rw [Nat.add_assoc, Nat.add_comm 1] at ht ⊢
    exact himp (onPath_succ.2 ⟨straight, hp⟩) ht

theorem Follows.end (h : Follows p A i L T) (hp : OnPath p A i L.length) : T (i + L.length) := by
  induction L generalizing i with
  | nil => exact h
  | cons slot L ih =>
    obtain ⟨straight, hp⟩ := onPath_succ.1 hp
    have := ih (h.2 straight) hp
    rwa [Nat.add_assoc, Nat.add_comm 1] at this

/-- A record in the middle is replaced. -/
theorem Follows.replace {slot' : Slot} (h : Follows p A i (pre ++ slot :: post) T)
    (himp : OnPath p A i pre.length → Matches p (A (i + pre.length)) slot →
      Matches p (A (i + pre.length)) slot') : Follows p A i (pre ++ slot' :: post) T :=
  follows_append.2 ((follows_append.1 h).mono fun hp hm => ⟨himp hp hm.1, hm.2⟩)

theorem Matches.claims {a : Arch} {phase : Phase} {rec : Record} (h : Matches p a (phase, rec))
    (hphase : phase ≠ .fetched) : rec.claims = (a.form p).claims := by
  cases phase with
  | fetched => exact absurd rfl hphase
  | decoded => exact h.2 ▸ (Arch.decoded_carries h.1.2).claims
  | executed => exact h.2 ▸ (Arch.executed_carries h.1.2).claims
  | accessed => exact h.2 ▸ (Arch.accessed_carries h.1.2).claims

/-- Until a record in flight commits, the registers that none before it claims have their values (R26, R182). -/
theorem Follows.regs_eq (hA : ∀ n, A (n + 1) = (A n).next p) (h : Follows p A i L T)
    (hp : OnPath p A i L.length) {q : Reg} (hq : ∀ slot ∈ L, slot.1 ≠ .fetched ∧ q ∉ slot.2.claims) :
    (A (i + L.length)).regs q = (A i).regs q := by
  induction L generalizing i with
  | nil => rfl
  | cons slot L ih =>
    obtain ⟨phase, rec⟩ := slot
    obtain ⟨straight, hp⟩ := onPath_succ.1 hp
    obtain ⟨hphase, hclaims⟩ := hq (phase, rec) List.mem_cons_self
    have rest := ih (h.2 straight) hp fun slot hs => hq slot (List.mem_cons_of_mem _ hs)
    rw [List.length_cons, Nat.add_comm L.length, ← Nat.add_assoc, rest, hA]
    exact straight.next_regs_of_not_mem (h.1.claims hphase ▸ hclaims)

end

/-! ## The relation -/

/-- The record was made of a word that the RAM holds at its address at some point of the run. -/
def FromRun (p : Params) (A : Nat → Arch) (rec : Record) : Prop :=
  ∃ j, rec.raw = (A j).cells.word (rec.pc.toNat % p.ramWords)

/-- A record that waits for Execute comes from the run, and is one of a RegImm or RegReg instruction only if its
word is one. -/
def Sourced (p : Params) (A : Nat → Arch) : Slot → Prop
  | (.fetched, rec) => FromRun p A rec
  | (.decoded, rec) => FromRun p A rec ∧ (rec.isOf Instr.isAlu = true → isAluWord rec.raw = true)
  | _ => True

/-- What follows the records in flight: `pc` is the address of the next instruction, or HLT has been met. -/
def Supplied (p : Params) (A : Nat → Arch) (pc : Word) (halting : Bool) (j : Nat) : Prop :=
  if halting then (A j).word p ≠ 0#32 ∧ ((A j).form p).isHalt = true ∧ pc = (A j).pc + 1#32
  else pc = (A j).pc

/-- HLT never waits in Decode, so nothing is fetched behind it. -/
def HaltsAtOnce (p : Params) : List Slot → Prop
  | [] => True
  | slot :: rest =>
    (slot.1 = .fetched → rest ≠ [] → (wordForm p.divSigned slot.2.raw).isHalt = false) ∧ HaltsAtOnce p rest

/-- The machine `s` has committed `i` instructions of the run `A`, and has the next ones in flight. -/
structure Sim (p : Params) (A : Nat → Arch) (i : Nat) (s : State) : Prop where
  params : s.params = p
  run : ∀ n, A (n + 1) = (A n).next p
  regs : ∀ q, s.regs.readNb q = (A i).regs q
  cells : s.mem.ram.cells = (A (i + accessedCount s.slots)).cells
  path : Follows p A i s.slots (Supplied p A s.pc s.haltPending)
  flags : FlagsAt p A s.flags i (executedCount s.slots)
  sourced : ∀ slot ∈ s.slots, Sourced p A slot
  haltsAtOnce : HaltsAtOnce p s.slots
  /-- Scalar mode (R192). -/
  alone : p.scalar = true → s.slots.length ≤ 1

/-- The software rule of R352 on the run: a word that follows within three instructions in RAM's order is not
changed on the way. -/
def StoresFar (p : Params) (A : Nat → Arch) : Prop :=
  ∀ i n, n ≤ 3 → OnPath p A i n →
    (A i).cells.word ((A (i + n)).pc.toNat % p.ramWords) = (A (i + n)).word p

/-- The software rule of R351 on the run: after a taken branch the flags are written before they are read, or
the word behind it is at no point a RegImm or RegReg instruction. -/
def FlagsCalm (p : Params) (A : Nat → Arch) : Prop :=
  ∀ i, (A i).Taken p → (A (i + 1)).Fresh p ∨
    ∀ j, isAluWord ((A j).cells.word (((A i).pc + 1#32).toNat % p.ramWords)) = false

/-- The run may be pipelined: one instruction at a time, or under the software rules. -/
def Rules (p : Params) (A : Nat → Arch) : Prop := p.scalar = true ∨ StoresFar p A ∧ FlagsCalm p A

section
variable {p : Params} {A : Nat → Arch} {i : Nat} {s t : State} {rec : Record}

/-- The relation is about the parameters, the registers' values, the flags, the RAM's contents, `pc`, a pending
halt and the records in flight. -/
theorem Sim.congr (h : Sim p A i s) (hparams : t.params = s.params) (hregs : t.regs.readNb = s.regs.readNb)
    (hcells : t.mem.ram.cells = s.mem.ram.cells) (hslots : t.slots = s.slots) (hflags : t.flags = s.flags)
    (hpc : t.pc = s.pc) (hhalt : t.haltPending = s.haltPending) : Sim p A i t := by
  obtain ⟨params, run, regs, cells, path, flags, sourced, haltsAtOnce, alone⟩ := h
  exact ⟨hparams.trans params, run, by rw [hregs]; exact regs, by rw [hcells, hslots]; exact cells,
    by rw [hslots, hpc, hhalt]; exact path, by rw [hslots, hflags]; exact flags,
    by rw [hslots]; exact sourced, by rw [hslots]; exact haltsAtOnce, by rw [hslots]; exact alone⟩

theorem Sim.values (h : Sim p A i s) : s.regs.readNb = (A i).regs := funext h.regs

/-! ## Write-Back -/

theorem State.slots_of_wRec (hr : s.wRec = some rec) :
    s.slots = (.accessed, rec) :: State.slots { s with wRec := none } := by
  simp [State.slots, hr, State.memoryPhase, State.executePhase, State.decodePhase]

/-- The records behind Memory's, and behind Execute's. -/
def State.behindExecute (s : State) : List Slot := slotOf s.decodePhase s.dRec ++ slotOf .fetched s.fRec
def State.behindMemory (s : State) : List Slot := slotOf s.executePhase s.xRec ++ s.behindExecute

theorem State.slots_of_wRec_none (hw : s.wRec = none) :
    s.slots = slotOf s.memoryPhase s.mRec ++ s.behindMemory := by
  simp [State.slots, State.behindMemory, State.behindExecute, hw]

theorem State.slots_squashAll : s.squashAll.slots = slotOf .accessed s.wRec := by
  simp [State.slots]

theorem accessedCount_slotOf {phase : Phase} (h : phase.isAccessed = false) (latch : Option Record) :
    accessedCount (slotOf phase latch) = 0 := by
  cases latch <;> simp [h]

theorem executedCount_slotOf {phase : Phase} (h : phase.isExecuted = false) (latch : Option Record) :
    executedCount (slotOf phase latch) = 0 := by
  cases latch <;> simp [h]

/-- Behind Memory nothing has done its memory work. -/
theorem State.accessedCount_behindMemory (s : State) : accessedCount s.behindMemory = 0 := by
  rw [State.behindMemory, State.behindExecute, accessedCount_append, accessedCount_append,
    accessedCount_slotOf (by unfold State.executePhase; split <;> rfl),
    accessedCount_slotOf (by unfold State.decodePhase; split <;> rfl), accessedCount_slotOf rfl]

theorem State.executedCount_behindExecute (s : State) : executedCount s.behindExecute = 0 := by
  rw [State.behindExecute, executedCount_append,
    executedCount_slotOf (by unfold State.decodePhase; split <;> rfl), executedCount_slotOf rfl]

theorem State.accessedCount_eq_zero (hw : s.wRec = none) (hd : s.mDone = false) :
    accessedCount s.slots = 0 := by
  rw [State.slots_of_wRec_none hw, accessedCount_append, State.accessedCount_behindMemory,
    accessedCount_slotOf (by simp [State.memoryPhase, hd, Phase.isAccessed])]

/-- A straight instruction leaves Write-Back: the machine has committed one more (R180 to R183). -/
theorem Sim.commit (h : Sim p A i s) (hslots : s.slots = (.accessed, rec) :: t.slots)
    (hstraight : (A i).Straight p) (hparams : t.params = s.params)
    (hregs : ∀ q, t.regs.readNb q = ((A i).form p).committed s.regs.readNb rec q)
    (hcells : t.mem.ram.cells = s.mem.ram.cells) (hflags : t.flags = s.flags)
    (hpc : t.pc = s.pc) (hhalt : t.haltPending = s.haltPending) : Sim p A (i + 1) t := by
  have values := h.values
  obtain ⟨params, run, _, cells, path, flags, sourced, haltsAtOnce, alone⟩ := h
  rw [hslots] at cells path flags sourced haltsAtOnce alone
  obtain ⟨⟨_, hrec⟩, rest⟩ := path
  refine ⟨hparams.trans params, run, fun q => ?_, ?_, ?_, ?_,
    fun slot hs => sourced slot (List.mem_cons_of_mem _ hs), haltsAtOnce.2,
    fun hs => by have := alone hs; simp only [List.length_cons] at this; omega⟩
  · rw [hregs, run, Arch.next_regs hstraight.1, values, hrec]
  · rw [hcells, cells, accessedCount_cons, Nat.add_comm _ (Bool.toNat _), ← Nat.add_assoc]
    rfl
  · rw [hpc, hhalt]
    exact rest hstraight
  · rw [hflags]
    rw [executedCount_cons] at flags
    exact flags.1 hstraight

/-- A taken branch leaves Write-Back: nothing is in flight, and `pc` is the target (R181, R188). -/
theorem Sim.jump (h : Sim p A i s) (hr : s.wRec = some rec) (hd : s.mDone = false) (htaken : (A i).Taken p)
    (hslots : t.slots = []) (hparams : t.params = s.params)
    (hregs : t.regs.readNb = (s.regs.linked rec).readNb) (hcells : t.mem.ram.cells = s.mem.ram.cells)
    (hflags : t.flags = s.flags) (hpc : t.pc = rec.destMemAddr) (hhalt : t.haltPending = false) :
    Sim p A (i + 1) t := by
  have values := h.values
  have zero := State.accessedCount_eq_zero (s := { s with wRec := none }) rfl hd
  obtain ⟨params, run, _, cells, path, flags, _⟩ := h
  rw [State.slots_of_wRec hr] at cells path flags
  obtain ⟨⟨issued, hrec⟩, _⟩ := path
  have taken : rec.branchTaken = true := by rw [hrec, Arch.accessed_branchTaken]; exact htaken.2
  refine ⟨hparams.trans params, run, fun q => ?_, ?_, ?_, ?_, ?_, ?_, ?_⟩
  · have branch : ((A i).form p).isBranch = true := (Arch.accessed_carries issued.2).taken (hrec ▸ taken)
    rw [hregs, RegFile.readNb_linked, run, Arch.next_regs htaken.1, ← hrec, ← values]
    cases hf : (A i).form p with
    | branch j rm imm link cond =>
      simp only [Form.committed, taken, if_true, setReg]
      congr 1
      exact propext (and_congr_right fun e => by rw [e])
    | _ => rw [hf] at branch; cases branch
  · rw [hcells, cells, hslots, accessedCount_cons, zero]
    rfl
  · rw [hslots, follows_nil, Supplied, hhalt, hpc, run, htaken.next_pc, hrec]
    simp
  · rw [hslots, hflags]
    rw [executedCount_cons] at flags
    exact flags.2 htaken
  · simp [hslots]
  · rw [hslots]
    trivial
  · simp [hslots]

/-- The machine has taken the fault of the `i`-th instruction. -/
structure FaultsAt (p : Params) (a : Arch) (t : State) : Prop where
  issued : a.Issued p
  fault : t.fault = (a.executed p).fault
  faults : t.fault ≠ none
  regs : ∀ q, t.regs.readNb q = a.regs q
  cells : t.mem.ram.cells = a.cells

/-- What Write-Back's part of a tick does to the relation (R180 to R184). -/
theorem Sim.writeBackExecute (h : Sim p A i s) (hd : s.mDone = false) (hs : s.fault = none)
    (ht : s.writeBackExecute = .next t) :
    (s.wRec ≠ none ∧ FaultsAt p (A i) t) ∨
      (t.fault = none ∧ (s.wRec ≠ none → (A i).stops p = false) ∧ Sim p A (i + s.wRec.toList.length) t) := by
  cases hr : s.wRec with
  | none =>
    cases (State.writeBackExecute_of_none hr).symm.trans ht
    exact .inr ⟨hs, fun hne => absurd rfl hne, h⟩
  | some rec =>
    have slots := State.slots_of_wRec hr
    have path := h.path
    rw [slots] at path
    obtain ⟨⟨issued, hrec⟩, _⟩ := path
    have carries := Arch.accessed_carries issued.2
    rw [← hrec] at carries
    have fault : rec.fault = ((A i).executed p).fault := by rw [hrec, Arch.accessed_fault]
    have running (hf : rec.fault = none) : (A i).stops p = false :=
      Bool.eq_false_iff.2 fun e => issued.stops_iff.1 e (fault.symm.trans hf)
    have taken : rec.branchTaken = ((A i).executed p).branchTaken := by
      rw [hrec, Arch.accessed_branchTaken]
    obtain ⟨u, hu, work⟩ := State.writeBackExecute_form (f := (A i).form p)
      (by rw [h.params]; exact Arch.form_ofWord p (A i)) issued.2 carries
      (fun e => by rw [fault]; exact Arch.executed_fault_of_invalid e) hr
    cases ht.symm.trans hu
    cases work with
    | faults k hk eq =>
      subst eq
      have hstops := issued.stops_iff.2 (by rw [← fault, hk]; simp)
      refine .inl ⟨by simp, issued, by rw [← fault, hk], by simp, h.regs, ?_⟩
      have cells := h.cells
      rw [slots, accessedCount_cons, State.accessedCount_eq_zero (s := { s with wRec := none }) rfl hd] at cells
      rw [← Arch.next_of_stops hstops, ← h.run]
      exact cells
    | jumps hf hb eq =>
      subst eq
      have regs (u : State) : u.squashAll.regs.readNb = u.regs.readNb := by
        simp only [State.squashAll_regs, readNb_release_eq]
      exact .inr ⟨hs, fun _ => running hf, h.jump hr hd ⟨running hf, taken ▸ hb⟩
        (by rw [State.slots_squashAll]; rfl) (State.squashAll_params _) (regs _)
        (by rw [State.squashAll_mem]) (State.squashAll_flags _) (State.squashAll_pc _)
        (State.squashAll_haltPending _)⟩
    | commits hf hb regs hregs eq =>
      subst eq
      exact .inr ⟨hs, fun _ => running hf, h.commit slots ⟨running hf, taken ▸ hb⟩ rfl hregs rfl rfl rfl rfl⟩

end

end Sys2Proof.Machine
end

section
/-! SUPPORT. Memory's, Execute's, Decode's and Fetch's parts of a tick keep the relation of the pipeline to the
sequential run (spec/40_pipeline.md R150 to R178), as long as the memory answers reads with the RAM's words. -/

namespace Sys2Proof.Machine

section
variable {p : Params} {A : Nat → Arch} {i n : Nat} {s t : State} {rec rec' : Record} {slot slot' : Slot}
  {L pre post rest : List Slot} {f f' : Flags}

/-! ## The parts of the relation -/

theorem HaltsAtOnce.replace (h : HaltsAtOnce p (pre ++ slot :: post))
    (hs : slot'.1 = .fetched → slot.1 = .fetched ∧ slot'.2.raw = slot.2.raw) :
    HaltsAtOnce p (pre ++ slot' :: post) := by
  induction pre with
  | nil =>
    refine ⟨fun hf hne => ?_, h.2⟩
    rw [(hs hf).2]
    exact h.1 (hs hf).1 hne
  | cons first pre ih => exact ⟨fun hf _ => h.1 hf (by simp), ih h.2⟩

theorem HaltsAtOnce.left (h : HaltsAtOnce p (pre ++ post)) : HaltsAtOnce p pre := by
  induction pre with
  | nil => trivial
  | cons first pre ih => exact ⟨fun hf hne => h.1 hf (by simp [hne]), ih h.2⟩

theorem HaltsAtOnce.alone_of_halt (h : HaltsAtOnce p (pre ++ (.fetched, rec) :: post))
    (hhalt : (wordForm p.divSigned rec.raw).isHalt = true) : post = [] := by
  induction pre with
  | nil =>
    by_contra hne
    have := h.1 rfl hne
    simp [hhalt] at this
  | cons first pre ih => exact ih h.2

theorem HaltsAtOnce.concat (h : ∀ slot ∈ L, slot.1 = .fetched → (wordForm p.divSigned slot.2.raw).isHalt = false)
    (slot : Slot) : HaltsAtOnce p (L ++ [slot]) := by
  induction L with
  | nil => exact ⟨fun _ hne => absurd rfl hne, trivial⟩
  | cons first L ih =>
    exact ⟨fun hf _ => h first List.mem_cons_self hf, ih fun slot hs => h slot (List.mem_cons_of_mem _ hs)⟩

/-- Flags that do behind `n` instructions in a row do for the next one. -/
theorem FlagsAt.of_onPath (h : FlagsAt p A f i n) (hp : OnPath p A i n) : (A (i + n)).FlagsOk p f := by
  induction n generalizing i with
  | zero => exact h
  | succ n ih =>
    obtain ⟨straight, hp⟩ := onPath_succ.1 hp
    have := ih (h.1 straight) hp
    rwa [Nat.add_assoc, Nat.add_comm 1] at this

/-- One more record has been executed. -/
theorem FlagsAt.succ (h : FlagsAt p A f i n) (hon : OnPath p A i n → FlagsAt p A f' (i + n) 1)
    (htaken : ∀ l < n, OnPath p A i l → (A (i + l)).Taken p → (A (i + l + 1)).FlagsOk p f →
      (A (i + l + 1)).FlagsOk p f') : FlagsAt p A f' i (n + 1) := by
  induction n generalizing i with
  | zero => exact hon .zero
  | succ n ih =>
    refine ⟨fun straight => ih (h.1 straight) (fun hp => ?_) fun l hl hp ht hf => ?_,
      fun taken => htaken 0 (by omega) .zero taken (h.2 taken)⟩
    · rw [Nat.add_assoc, Nat.add_comm 1]
      exact hon (onPath_succ.2 ⟨straight, hp⟩)
    · rw [Nat.add_assoc i, Nat.add_comm 1] at ht hf ⊢
      exact htaken (l + 1) (by omega) (onPath_succ.2 ⟨straight, hp⟩) ht hf

/-- Executing the next instruction of the run leaves flags that do (R351). -/
theorem FlagsAt.of_executed (hA : ∀ n, A (n + 1) = (A n).next p) (h : (A i).FlagsOk p f) :
    FlagsAt p A (((A i).form p).executed p f ((A i).decoded p)).2 i 1 :=
  ⟨fun straight => by rw [flagsAt_zero, hA]; exact h.executed.2 straight.1,
    fun taken => by rw [hA]; exact h.executed.2 taken.1⟩

/-! ## Memory -/

/-- A load that Memory finishes in this tick gets the RAM's word. -/
def State.LoadsRam (s : State) : Prop :=
  ∀ rec j v m, s.mRec = some rec → rec.op = .instr j → j.isLoad = true → rec.fault = none →
    s.mem.cacheRead s.params rec.destMemAddr .memory = (.success v, m) → v = s.ramWord rec.destMemAddr

theorem Form.accessed_of_unasked {form : Form} {cells : RamCells} (h : form.asks rec = false) :
    form.accessed p cells rec = (rec, cells) := by
  by_cases hm : rec.fault = none
  · rw [Form.accessed_of_unmarked _ _ hm]
    cases form with
    | access j acc => simp [Form.asks, hm] at h
    | _ => rfl
  · exact Form.accessed_of_marked _ _ hm

/-- Memory has done its work on the oldest record (R176 to R178). -/
theorem Sim.access (h : Sim p A i s) (hslots : s.slots = (.executed, rec) :: rest)
    (htslots : t.slots = (.accessed, rec') :: rest) (hrest : accessedCount rest = 0)
    (hwork : ((A i).form p).accessed p s.mem.ram.cells rec = (rec', t.mem.ram.cells))
    (hparams : t.params = s.params) (hregs : t.regs = s.regs) (hflags : t.flags = s.flags) (hpc : t.pc = s.pc)
    (hhalt : t.haltPending = s.haltPending) : Sim p A i t := by
  obtain ⟨params, run, regs, cells, path, flags, sourced, haltsAtOnce, alone⟩ := h
  rw [hslots] at cells path flags sourced haltsAtOnce alone
  obtain ⟨⟨issued, hrec⟩, next⟩ := path
  rw [accessedCount_cons, hrest] at cells
  rw [show s.mem.ram.cells = (A i).cells from cells, hrec] at hwork
  refine ⟨hparams.trans params, run, by rw [hregs]; exact regs, ?_, ?_, ?_, fun slot hs => ?_, ?_, ?_⟩
  · rw [htslots, accessedCount_cons, hrest]
    show _ = (A (i + 1)).cells
    rw [run, issued.next_cells, hwork]
  · rw [htslots, hpc, hhalt]
    exact ⟨⟨issued, by rw [Arch.accessed, hwork]⟩, next⟩
  · rw [htslots, hflags]
    exact flags
  · rw [htslots] at hs
    obtain rfl | hs := List.mem_cons.1 hs
    · trivial
    · exact sourced slot (List.mem_cons_of_mem _ hs)
  · rw [htslots]
    exact ⟨nofun, haltsAtOnce.2⟩
  · rw [htslots]
    exact alone

/-- Memory's part of a tick, with Write-Back's latch empty (R176 to R178). -/
theorem Sim.memoryExecute (h : Sim p A i s) (hw : s.wRec = none) (hd : s.mDone = false) (hload : s.LoadsRam)
    (ht : s.memoryExecute = .next t) : Sim p A i t := by
  cases hr : s.mRec with
  | none =>
    cases (State.memoryExecute_of_none hr).symm.trans ht
    exact h
  | some rec =>
    have slots : s.slots = (.executed, rec) :: s.behindMemory := by
      simp [State.slots_of_wRec_none hw, hr, State.memoryPhase, hd]
    have done {t : State} {rec' : Record} (hw' : t.wRec = none) (hr' : t.mRec = some rec') (hd' : t.mDone = true)
        (hbehind : t.behindMemory = s.behindMemory) : t.slots = (.accessed, rec') :: s.behindMemory := by
      simp [State.slots_of_wRec_none hw', hr', State.memoryPhase, hd', hbehind]
    have path := h.path
    rw [slots] at path
    obtain ⟨⟨issued, hrec⟩, _⟩ := path
    have carries := Arch.executed_carries issued.2
    rw [← hrec] at carries
    obtain ⟨u, hu, work⟩ := State.memoryExecute_form (f := (A i).form p)
      (by rw [h.params]; exact Arch.form_ofWord p (A i)) issued.2 carries.op hr hd
    cases ht.symm.trans hu
    cases work with
    | passes hasks eq =>
      subst eq
      exact h.access slots (done hw hr rfl rfl) s.accessedCount_behindMemory (Form.accessed_of_unasked hasks)
        rfl rfl rfl rfl rfl
    | reads j acc hform hloads hf v m hm eq =>
      subst eq
      have isLoad : j.isLoad = true := by
        obtain ⟨_, hof⟩ := (Arch.form_ofWord p (A i)).of_op (j := j) (by rw [hform]; rfl)
        rw [hform] at hof
        cases hof with
        | access _ _ _ _ hload => rw [hload, hloads]
      obtain rfl := hload rec j v m hr (by rw [carries.op, hform]; rfl) isLoad hf hm
      refine h.access slots (done hw rfl rfl rfl) s.accessedCount_behindMemory ?_ rfl rfl rfl rfl rfl
      rw [Form.accessed_of_unmarked _ _ hf, hform]
      simp only [hloads, if_true]
      rw [MemSys.cacheRead_cells hm, ← h.params]
      rfl
    | readWaits j acc hform hloads hf r hr' m hm eq =>
      subst eq
      exact h.congr rfl rfl (MemSys.cacheRead_cells hm) rfl rfl rfl rfl
    | writes j acc hform hloads hf m hm eq =>
      subst eq
      refine h.access slots (done hw rfl rfl rfl) s.accessedCount_behindMemory ?_ rfl rfl rfl rfl rfl
      obtain ⟨_, hcells⟩ | ⟨hne, _⟩ := MemSys.cacheWrite_cells hm
      · rw [Form.accessed_of_unmarked _ _ hf, hform]
        simp only [hloads, Bool.false_eq_true, if_false]
        rw [hcells, ← h.params]
      · exact absurd rfl hne
    | writeWaits j acc hform hloads hf r hr' m hm eq =>
      subst eq
      obtain ⟨rfl, _⟩ | ⟨_, hcells⟩ := MemSys.cacheWrite_cells hm
      · obtain e | e := hr' <;> cases e
      · exact h.congr rfl rfl hcells rfl rfl rfl rfl

end

end Sys2Proof.Machine
end

section
/-! SUPPORT. Execute's, Decode's and Fetch's parts of a tick keep the relation of the pipeline to the sequential
run (spec/40_pipeline.md R150 to R173). -/

namespace Sys2Proof.Machine

section
variable {p : Params} {A : Nat → Arch} {i : Nat} {s t : State} {rec : Record}

/-! ## Execute -/

theorem Matches.pc {a : Arch} {phase : Phase} (h : Matches p a (phase, rec)) : rec.pc = a.pc := by
  cases phase with
  | fetched => obtain ⟨_, op, rfl⟩ := h; rfl
  | decoded => exact h.2 ▸ Arch.decoded_pc p a
  | executed => exact h.2 ▸ Arch.executed_pc p a
  | accessed => exact h.2 ▸ Arch.accessed_pc p a

/-- With Write-Back's latch empty and a record in Execute still to be executed. -/
theorem State.slots_of_xRec (hw : s.wRec = none) (hr : s.xRec = some rec) (hd : s.xDone = false) :
    s.slots = slotOf s.memoryPhase s.mRec ++ (.decoded, rec) :: s.behindExecute := by
  simp [State.slots_of_wRec_none hw, State.behindMemory, hr, State.executePhase, hd]

theorem State.slots_of_executed (hw : s.wRec = none) (hr : s.xRec = some rec) (hd : s.xDone = true) :
    s.slots = slotOf s.memoryPhase s.mRec ++ (.executed, rec) :: s.behindExecute := by
  simp [State.slots_of_wRec_none hw, State.behindMemory, hr, State.executePhase, hd]

theorem State.executedCount_memory (s : State) :
    executedCount (slotOf s.memoryPhase s.mRec) = (slotOf s.memoryPhase s.mRec).length := by
  unfold State.memoryPhase
  cases s.mRec <;> cases s.mDone <;> rfl

theorem State.executedCount_of_xRec (hw : s.wRec = none) (hr : s.xRec = some rec) (hd : s.xDone = false) :
    executedCount s.slots = (slotOf s.memoryPhase s.mRec).length := by
  rw [State.slots_of_xRec hw hr hd, executedCount_append, State.executedCount_memory, executedCount_cons,
    State.executedCount_behindExecute]
  rfl

theorem State.executedCount_of_executed (hw : s.wRec = none) (hr : s.xRec = some rec) (hd : s.xDone = true) :
    executedCount s.slots = (slotOf s.memoryPhase s.mRec).length + 1 := by
  rw [State.slots_of_executed hw hr hd, executedCount_append, State.executedCount_memory, executedCount_cons,
    State.executedCount_behindExecute]
  rfl

/-- Only a RegImm or RegReg instruction changes the flags (R31, R171). -/
theorem State.executeExecute_flags (hr : s.xRec = some rec) (hi : rec.isOf Instr.isAlu = false)
    (ht : s.executeExecute = .next t) : t.flags = s.flags := by
  have nothing : (State.executeNothing { s with stage := .execute }).flags = s.flags := by
    obtain ⟨eq, _⟩ | ⟨_, _, _, _, eq⟩ := State.executeNothing_cases { s with stage := .execute }
    · rw [eq]
    · exact eq
  cases hop : rec.op with
  | instr j =>
    rw [State.executeExecute_of_instr hr hop] at ht
    exact exec_execute_flags (s := { s with stage := .execute }) rfl (by simpa [Record.isOf, hop] using hi) ht
  | invalid =>
    have work : s.executeExecute = .next (State.executeNothing { s with stage := .execute }) := by
      simp only [State.executeExecute, hr, hop]
    cases ht.symm.trans work
    exact nothing
  | undecoded =>
    have work : s.executeExecute = .next (State.executeNothing { s with stage := .execute }) := by
      simp only [State.executeExecute, hr, hop]
    cases ht.symm.trans work
    exact nothing

/-- What Execute makes of the state: the record and the flags of the run if all before it follow one another. -/
theorem Sim.executed_cases (h : Sim p A i s) (hw : s.wRec = none) (hr : s.xRec = some rec)
    (hd : s.xDone = false) (ht : s.executeExecute = .next t) :
    ∃ rec' flags, t = { s with stage := .execute, xDone := true, flags := flags, xRec := some rec' } ∧
      (OnPath p A i (slotOf s.memoryPhase s.mRec).length →
        Matches p (A (i + (slotOf s.memoryPhase s.mRec).length)) (.executed, rec') ∧
        FlagsAt p A flags (i + (slotOf s.memoryPhase s.mRec).length) 1) := by
  have path := h.path
  have flags := h.flags
  rw [State.slots_of_xRec hw hr hd] at path
  rw [State.executedCount_of_xRec hw hr hd] at flags
  by_cases hp : OnPath p A i (slotOf s.memoryPhase s.mRec).length
  · obtain ⟨⟨issued, rfl⟩, _⟩ := (follows_append.1 path).end hp
    have flagsOk := flags.of_onPath hp
    have work := State.executeExecute_form (s := s) (by rw [h.params]; exact Arch.form_ofWord p _) issued.2
      (Arch.decoded_carries issued.2).op hr hd
    cases ht.symm.trans work
    refine ⟨_, _, rfl, fun _ => ⟨⟨issued, ?_⟩, ?_⟩⟩
    · rw [← flagsOk.executed.1, ← h.params]
    · rw [show State.params { s with stage := .execute } = p from h.params]
      exact FlagsAt.of_executed h.run flagsOk
  · obtain ⟨hn, _⟩ | ⟨rec₂, u, _, hu, ⟨_, hd'⟩ | ⟨_, rec', flags', eq, _⟩⟩ := s.executeExecute_cases
    · cases hr.symm.trans hn
    · cases hd.symm.trans hd'
    · cases ht.symm.trans hu
      exact ⟨rec', flags', eq, fun hon => absurd hon hp⟩

/-- The record behind a taken branch that has been executed leaves flags that do for the branch's target: the
program may not be pipelined, it writes the flags there before it reads them, or the record leaves them (R351). -/
theorem Sim.flags_behind_taken (h : Sim p A i s) (rules : Rules p A) (order : s.InOrder) (hw : s.wRec = none)
    {m : Record} (hm : s.mRec = some m) (hr : s.xRec = some rec) (hd : s.xDone = false)
    (htaken : (A i).Taken p) (ht : s.executeExecute = .next t) :
    (A (i + 1)).Fresh p ∨ t.flags = s.flags := by
  have slots := State.slots_of_xRec hw hr hd
  have path := h.path
  rw [hm, slotOf_some] at slots
  rw [slots] at path
  obtain scalar | ⟨_, calm⟩ := rules
  · have := h.alone scalar
    rw [slots] at this
    simp at this
  · refine (calm i htaken).imp_right fun calm => State.executeExecute_flags hr ?_ ht
    have pcs := order.1
    rw [← State.flightPcs, State.flightPcs_eq, hw, hm, hr] at pcs
    have pc : rec.pc = (A i).pc + 1#32 := by
      rw [← path.1.pc]
      exact pcs.1
    obtain ⟨⟨j, hraw⟩, halu⟩ := h.sourced (.decoded, rec) (by simp [slots])
    rw [pc] at hraw
    by_contra hi
    have := halu (by simpa using hi)
    rw [hraw, calm j] at this
    cases this

/-- Execute's part of a tick, with Write-Back's latch empty (R170 to R173). -/
theorem Sim.executeExecute (h : Sim p A i s) (rules : Rules p A) (order : s.InOrder) (hw : s.wRec = none)
    (ht : s.executeExecute = .next t) : Sim p A i t := by
  cases hr : s.xRec with
  | none =>
    cases (State.executeExecute_of_none hr).symm.trans ht
    exact h
  | some rec =>
    cases hd : s.xDone with
    | true =>
      obtain ⟨hn, _⟩ | ⟨_, u, _, hu, ⟨rfl, _⟩ | ⟨hd', _⟩⟩ := s.executeExecute_cases
      · cases hr.symm.trans hn
      · cases ht.symm.trans hu
        exact h.congr rfl rfl rfl rfl rfl rfl rfl
      · cases hd.symm.trans hd'
    | false =>
      have slots := State.slots_of_xRec hw hr hd
      have behind := fun m hm taken => h.flags_behind_taken (m := m) rules order hw hm hr hd taken ht
      obtain ⟨rec', flags', eq, matched⟩ := h.executed_cases hw hr hd ht
      have tslots : t.slots = slotOf s.memoryPhase s.mRec ++ (.executed, rec') :: s.behindExecute := by
        rw [eq]
        exact State.slots_of_executed hw rfl rfl
      have tflags : t.flags = flags' := by rw [eq]
      have texecuted : executedCount t.slots = (slotOf s.memoryPhase s.mRec).length + 1 := by
        rw [eq]
        exact State.executedCount_of_executed hw rfl rfl
      have cells : accessedCount t.slots = accessedCount s.slots := by
        rw [tslots, slots]
        simp [Phase.isAccessed]
      obtain ⟨params, run, regs, scells, path, flags, sourced, haltsAtOnce, alone⟩ := h
      rw [State.executedCount_of_xRec hw hr hd] at flags
      rw [slots] at path sourced haltsAtOnce alone
      refine ⟨by rw [eq]; exact params, run, by rw [eq]; exact regs, by rw [cells, eq]; exact scells, ?_, ?_,
        fun slot hs => ?_, ?_, ?_⟩
      · rw [tslots, eq]
        exact path.replace fun hp _ => (matched hp).1
      · rw [tflags, texecuted]
        refine flags.succ (fun hp => (matched hp).2) fun l hl hp taken ok => ?_
        cases hm : s.mRec with
        | none => simp [hm] at hl
        | some m =>
          obtain rfl : l = 0 := by simp [hm] at hl; omega
          obtain fresh | same := behind m hm taken
          · exact .inr fresh
          · rw [← tflags, same]
            exact ok
      · rw [tslots] at hs
        simp only [List.mem_append, List.mem_cons] at hs sourced
        obtain hs | rfl | hs := hs
        · exact sourced slot (.inl hs)
        · trivial
        · exact sourced slot (.inr (.inr hs))
      · rw [tslots]
        exact haltsAtOnce.replace nofun
      · rw [tslots]
        simpa using alone

/-! ## Decode -/

/-- With Write-Back's latch empty and a record in Decode still to be decoded. -/
theorem State.slots_of_dRec (hw : s.wRec = none) (hr : s.dRec = some rec) :
    s.slots = slotOf s.memoryPhase s.mRec ++ slotOf s.executePhase s.xRec ++
      (s.decodePhase, rec) :: slotOf .fetched s.fRec := by
  simp [State.slots_of_wRec_none hw, State.behindMemory, State.behindExecute, hr]

/-- The records before Decode's have been decoded. -/
theorem State.decoded_beforeDecode {slot : Slot}
    (hs : slot ∈ slotOf s.memoryPhase s.mRec ++ slotOf s.executePhase s.xRec) : slot.1 ≠ .fetched := by
  have phaseOf {phase : Phase} {latch : Option Record} (hs : slot ∈ slotOf phase latch) : slot.1 = phase := by
    obtain ⟨_, _, rfl⟩ := List.mem_map.1 hs
    rfl
  obtain hs | hs := List.mem_append.1 hs
  · rw [phaseOf hs]
    unfold State.memoryPhase
    split <;> nofun
  · rw [phaseOf hs]
    unfold State.executePhase
    split <;> nofun

theorem State.mem_allClaims {slot : Slot} (hs : slot ∈ s.slots) {q : Reg} (hq : q ∈ slot.2.claims) :
    q ∈ s.allClaims := by
  have claimsOf_slot {phase : Phase} {latch : Option Record} (hs : slot ∈ slotOf phase latch) :
      q ∈ claimsOf latch := by
    obtain ⟨rec, hr, rfl⟩ := List.mem_map.1 hs
    rw [Option.mem_toList.1 hr, claimsOf_some]
    exact hq
  rw [State.allClaims_eq]
  simp only [State.slots, List.mem_append] at hs ⊢
  obtain hs | hs | hs | hs | hs := hs
  · exact .inl (.inl (.inl (.inl (claimsOf_slot hs))))
  · exact .inl (.inl (.inl (.inr (claimsOf_slot hs))))
  · exact .inl (.inl (.inr (claimsOf_slot hs)))
  · exact .inl (.inr (claimsOf_slot hs))
  · exact .inr (claimsOf_slot hs)

/-- A register that reads free has the value that the instructions in flight leave there (R23, R26). -/
theorem Sim.operand (h : Sim p A i s) (inv : s.TickInv) (held : s.ClaimsHeld) {L post : List Slot}
    (hslots : s.slots = L ++ post) (hL : ∀ slot ∈ L, slot.1 ≠ .fetched) (hp : OnPath p A i L.length) {q : Reg}
    (hread : s.regs.read q ≠ none) : s.regs.readNb q = (A (i + L.length)).regs q := by
  have path := h.path
  rw [hslots] at path
  have free : q ∉ s.allClaims := by
    by_cases h0 : q = 0#5
    · rw [h0]
      exact held.zero_not_mem inv.regs
    · exact held.not_mem_of_readable h0 ((s.regs.read_cases q).resolve_left hread)
  rw [h.regs, (follows_append.1 path).regs_eq h.run hp]
  exact fun slot hs => ⟨hL slot hs, fun hq => free (State.mem_allClaims (by simp [hslots, hs]) hq)⟩

theorem Form.decoded_op {form : Form} (hhalt : form.isHalt = false) (v : Reg → Word) (rec : Record) :
    (form.decoded v rec).op = form.op := by
  cases form with
  | halt => cases hhalt
  | _ => rfl

/-- A record is one of a RegImm or RegReg instruction only if its word is. -/
theorem isAluWord_of_op {signed : Bool} {w : Word} {j : Instr} (hj : (wordForm signed w).op = .instr j)
    (halu : j.isAlu = true) : isAluWord w = true := by
  have of := (Form.OfWord.of_op ⟨w, rfl⟩ hj).2
  unfold wordForm at hj of
  cases hw : decode w with
  | error e => simp [hw, Form.op] at hj
  | ok k =>
    simp only [hw] at hj of
    have again := formOf_of signed k
    simp only [isAluWord, hw]
    generalize formOf signed k = g at *
    cases again with
    | alu _ _ _ _ _ _ hk => exact hk
    | access j' acc =>
      cases hj
      cases of with
      | access _ _ _ _ _ _ hj' => rw [halu] at hj'; cases hj'
    | branch _ _ _ _ _ hcontrol =>
      cases hj
      rw [Instr.isAlu_of_isControl hcontrol] at halu
      cases halu
    | halt => cases hj

/-- Decode has finished a record, claiming its registers, or it waits with it (R160): the record stays. -/
theorem Sim.redecode (h : Sim p A i s) {phase phase' : Phase} {rec' : Record} {pre post : List Slot}
    (hslots : s.slots = pre ++ (phase, rec) :: post) (htslots : t.slots = pre ++ (phase', rec') :: post)
    (hacc : phase.isAccessed = phase'.isAccessed) (hexec : phase.isExecuted = phase'.isExecuted)
    (hmatch : OnPath p A i pre.length → Matches p (A (i + pre.length)) (phase, rec) →
      Matches p (A (i + pre.length)) (phase', rec'))
    (hsource : Sourced p A (phase, rec) → Sourced p A (phase', rec'))
    (hhalts : phase' = .fetched → phase = .fetched ∧ rec'.raw = rec.raw) (hparams : t.params = s.params)
    (hregs : ∀ q, t.regs.readNb q = s.regs.readNb q) (hcells : t.mem.ram.cells = s.mem.ram.cells)
    (hflags : t.flags = s.flags) (hpc : t.pc = s.pc) (hhalt : t.haltPending = s.haltPending) : Sim p A i t := by
  have acc : accessedCount t.slots = accessedCount s.slots := by
    rw [hslots, htslots]
    simp [hacc]
  have exec : executedCount t.slots = executedCount s.slots := by
    rw [hslots, htslots]
    simp [hexec]
  obtain ⟨params, run, regs, cells, path, flags, sourced, haltsAtOnce, alone⟩ := h
  refine ⟨hparams.trans params, run, fun q => (hregs q).trans (regs q), by rw [hcells, acc]; exact cells, ?_,
    by rw [hflags, exec]; exact flags, fun slot hs => ?_, ?_, ?_⟩
  · rw [htslots, hpc, hhalt]
    rw [hslots] at path
    exact path.replace hmatch
  · rw [htslots] at hs
    rw [hslots] at sourced
    simp only [List.mem_append, List.mem_cons] at hs sourced
    obtain hs | rfl | hs := hs
    · exact sourced slot (.inl hs)
    · exact hsource (sourced _ (.inr (.inl rfl)))
    · exact sourced slot (.inr (.inr hs))
  · rw [htslots]
    rw [hslots] at haltsAtOnce
    exact haltsAtOnce.replace hhalts
  · rw [htslots]
    rw [hslots] at alone
    simpa using alone

/-- HLT leaves Decode: no record is supplied behind those in flight, and `pc` is one past HLT (R164). -/
theorem Sim.halt (h : Sim p A i s) (order : s.InOrder) (hpending : s.haltPending = false) {pre : List Slot}
    (hslots : s.slots = pre ++ [(.fetched, rec)]) (hpcs : ∃ l, s.flightPcs = l ++ [rec.pc])
    (hform : (wordForm p.divSigned rec.raw).isHalt = true) (htslots : t.slots = pre)
    (hparams : t.params = s.params) (hregs : t.regs = s.regs) (hcells : t.mem.ram.cells = s.mem.ram.cells)
    (hflags : t.flags = s.flags) (hpc : t.pc = s.pc) (hhalt : t.haltPending = true) : Sim p A i t := by
  have next : s.pc = rec.pc + 1#32 := by
    obtain ⟨l, hl⟩ := hpcs
    have pcs := order.2 hpending
    rw [← State.flightPcs, hl, List.append_assoc] at pcs
    exact pcs.right_of_append.1
  obtain ⟨params, run, regs, cells, path, flags, sourced, haltsAtOnce, alone⟩ := h
  rw [hslots] at cells path flags sourced haltsAtOnce alone
  refine ⟨hparams.trans params, run, by rw [hregs]; exact regs, ?_, ?_, ?_, fun slot hs => ?_, ?_,
    fun hs => ?_⟩
  · rw [hcells, cells, htslots]
    simp [Phase.isAccessed]
  · rw [htslots]
    refine (follows_append.1 path).mono fun _ hm => ?_
    obtain ⟨⟨word, op, rfl⟩, _⟩ := hm
    rw [Supplied, hhalt, if_pos rfl, hpc, next]
    exact ⟨word, hform, rfl⟩
  · rw [htslots, hflags]
    simpa [Phase.isExecuted] using flags
  · exact sourced slot (List.mem_append_left _ (htslots ▸ hs))
  · rw [htslots]
    exact haltsAtOnce.left
  · have := alone hs
    rw [htslots]
    simp at this
    simp [this]

/-- A record that waits in Decode is no HLT. -/
def State.WaitsNoHalt (s : State) : Prop :=
  ∀ rec, s.dRec = some rec → s.dState ≠ .free → (wordForm s.params.divSigned rec.raw).isHalt = false

/-- Decode's part of a tick, with Write-Back's latch empty (R160 to R166). -/
theorem Sim.decodeExecute (h : Sim p A i s) (inv : s.TickInv) (held : s.ClaimsHeld) (order : s.InOrder)
    (hw : s.wRec = none) (ht : s.decodeExecute = .next t) : Sim p A i t ∧ t.WaitsNoHalt := by
  obtain rfl := h.params
  obtain ⟨hn, ht'⟩ | ⟨rec, _, hr, hpending, _⟩ := s.decodeExecute_cases
  · cases ht.symm.trans ht'
    refine ⟨h, fun rec hr hp => ?_⟩
    obtain hn | hf := hn
    · cases hn.symm.trans hr
    · exact absurd hf hp
  · have slots := State.slots_of_dRec hw hr
    have phase : s.decodePhase = .fetched := if_neg hpending
    have finished {t : State} {rec' : Record} (hw' : t.wRec = none) (hr' : t.dRec = some rec')
        (hpre : slotOf t.memoryPhase t.mRec ++ slotOf t.executePhase t.xRec =
          slotOf s.memoryPhase s.mRec ++ slotOf s.executePhase s.xRec) (hf : t.fRec = s.fRec) :
        t.slots = slotOf s.memoryPhase s.mRec ++ slotOf s.executePhase s.xRec ++
          (t.decodePhase, rec') :: slotOf .fetched s.fRec := by
      rw [State.slots_of_dRec hw' hr', hpre, hf]
    rw [phase] at slots
    obtain ⟨u, hu, work⟩ := State.decodeExecute_form hr hpending
    cases ht.symm.trans hu
    cases work with
    | halts hhalt eq =>
      have hfRec : s.fRec = none := by
        have := h.haltsAtOnce
        rw [slots] at this
        have := this.alone_of_halt hhalt
        cases hf : s.fRec with
        | none => rfl
        | some f => simp [hf] at this
      subst eq
      refine ⟨h.halt order (inv.not_halting hr) (by rw [slots, hfRec]; rfl) ?_ hhalt ?_ rfl rfl rfl rfl rfl rfl,
        fun _ e => by cases e⟩
      · exact ⟨_, by rw [State.flightPcs_eq, hr, hfRec, pcOf_none, List.append_nil]; rfl⟩
      · simp [State.slots, hw, State.memoryPhase, State.executePhase]
    | finishes hhalt hreads regs hregs eq =>
      subst eq
      refine ⟨h.redecode slots (finished hw rfl rfl rfl) rfl rfl (fun hp hm => ?_) (fun hsource => ?_)
        (fun e => by cases e) rfl hregs rfl rfl rfl rfl, fun _ _ hp => absurd rfl hp⟩
      · obtain ⟨word, op, rfl⟩ := hm
        refine ⟨⟨word, hhalt⟩, ?_⟩
        rw [Form.decoded_withOp hhalt]
        exact Form.decoded_congr (fun q hq =>
          h.operand inv held slots (fun _ => State.decoded_beforeDecode) hp (hreads q hq)) _
      · obtain ⟨j, hraw⟩ := hsource
        have source := Form.decoded_source (wordForm s.params.divSigned rec.raw) s.regs.readNb rec
        have op := Form.decoded_op hhalt s.regs.readNb rec
        refine ⟨⟨j, ?_⟩, fun halu => ?_⟩
        · show (Form.decoded _ s.regs.readNb rec).raw = _
          rw [source.1, source.2, hraw]
        · show isAluWord (Form.decoded _ s.regs.readNb rec).raw = true
          rw [source.1]
          cases hj : (wordForm s.params.divSigned rec.raw).op with
          | instr j => exact isAluWord_of_op hj (by simpa [Record.isOf, op.trans hj] using halu)
          | invalid => simp [Record.isOf, op.trans hj] at halu
          | undecoded => simp [Record.isOf, op.trans hj] at halu
    | waits q hq hblocked op eq =>
      subst eq
      refine ⟨h.redecode slots (finished hw rfl rfl rfl) rfl rfl (fun hp hm => ?_) id (fun _ => ⟨rfl, rfl⟩) rfl
        (fun _ => rfl) rfl rfl rfl rfl, ?_⟩
      · obtain ⟨word, op', rfl⟩ := hm
        exact ⟨word, op, rfl⟩
      · rintro _ ⟨⟩ _
        show (wordForm s.params.divSigned rec.raw).isHalt = false
        cases hf : wordForm s.params.divSigned rec.raw with
        | halt => rw [hf] at hq; cases hq
        | _ => rfl

/-! ## Fetch -/

/-- A request of Fetch's that is granted in this tick gets the RAM's word. -/
def State.FetchesRam (s : State) : Prop :=
  s.fSquashed = false → s.fetchHeld = false →
    ∀ v m, s.mem.cacheRead s.params s.pc .fetch = (.success v, m) → v = s.ramWord s.pc

/-- The RAM still holds the word that the next instruction was, or will be, fetched as (R352). -/
theorem Sim.nextWord (h : Sim p A i s) (rules : Rules p A) (hlength : s.slots.length ≤ 3)
    (hscalar : p.scalar = true → s.slots = []) (hp : OnPath p A i s.slots.length)
    (hpc : s.pc = (A (i + s.slots.length)).pc) : s.ramWord s.pc = (A (i + s.slots.length)).word p := by
  have acc : accessedCount s.slots ≤ s.slots.length := List.countP_le_length
  rw [State.ramWord, h.params, h.cells, hpc]
  obtain scalar | ⟨far, _⟩ := rules
  · rw [hscalar scalar]
    rfl
  · have := far (i + accessedCount s.slots) (s.slots.length - accessedCount s.slots) (by omega) (hp.drop acc)
    rwa [show i + accessedCount s.slots + (s.slots.length - accessedCount s.slots) = i + s.slots.length by
      omega] at this

/-- Fetch has obtained the next word (R151). -/
theorem Sim.fetch (h : Sim p A i s) (rules : Rules p A) (hpending : s.haltPending = false)
    (hlength : s.slots.length ≤ 3) (hscalar : p.scalar = true → s.slots = [])
    (hwait : ∀ slot ∈ s.slots, slot.1 = .fetched → (wordForm p.divSigned slot.2.raw).isHalt = false)
    (hword : s.ramWord s.pc ≠ 0#32)
    (htslots : t.slots = s.slots ++ [(.fetched, newRecord (s.ramWord s.pc) s.pc)])
    (hparams : t.params = s.params) (hregs : t.regs = s.regs) (hcells : t.mem.ram.cells = s.mem.ram.cells)
    (hflags : t.flags = s.flags) (hpc : t.pc = s.pc + 1#32) (hhalt : t.haltPending = s.haltPending) :
    Sim p A i t := by
  have next := fun hp hpc => h.nextWord rules hlength hscalar hp hpc
  have source : FromRun p A (newRecord (s.ramWord s.pc) s.pc) :=
    ⟨i + accessedCount s.slots, by rw [← h.cells, ← h.params]; rfl⟩
  obtain ⟨params, run, regs, cells, path, flags, sourced, haltsAtOnce, alone⟩ := h
  refine ⟨hparams.trans params, run, by rw [hregs]; exact regs, ?_, ?_, ?_, fun slot hs => ?_, ?_,
    fun hs => ?_⟩
  · rw [hcells, cells, htslots]
    simp [Phase.isAccessed]
  · rw [htslots]
    refine follows_append.2 (path.mono fun hp hsupply => ?_)
    have hsupply : s.pc = (A (i + s.slots.length)).pc := by simpa [Supplied, hpending] using hsupply
    have word := next hp hsupply
    refine ⟨⟨by rw [← word]; exact hword, .undecoded, ?_⟩, fun straight => ?_⟩
    · rw [word, hsupply]
      rfl
    · rw [follows_nil, Supplied, hhalt, hpending, hpc, run, straight.next_pc, hsupply]
      simp
  · rw [htslots, hflags]
    simpa [Phase.isExecuted] using flags
  · rw [htslots] at hs
    obtain hs | hs := List.mem_append.1 hs
    · exact sourced slot hs
    · rw [List.mem_singleton.1 hs]
      exact source
  · rw [htslots]
    exact HaltsAtOnce.concat hwait _
  · rw [htslots, hscalar hs]
    simp

/-- Fetch's part of a tick, with Write-Back's latch empty (R150, R151). -/
theorem Sim.fetchExecute (h : Sim p A i s) (rules : Rules p A) (hw : s.wRec = none) (hwait : s.WaitsNoHalt)
    (hfetch : s.FetchesRam) : Sim p A i s.fetchExecute := by
  obtain ⟨_, eq⟩ | ⟨_, _, eq⟩ | ⟨hq, hf, hpending, hscalar, r, m, hm, eq | ⟨v, rfl, hv, eq⟩⟩ :=
    s.fetchExecute_cases
  · rw [eq]
    exact h.congr rfl rfl rfl rfl rfl rfl rfl
  · rw [eq]
    exact h
  · rw [eq]
    exact h.congr rfl rfl (MemSys.cacheRead_cells hm) rfl rfl rfl rfl
  · have slots := State.slots_of_wRec_none hw
    rw [State.behindMemory, State.behindExecute, hf, slotOf_none, List.append_nil] at slots
    have held : s.fetchHeld = false := by
      rw [State.fetchHeld, hf, hpending, hscalar]
      rfl
    obtain rfl := hfetch hq held v m hm
    refine h.fetch rules hpending ?_ (fun scalar => ?_) (fun slot hs hphase => ?_) hv ?_ ?_ ?_ ?_ ?_ ?_ ?_
    · rw [slots, List.length_append, List.length_append]
      have := slotOf_length_le s.memoryPhase s.mRec
      have := slotOf_length_le s.executePhase s.xRec
      have := slotOf_length_le s.decodePhase s.dRec
      omega
    · simp only [State.scalarHold, h.params, scalar, Bool.true_and, Bool.or_eq_false_iff,
        Option.isSome_eq_false_iff, Option.isNone_iff_eq_none] at hscalar
      obtain ⟨⟨hd, hx⟩, hm'⟩ := hscalar
      rw [slots, hd, hx, hm']
      rfl
    · rw [slots, ← List.append_assoc] at hs
      obtain hs | hs := List.mem_append.1 hs
      · exact absurd hphase (State.decoded_beforeDecode hs)
      · obtain ⟨rec, hr, rfl⟩ := List.mem_map.1 hs
        rw [← h.params]
        refine hwait rec (Option.mem_toList.1 hr) fun hfree => ?_
        simp [State.decodePhase, hfree] at hphase
    all_goals rw [eq]
    · simp [State.slots, hw, hf, State.memoryPhase, State.executePhase, State.decodePhase]
    · exact MemSys.cacheRead_cells hm

end

end Sys2Proof.Machine
end

section
/-! SUPPORT. A tick against the sequential run (spec/40_pipeline.md R140): it commits the record in Write-Back, or
takes its fault, and the relation holds again. -/

namespace Sys2Proof.Machine

/-- The states between the parts of a tick in which Write-Back takes no fault (R140). -/
structure Ticks (s s1 s2 s3 s4 t : State) : Prop where
  writeBack : s.writeBackExecute = .next s1
  unfaulted : s1.fault = none
  memory : s1.memoryExecute = .next s2
  execute : s2.executeExecute = .next s3
  decode : s3.decodeExecute = .next s4
  eq : t = s4.fetchExecute.advance.endTick

section
variable {p : Params} {A : Nat → Arch} {i : Nat} {s s1 s2 s3 s4 t : State}

theorem step_stages (hs : s.stopped = false) (ht : step s = .next t) :
    (s.writeBackExecute = .next t ∧ t.fault ≠ none) ∨ ∃ s1 s2 s3 s4, Ticks s s1 s2 s3 s4 t := by
  obtain ⟨s1, hw, ⟨hf, ht'⟩ | ⟨hf, s2, s3, s4, hm, hx, hd, ht'⟩⟩ := State.tick_cases hs
  · cases ht'.symm.trans ht
    exact .inl ⟨hw, hf⟩
  · cases ht'.symm.trans ht
    exact .inr ⟨s1, s2, s3, s4, hw, hf, hm, hx, hd, rfl⟩

theorem Ticks.keepsGlobals (h : Ticks s s1 s2 s3 s4 t) : t.params = s.params ∧ t.fault = none := by
  obtain ⟨hw, hf, hm, hx, hd, rfl⟩ := h
  have keeps : KeepsGlobals s1 s4.fetchExecute.advance :=
    (State.memoryExecute_keepsGlobals hm).trans <| (State.executeExecute_keepsGlobals hx).trans <|
      (State.decodeExecute_keepsGlobals hd).trans <|
        s4.fetchExecute_keepsGlobals.trans (State.advance_keepsGlobals _)
  exact ⟨keeps.params.trans (State.writeBackExecute_params_clock hw).1, keeps.fault.trans hf⟩

/-- The middle of the tick (R140). -/
theorem Ticks.middle (h : Ticks s s1 s2 s3 s4 t) : s1.middleExecute = .next s4 := by
  simp [State.middleExecute, andThen, h.memory, h.execute, h.decode]

theorem Ticks.wRec_none (h : Ticks s s1 s2 s3 s4 t) :
    s1.wRec = none ∧ s2.wRec = none ∧ s3.wRec = none ∧ s4.wRec = none := by
  have h1 := State.writeBackExecute_wRec h.writeBack
  have h2 := (State.memoryExecute_answered h.memory).2.trans h1
  have h3 := (State.executeExecute_keepsTail h.execute).wRec.trans h2
  exact ⟨h1, h2, h3, (State.decodeExecute_keepsTail h.decode).wRec.trans h3⟩

theorem State.advance_flags (s : State) : s.advance.flags = s.flags := by
  have memory : s.advanceMemory.flags = s.flags := by unfold State.advanceMemory; split <;> rfl
  have execute (s : State) : s.advanceExecute.flags = s.flags := by unfold State.advanceExecute; split <;> rfl
  have decode (s : State) : s.advanceDecode.flags = s.flags := by unfold State.advanceDecode; split <;> rfl
  have fetch (s : State) : s.advanceFetch.flags = s.flags := by unfold State.advanceFetch; split <;> rfl
  simp only [State.advance, fetch, decode, execute, memory]

theorem WriteBackStep.mDone {rec : Record} (hw : WriteBackStep s rec t) (hd : s.mDone = false) :
    t.mDone = false := by
  cases hw with
  | faults _ _ eq => subst eq; exact hd
  | commits _ _ _ eq => subst eq; exact hd
  | notTaken _ _ eq => subst eq; exact hd
  | jumps _ _ eq => subst eq; exact State.squashAll_mDone _

theorem State.writeBackExecute_mDone (hd : s.mDone = false) (h : s.writeBackExecute = .next t) :
    t.mDone = false := by
  obtain ⟨_, h'⟩ | ⟨rec, u, _, h', hw⟩ := s.writeBackExecute_cases
  · cases h.symm.trans h'; exact hd
  · cases h.symm.trans h'; exact hw.mDone hd

/-- The invariants of a machine between two ticks. -/
structure State.Sound (s : State) : Prop where
  inv : s.Inv
  claims : s.ClaimsOk
  order : s.InOrder
  /-- A pending halt with nothing in flight has taken effect (R190). -/
  pending : s.stopped = false → s.haltPending = true → s.drained = false

theorem State.Sound.next (h : s.Sound) (ht : step s = .next t) : t.Sound := by
  refine ⟨stepKeepsInvariant s t h.inv ht, stepKeepsClaims s t h.inv h.claims ht,
    stepKeepsOrder s t h.inv h.order ht, fun running hp => ?_⟩
  cases hs : s.stopped with
  | true =>
    cases (step_of_stopped hs).symm.trans ht
    exact h.pending running hp
  | false =>
    obtain ⟨hhalted, hfault⟩ := State.halted_fault_of_running running
    have := haltWhenDrained s t hs ht
    by_contra hd
    have hd := State.drained_iff.1 (by simpa using hd)
    simp [hhalted, hfault, hp, hd] at this

theorem State.Sound.tickInv (h : s.Sound) : s.TickInv := (State.inv_iff.1 h.inv).1

theorem State.Sound.mDone (h : s.Sound) : s.mDone = false := (State.inv_iff.1 h.inv).2.2.2.1

/-- What the memory answers in this tick are the RAM's words. -/
structure State.ReadsRam (s : State) : Prop where
  loads : ∀ s1, s.writeBackExecute = .next s1 → s1.fault = none → s1.LoadsRam
  fetches : ∀ s1 s4, s.writeBackExecute = .next s1 → s1.fault = none → s1.middleExecute = .next s4 →
    s4.FetchesRam

/-- A tick commits Write-Back's record, if there is one, or takes its fault. -/
theorem Sim.tick (h : Sim p A i s) (sound : s.Sound) (rules : Rules p A) (reads : s.ReadsRam)
    (running : s.stopped = false) (ht : step s = .next t) :
    (s.wRec ≠ none ∧ FaultsAt p (A i) t) ∨
      (t.fault = none ∧ (s.wRec ≠ none → (A i).stops p = false) ∧
        Sim p A (i + s.wRec.toList.length) t) := by
  obtain ⟨_, unfaulted⟩ := State.halted_fault_of_running running
  obtain ⟨hw, hf⟩ | ⟨s1, s2, s3, s4, ticks⟩ := step_stages running ht
  · refine (h.writeBackExecute sound.mDone unfaulted hw).imp_right fun e => absurd e.1 hf
  · obtain ⟨w1, w2, w3, w4⟩ := ticks.wRec_none
    have unfaulted' := ticks.keepsGlobals.2
    have middle := ticks.middle
    obtain ⟨hw, hf, hm, hx, hd, rfl⟩ := ticks
    obtain ⟨_, committed, sim1⟩ :=
      (h.writeBackExecute sound.mDone unfaulted hw).resolve_left fun e => e.2.faults hf
    have inv3 := ((sound.tickInv.writeBackExecute hw).memoryExecute hm).executeExecute hx
    have order2 := (State.memoryExecute_keepsFlight hm).inOrder (sound.order.writeBackExecute hw)
    have held1 := (State.claimsOk_iff.1 sound.claims unfaulted).writeBackExecute sound.tickInv hw hf
    have held3 := (State.executeExecute_keepsFlight hx).claimsHeld
      ((State.memoryExecute_keepsFlight hm).claimsHeld held1)
    have sim3 := (sim1.memoryExecute w1 (State.writeBackExecute_mDone sound.mDone hw) (reads.loads s1 hw hf)
      hm).executeExecute rules order2 w2 hx
    obtain ⟨sim4, waits⟩ := sim3.decodeExecute inv3 held3
      ((State.executeExecute_keepsFlight hx).inOrder order2) w3 hd
    have sim5 := sim4.fetchExecute rules w4 waits (reads.fetches s1 s4 hw hf middle)
    obtain ⟨regs, pc, _, haltPending⟩ := s4.fetchExecute.advance_keeps
    refine .inr ⟨unfaulted', committed, sim5.congr (State.advance_keepsGlobals _).params
      (congrArg RegFile.readNb regs) (congrArg (fun m => m.ram.cells) (State.advance_mem _)) (State.advance_slots _)
      (State.advance_flags _) pc haltPending⟩

/-- When a pending halt takes effect, the next instruction of the run is HLT (R164, R190). -/
theorem Sim.at_halt (h : Sim p A i s) (inv : s.TickInv) (hpending : s.haltPending = true)
    (hdrained : s.drained = true) :
    (A i).word p ≠ 0#32 ∧ ((A i).form p).isHalt = true ∧ s.pc = (A i).pc + 1#32 ∧
      s.mem.ram.cells = (A i).cells := by
  obtain ⟨hx, hm, hw⟩ := State.drained_iff.1 hdrained
  obtain ⟨hf, hd⟩ := inv.halting hpending
  have slots : s.slots = [] := by simp [State.slots, hx, hm, hw, hf, hd]
  have path := h.path
  have cells := h.cells
  rw [slots] at path cells
  rw [follows_nil, Supplied, hpending, if_pos rfl] at path
  exact ⟨path.1, path.2.1, path.2.2, cells⟩

end

end Sys2Proof.Machine
end

section
/-! SUPPORT. The software rules of R351 and R352 on the executed records of a run one instruction at a time, as
rules on its architectural states (spec/70_reset_and_hazards.md R351, R352, R360). -/

namespace Sys2Proof.Machine

/-- The records are those that end their lives from the `i`-th instruction of the run on, up to its last one. -/
inductive Retires (p : Params) (A : Nat → Arch) : Nat → List Record → Prop where
  | halts {i : Nat} (rec : Record) (hhalt : ((A i).form p).isHalt = true) (hpc : rec.pc = (A i).pc)
      (hb : rec.branchTaken = false) : Retires p A i [rec]
  | faults {i : Nat} (hstops : (A i).stops p = true) : Retires p A i [(A i).accessed p]
  | commits {i : Nat} {rest : List Record} (running : (A i).stops p = false) (tail : Retires p A (i + 1) rest) :
      Retires p A i ((A i).accessed p :: rest)

section
variable {p : Params} {A : Nat → Arch} {i j n : Nat} {l : List Record} {a : Arch}

/-! ## What a record says of its instruction -/

theorem formOf_op_isAlu (signed : Bool) (i : Instr) (rec : Record) (h : rec.op = (formOf signed i).op) :
    rec.isOf Instr.isAlu = i.isAlu := by
  rw [Record.isOf, h]
  cases i <;> rfl

theorem formOf_op_readsFlags (signed : Bool) (i : Instr) (rec : Record) (h : rec.op = (formOf signed i).op) :
    rec.isOf Instr.readsFlags = i.readsFlags := by
  rw [Record.isOf, h]
  cases i <;> rfl

namespace Arch

theorem stops_of_halt (h : (a.form p).isHalt = true) : a.stops p = true := by
  simp [stops, h]

theorem not_readsFlags_of_halt (h : (a.form p).isHalt = true) : a.readsFlags p = false := by
  cases hw : decode (a.word p) with
  | error e => simp [readsFlags, hw]
  | ok i =>
    rw [readsFlags_of_decode hw]
    rw [form_of_decode hw] at h
    cases i with
    | hlt => rfl
    | _ => cases h

theorem not_readsFlags_of_isAlu (h : a.isAlu p = true) : a.readsFlags p = false := by
  cases hw : decode (a.word p) with
  | error e => simp [readsFlags, hw]
  | ok i =>
    rw [isAlu_of_decode hw] at h
    rw [readsFlags_of_decode hw]
    cases i with
    | beq | bne | blt | bge | blu | bae | ba | bof | bnf => cases h
    | _ => rfl

theorem accessed_isOf (hhalt : (a.form p).isHalt = false) :
    (a.accessed p).isOf Instr.isAlu = a.isAlu p ∧ (a.accessed p).isOf Instr.readsFlags = a.readsFlags p := by
  have op := (accessed_carries hhalt).op
  cases hw : decode (a.word p) with
  | error e =>
    rw [form_of_error hw] at op
    simp [Record.isOf, op, Form.op, isAlu, isAluWord, readsFlags, hw]
  | ok i =>
    rw [form_of_decode hw] at op
    rw [isAlu_of_decode hw, readsFlags_of_decode hw]
    exact ⟨formOf_op_isAlu _ _ _ op, formOf_op_readsFlags _ _ _ op⟩

theorem Fresh.of_isAlu (h : a.isAlu p = true) : a.Fresh p := by
  intro n hn
  cases n with
  | zero => exact absurd ((not_readsFlags_of_isAlu h).symm.trans hn) (by simp)
  | succ n => exact ⟨0, by omega, h⟩

theorem Fresh.of_next (h : a.readsFlags p = false) (hnext : (a.next p).Fresh p) : a.Fresh p := by
  intro n hn
  cases n with
  | zero => exact absurd (h.symm.trans hn) (by simp)
  | succ n =>
    rw [Nat.add_comm, run_add] at hn
    obtain ⟨m, hm, halu⟩ := hnext n hn
    exact ⟨1 + m, by omega, by rw [run_add]; exact halu⟩

theorem Fresh.of_stops (hs : a.stops p = true) (h : a.readsFlags p = false) : a.Fresh p := by
  intro n hn
  rw [run_of_stops hs] at hn
  exact absurd (h.symm.trans hn) (by simp)

/-- A running instruction keeps the RAM's contents, or it is a store that its record names (R178). -/
theorem next_cells_cases (h : a.stops p = false) :
    (a.next p).cells = a.cells ∨
      ∃ b v, (a.accessed p).stored = some b ∧ (a.next p).cells = a.cells.setWord (b.toNat % p.ramWords) v := by
  have op := (accessed_carries (issued_of_running h).2).op
  rw [(issued_of_running h).next_cells]
  simp only [accessed, Form.accessed_of_unmarked _ _ (unmarked_of_running h)] at op ⊢
  cases hf : a.form p with
  | access j acc =>
    rw [hf] at op
    cases hl : acc.loads with
    | true => exact .inl (by simp [hl])
    | false =>
      obtain ⟨again, of⟩ := (form_ofWord p a).of_op (j := j) (by rw [hf]; rfl)
      rw [hf] at again of
      simp only [hl, Bool.false_eq_true, if_false] at op ⊢
      cases of with
      | access _ _ _ _ _ hstore =>
        rw [hl] at hstore
        refine .inr ⟨(a.executed p).destMemAddr, _, ?_, rfl⟩
        rw [Record.stored, op]
        cases j with
        | stw => cases again; rfl
        | push => cases again; exact congrArg some (BitVec.add_sub_cancel _ _)
        | _ => cases hstore
  | _ => exact .inl rfl

end Arch

/-! ## The rules -/

theorem Retires.next (h : Retires p A i l) (running : (A i).stops p = false) :
    ∃ rest, l = (A i).accessed p :: rest ∧ Retires p A (i + 1) rest := by
  cases h with
  | halts rec hhalt =>
    rw [(Arch.issued_of_running running).2] at hhalt
    cases hhalt
  | faults hstops => exact absurd (running.symm.trans hstops) (by simp)
  | commits _ tail => exact ⟨_, rfl, tail⟩

theorem run_stays (hA : ∀ n, A (n + 1) = (A n).next p) (hs : (A i).stops p = true) (hj : i ≤ j) : A j = A i := by
  induction j, hj using Nat.le_induction with
  | base => rfl
  | succ j _ ih => rw [hA, ih, Arch.next_of_stops hs]

/-- The flags are written before they are read if the executed records say so (R351). -/
theorem Retires.fresh (hA : ∀ n, A (n + 1) = (A n).next p) (h : Retires p A i l)
    (hl : writesBeforeReads l = true) : (A i).Fresh p := by
  induction h with
  | halts rec hhalt =>
    exact .of_stops (Arch.stops_of_halt hhalt) (Arch.not_readsFlags_of_halt hhalt)
  | @faults i hstops =>
    cases hhalt : ((A i).form p).isHalt with
    | true => exact .of_stops hstops (Arch.not_readsFlags_of_halt hhalt)
    | false =>
      obtain ⟨halu, hreads⟩ := Arch.accessed_isOf hhalt
      simp only [writesBeforeReads, halu, hreads, Bool.or_eq_true, Bool.and_eq_true, Bool.not_eq_true',
        and_true] at hl
      exact hl.elim .of_isAlu (.of_stops hstops)
  | @commits i rest running tail ih =>
    obtain ⟨halu, hreads⟩ := Arch.accessed_isOf (Arch.issued_of_running running).2
    simp only [writesBeforeReads, halu, hreads, Bool.or_eq_true, Bool.and_eq_true, Bool.not_eq_true'] at hl
    exact hl.elim .of_isAlu fun hl => .of_next hl.1 (hA i ▸ ih hl.2)

/-- What the rule of R351 on the executed records says of a taken branch. -/
theorem Retires.after_taken (hA : ∀ n, A (n + 1) = (A n).next p) {calm : Record → Bool} (h : Retires p A i l)
    (hl : flagsNotCarried calm l = true) (hj : i ≤ j) (taken : (A j).Taken p) :
    calm ((A j).accessed p) = true ∨ (A (j + 1)).Fresh p := by
  have ended {i : Nat} (hs : (A i).stops p = true) (hj : i ≤ j) : False := by
    have := taken.1
    rw [run_stays hA hs hj, hs] at this
    cases this
  induction h with
  | halts rec hhalt => exact (ended (Arch.stops_of_halt hhalt) hj).elim
  | faults hstops => exact (ended hstops hj).elim
  | @commits i rest running tail ih =>
    simp only [flagsNotCarried, Bool.and_eq_true, Bool.or_eq_true, Bool.not_eq_true'] at hl
    obtain rfl | hlt := Nat.eq_or_lt_of_le hj
    · obtain ((hb | hcalm) | hfresh) := hl.1
      · rw [Arch.accessed_branchTaken, taken.2] at hb
        cases hb
      · exact .inl hcalm
      · exact .inr (tail.fresh hA hfresh)
    · exact ih hl.2 hlt

/-- An address that is not among the next executed instructions is not that of an instruction on the way. -/
theorem Retires.not_sameWord (h : Retires p A i l) {b : Word} {fuel : Nat} (hl : notAmongNext p b fuel l = true)
    (hn : n < fuel) (hp : OnPath p A i n) : sameWord p b (A (i + n)).pc = false := by
  induction n generalizing i l fuel with
  | zero =>
    obtain ⟨fuel, rfl⟩ : ∃ k, fuel = k + 1 := ⟨fuel - 1, by omega⟩
    cases h with
    | halts rec hhalt hpc => simpa [notAmongNext, hpc] using (Bool.and_eq_true_iff.1 hl).1
    | faults => simpa [notAmongNext, Arch.accessed_pc] using (Bool.and_eq_true_iff.1 hl).1
    | commits => simpa [notAmongNext, Arch.accessed_pc] using (Bool.and_eq_true_iff.1 hl).1
  | succ n ih =>
    obtain ⟨fuel, rfl⟩ : ∃ k, fuel = k + 1 := ⟨fuel - 1, by omega⟩
    obtain ⟨straight, hp⟩ := onPath_succ.1 hp
    obtain ⟨rest, rfl, tail⟩ := h.next straight.1
    simp only [notAmongNext, Arch.accessed_branchTaken, straight.2, Bool.false_or, Bool.and_eq_true] at hl
    have := ih tail hl.2 (by omega) hp
    rwa [Nat.add_assoc, Nat.add_comm 1] at this

/-- What the rule of R352 on the executed records says of a running instruction. -/
theorem Retires.after_store (hA : ∀ n, A (n + 1) = (A n).next p) (h : Retires p A i l)
    (hl : storesFarAhead p l = true) (hj : i ≤ j) (running : (A j).stops p = false) (hn : n < 3)
    (hp : OnPath p A (j + 1) n) {b : Word} (hb : ((A j).accessed p).stored = some b) :
    sameWord p b (A (j + 1 + n)).pc = false := by
  have ended {i : Nat} (hs : (A i).stops p = true) (hj : i ≤ j) : False := by
    rw [run_stays hA hs hj, hs] at running
    cases running
  induction h with
  | halts rec hhalt => exact (ended (Arch.stops_of_halt hhalt) hj).elim
  | faults hstops => exact (ended hstops hj).elim
  | @commits i rest running tail ih =>
    simp only [storesFarAhead, Bool.and_eq_true] at hl
    obtain rfl | hlt := Nat.eq_or_lt_of_le hj
    · rw [hb] at hl
      exact tail.not_sameWord hl.1 hn hp
    · exact ih hl.2 hlt

theorem Retires.storesFar (hA : ∀ n, A (n + 1) = (A n).next p) (h : Retires p A 0 l)
    (hl : storesFarAhead p l = true) (hwf : ∀ j, (A j).cells.wf = true) : StoresFar p A := by
  intro i n hn hp
  induction n generalizing i with
  | zero => rfl
  | succ n ih =>
    obtain ⟨straight, hp⟩ := onPath_succ.1 hp
    have later := ih (i + 1) (by omega) hp
    rw [Nat.add_assoc, Nat.add_comm 1] at later
    rw [← later, hA]
    obtain same | ⟨b, v, hb, hcells⟩ := Arch.next_cells_cases straight.1
    · rw [same]
    · have apart := h.after_store hA hl (Nat.zero_le i) straight.1 (by omega) hp hb
      rw [Nat.add_assoc, Nat.add_comm 1, sameWord, beq_eq_false_iff_ne] at apart
      rw [hcells, RamCells.word_setWord (hwf i), if_neg (Ne.symm apart)]

end

end Sys2Proof.Machine
end

section
/-! SUPPORT. The machine with one instruction in flight and no cache runs the sequential run and retires its
records (spec/40_pipeline.md R192, spec/70_reset_and_hazards.md R360). -/

namespace Sys2Proof.Machine

section
variable {p : Params} {A : Nat → Arch} {i : Nat} {s t : State} {rec : Record}

/-! ## How a run ends -/

/-- The machine has stopped at the instruction at `a`: at HLT, or with its fault (R190, R312). -/
inductive Ended (p : Params) (a : Arch) (t : State) : Prop where
  | halted (hhalted : t.halted = true) (hfault : t.fault = none) (word : a.word p ≠ 0#32)
      (hhalt : (a.form p).isHalt = true) (regs : ∀ q, t.regs.readNb q = a.regs q)
      (cells : t.mem.ram.cells = a.cells) (pc : t.pc = a.pc + 1#32)
  | faulted (hhalted : t.halted = false) (at_fault : FaultsAt p a t)

theorem Ended.stops {a : Arch} (h : Ended p a t) : a.stops p = true := by
  cases h with
  | halted _ _ _ hhalt => exact Arch.stops_of_halt hhalt
  | faulted _ at_fault => exact at_fault.issued.stops_iff.2 (at_fault.fault ▸ at_fault.faults)

/-- Two machines that end at one instruction show the same. -/
theorem Ended.agree {a : Arch} (h : Ended p a s) (h' : Ended p a t) :
    t.halted = s.halted ∧ t.fault = s.fault ∧ (∀ q, t.regs.readNb q = s.regs.readNb q) ∧
      t.mem.ram.cells = s.mem.ram.cells ∧ (s.fault = none → t.pc = s.pc) := by
  cases h with
  | halted hhalted hfault word hhalt regs cells pc =>
    cases h' with
    | halted hhalted' hfault' _ _ regs' cells' pc' =>
      exact ⟨hhalted'.trans hhalted.symm, hfault'.trans hfault.symm, fun q => (regs' q).trans (regs q).symm,
        cells'.trans cells.symm, fun _ => pc'.trans pc.symm⟩
    | faulted _ at_fault =>
      rw [at_fault.issued.2] at hhalt
      cases hhalt
  | faulted hhalted at_fault =>
    cases h' with
    | halted _ _ _ hhalt =>
      rw [at_fault.issued.2] at hhalt
      cases hhalt
    | faulted hhalted' at_fault' =>
      exact ⟨hhalted'.trans hhalted.symm, at_fault'.fault.trans at_fault.fault.symm,
        fun q => (at_fault'.regs q).trans (at_fault.regs q).symm, at_fault'.cells.trans at_fault.cells.symm,
        fun e => absurd e at_fault.faults⟩

/-- A tick of a machine in step with the run ends its run or leaves it in step. -/
theorem Sim.step_cases (h : Sim p A i s) (sound : s.Sound) (rules : Rules p A) (reads : s.ReadsRam)
    (running : s.stopped = false) (ht : step s = .next t) :
    (t.stopped = true ∧ Ended p (A (i + s.wRec.toList.length)) t) ∨
      (t.stopped = false ∧ (s.wRec ≠ none → (A i).stops p = false) ∧
        Sim p A (i + s.wRec.toList.length) t) := by
  have halted := haltWhenDrained s t running ht
  obtain ⟨hw, at_fault⟩ | ⟨unfaulted, committed, sim⟩ := h.tick sound rules reads running ht
  · have notHalted : t.halted = false := Bool.eq_false_iff.2 fun e => at_fault.faults (halted.1 e).1
    obtain ⟨rec, hr⟩ := Option.ne_none_iff_exists'.1 hw
    refine .inl ⟨State.stopped_of (.inr at_fault.faults), ?_⟩
    have stays : A (i + 1) = A i := by
      rw [h.run, Arch.next_of_stops (Ended.stops (.faulted notHalted at_fault))]
    rw [hr, Option.toList_some, List.length_singleton, stays]
    exact .faulted notHalted at_fault
  · cases hh : t.halted with
    | false => exact .inr ⟨by simp [State.stopped, hh, unfaulted], committed, sim⟩
    | true =>
      obtain ⟨_, hpending, drained⟩ := halted.1 hh
      obtain ⟨word, hhalt, pc, cells⟩ :=
        sim.at_halt (sound.next ht).tickInv hpending (State.drained_iff.2 drained)
      exact .inl ⟨State.stopped_of (.inl hh), .halted hh unfaulted word hhalt sim.regs cells pc⟩

/-! ## No cache -/

theorem MemSys.cacheRead_bypass_success {m m' : MemSys} (h : p.cached = false) {a v : Word} {who : Requester}
    (hr : m.cacheRead p a who = (.success v, m')) : v = m.ram.cells.word (a.toNat % p.ramWords) := by
  rw [MemSys.cacheRead_bypass h] at hr
  obtain ⟨_, _, e | e⟩ := MemSys.ramRead_cases hr
  · cases e
  · cases e
    rw [Nat.mod_mod]

theorem State.middleExecute_params {s t : State} (h : s.middleExecute = .next t) : t.params = s.params := by
  simp only [State.middleExecute, andThen] at h
  split at h
  · next s2 hm =>
    split at h
    · next s3 hx =>
      exact ((State.memoryExecute_keepsGlobals hm).trans <| (State.executeExecute_keepsGlobals hx).trans
        (State.decodeExecute_keepsGlobals h)).params
    · cases h
    · cases h
  · cases h
  · cases h

/-- Without a cache every read is of the RAM (R75). -/
theorem State.readsRam_of_bypass (h : s.params.cached = false) : s.ReadsRam := by
  refine ⟨fun s1 hw _ rec j v m _ _ _ _ hr => ?_, fun s1 s4 hw _ hm _ _ v m hr => ?_⟩
  · have params := (State.writeBackExecute_params_clock hw).1
    exact MemSys.cacheRead_bypass_success (by rw [params, h]) hr
  · have params := (State.middleExecute_params hm).trans (State.writeBackExecute_params_clock hw).1
    exact MemSys.cacheRead_bypass_success (by rw [params, h]) hr

/-! ## A halt -/

/-- Decode will meet HLT in this tick, unless Write-Back squashes it first. -/
def State.MeetsHalt (s : State) : Prop :=
  ∃ rec, s.dRec = some rec ∧ s.dState ≠ .free ∧ (wordForm s.params.divSigned rec.raw).isHalt = true

/-- A halt becomes pending only when Decode meets HLT (R164). -/
theorem Ticks.haltPending {s1 s2 s3 s4 : State} (h : Ticks s s1 s2 s3 s4 t) (ht : t.haltPending = true) :
    s.haltPending = true ∨ s.MeetsHalt := by
  have fetch : s4.fetchExecute.haltPending = s4.haltPending := by
    obtain ⟨_, eq⟩ | ⟨_, _, eq⟩ | ⟨_, _, _, _, r, m, _, eq | ⟨v, _, _, eq⟩⟩ := s4.fetchExecute_cases <;> rw [eq]
  obtain ⟨hw, _, hm, hx, hd, rfl⟩ := h
  rw [State.endTick_haltPending, (State.advance_keeps _).haltPending, fetch] at ht
  have pending3 := (State.executeExecute_keepsFlight hx).haltPending.trans
    (State.memoryExecute_keepsFlight hm).haltPending
  have decode3 : s3.dRec = s1.dRec ∧ s3.dState = s1.dState ∧ s3.params = s1.params := by
    have memory : s2.dRec = s1.dRec ∧ s2.dState = s1.dState := by
      obtain ⟨_, h'⟩ | ⟨rec, u, _, h', ⟨rfl, _⟩ | ⟨_, _, _, _, _, rfl, _⟩⟩ := s1.memoryExecute_cases
      all_goals cases hm.symm.trans h'; exact ⟨rfl, rfl⟩
    have execute : s3.dRec = s2.dRec ∧ s3.dState = s2.dState := by
      obtain ⟨_, h'⟩ | ⟨rec, u, _, h', ⟨rfl, _⟩ | ⟨_, _, _, rfl, _⟩⟩ := s2.executeExecute_cases
      all_goals cases hx.symm.trans h'; exact ⟨rfl, rfl⟩
    exact ⟨execute.1.trans memory.1, execute.2.trans memory.2,
      (State.executeExecute_keepsGlobals hx).params.trans (State.memoryExecute_keepsGlobals hm).params⟩
  have writeBack : (s1.haltPending = s.haltPending ∧ s1.dRec = s.dRec ∧ s1.dState = s.dState ∨
      s1.haltPending = false ∧ s1.dRec = none) ∧ s1.params = s.params := by
    refine ⟨?_, (State.writeBackExecute_params_clock hw).1⟩
    obtain ⟨_, h'⟩ | ⟨rec, u, _, h', work⟩ := s.writeBackExecute_cases
    · cases hw.symm.trans h'; exact .inl ⟨rfl, rfl, rfl⟩
    · cases hw.symm.trans h'
      cases work with
      | faults _ _ eq => subst eq; exact .inl ⟨rfl, rfl, rfl⟩
      | commits _ _ _ eq => subst eq; exact .inl ⟨rfl, rfl, rfl⟩
      | notTaken _ _ eq => subst eq; exact .inl ⟨rfl, rfl, rfl⟩
      | jumps _ _ eq => subst eq; exact .inr ⟨rfl, rfl⟩
  have met : s3.haltPending = true ∨ s3.MeetsHalt := by
    obtain ⟨_, h'⟩ | ⟨rec, _, hr, hf, _⟩ := s3.decodeExecute_cases
    · cases hd.symm.trans h'; exact .inl ht
    · obtain ⟨u, hu, work⟩ := State.decodeExecute_form hr hf
      cases hd.symm.trans hu
      cases work with
      | halts hhalt => exact .inr ⟨rec, hr, hf, hhalt⟩
      | finishes _ _ _ _ eq => subst eq; exact .inl ht
      | waits _ _ _ _ eq => subst eq; exact .inl ht
  obtain ⟨hd3, hstate3, hparams3⟩ := decode3
  obtain ⟨same | ⟨hp1, hd1⟩, hparams1⟩ := writeBack
  · obtain hp | ⟨rec, hr, hf, hhalt⟩ := met
    · exact .inl (same.1 ▸ pending3 ▸ hp)
    · exact .inr ⟨rec, by rw [← same.2.1, ← hd3, hr], by rw [← same.2.2, ← hstate3]; exact hf,
        by rw [← hparams1, ← hparams3]; exact hhalt⟩
  · obtain hp | ⟨rec, hr, _⟩ := met
    · rw [pending3, hp1] at hp
      cases hp
    · rw [hd3, hd1] at hr
      cases hr

/-- With nothing else in flight, HLT in Decode halts the machine in this tick (R164, R190). -/
theorem State.MeetsHalt.halts (h : s.MeetsHalt) (running : s.stopped = false) (hw : s.wRec = none)
    (hm : s.mRec = none) (hx : s.xRec = none) (ht : step s = .next t) : t.halted = true := by
  obtain ⟨rec, hr, hf, hhalt⟩ := h
  obtain ⟨u, hu, work⟩ := State.decodeExecute_form hr hf
  cases work with
  | finishes hhalt' => rw [hhalt] at hhalt'; cases hhalt'
  | waits q hq =>
    cases hform : wordForm s.params.divSigned rec.raw with
    | halt => rw [hform] at hq; cases hq
    | _ => rw [hform] at hhalt; cases hhalt
  | halts _ eq =>
    have tick := step_of_squashed (step_of_decode running hw hm hx hu) (by rw [eq]; rfl) (by rw [eq]; exact hm)
      (by rw [eq]; exact hx) (by rw [eq]) (by rw [eq]; rfl)
    cases tick.symm.trans ht
    simp [State.endTick, State.drained, eq, hx, hm, hw]

/-! ## The run of the machine with one instruction in flight -/

theorem run_of_stopped (hs : s.stopped = true) (k : Nat) : Host.Core.run core k s = .next s := by
  induction k with
  | zero => rfl
  | succ k ih => rw [run_succ (step_of_stopped hs), ih]

theorem State.retired_trace_of_stopped (hs : s.stopped = true) (k : Nat) :
    (s.trace k).filterMap State.retired = [] := by
  induction k with
  | zero => rfl
  | succ k ih => rw [State.trace_succ (step_of_stopped hs), List.filterMap_cons, State.retired_of_stopped hs, ih]

/-- The RAM's contents at all points of the run from the `i`-th on are those of states among these. -/
def Covers (p : Params) (A : Nat → Arch) (i : Nat) (trace : List State) : Prop :=
  ∀ j, i ≤ j → ∃ u ∈ trace, u.Inv ∧ u.params = p ∧ u.mem.ram.cells = (A j).cells

theorem Covers.cons {trace : List State} (h : Covers p A (i + 1) trace) (hinv : s.Inv) (hparams : s.params = p)
    (hcells : s.mem.ram.cells = (A i).cells) : Covers p A i (s :: trace) := by
  intro j hj
  obtain rfl | hlt := Nat.eq_or_lt_of_le hj
  · exact ⟨s, List.mem_cons_self, hinv, hparams, hcells⟩
  · obtain ⟨u, hu, rest⟩ := h j hlt
    exact ⟨u, List.mem_cons_of_mem _ hu, rest⟩

theorem Covers.mono {j : Nat} {trace : List State} (h : Covers p A i trace) (hj : i ≤ j) : Covers p A j trace :=
  fun l hl => h l (hj.trans hl)

theorem Covers.of_stops {trace : List State} (hA : ∀ n, A (n + 1) = (A n).next p) (hs : (A i).stops p = true)
    (hinv : s.Inv) (hparams : s.params = p) (hcells : s.mem.ram.cells = (A i).cells) :
    Covers p A i (s :: trace) :=
  fun _ hj => ⟨s, List.mem_cons_self, hinv, hparams, by rw [run_stays hA hs hj, hcells]⟩

/-- What the RAM holds between two ticks: a record in Write-Back has done its memory work. -/
theorem Sim.cells_eq (h : Sim p A i s) (hd : s.mDone = false) :
    s.mem.ram.cells = (A (i + s.wRec.toList.length)).cells := by
  rw [h.cells]
  cases hr : s.wRec with
  | none => rw [State.accessedCount_eq_zero hr hd]; rfl
  | some rec =>
    rw [State.slots_of_wRec hr, accessedCount_cons,
      State.accessedCount_eq_zero (s := { s with wRec := none }) rfl hd]
    rfl

theorem State.slots_length (s : State) :
    s.slots.length = s.wRec.toList.length + (s.mRec.toList.length + (s.xRec.toList.length +
      (s.dRec.toList.length + s.fRec.toList.length))) := by
  simp [State.slots, slotOf]

theorem latch_length_le (latch : Option Record) : latch.toList.length ≤ 1 := by
  cases latch <;> simp

theorem latch_eq_none {latch : Option Record} (h : latch.toList.length = 0) : latch = none := by
  cases latch with
  | none => rfl
  | some rec => cases h

/-- In scalar mode nothing else is in flight with a record in Decode. -/
theorem Sim.nothing_else (h : Sim p A i s) (hscalar : p.scalar = true) (hr : s.dRec = some rec) :
    s.wRec = none ∧ s.mRec = none ∧ s.xRec = none ∧ s.fRec = none := by
  have alone := h.alone hscalar
  rw [State.slots_length, hr, Option.toList_some, List.length_singleton] at alone
  exact ⟨latch_eq_none (by omega), latch_eq_none (by omega), latch_eq_none (by omega), latch_eq_none (by omega)⟩

theorem formOf_isHalt (signed : Bool) (i : Instr) : (formOf signed i).isHalt = i.isHalt := by
  cases i <;> rfl

/-- In scalar mode the record in Decode is that of the next instruction. -/
theorem Sim.decode_matches (h : Sim p A i s) (hscalar : p.scalar = true) (hr : s.dRec = some rec) :
    Matches p (A i) (s.decodePhase, rec) := by
  obtain ⟨hw, hm, hx, _⟩ := h.nothing_else hscalar hr
  have path := h.path
  rw [State.slots_of_dRec hw hr, hm, hx] at path
  exact path.1

theorem State.retired_of_wRec (running : s.stopped = false) (hr : s.wRec = some rec) : s.retired = some rec := by
  simp [State.retired, running, hr]

theorem State.MeetsHalt.retired (h : s.MeetsHalt) (running : s.stopped = false) (hw : s.wRec = none) :
    s.retired = s.dRec := by
  obtain ⟨rec, hr, _, hhalt⟩ := h
  cases hd : decode rec.raw with
  | error e => simp [wordForm, hd, Form.isHalt] at hhalt
  | ok j =>
    simp only [wordForm, hd, formOf_isHalt] at hhalt
    simp [State.retired, running, hw, hr, hd, hhalt]

/-- In scalar mode no other record retires. -/
theorem Sim.retired_none (h : Sim p A i s) (hscalar : p.scalar = true) (running : s.stopped = false)
    (hw : s.wRec = none) (hmeets : ¬s.MeetsHalt) : s.retired = none := by
  cases hr : s.dRec with
  | none => simp [State.retired, running, hw, hr]
  | some rec =>
    have matched := h.decode_matches hscalar hr
    have notHalt : (wordForm p.divSigned rec.raw).isHalt = false := by
      by_cases hf : s.dState = .free
      · rw [State.decodePhase, if_pos hf] at matched
        obtain ⟨issued, rfl⟩ := matched
        rw [Arch.decoded, (Form.decoded_source ..).1]
        exact issued.2
      · by_contra hhalt
        exact hmeets ⟨rec, hr, hf, by rw [h.params]; simpa using hhalt⟩
    cases hd : decode rec.raw with
    | error e => simp [State.retired, running, hw, hr, hd]
    | ok j =>
      simp only [wordForm, hd, formOf_isHalt] at notHalt
      simp [State.retired, running, hw, hr, hd, notHalt]

theorem State.running_of_not_halting (running : s.stopped = false) (hpending : s.haltPending = false)
    (hmeets : ¬s.MeetsHalt) (ht : step s = .next t) (unfaulted : t.fault = none) :
    t.stopped = false ∧ t.haltPending = false := by
  have pending : t.haltPending = false := by
    obtain ⟨_, hf⟩ | ⟨s1, s2, s3, s4, ticks⟩ := step_stages running ht
    · exact absurd unfaulted hf
    · refine Bool.eq_false_iff.2 fun e => ?_
      obtain hp | meets := ticks.haltPending e
      · rw [hpending] at hp
        cases hp
      · exact hmeets meets
  have halted := haltWhenDrained s t running ht
  refine ⟨?_, pending⟩
  rw [State.stopped, unfaulted, Option.isSome_none, Bool.or_false]
  refine Bool.eq_false_iff.2 fun e => ?_
  have := (halted.1 e).2.1
  rw [pending] at this
  cases this

/-- In `k` ticks `s` retires the run's records from the `i`-th on, shows its RAM contents, and becomes `t`, which
has ended where the run does. -/
structure Reproduces (p : Params) (A : Nat → Arch) (i k : Nat) (s t : State) : Prop where
  ended : ∃ m, Ended p (A m) t
  retires : Retires p A i ((s.trace k).filterMap State.retired)
  covers : Covers p A (i + s.wRec.toList.length) (s.trace k)

/-- The tick that ends the run. -/
theorem Reproduces.of_ended (h : Sim p A i s) (sound : s.Sound) (ht : step s = .next t)
    (stopped : t.stopped = true) (last : Ended p (A i) t) (hretired : Retires p A i s.retired.toList) (k : Nat) :
    Reproduces p A i (k + 1) s t := by
  have stays : A (i + s.wRec.toList.length) = A i := run_stays h.run last.stops (Nat.le_add_right ..)
  refine ⟨⟨i, last⟩, ?_, ?_⟩
  · rw [State.trace_succ ht, List.filterMap_cons, State.retired_trace_of_stopped stopped]
    cases hr : s.retired with
    | none => rw [hr] at hretired; exact hretired
    | some rec => rw [hr] at hretired; exact hretired
  · rw [State.trace_succ ht]
    exact Covers.of_stops h.run (by rw [stays]; exact last.stops) sound.inv h.params (h.cells_eq sound.mDone)

/-- A tick before that. -/
theorem Reproduces.of_tick {t1 : State} {k : Nat} (h : Sim p A i s) (sound : s.Sound) (ht : step s = .next t1)
    (hretired : s.retired = s.wRec) (hrec : ∀ rec, s.wRec = some rec → rec = (A i).accessed p)
    (committed : s.wRec ≠ none → (A i).stops p = false)
    (rest : Reproduces p A (i + s.wRec.toList.length) k t1 t) : Reproduces p A i (k + 1) s t := by
  obtain ⟨ended, retires, covers⟩ := rest
  have shown := (covers.mono (Nat.add_le_add_left (latch_length_le _) _)).cons sound.inv h.params
    (h.cells_eq sound.mDone)
  refine ⟨ended, ?_, by rw [State.trace_succ ht]; exact shown⟩
  rw [State.trace_succ ht, List.filterMap_cons, hretired]
  cases hr : s.wRec with
  | none =>
    rw [hr] at retires
    exact retires
  | some rec =>
    rw [hr] at retires
    rw [hrec rec hr]
    exact .commits (committed (by rw [hr]; exact Option.some_ne_none rec)) retires

/-- In scalar mode HLT in Decode ends the run (R164, R190). -/
theorem Sim.reference_of_halt (h : Sim p A i s) (hscalar : p.scalar = true) (sound : s.Sound) (reads : s.ReadsRam)
    (running : s.stopped = false) (meets : s.MeetsHalt) (ht : step s = .next t) (k : Nat) :
    t.stopped = true ∧ Reproduces p A i (k + 1) s t := by
  have meets' := meets
  obtain ⟨rec, hd, hf, _⟩ := meets'
  obtain ⟨hw, hm, hx, _⟩ := h.nothing_else hscalar hd
  have halted := meets.halts running hw hm hx ht
  have matched := h.decode_matches hscalar hd
  obtain ⟨stopped, last⟩ | ⟨running', _⟩ := h.step_cases sound (.inl hscalar) reads running ht
  · rw [hw] at last
    refine ⟨stopped, .of_ended h sound ht stopped last ?_ k⟩
    rw [meets.retired running hw, hd]
    refine .halts rec ?_ matched.pc (sound.tickInv.undecoded hd hf).2.2
    cases last with
    | halted _ _ _ hhalt => exact hhalt
    | faulted notHalted => cases halted.symm.trans notHalted
  · cases (State.stopped_of (.inl halted)).symm.trans running'

/-- In scalar mode a record in Write-Back is the one that retires, and none does without. -/
theorem Sim.retired_eq (h : Sim p A i s) (hscalar : p.scalar = true) (running : s.stopped = false)
    (hmeets : ¬s.MeetsHalt) : s.retired = s.wRec := by
  cases hr : s.wRec with
  | some rec => exact State.retired_of_wRec running hr
  | none => exact h.retired_none hscalar running hr hmeets

/-- The record in Write-Back is the next of the run. -/
theorem Sim.wRec_eq (h : Sim p A i s) (hr : s.wRec = some rec) : rec = (A i).accessed p := by
  have path := h.path
  rw [State.slots_of_wRec hr] at path
  exact path.1.2

/-- The machine with one instruction in flight and no cache retires the run's records and ends where the run
does. -/
theorem Sim.reference (hscalar : p.scalar = true) (hbypass : p.cached = false) {k : Nat} (h : Sim p A i s)
    (sound : s.Sound) (running : s.stopped = false) (hpending : s.haltPending = false)
    (hrun : Host.Core.run core k s = .next t) (ht : t.stopped = true) : Reproduces p A i k s t := by
  induction k generalizing s i with
  | zero =>
    cases hrun
    cases running.symm.trans ht
  | succ k ih =>
    obtain ⟨t1, ht1, _⟩ := stepAnswersNext s
    rw [run_succ ht1] at hrun
    have reads : s.ReadsRam := State.readsRam_of_bypass (by rw [h.params, hbypass])
    have ended (hs : t1.stopped = true) : t = t1 := by
      cases (run_of_stopped hs k).symm.trans hrun
      rfl
    by_cases meets : s.MeetsHalt
    · obtain ⟨stopped, result⟩ := h.reference_of_halt hscalar sound reads running meets ht1 k
      rw [ended stopped]
      exact result
    · have hretired := h.retired_eq hscalar running meets
      obtain ⟨hw, at_fault⟩ | ⟨unfaulted, committed, sim⟩ := h.tick sound (.inl hscalar) reads running ht1
      · have stopped := State.stopped_of (.inr at_fault.faults)
        have notHalted : t1.halted = false :=
          Bool.eq_false_iff.2 fun e => at_fault.faults ((haltWhenDrained s t1 running ht1).1 e).1
        have last := Ended.faulted notHalted at_fault
        obtain ⟨rec, hr⟩ := Option.ne_none_iff_exists'.1 hw
        rw [ended stopped]
        refine .of_ended h sound ht1 stopped last ?_ k
        rw [hretired, hr, h.wRec_eq hr]
        exact .faults last.stops
      · obtain ⟨running1, pending1⟩ := State.running_of_not_halting running hpending meets ht1 unfaulted
        exact .of_tick h sound ht1 hretired (fun rec hr => h.wRec_eq hr) committed
          (ih sim (sound.next ht1) running1 pending1 hrun)

end

end Sys2Proof.Machine
end

section
/-! SUPPORT. The sequential run of a program from reset, and the software rules of its run one instruction at a
time (spec/70_reset_and_hazards.md R340, R351, R352, R360). -/

namespace Sys2Proof.Machine

/-- The architectural state after reset (R45). -/
def Arch.start (cells : RamCells) : Arch where
  regs := fun _ => 0#32
  pc := 0#32
  flags := { cf := false, ovf := false, zf := false, sf := false }
  cells := cells

section
variable {p : Params} {cells : RamCells} {A : Nat → Arch}

theorem sim_reset (p : Params) (cells : RamCells) :
    Sim p ((Arch.start cells).run p) 0 (State.resetWith p cells) := by
  have slots : (State.resetWith p cells).slots = [] := rfl
  refine ⟨rfl, fun _ => rfl, fun q => ?_, ?_, ?_, ?_, ?_, ?_, ?_⟩
  · unfold RegFile.readNb
    rw [resetWith_entry]
    split <;> rfl
  · rw [slots, accessedCount_nil, Nat.add_zero, Arch.run_zero]
    rfl
  · rw [slots, follows_nil, Supplied, Arch.run_zero]
    simp [State.resetWith, Arch.start]
  · rw [slots, executedCount_nil, flagsAt_zero, Arch.run_zero]
    exact .inl rfl
  · rw [slots]
    exact fun _ hs => absurd hs List.not_mem_nil
  · rw [slots]
    trivial
  · rw [slots]
    exact fun _ => Nat.zero_le 1

theorem sound_reset {image : List Word} {s : State} (h : State.load p image = some s) : s.Sound := by
  obtain ⟨inv, claims, order⟩ := invariantsAfterReset.1 p image s h
  obtain ⟨_, _, rfl⟩ := State.load_eq_some h
  exact ⟨inv, claims, order, nofun⟩

/-! ## The parameters that matter -/

/-- Execute needs the parameters for the address of an access and the target of a branch, modulo `N`. -/
theorem Form.OfWord.executed_oneAtATime {f : Form} {signed : Bool} (h : f.OfWord signed) (flags : Flags)
    (rec : Record) : f.executed p.oneAtATime flags rec = f.executed p flags rec := by
  obtain ⟨w, rfl⟩ := h
  unfold wordForm
  split
  · next i _ => cases i <;> rfl
  · rfl

theorem Form.accessed_oneAtATime (f : Form) (cells : RamCells) (rec : Record) :
    f.accessed p.oneAtATime cells rec = f.accessed p cells rec := rfl

theorem Arch.form_oneAtATime (p : Params) (a : Arch) : a.form p.oneAtATime = a.form p := rfl

theorem Arch.decoded_oneAtATime (p : Params) (a : Arch) : a.decoded p.oneAtATime = a.decoded p := rfl

theorem Arch.executed_oneAtATime (p : Params) (a : Arch) : a.executed p.oneAtATime = a.executed p := by
  rw [executed, executed, form_oneAtATime, decoded_oneAtATime, (form_ofWord p a).executed_oneAtATime]

theorem Arch.accessed_oneAtATime (p : Params) (a : Arch) : a.accessed p.oneAtATime = a.accessed p := by
  rw [accessed, accessed, form_oneAtATime, executed_oneAtATime, Form.accessed_oneAtATime]

theorem Arch.stops_oneAtATime (p : Params) (a : Arch) : a.stops p.oneAtATime = a.stops p := by
  rw [stops, stops, executed_oneAtATime, form_oneAtATime]
  rfl

theorem Arch.next_oneAtATime (p : Params) (a : Arch) : a.next p.oneAtATime = a.next p := by
  rw [next, next, stops_oneAtATime, accessed_oneAtATime, executed_oneAtATime, decoded_oneAtATime,
    form_oneAtATime, (form_ofWord p a).executed_oneAtATime, Form.accessed_oneAtATime]

theorem Arch.straight_oneAtATime {a : Arch} : a.Straight p.oneAtATime ↔ a.Straight p := by
  rw [Straight, Straight, stops_oneAtATime, executed_oneAtATime]

theorem Arch.taken_oneAtATime {a : Arch} : a.Taken p.oneAtATime ↔ a.Taken p := by
  rw [Taken, Taken, stops_oneAtATime, executed_oneAtATime]

theorem Arch.run_oneAtATime (p : Params) (a : Arch) : a.run p.oneAtATime = a.run p := by
  funext n
  induction n with
  | zero => rfl
  | succ n ih => rw [Arch.run_succ, Arch.run_succ, ih, Arch.next_oneAtATime]

theorem Arch.fresh_oneAtATime {a : Arch} : a.Fresh p.oneAtATime ↔ a.Fresh p := by
  unfold Arch.Fresh
  rw [Arch.run_oneAtATime]
  rfl

theorem storesFar_oneAtATime (h : StoresFar p.oneAtATime A) : StoresFar p A :=
  fun i n hn hp => h i n hn fun l hl => Arch.straight_oneAtATime.2 (hp l hl)

theorem flagsCalm_oneAtATime (h : FlagsCalm p.oneAtATime A) : FlagsCalm p A :=
  fun i taken => (h i (Arch.taken_oneAtATime.2 taken)).imp_left Arch.fresh_oneAtATime.1

theorem Ended.of_oneAtATime {a : Arch} {t : State} (h : Ended p.oneAtATime a t) : Ended p a t := by
  cases h with
  | halted hhalted hfault word hhalt regs cells pc => exact .halted hhalted hfault word hhalt regs cells pc
  | faulted hhalted at_fault =>
    obtain ⟨issued, fault, faults, regs, cells⟩ := at_fault
    exact .faulted hhalted ⟨issued, by rw [fault, Arch.executed_oneAtATime], faults, regs, cells⟩

/-! ## The software rules -/

/-- The rule of R351 on the executed records is the one on the run. -/
theorem Retires.flagsCalm (hA : ∀ n, A (n + 1) = (A n).next p) {l : List Record} {trace : List State}
    (h : Retires p A 0 l) (covers : Covers p A 0 trace)
    (hl : flagsNotCarried (fun rec => trace.all fun u => !isAluWord (u.ramWord (rec.pc + 1#32))) l = true) :
    FlagsCalm p A := by
  intro i taken
  refine (h.after_taken hA hl (Nat.zero_le i) taken).symm.imp_right fun calm j => ?_
  obtain ⟨u, hu, _, params, hcells⟩ := covers j (Nat.zero_le j)
  have := List.all_eq_true.1 calm u hu
  rw [Arch.accessed_pc, State.ramWord, params, hcells, Bool.not_eq_true'] at this
  exact this

theorem Covers.wf {trace : List State} (covers : Covers p A 0 trace) (j : Nat) : (A j).cells.wf = true := by
  obtain ⟨u, _, inv, _, hcells⟩ := covers j (Nat.zero_le j)
  rw [← hcells]
  exact inv.2.2.1.1.1

/-- A program that keeps the software rules of R351 and R352 one instruction at a time may be pipelined, and its
run ends where that machine's does. -/
theorem rules_of_reference {image : List Word} {r r' : State} {k : Nat}
    (hload : State.load p.oneAtATime image = some r) (hrun : Host.Core.run core k r = .next r')
    (hstop : r'.stopped = true) (keeps : r.KeepsCodeRules k) :
    Rules p ((Arch.start (RamCells.loadWords [] 0 image)).run p) ∧
      ∃ m, Ended p ((Arch.start (RamCells.loadWords [] 0 image)).run p m) r' := by
  have sound := sound_reset hload
  obtain ⟨_, _, rfl⟩ := State.load_eq_some hload
  have sim := sim_reset p.oneAtATime (RamCells.loadWords [] 0 image)
  rw [Arch.run_oneAtATime] at sim
  obtain ⟨⟨m, last⟩, retires, covers⟩ := sim.reference rfl rfl sound rfl rfl hrun hstop
  obtain ⟨calm, far⟩ := keeps
  refine ⟨.inr ⟨?_, ?_⟩, m, last.of_oneAtATime⟩
  · exact storesFar_oneAtATime (retires.storesFar sim.run far covers.wf)
  · exact flagsCalm_oneAtATime (retires.flagsCalm sim.run covers calm)

end

end Sys2Proof.Machine
end

section
/-! SUPPORT. Words in the cache against words in the RAM (spec/20_memory.md R79, R80, R90, R92): which requests
keep a cached word equal to the RAM's. -/

namespace Sys2Proof.Machine

/-- The word that a set gives for a tag and an offset, if a way holds the tag (R79 step 2). -/
def lookup (ways : List Line) (t offset : Nat) : Option Word :=
  (hitWay ways t).map fun w => wordOf ways w offset

/-- The word the cache gives for a reduced address, if it hits. -/
def MemSys.cachedWord (p : Params) (m : MemSys) (a : Nat) : Option Word :=
  lookup (m.cache.set (indexOf p a)) (tagOf p a) (offsetOf p a)

/-- The cache does not contradict the RAM at a reduced address. -/
def MemSys.FreshAt (p : Params) (m : MemSys) (a : Nat) : Prop :=
  ∀ v, m.cachedWord p a = some v → v = m.ram.cells.word a

section
variable {p : Params} {ways : List Line} {w t t' o : Nat} {v : Word} {data : List Word → List Word}

/-! ## A set -/

theorem lookup_touch (ways : List Line) (w t o : Nat) : lookup (touch ways w) t o = lookup ways t o := by
  simp only [lookup, hitWay_touch, wordOf_touch]

theorem lookup_eq_none_iff : lookup ways t o = none ↔ hitWay ways t = none := by simp [lookup]

/-- No tag is in two valid ways, so any way that holds it is the one hit (R79). -/
theorem waysInv.hitWay_of_holds (h : waysInv p ways) {l : Line} (hl : ways[w]? = some l)
    (hvalid : l.valid = true) (htag : l.tag = t) : hitWay ways t = some w := by
  obtain ⟨hlt, rfl⟩ := List.getElem?_eq_some_iff.1 hl
  refine hitWay_eq_some_iff.2 ⟨hlt, ⟨hvalid, htag⟩, fun k hk hholds => ?_⟩
  obtain ⟨j, hj, rfl⟩ := List.mem_take_iff_getElem.1 hk
  have distinct := List.pairwise_iff_getElem.1 h.2.2.2 j w (by omega) hlt (by omega)
  exact distinct hholds.1 hvalid (hholds.2.trans htag.symm)

/-- A rewritten way holds its line under its new tag. -/
theorem lookup_setLine_self (hw : w < ways.length)
    (hbefore : ∀ l ∈ ways.take w, ¬(l.valid = true ∧ l.tag = t)) :
    lookup (setLine ways w t data) t o = some ((data ways[w].data).getD o 0#32) := by
  rw [lookup, hitWay_setLine hw hbefore, Option.map_some, wordOf_setLine_self hw]

/-- Other lines stay, or leave the cache. -/
theorem lookup_setLine_of_ne (h : waysInv p ways) (ht : t' ≠ t)
    (hl : lookup (setLine ways w t data) t' o = some v) : lookup ways t' o = some v := by
  obtain ⟨i, hi, rfl⟩ := Option.map_eq_some_iff.1 hl
  obtain ⟨l', hl', hvalid', htag'⟩ := hitWay_some hi
  have contents := setLine_getElem? ways w t data i
  rw [hl'] at contents
  obtain ⟨l, hli, hc⟩ := Option.map_eq_some_iff.1 contents.symm
  have hne : i ≠ w := fun e => by
    rw [if_pos e] at hc
    exact ht (htag'.symm.trans (congrArg (fun c => c.2.1) hc).symm)
  rw [if_neg hne] at hc
  have hit := h.hitWay_of_holds hli ((congrArg (fun c => c.1) hc).trans hvalid')
    ((congrArg (fun c => c.2.1) hc).trans htag')
  rw [lookup, hit, Option.map_some, wordOf_setLine_of_ne hne]

/-- A store into a line that hits changes the word stored alone. -/
theorem lookup_storeWay_hit (hhit : hitWay ways t = some w) {offset : Nat} (ho : o ≠ offset) :
    lookup (storeWay ways t offset v) t o = lookup ways t o := by
  have hne : ways ≠ [] := List.length_pos_iff.1 (Nat.zero_lt_of_lt (hitWay_lt hhit))
  rw [lookup, hitWay_storeWay hne, Option.map_some, wordOf_storeWay_of_ne (.inr ho), storedWay_of_hit hhit,
    lookup, hhit, Option.map_some]

theorem lookup_storeWay_self (hne : ways ≠ []) {offset : Nat} (hdata : ∀ l ∈ ways, offset < l.data.length) :
    lookup (storeWay ways t offset v) t offset = some v := by
  rw [lookup, hitWay_storeWay hne, Option.map_some, wordOf_storeWay_self hne hdata]

end

/-! ## Addresses -/

section
variable {p : Params} {m m' : MemSys} {a b : Nat} {x v : Word} {who : Requester}

theorem div_eq_of_index_tag (hindex : indexOf p b = indexOf p a) (htag : tagOf p b = tagOf p a) :
    a / p.lineWords = b / p.lineWords := by
  rw [indexOf, indexOf] at hindex
  rw [tagOf, tagOf, ← Nat.div_div_eq_div_mul, ← Nat.div_div_eq_div_mul] at htag
  rw [← Nat.div_add_mod (a / p.lineWords) p.sets, ← Nat.div_add_mod (b / p.lineWords) p.sets, hindex, htag]

theorem eq_of_div_offset (hdiv : a / p.lineWords = b / p.lineWords) (ho : offsetOf p b = offsetOf p a) :
    b = a := by
  rw [← Nat.div_add_mod a p.lineWords, ← Nat.div_add_mod b p.lineWords, hdiv]
  unfold offsetOf at ho
  rw [ho]

theorem cache_set_of_rewritten {c c' : Cache} {i j : Nat} {ways : List Line} (h : c'.lines = c.lines.set i ways)
    (hlen : ways.length = (c.set i).length) : c'.set j = if j = i then ways else c.set j := by
  split
  · next e =>
    subst e
    exact Cache.set_of_lines_set h hlen
  · next hne =>
    rw [Cache.set, h, List.getD_eq_getElem?_getD, List.getElem?_set_ne (Ne.symm hne),
      ← List.getD_eq_getElem?_getD, Cache.set]

theorem MemSys.FreshAt.congr (h : m.FreshAt p b) (hlines : m'.cache.lines = m.cache.lines)
    (hcells : m'.ram.cells.word b = m.ram.cells.word b) : m'.FreshAt p b := by
  unfold MemSys.FreshAt MemSys.cachedWord
  rw [Cache.set_eq_of_lines hlines, hcells]
  exact h

/-- After one way of the set of `a` has been rewritten for the line of `a`, the other lines are as fresh as
before. -/
theorem MemSys.FreshAt.of_rewritten (hc : p.cached = true) (hinv : m.cache.Inv p) (h : m.FreshAt p b) {way : Nat}
    {data : List Word → List Word} (hlines : m'.cache.lines = m.cache.lines.set (indexOf p a)
      (setLine (m.cache.set (indexOf p a)) way (tagOf p a) data))
    (hcells : m'.ram.cells.word b = m.ram.cells.word b) (hdiv : a / p.lineWords ≠ b / p.lineWords) :
    m'.FreshAt p b := by
  intro v hv
  rw [hcells]
  refine h v ?_
  rw [MemSys.cachedWord, cache_set_of_rewritten hlines (setLine_length ..)] at hv
  split at hv
  · next hindex =>
    rw [MemSys.cachedWord, hindex]
    exact lookup_setLine_of_ne (hinv.set hc a) (fun htag => hdiv (div_eq_of_index_tag hindex htag)) hv
  · exact hv

/-! ## Reads -/

/-- A read that is granted of a word the cache does not contradict gets the RAM's word (R64, R79). -/
theorem MemSys.FreshAt.cacheRead_success (hc : p.cached = true)
    (h : m.FreshAt p (x.toNat % p.ramWords)) (hr : m.cacheRead p x who = (.success v, m')) :
    v = m.ram.cells.word (x.toNat % p.ramWords) := by
  have call := MemSys.cacheRead_cachedCall hc x who
  rcases hs : m.cache.service p.cacheDelay who with ⟨_ | _, c⟩
  · have hlines : c.lines = m.cache.lines := by rw [← m.cache.service_lines p.cacheDelay who, hs]
    have through := (call.ready hs).symm.trans hr
    obtain ⟨_, ⟨w, hw, e, _⟩ | ⟨_, e, _⟩ | ⟨_, line, hline, e, _⟩⟩ := MemSys.readThrough_cases through
    · cases e
      rw [Cache.set_eq_of_lines (c := m.cache) hlines] at hw
      refine h _ ?_
      rw [MemSys.cachedWord, lookup, hw, Option.map_some]
      rw [Cache.set_eq_of_lines (c := m.cache) hlines]
    · cases e
    · cases e
      have word := MemSys.ramLine_getD hc m (a := x.toNat % p.ramWords) (b := x.toNat % p.ramWords) rfl
      rw [Nat.mod_mod] at word
      rw [hline]
      exact word
  · cases (call.wait hs).symm.trans hr

/-- Reads keep the cache from contradicting the RAM (R79). -/
theorem MemSys.FreshAt.cacheRead (hc : p.cached = true) (hinv : m.cache.Inv p) (hb : b < p.ramWords)
    (h : m.FreshAt p b) {r : Answer Word} (hr : m.cacheRead p x who = (r, m')) : m'.FreshAt p b := by
  have call := MemSys.cacheRead_cachedCall hc x who
  rcases hs : m.cache.service p.cacheDelay who with ⟨_ | _, c⟩
  · have hlines : c.lines = m.cache.lines := by rw [← m.cache.service_lines p.cacheDelay who, hs]
    have through := (call.ready hs).symm.trans hr
    obtain ⟨hcells, ⟨w, hw, _, rfl⟩ | ⟨_, _, hcache⟩ | ⟨hmiss, line, hline, _, hcache⟩⟩ :=
      MemSys.readThrough_cases through
    · have set := cache_set_of_rewritten (c := m.cache)
        (c' := ((c.putSet (indexOf p (x.toNat % p.ramWords))
          (touch (c.set (indexOf p (x.toNat % p.ramWords))) w)).clear)) (i := indexOf p (x.toNat % p.ramWords))
        (j := indexOf p b) (ways := touch (m.cache.set (indexOf p (x.toNat % p.ramWords))) w)
        (by rw [Cache.clear_lines, Cache.putSet_lines, hlines, Cache.set_eq_of_lines hlines]) (touch_length ..)
      intro v hv
      refine h v ?_
      rw [MemSys.cachedWord, set] at hv
      rw [MemSys.cachedWord]
      split at hv
      · next e => rwa [lookup_touch, ← e] at hv
      · exact hv
    · exact h.congr (by rw [hcache]; exact hlines) (by rw [hcells])
    · have lines : m'.cache.lines = m.cache.lines.set (indexOf p (x.toNat % p.ramWords))
          (setLine (m.cache.set (indexOf p (x.toNat % p.ramWords)))
            (victim (m.cache.set (indexOf p (x.toNat % p.ramWords)))) (tagOf p (x.toNat % p.ramWords))
            fun _ => line) := by
        rw [hcache, Cache.clear_lines, Cache.putSet_lines, fillWay_eq,
          Cache.set_eq_of_lines (c := m.cache) hlines, hlines]
      by_cases hdiv : x.toNat % p.ramWords / p.lineWords = b / p.lineWords
      · intro v hv
        rw [Cache.set_eq_of_lines (c := m.cache) hlines] at hmiss
        rw [MemSys.cachedWord, indexOf_eq_of_div hdiv, tagOf_eq_of_div hdiv,
          cache_set_of_rewritten lines (setLine_length ..), if_pos rfl,
          lookup_setLine_self (victim_lt (hinv.set_ne_nil hc _))
            fun l hl => hitWay_none.1 hmiss l (List.mem_of_mem_take hl)] at hv
        cases hv
        have word := MemSys.ramLine_getD hc m hdiv
        rw [Nat.mod_eq_of_lt hb] at word
        rw [hcells, hline]
        exact word
      · exact h.of_rewritten hc hinv lines (by rw [hcells]) hdiv
  · cases (call.wait hs).symm.trans hr
    exact h.congr (by rw [← m.cache.service_lines p.cacheDelay who, hs]) rfl

/-! ## Writes -/

/-- A write is refused by the cache, or it stores its word in a line at once and in the RAM when granted (R80). -/
theorem MemSys.cacheWrite_lines (hc : p.cached = true) {r : Answer Unit} (hw : m.cacheWrite p x who v = (r, m')) :
    (r = .wait ∧ m'.cache.lines = m.cache.lines ∧ m'.ram = m.ram) ∨
      (m'.cache.lines = m.cache.lines.set (indexOf p (x.toNat % p.ramWords))
          (setLine (m.cache.set (indexOf p (x.toNat % p.ramWords)))
            (storedWay (m.cache.set (indexOf p (x.toNat % p.ramWords))) (tagOf p (x.toNat % p.ramWords)))
            (tagOf p (x.toNat % p.ramWords)) fun d => d.set (offsetOf p (x.toNat % p.ramWords)) v) ∧
        (r = .waitNextLevel ∧ m'.ram.cells = m.ram.cells ∧ m'.cache.req = some who ∧ m'.cache.waitNext = true ∨
          r = .success () ∧ m'.ram.cells = m.ram.cells.setWord (x.toNat % p.ramWords) v)) := by
  have call := MemSys.cacheWrite_cachedCall hc x v who
  rcases hs : m.cache.service p.cacheDelay who with ⟨_ | _, c⟩
  · have hlines : c.lines = m.cache.lines := by rw [← m.cache.service_lines p.cacheDelay who, hs]
    have holder : c.req = some who := by
      obtain ⟨_, _, rfl⟩ | ⟨hreq, _, _, rfl⟩ | ⟨hreq, _, _, rfl⟩ | ⟨_, _, e, _⟩ := Cache.service_cases hs
      · rfl
      · exact hreq
      · exact hreq
      · cases e
    have through := (call.ready hs).symm.trans hw
    obtain ⟨lines, rest⟩ := MemSys.writeThrough_cases through
    rw [storeWay_eq, Cache.set_eq_of_lines (c := m.cache) hlines] at lines
    rw [hlines] at lines
    refine .inr ⟨lines, ?_⟩
    obtain ⟨e, hcells, hwait, hreq⟩ | ⟨e, hcells, _⟩ := rest
    · exact .inl ⟨e, hcells, hreq.trans holder, hwait⟩
    · rw [Nat.mod_mod] at hcells
      exact .inr ⟨e, hcells⟩
  · cases (call.wait hs).symm.trans hw
    exact .inl ⟨rfl, by rw [← m.cache.service_lines p.cacheDelay who, hs], rfl⟩

/-- A write that the cache lets wait keeps the slot it holds (R76). -/
theorem MemSys.cacheWrite_holder (hc : p.cached = true) (hreq : m.cache.req = some who)
    (hw : m.cacheWrite p x who v = (.wait, m')) : m'.cache.req = some who := by
  have call := MemSys.cacheWrite_cachedCall hc x v who
  rcases hs : m.cache.service p.cacheDelay who with ⟨_ | _, c⟩
  · obtain ⟨_, ⟨e, _⟩ | ⟨e, _⟩⟩ := MemSys.writeThrough_cases ((call.ready hs).symm.trans hw)
    · cases e
    · cases e
  · cases (call.wait hs).symm.trans hw
    obtain ⟨e, _⟩ | ⟨_, _, e, _⟩ | ⟨_, _, _, rfl⟩ | ⟨_, e, _⟩ := Cache.service_cases hs
    · cases hreq.symm.trans e
    · cases e
    · exact hreq
    · exact absurd hreq e

/-- While another requester holds the slot, a read changes nothing (R76). -/
theorem MemSys.cacheRead_of_other {other : Requester} (hc : p.cached = true) (hreq : m.cache.req = some other)
    (hne : other ≠ who) : m.cacheRead p x who = (.wait, m) := by
  have hs : m.cache.service p.cacheDelay who = (.wait, m.cache) := by
    simp [Cache.service, hreq, hne]
  exact (MemSys.cacheRead_cachedCall hc x who).wait hs

/-- The word of a granted write is in the RAM and in its line (R80, R90). -/
theorem MemSys.freshAt_of_written (hc : p.cached = true) (hinv : m.Inv p)
    (hw : m.cacheWrite p x who v = (.success (), m')) : m'.FreshAt p (x.toNat % p.ramWords) := by
  obtain ⟨e, _⟩ | ⟨lines, ⟨e, _⟩ | ⟨_, hcells⟩⟩ := MemSys.cacheWrite_lines hc hw
  · cases e
  · cases e
  · intro u hu
    rw [MemSys.cachedWord, cache_set_of_rewritten lines (setLine_length ..), if_pos rfl, ← storeWay_eq,
      lookup_storeWay_self (hinv.2.set_ne_nil hc _) (hinv.2.offsetOf_lt_data hc _)] at hu
    cases hu
    rw [hcells, RamCells.word_setWord hinv.1.1, if_pos rfl]

/-- The address is in the line of a store that misses and installs its word's line; its own word may be stale
then (R92). -/
structure MemSys.MissesAt (p : Params) (m m' : MemSys) (a b : Nat) : Prop where
  line : a / p.lineWords = b / p.lineWords
  missed : hitWay (m.cache.set (indexOf p a)) (tagOf p a) = none
  installed : (hitWay (m'.cache.set (indexOf p a)) (tagOf p a)).isSome = true

/-- A write keeps the cache from contradicting the RAM at other addresses, but for those in the line of a write
that misses (R80, R92). -/
theorem MemSys.FreshAt.cacheWrite (hc : p.cached = true) (hinv : m.Inv p) (h : m.FreshAt p b)
    (hne : b ≠ x.toNat % p.ramWords) {r : Answer Unit} (hw : m.cacheWrite p x who v = (r, m')) :
    m'.FreshAt p b ∨ m.MissesAt p m' (x.toNat % p.ramWords) b := by
  obtain ⟨_, hlines, hram⟩ | ⟨lines, hrest⟩ := MemSys.cacheWrite_lines hc hw
  · exact .inl (h.congr hlines (by rw [hram]))
  · have word : m'.ram.cells.word b = m.ram.cells.word b := by
      obtain ⟨_, hcells, _⟩ | ⟨_, hcells⟩ := hrest
      · rw [hcells]
      · rw [hcells, RamCells.word_setWord hinv.1.1, if_neg hne]
    by_cases hdiv : x.toNat % p.ramWords / p.lineWords = b / p.lineWords
    · have set : m'.cache.set (indexOf p (x.toNat % p.ramWords)) =
          storeWay (m.cache.set (indexOf p (x.toNat % p.ramWords))) (tagOf p (x.toNat % p.ramWords))
            (offsetOf p (x.toNat % p.ramWords)) v := by
        rw [cache_set_of_rewritten lines (setLine_length ..), if_pos rfl, ← storeWay_eq]
      cases hhit : hitWay (m.cache.set (indexOf p (x.toNat % p.ramWords))) (tagOf p (x.toNat % p.ramWords)) with
      | none =>
        refine .inr ⟨hdiv, hhit, ?_⟩
        rw [set, hitWay_storeWay (hinv.2.set_ne_nil hc _)]
        rfl
      | some w =>
        refine .inl fun u hu => ?_
        rw [word]
        refine h u ?_
        rw [MemSys.cachedWord, indexOf_eq_of_div hdiv, tagOf_eq_of_div hdiv, set,
          lookup_storeWay_hit hhit fun ho => hne (eq_of_div_offset hdiv ho)] at hu
        rw [MemSys.cachedWord, indexOf_eq_of_div hdiv, tagOf_eq_of_div hdiv]
        exact hu
    · exact .inl (h.of_rewritten hc hinv.2 lines word hdiv)

end

end Sys2Proof.Machine
end

section
/-! SUPPORT. The words of the RAM that a program under the software rule of R353 may still read are those the
cache gives (spec/20_memory.md R79, R80, R92, spec/70_reset_and_hazards.md R353). -/

namespace Sys2Proof.Machine

/-! ## What may be read -/

/-- The cache does not contradict the RAM at an address. -/
def State.FreshAt (s : State) (b : Word) : Prop := s.mem.FreshAt s.params (b.toNat % s.params.ramWords)

/-- The rule of R353 keeps the program from reading `b`, whose line a store has installed without it. -/
def State.Guarded (s : State) (b : Word) : Prop :=
  ∃ a written, sameLine s.params a b = true ∧ written.any (sameWord s.params b) = false ∧
    ∀ k, neighboursUnread s.params a written (s.trace k) = true

/-- Memory is at work on a store to `b` and holds the cache's slot, so nobody else can read (R76, R80). -/
def State.Storing (s : State) (b : Word) : Prop :=
  s.mDone = false ∧ s.mWaiting = true ∧ s.mem.cache.req = some .memory ∧ ∃ rec j, s.mRec = some rec ∧
    rec.op = .instr j ∧ j.isStore = true ∧ rec.fault = none ∧ sameWord s.params b rec.destMemAddr = true

/-- The tick from `s` to `t` does not fetch `b`, and the rule of R353 keeps it unread from there. -/
def State.Barred (s t : State) (b : Word) : Prop :=
  t.Guarded b ∧ ∀ c, s.fetchAddress = some c → sameWord s.params c b = false

/-- Between two ticks every word is as in the RAM, is not going to be read, or is being stored. -/
structure State.Coherent (s : State) : Prop where
  words : ∀ b, s.FreshAt b ∨ s.Guarded b ∨ s.Storing b
  written : ∀ rec b, s.wRec = some rec → rec.fault = none → rec.stored = some b → s.FreshAt b
  lines : s.KeepsLineRule
  waits : s.mWaiting = true → s.wRec = none

section
variable {p : Params} {A : Nat → Arch} {i : Nat} {s s1 s2 s3 s4 t u : State} {rec : Record} {f : Form}
  {a b c : Word} {j : Instr} {acc : Access} {P : Prop}

theorem sameWord_iff : sameWord p a b = true ↔ a.toNat % p.ramWords = b.toNat % p.ramWords := by simp [sameWord]

theorem sameLine_of_sameWord (h : sameLine p a b = true) (hc : sameWord p c b = true) :
    sameLine p a c = true := by
  rw [sameLine_iff, sameWord_iff.1 hc, sameLine_iff.1 h]

theorem State.FreshAt.of_sameWord (h : s.FreshAt c) (hc : sameWord s.params c b = true) : s.FreshAt b := by
  rw [State.FreshAt, ← sameWord_iff.1 hc]
  exact h

theorem State.freshAt_iff (hmem : t.mem = s.mem) (hparams : t.params = s.params) : t.FreshAt b ↔ s.FreshAt b := by
  rw [State.FreshAt, State.FreshAt, hmem, hparams]

theorem step_params (ht : step s = .next t) : t.params = s.params := by
  obtain ⟨u, hu, hparams, _⟩ := stepAnswersNext s
  cases hu.symm.trans ht
  exact hparams

/-! ## The rule of R353, tick by tick -/

/-- A word whose line is not in the cache cannot be stale. -/
theorem State.freshAt_of_missing (h : sameLine s.params a b = true)
    (hmiss : (s.mem.hit s.params a).isNone = true) : s.FreshAt b := by
  intro v hv
  have hdiv := sameLine_iff.1 h
  rw [MemSys.cachedWord, indexOf_eq_of_div hdiv, tagOf_eq_of_div hdiv] at hv
  rw [MemSys.hit, Option.isNone_iff_eq_none,
    ← lookup_eq_none_iff (o := offsetOf s.params (b.toNat % s.params.ramWords))] at hmiss
  cases hv.symm.trans hmiss

/-- After a tick a guarded word is still guarded and was not read, if it is not as in the RAM already. -/
theorem State.Guarded.next (h : s.Guarded b)
    (hwritten : ∀ rec c, s.wRec = some rec → rec.stored = some c → s.FreshAt c) (ht : step s = .next t) :
    s.FreshAt b ∨ s.Barred t b ∧ ∀ c, s.loadAddress = some c → sameWord s.params c b = false := by
  obtain ⟨a, written, hline, hb, hrule⟩ := h
  by_cases hmiss : (s.mem.hit s.params a).isNone = true
  · exact .inl (State.freshAt_of_missing hline hmiss)
  by_cases hstored : ∃ c, s.wRec.bind Record.stored = some c ∧ sameWord s.params c b = true
  · obtain ⟨c, hc, hcb⟩ := hstored
    obtain ⟨rec, hr, hc⟩ := Option.bind_eq_some_iff.1 hc
    exact .inl ((hwritten rec c hr hc).of_sameWord hcb)
  have unwritten : ((s.wRec.bind Record.stored).toList ++ written).any (sameWord s.params b) = false := by
    rw [List.any_append, hb, Bool.or_false, List.any_eq_false]
    intro c hc hbc
    exact hstored ⟨c, Option.mem_toList.1 hc, sameWord_iff.2 (sameWord_iff.1 hbc).symm⟩
  have rule (k : Nat) := by
    have := hrule (k + 1)
    rw [State.trace_succ ht, neighboursUnread, Bool.or_eq_true, or_iff_right hmiss, Bool.and_eq_true] at this
    exact this
  have unread (c : Word) (hc : c ∈ s.loadAddress.toList ++ s.fetchAddress.toList) :
      sameWord s.params c b = false := by
    by_contra hcb
    have hcb : sameWord s.params c b = true := by simpa using hcb
    obtain hline' | hword := Bool.or_eq_true_iff.1 (List.all_eq_true.1 (rule 0).1 c hc)
    · rw [sameLine_of_sameWord hline hcb] at hline'
      cases hline'
    · obtain ⟨d, hd, hcd⟩ := List.any_eq_true.1 hword
      exact List.any_eq_false.1 unwritten d hd
        (sameWord_iff.2 ((sameWord_iff.1 hcb).symm.trans (sameWord_iff.1 hcd)))
  have params := step_params ht
  refine .inr ⟨⟨⟨a, _, by rw [params]; exact hline, by rw [params]; exact unwritten, fun k => ?_⟩,
    fun c hc => ?_⟩, fun c hc => ?_⟩
  · rw [params]
    exact (rule k).2
  · exact unread c (by simp [hc])
  · exact unread c (by simp [hc])

theorem State.KeepsLineRule.next (h : s.KeepsLineRule) (ht : step s = .next t) : t.KeepsLineRule := by
  intro k
  have := h (k + 1)
  rw [State.trace_succ ht, linesReadable, Bool.and_eq_true] at this
  rw [step_params ht]
  exact this.2

/-- The other words of a line that a store installs in this tick are not read from here on. -/
theorem State.KeepsLineRule.barred (h : s.KeepsLineRule) (ht : step s = .next t) (ha : s.missingStore = some a)
    (hline : sameLine s.params a b = true) (hne : sameWord s.params a b = false) : s.Barred t b := by
  have rule (k : Nat) := by
    have := h (k + 1)
    rw [State.trace_succ ht, linesReadable, Bool.and_eq_true, ha, Bool.and_eq_true] at this
    exact this.1
  have params := step_params ht
  have hne' : sameWord s.params b a ≠ true := fun e => by
    rw [sameWord_iff.2 (sameWord_iff.1 e).symm] at hne
    cases hne
  refine ⟨⟨a, [a], by rw [params]; exact hline, by rw [params]; simpa using hne', fun k => ?_⟩, fun c hc => ?_⟩
  · rw [params]
    exact (rule k).2
  · by_contra hcb
    have hcb : sameWord s.params c b = true := by simpa using hcb
    obtain hline' | hword := Bool.or_eq_true_iff.1 (List.all_eq_true.1 (rule 0).1 c (by simp [hc]))
    · rw [sameLine_of_sameWord hline hcb] at hline'
      cases hline'
    · rw [sameWord_iff.2 ((sameWord_iff.1 hword).trans (sameWord_iff.1 hcb))] at hne
      cases hne

/-! ## Write-Back -/

theorem WriteBackStep.fault_of_unfaulted (h : WriteBackStep s rec t) (hf : t.fault = none) :
    rec.fault = none := by
  cases h with
  | faults k hk eq => subst eq; cases hf
  | commits _ _ h => exact h
  | notTaken h => exact h
  | jumps h => exact h

theorem State.writeBackExecute_fault (hw : s.writeBackExecute = .next s1) (hf : s1.fault = none)
    (hr : s.wRec = some rec) : rec.fault = none := by
  obtain ⟨hn, _⟩ | ⟨rec', u, hr', h', work⟩ := s.writeBackExecute_cases
  · cases hn.symm.trans hr
  · cases hr'.symm.trans hr
    cases hw.symm.trans h'
    exact work.fault_of_unfaulted hf

/-- A record still in Memory after Write-Back was there before it, and is the one at work (R187). -/
theorem State.memoryWork_of_writeBack (inv : s.Inv) (running : s.stopped = false)
    (hw : s.writeBackExecute = .next s1) (hf : s1.fault = none) (hr : s1.mRec = some rec)
    (hop : rec.op = .instr j) (hfault : rec.fault = none) : s.memoryWork = some (j, rec) := by
  have held : s.mRec = some rec := by
    obtain ⟨_, e | e⟩ := State.writeBackExecute_mem_mRec hw
    · rw [← e, hr]
    · cases e.symm.trans hr
  have untaken : (s.wRec.any fun w => w.branchTaken || w.fault.isSome) = false := by
    cases hw' : s.wRec with
    | none => rfl
    | some w =>
      have unmarked := State.writeBackExecute_fault hw hf hw'
      rw [Option.any_some, unmarked, Option.isSome_none, Bool.or_false]
      refine Bool.eq_false_iff.2 fun hb => ?_
      have jumped := State.writeBackExecute_of_taken inv.2.2.2.1 hw'
        ((State.inv_iff.1 inv).1.committing w hw') unmarked hb
      cases hw.symm.trans jumped
      cases hr
  simp [State.memoryWork, running, untaken, held, hop, hfault]

/-! ## Memory -/

theorem Instr.isLoad_of_isStore (h : j.isStore = true) : j.isLoad = false := by
  cases j with
  | stw | push => rfl
  | _ => cases h

/-- What the form of an access says of its instruction. -/
theorem Form.OfWord.access {signed : Bool} (hf : f.OfWord signed) (hform : f = .access j acc) :
    j.isLoad = acc.loads ∧ j.isStore = !acc.loads ∧ formOf signed j = .access j acc := by
  subst hform
  obtain ⟨hform, hof⟩ := hf.of_op (j := j) rfl
  cases hof with
  | access _ _ _ _ hload hstore => exact ⟨hload, hstore, hform.symm⟩

/-- A store is an access. -/
theorem Form.OfWord.access_of_store {signed : Bool} (hf : f.OfWord signed) (hop : f.op = .instr j)
    (hj : j.isStore = true) : ∃ acc, f = .access j acc ∧ acc.loads = false := by
  have hform := (hf.of_op hop).1
  subst hform
  cases j with
  | stw rd rm imm => exact ⟨_, rfl, rfl⟩
  | push rd rm imm =>
    cases hop
    exact ⟨_, rfl, rfl⟩
  | _ => cases hj

theorem Record.isStore_of_stored (h : rec.stored = some b) : ∃ j, rec.op = .instr j ∧ j.isStore = true := by
  unfold Record.stored at h
  split at h
  · next hop => exact ⟨_, hop, rfl⟩
  · next hop => exact ⟨_, hop, rfl⟩
  · cases h

/-- The address a store has stored to can be told from the record it leaves (R178). -/
theorem Access.stored_storedRecord {signed : Bool} (hform : formOf signed j = .access j acc)
    (hl : acc.loads = false) (hop : rec.op = .instr j) :
    (acc.storedRecord rec).stored = some rec.destMemAddr := by
  cases j with
  | stw rd rm imm =>
    cases hform
    simp [Record.stored, Access.storedRecord, hop, Access.indexed]
  | push rd rm imm =>
    injection hform with _ hacc
    subst hacc
    simp [Record.stored, Access.storedRecord, hop, Access.stack]
  | ldw rd rm imm => cases hform; cases hl
  | pop rd rm imm =>
    injection hform with _ hacc
    subst hacc
    cases hl
  | _ => cases hform

theorem State.Storing.work (h : u.Storing b) (hr : u.mRec = some rec) :
    ∃ j, rec.op = .instr j ∧ j.isStore = true ∧ rec.fault = none ∧
      sameWord u.params b rec.destMemAddr = true := by
  obtain ⟨_, _, _, rec', j, hr', hop, hj, hfault, hword⟩ := h
  cases hr'.symm.trans hr
  exact ⟨j, hop, hj, hfault, hword⟩

/-- A store under way is the access of the record in Memory. -/
theorem State.Storing.form (h : u.Storing b) {signed : Bool} (hf : f.OfWord signed) (hop : rec.op = f.op)
    (hr : u.mRec = some rec) :
    ∃ j acc, f = .access j acc ∧ acc.loads = false ∧ rec.fault = none ∧
      sameWord u.params b rec.destMemAddr = true := by
  obtain ⟨j, hj, hstore, hfault, hword⟩ := h.work hr
  obtain ⟨acc, hform, hl⟩ := hf.access_of_store (hop.symm.trans hj) hstore
  exact ⟨j, acc, hform, hl, hfault, hword⟩

/-- The store of `rec` makes the word at `b` stale, by missing in the cache, only if `P` holds. -/
def State.StaleOnly (u : State) (rec : Record) (b : Word) (P : Prop) : Prop :=
  ∀ j, rec.op = .instr j → j.isStore = true → rec.fault = none →
    sameWord u.params rec.destMemAddr b = false →
    u.mem.MissesAt u.params (u.mem.cacheWrite u.params rec.destMemAddr .memory rec.result).2
      (rec.destMemAddr.toNat % u.params.ramWords) (b.toNat % u.params.ramWords) → P

section
variable (hf : f.OfWord u.params.divSigned) (hop : rec.op = f.op) (hr : u.mRec = some rec)
  (hc : u.params.cached = true) (hinv : u.mem.Inv u.params) (h : u.FreshAt b ∨ P ∨ u.Storing b)
include hf hop hr hc h

/-- After a call of Memory's write of the word that is refused: the store is under way, or nothing has
happened. -/
theorem State.words_of_refused (hd : u.mDone = false) (hform : f = .access j acc) (hl : acc.loads = false)
    (hfault : rec.fault = none) (hword : sameWord u.params b rec.destMemAddr = true) {r : Answer Unit}
    (hr' : r = .wait ∨ r = .waitNextLevel) {m : MemSys}
    (hm : u.mem.cacheWrite u.params rec.destMemAddr .memory rec.result = (r, m)) :
    m.FreshAt u.params (b.toNat % u.params.ramWords) ∨ P ∨
      State.Storing { u with mem := m, mWaiting := true } b := by
  by_cases hreq : m.cache.req = some .memory
  · have store : j.isStore = true := by rw [(hf.access hform).2.1, hl]; rfl
    exact .inr (.inr ⟨hd, rfl, hreq, rec, j, hr, by rw [hop, hform]; rfl, store, hfault, hword⟩)
  · obtain ⟨rfl, hlines, hram⟩ | ⟨_, ⟨_, _, e, _⟩ | ⟨e, _⟩⟩ := MemSys.cacheWrite_lines hc hm
    · refine h.imp (fun h => MemSys.FreshAt.congr h hlines (by rw [hram])) fun h => h.imp_right fun hs => ?_
      exact absurd (MemSys.cacheWrite_holder hc hs.2.2.1 hm) hreq
    · exact absurd e hreq
    · rw [e] at hr'
      obtain e | e := hr' <;> cases e

include hinv

/-- After a call of Memory's read. -/
theorem State.words_of_read (hN : 0 < u.params.ramWords) (hform : f = .access j acc) (hl : acc.loads = true)
    {r : Answer Word} {m : MemSys} (hm : u.mem.cacheRead u.params rec.destMemAddr .memory = (r, m)) :
    m.FreshAt u.params (b.toNat % u.params.ramWords) ∨ P := by
  obtain h | h | h := h
  · exact .inl (MemSys.FreshAt.cacheRead hc hinv.2 (Nat.mod_lt _ hN) h hm)
  · exact .inr h
  · obtain ⟨_, _, hform', hl', _⟩ := h.form hf hop hr
    cases hform.symm.trans hform'
    cases hl.symm.trans hl'

/-- After a call of Memory's write of another word. -/
theorem State.words_of_write (hmiss : u.StaleOnly rec b P) (hform : f = .access j acc) (hl : acc.loads = false)
    (hfault : rec.fault = none) (hword : sameWord u.params b rec.destMemAddr = false) {r : Answer Unit}
    {m : MemSys} (hm : u.mem.cacheWrite u.params rec.destMemAddr .memory rec.result = (r, m)) :
    m.FreshAt u.params (b.toNat % u.params.ramWords) ∨ P := by
  obtain h | h | h := h
  · have hne : b.toNat % u.params.ramWords ≠ rec.destMemAddr.toNat % u.params.ramWords := fun e => by
      cases hword.symm.trans (sameWord_iff.2 e)
    refine (MemSys.FreshAt.cacheWrite hc hinv h hne hm).imp_right
      fun misses => hmiss j (by rw [hop, hform]; rfl) ?_ hfault ?_ (by rw [hm]; exact misses)
    · rw [(hf.access hform).2.1, hl]
      rfl
    · exact Bool.eq_false_iff.2 fun e => hne (sameWord_iff.1 e).symm
  · exact .inr h
  · obtain ⟨_, _, _, _, _, e⟩ := h.form hf hop hr
    cases hword.symm.trans e

/-- Memory's work leaves every word as in the RAM, not to be read, or being stored: if a store that
misses makes it stale, `P` tells that it is not read. -/
theorem MemoryWork.words (work : MemoryWork u f rec t) (hd : u.mDone = false) (hN : 0 < u.params.ramWords)
    (hmiss : u.StaleOnly rec b P) : t.FreshAt b ∨ P ∨ t.Storing b := by
  cases work with
  | passes hasks eq =>
    subst eq
    refine h.imp_right fun h => h.imp_right fun hs => ?_
    obtain ⟨j, acc, rfl, _, hfault, _⟩ := hs.form hf hop hr
    simp [Form.asks, hfault] at hasks
  | reads j acc hform hloads _ v m hm eq =>
    subst eq
    exact (State.words_of_read hf hop hr hc hinv h hN hform hloads hm).imp id .inl
  | readWaits j acc hform hloads _ r _ m hm eq =>
    subst eq
    exact (State.words_of_read hf hop hr hc hinv h hN hform hloads hm).imp id .inl
  | writes j acc hform hloads hfault m hm eq =>
    subst eq
    cases hword : sameWord u.params b rec.destMemAddr with
    | true =>
      refine .inl ?_
      show m.FreshAt u.params (b.toNat % u.params.ramWords)
      rw [sameWord_iff.1 hword]
      exact MemSys.freshAt_of_written hc hinv hm
    | false => exact (State.words_of_write hf hop hr hc hinv h hmiss hform hloads hfault hword hm).imp id .inl
  | writeWaits j acc hform hloads hfault r hr' m hm eq =>
    subst eq
    cases hword : sameWord u.params b rec.destMemAddr with
    | true => exact State.words_of_refused hf hop hr hc h hd hform hloads hfault hword hr' hm
    | false => exact (State.words_of_write hf hop hr hc hinv h hmiss hform hloads hfault hword hm).imp id .inl

end

/-- A store that is done has left its word as it is in the RAM (R80, R90). -/
theorem MemoryWork.written (work : MemoryWork u f rec t) (hf : f.OfWord u.params.divSigned) (hop : rec.op = f.op)
    (hr : u.mRec = some rec) (hd : u.mDone = false) (hc : u.params.cached = true) (hinv : u.mem.Inv u.params)
    (hdone : t.mDone = true) {rec' : Record} (hr' : t.mRec = some rec') (hfault : rec'.fault = none)
    (hb : rec'.stored = some b) : t.FreshAt b := by
  cases work with
  | passes hasks eq =>
    subst eq
    cases hr.symm.trans hr'
    obtain ⟨j, hj, hstore⟩ := Record.isStore_of_stored hb
    obtain ⟨acc, rfl, _⟩ := hf.access_of_store (hop.symm.trans hj) hstore
    simp [Form.asks, hfault] at hasks
  | reads j acc hform hloads _ v m hm eq =>
    subst eq
    cases hr'
    obtain ⟨j', hj', hstore⟩ := Record.isStore_of_stored hb
    have hop' : rec.op = .instr j := by rw [hop, hform]; rfl
    cases hop'.symm.trans hj'
    rw [(hf.access hform).2.1, hloads] at hstore
    cases hstore
  | readWaits _ _ _ _ _ _ _ _ _ eq =>
    subst eq
    cases hd.symm.trans hdone
  | writes j acc hform hloads _ m hm eq =>
    subst eq
    cases hr'
    rw [Access.stored_storedRecord (hf.access hform).2.2 hloads (by rw [hop, hform]; rfl)] at hb
    cases hb
    exact MemSys.freshAt_of_written hc hinv hm
  | writeWaits _ _ _ _ _ _ _ _ _ eq =>
    subst eq
    cases hd.symm.trans hdone

/-- A store that misses and installs its line is the tick's missing store (R92). -/
theorem State.missingStore_of_missesAt (hwork : s.memoryWork = some (j, rec)) (hj : j.isStore = true)
    (h : s.mem.MissesAt s.params (s.mem.cacheWrite s.params rec.destMemAddr .memory rec.result).2
      (rec.destMemAddr.toNat % s.params.ramWords) (b.toNat % s.params.ramWords)) :
    s.missingStore = some rec.destMemAddr ∧ sameLine s.params rec.destMemAddr b = true := by
  obtain ⟨line, missed, installed⟩ := h
  refine ⟨?_, sameLine_iff.2 line⟩
  have missed : s.mem.hit s.params rec.destMemAddr = none := missed
  have installed : ((s.mem.cacheWrite s.params rec.destMemAddr .memory rec.result).2.hit s.params
      rec.destMemAddr).isSome = true := installed
  simp only [State.missingStore, hwork, hj, missed, installed, Option.isNone_none, Bool.and_true, if_true]

/-! ## The tick -/

theorem State.Storing.congr (h : s.Storing b) (hmem : t.mem = s.mem) (hparams : t.params = s.params)
    (hr : t.mRec = s.mRec) (hd : t.mDone = s.mDone) (hwait : t.mWaiting = s.mWaiting) : t.Storing b := by
  obtain ⟨done, waiting, req, rec, j, hrec, hop, hj, hfault, hword⟩ := h
  exact ⟨hd.trans done, hwait.trans waiting, by rw [hmem]; exact req, rec, j, hr.trans hrec, hop, hj, hfault,
    by rw [hparams]; exact hword⟩

/-- Where the words stand as Memory begins its work. -/
theorem State.Coherent.writeBack (h : s.Coherent) (ht : step s = .next t) (hw : s.writeBackExecute = .next s1)
    (hf : s1.fault = none) (b : Word) :
    s1.FreshAt b ∨ (s.Barred t b ∧ ∀ c, s.loadAddress = some c → sameWord s.params c b = false) ∨
      s1.Storing b := by
  have fresh : s1.FreshAt b ↔ s.FreshAt b :=
    State.freshAt_iff (State.writeBackExecute_mem_mRec hw).1 (State.writeBackExecute_params_clock hw).1
  rw [fresh]
  obtain h' | h' | h' := h.words b
  · exact .inl h'
  · exact (h'.next (fun rec c hr => h.written rec c hr (State.writeBackExecute_fault hw hf hr)) ht).imp id .inl
  · cases (State.writeBackExecute_of_none (h.waits h'.2.1)).symm.trans hw
    exact .inr (.inr h')

theorem State.Coherent.loadsRam (h : s.Coherent) (inv : s.Inv) (running : s.stopped = false)
    (hc : s.params.cached = true) (ht : step s = .next t) (hw : s.writeBackExecute = .next s1)
    (hf : s1.fault = none) : s1.LoadsRam := by
  intro rec j v m hr hop hload hfault hm
  have params := (State.writeBackExecute_params_clock hw).1
  obtain h' | ⟨_, unread⟩ | h' := h.writeBack ht hw hf rec.destMemAddr
  · exact MemSys.FreshAt.cacheRead_success (by rw [params, hc]) h' hm
  · have := unread rec.destMemAddr (by
      rw [State.loadAddress, State.memoryWork_of_writeBack inv running hw hf hr hop hfault]
      simp [hload])
    rw [sameWord_iff.2 rfl] at this
    cases this
  · obtain ⟨j', hop', hstore, _⟩ := h'.work hr
    cases hop.symm.trans hop'
    rw [Instr.isLoad_of_isStore hstore] at hload
    cases hload

/-- Memory's part of a tick on the machine in step with the run. -/
theorem Sim.memoryWork (h : Sim p A i s) (hw : s.wRec = none) (hd : s.mDone = false) (hr : s.mRec = some rec)
    (ht : s.memoryExecute = .next t) :
    rec.op = ((A i).form p).op ∧ MemoryWork { s with stage := .memory } ((A i).form p) rec t := by
  have path := h.path
  rw [State.slots_of_wRec_none hw, hr, slotOf_some, State.memoryPhase, hd] at path
  obtain ⟨⟨issued, hrec⟩, _⟩ := path
  have carries := Arch.executed_carries issued.2
  rw [← hrec] at carries
  obtain ⟨u, hu, work⟩ := State.memoryExecute_form (f := (A i).form p)
    (by rw [h.params]; exact Arch.form_ofWord p (A i)) issued.2 carries.op hr hd
  cases ht.symm.trans hu
  exact ⟨carries.op, work⟩

/-- Where the words stand after Memory's work. -/
theorem State.Coherent.memory (h : s.Coherent) (inv : s.Inv) (running : s.stopped = false)
    (hc : s.params.cached = true) (ht : step s = .next t) (hw : s.writeBackExecute = .next s1)
    (hf : s1.fault = none) (sim : Sim p A i s1) (hm : s1.memoryExecute = .next s2) :
    (∀ b, s2.FreshAt b ∨ s.Barred t b ∨ s2.Storing b) ∧
      ∀ rec b, s2.mDone = true → s2.mRec = some rec → rec.fault = none → rec.stored = some b → s2.FreshAt b := by
  have before (b : Word) : s1.FreshAt b ∨ s.Barred t b ∨ s1.Storing b :=
    (h.writeBack ht hw hf b).imp_right fun h => h.imp_left And.left
  have params := (State.writeBackExecute_params_clock hw).1
  have mem := (State.writeBackExecute_mem_mRec hw).1
  have inv1 := (State.inv_iff.1 inv).1.writeBackExecute hw
  cases hr : s1.mRec with
  | none =>
    cases (State.memoryExecute_of_none hr).symm.trans hm
    exact ⟨before, fun rec b _ hr' => by cases hr.symm.trans hr'⟩
  | some rec =>
    have hd := State.writeBackExecute_mDone ((State.inv_iff.1 inv).2.2.2.1) hw
    obtain ⟨hop, work⟩ := sim.memoryWork (State.writeBackExecute_wRec hw) hd hr hm
    have of : ((A i).form p).OfWord s1.params.divSigned := by rw [sim.params]; exact Arch.form_ofWord p (A i)
    have hc1 : s1.params.cached = true := by rw [params, hc]
    refine ⟨fun b => ?_, fun rec' b hdone hr' hfault hb =>
      work.written of hop hr hd hc1 inv1.mem hdone hr' hfault hb⟩
    refine MemoryWork.words (u := { s1 with stage := .memory }) of hop hr hc1 inv1.mem (before b) work hd
      (Params.ramWords_pos inv1.params) fun j hj hstore hfault hne misses => ?_
    have hwork := State.memoryWork_of_writeBack inv running hw hf hr hj hfault
    have misses' := misses
    simp only [params, mem] at misses' hne
    obtain ⟨missing, line⟩ := State.missingStore_of_missesAt hwork hstore misses'
    exact h.lines.barred ht missing line hne

end

end Sys2Proof.Machine
end

section
/-! SUPPORT. A tick keeps the cache's words those that may be read, and so every read gets the RAM's word
(spec/20_memory.md R92, spec/70_reset_and_hazards.md R353). -/

namespace Sys2Proof.Machine

section
variable {p : Params} {A : Nat → Arch} {i : Nat} {s s1 s2 s3 s4 t u : State} {rec : Record} {b : Word} {P : Prop}

/-! ## Fetch -/

/-- While a store is under way, Fetch's request is refused (R76). -/
theorem State.Storing.fetchExecute (h : u.Storing b) (hc : u.params.cached = true) :
    u.fetchExecute.Storing b := by
  have tail := u.fetchExecute_keepsTail
  refine h.congr ?_ u.fetchExecute_keepsGlobals.params tail.mRec tail.mDone tail.mWaiting
  have hread : u.mem.cacheRead u.params u.pc .fetch = (.wait, u.mem) :=
    MemSys.cacheRead_of_other hc h.2.2.1 fun e => by cases e
  obtain ⟨_, eq⟩ | ⟨_, _, eq⟩ | ⟨_, _, _, _, r, m, hm, eq | ⟨v, _, _, eq⟩⟩ := u.fetchExecute_cases
  · rw [eq]
  · rw [eq]
  · cases hread.symm.trans hm
    rw [eq]
  · cases hread.symm.trans hm
    rw [eq]

theorem State.FreshAt.fetchExecute (h : u.FreshAt b) (hc : u.params.cached = true) (hinv : u.mem.Inv u.params)
    (hN : 0 < u.params.ramWords) : u.fetchExecute.FreshAt b := by
  have read {r : Answer Word} {m : MemSys} (hm : u.mem.cacheRead u.params u.pc .fetch = (r, m)) :
      m.FreshAt u.params (b.toNat % u.params.ramWords) :=
    MemSys.FreshAt.cacheRead hc hinv.2 (Nat.mod_lt _ hN) h hm
  obtain ⟨_, eq⟩ | ⟨_, _, eq⟩ | ⟨_, _, _, _, r, m, hm, eq | ⟨v, _, _, eq⟩⟩ := u.fetchExecute_cases
  · rw [eq]
    exact h
  · rw [eq]
    exact h
  · rw [eq]
    exact read hm
  · rw [eq]
    exact read hm

/-! ## The middle of the tick and its end -/

/-- Execute and Decode leave the memory and Memory's latch. -/
structure KeepsMemory (s t : State) : Prop extends KeepsTail s t where
  mem : t.mem = s.mem
  params : t.params = s.params

theorem Ticks.keepsMemory (h : Ticks s s1 s2 s3 s4 t) : KeepsMemory s2 s4 := by
  obtain ⟨_, _, _, hx, hd, _⟩ := h
  exact {
    toKeepsTail := (State.executeExecute_keepsTail hx).trans (State.decodeExecute_keepsTail hd)
    mem := (State.decodeExecute_mem hd).trans (State.executeExecute_mem hx)
    params := ((State.executeExecute_keepsGlobals hx).trans (State.decodeExecute_keepsGlobals hd)).params }

/-- What moves on from Decode and Fetch leaves Memory's and Write-Back's latches. -/
theorem State.advanceFront_keepsTail (s : State) : KeepsTail s s.advanceDecode.advanceFetch := by
  unfold State.advanceFetch State.advanceDecode
  repeat' split
  all_goals exact ⟨rfl, rfl, rfl, rfl⟩

/-- A record that Memory is still at work on stays (R142). -/
theorem State.advance_of_working (hr : s.mRec = some rec) (hd : s.mDone = false) : KeepsTail s s.advance := by
  have memory : s.advanceMemory = s := by simp [State.advanceMemory, hd]
  have execute : s.advanceExecute = s := by simp [State.advanceExecute, hr]
  rw [State.advance, memory, execute]
  exact s.advanceFront_keepsTail

theorem State.advance_wRec_eq (s : State) : s.advance.wRec = s.advanceMemory.wRec := by
  have rest (s : State) : s.advanceExecute.advanceDecode.advanceFetch.wRec = s.wRec := by
    unfold State.advanceFetch State.advanceDecode State.advanceExecute
    repeat' split
    all_goals rfl
  exact rest _

/-- A record reaches Write-Back only from Memory, done with its work, and then Memory does not wait (R142). -/
theorem State.advance_wRec (hw : s.wRec = none) (hr : s.advance.wRec = some rec) :
    s.mRec = some rec ∧ s.mDone = true ∧ s.advance.mWaiting = false := by
  have rest (s : State) (hwait : s.mWaiting = false) :
      s.advanceExecute.advanceDecode.advanceFetch.mWaiting = false := by
    unfold State.advanceFetch State.advanceDecode State.advanceExecute
    repeat' split
    all_goals simp only [hwait]
  rw [State.advance_wRec_eq] at hr
  obtain ⟨eq, _⟩ | ⟨rec', hm, _, eq⟩ := s.advanceMemory_cases
  · rw [eq] at hr
    cases hw.symm.trans hr
  · have waits : s.advance.mWaiting = false := rest _ (by rw [eq])
    rw [eq] at hr
    cases hr
    refine ⟨hm, ?_, waits⟩
    by_contra hd
    have same : s.advanceMemory = s := by simp [State.advanceMemory, hd]
    rw [eq] at same
    cases hm.symm.trans (congrArg State.mRec same).symm

/-! ## The tick -/

/-- While Memory waits, Write-Back's latch is empty. -/
theorem Ticks.waits (ticks : Ticks s s1 s2 s3 s4 t) (hwait : t.mWaiting = true) : t.wRec = none := by
  by_contra hne
  obtain ⟨rec, hr⟩ := Option.ne_none_iff_exists'.1 hne
  rw [ticks.eq] at hwait hr
  cases hwait.symm.trans (State.advance_wRec (s4.fetchExecute_keepsTail.wRec.trans ticks.wRec_none.2.2.2) hr).2.2

/-- After a tick the words are as they have to be. -/
theorem State.Coherent.next (h : s.Coherent) (sim : Sim p A i s) (sound : s.Sound) (running : s.stopped = false)
    (hc : s.params.cached = true) (ht : step s = .next t) (hf : t.fault = none) : t.Coherent := by
  obtain ⟨_, unfaulted⟩ := State.halted_fault_of_running running
  obtain ⟨_, hf'⟩ | ⟨s1, s2, s3, s4, ticks⟩ := step_stages running ht
  · exact absurd hf hf'
  obtain ⟨w1, w2, w3, w4⟩ := ticks.wRec_none
  have keeps := ticks.keepsMemory
  have params2 : s2.params = s.params :=
    (State.memoryExecute_keepsGlobals ticks.memory).params.trans
      (State.writeBackExecute_params_clock ticks.writeBack).1
  have inv2 : s2.TickInv := (sound.tickInv.writeBackExecute ticks.writeBack).memoryExecute ticks.memory
  obtain ⟨_, _, sim1⟩ :=
    (sim.writeBackExecute sound.mDone unfaulted ticks.writeBack).resolve_left fun e => e.2.faults ticks.unfaulted
  obtain ⟨words, written⟩ := h.memory sound.inv running hc ht ticks.writeBack ticks.unfaulted sim1 ticks.memory
  have hc4 : s4.params.cached = true := by rw [keeps.params, params2, hc]
  have inv4 : s4.mem.Inv s4.params := by rw [keeps.mem, keeps.params]; exact inv2.mem
  have hN : 0 < s4.params.ramWords := by rw [keeps.params]; exact Params.ramWords_pos inv2.params
  have fetched (b : Word) (h : s2.FreshAt b) : t.FreshAt b := by
    have fresh := State.FreshAt.fetchExecute ((State.freshAt_iff keeps.mem keeps.params).2 h) hc4 inv4 hN
    rw [ticks.eq]
    exact (State.freshAt_iff (State.advance_mem _) (State.advance_keepsGlobals _).params).2 fresh
  have tail := s4.fetchExecute_keepsTail
  refine ⟨fun b => ?_, fun rec b hr hfault hb => ?_, h.lines.next ht, ticks.waits⟩
  · obtain h' | h' | h' := words b
    · exact .inl (fetched b h')
    · exact .inr (.inl h'.1)
    · have storing := (h'.congr keeps.mem keeps.params keeps.mRec keeps.mDone keeps.mWaiting).fetchExecute hc4
      refine .inr (.inr ?_)
      have storing' := storing
      obtain ⟨done, _, _, rec, _, hr, _⟩ := storing'
      have working := State.advance_of_working hr done
      rw [ticks.eq]
      exact storing.congr (State.advance_mem _) (State.advance_keepsGlobals _).params working.mRec working.mDone
        working.mWaiting
  · rw [ticks.eq] at hr
    obtain ⟨hr, hd, _⟩ := State.advance_wRec (tail.wRec.trans w4) hr
    exact fetched b (written rec b (by rw [← keeps.mDone, ← tail.mDone, hd])
      (by rw [← keeps.mRec, ← tail.mRec, hr]) hfault hb)

/-- What the memory answers are the RAM's words. -/
theorem State.Coherent.readsRam (h : s.Coherent) (sim : Sim p A i s) (sound : s.Sound)
    (running : s.stopped = false) (hc : s.params.cached = true) : s.ReadsRam := by
  obtain ⟨_, unfaulted⟩ := State.halted_fault_of_running running
  obtain ⟨t, ht, _⟩ := stepAnswersNext s
  refine ⟨fun s1 hw hf => h.loadsRam sound.inv running hc ht hw hf,
    fun s1 s4 hw hf hmid hsquash hheld v m hm => ?_⟩
  obtain ⟨hw', hf'⟩ | ⟨s1', s2, s3, s4', ticks⟩ := step_stages running ht
  · cases hw.symm.trans hw'
    exact absurd hf hf'
  cases hw.symm.trans ticks.writeBack
  cases hmid.symm.trans ticks.middle
  obtain ⟨_, _, sim1⟩ :=
    (sim.writeBackExecute sound.mDone unfaulted hw).resolve_left fun e => e.2.faults hf
  have keeps := ticks.keepsMemory
  have params1 := (State.writeBackExecute_params_clock hw).1
  have params4 := (State.middleExecute_params hmid).trans params1
  have hc4 : s4.params.cached = true := by rw [params4, hc]
  obtain h' | h' | h' := (h.memory sound.inv running hc ht hw hf sim1 ticks.memory).1 s4.pc
  · exact MemSys.FreshAt.cacheRead_success hc4 ((State.freshAt_iff keeps.mem keeps.params).2 h') hm
  · have unread := h'.2 s4.pc (by
      have unfaulted4 : s4.fault = none := ((State.memoryExecute_keepsGlobals ticks.memory).trans <|
        (State.executeExecute_keepsGlobals ticks.execute).trans
          (State.decodeExecute_keepsGlobals ticks.decode)).fault.trans hf
      simp [State.fetchAddress, running, andThen, hw, hf, hmid, unfaulted4, hsquash, hheld])
    rw [sameWord_iff.2 rfl] at unread
    cases unread
  · have req := (h'.congr keeps.mem keeps.params keeps.mRec keeps.mDone keeps.mWaiting).2.2.1
    cases (MemSys.cacheRead_of_other hc4 req fun e => by cases e).symm.trans hm

end

end Sys2Proof.Machine
end

section
/-! SUPPORT. A request is refused while another holds the slot, or it comes nearer to its grant (spec/20_memory.md
R68, R76). -/

namespace Sys2Proof.Machine

/-- How many more calls the RAM's slot takes at most: those of its holder, or of a request to come. -/
def Ram.need (d : Nat) (r : Ram) : Nat := if r.req = none then d + 1 else r.left

/-- How many more calls the cache's own countdown takes at most. -/
def Cache.need (d : Nat) (c : Cache) : Nat := if c.req = none then d + 1 else if c.waitNext then 0 else c.left

/-- How many more calls a request takes at most. -/
def MemSys.need (p : Params) (m : MemSys) : Nat := m.cache.need p.cacheDelay + m.ram.need p.ramDelay

/-- Whose request is under way: the holder of the slot that stages ask for (R67, R75, R76). -/
def MemSys.owner (p : Params) (m : MemSys) : Option Requester := if p.cached then m.cache.req else m.ram.req

/-- What a call by `who` that leads from `m` to `m'` can come to. -/
inductive MemSys.Called (p : Params) (m : MemSys) (who : Requester) {α : Type} (r : Answer α)
    (m' : MemSys) : Prop where
  | refused (other : Requester) (howner : m.owner p = some other) (hne : other ≠ who) (eq : m' = m)
      (hr : r = .wait)
  | counts (hfree : m.owner p = none ∨ m.owner p = some who) (hr : r = .wait ∨ r = .waitNextLevel)
      (howner : m'.owner p = some who) (hneed : m'.need p < m.need p)
  | done (hfree : m.owner p = none ∨ m.owner p = some who) (v : α) (hr : r = .success v)
      (howner : m'.owner p = none)

section
variable {p : Params} {m m' : MemSys} {who : Requester} {α : Type} {r : Answer α} {x v : Word}

/-- What a call of the RAM's service comes to (R68). -/
inductive Ram.Served (d : Nat) (ram : Ram) (who : Requester) (g : Grant) (ram' : Ram) : Prop where
  | refused (other : Requester) (hreq : ram.req = some other) (hne : other ≠ who) (eq : ram' = ram)
      (hg : g = .wait)
  | counts (hfree : ram.req = none ∨ ram.req = some who) (hg : g = .wait) (hreq : ram'.req = some who)
      (hneed : ram'.need d < ram.need d)
  | done (hfree : ram.req = none ∨ ram.req = some who) (hg : g = .ready) (hreq : ram'.req = none)

theorem Ram.service_served {ram ram' : Ram} {d : Nat} {g : Grant} (h : ram.service d who = (g, ram')) :
    Ram.Served d ram who g ram' := by
  obtain ⟨hg, hreq, _, rfl⟩ | ⟨hg, hreq, _, rfl⟩ | ⟨hg, hreq, _, rfl⟩ | ⟨hg, hreq, hleft, rfl⟩ |
      ⟨hg, hne, hwho, rfl⟩ :=
    Ram.service_cases h
  · exact .done (.inl hreq) hg hreq
  · exact .counts (.inl hreq) hg rfl (by simp [Ram.need, hreq])
  · exact .done (.inr hreq) hg rfl
  · exact .counts (.inr hreq) hg hreq (by simp [Ram.need, hreq]; omega)
  · obtain ⟨other, ho⟩ := Option.ne_none_iff_exists'.1 hne
    exact .refused other ho (fun e => hwho (by rw [ho, e])) rfl hg

/-- Without a cache a call is one of the RAM's service (R75). -/
theorem MemSys.Called.of_ram (hc : p.cached = false) {g : Grant} {ram' : Ram}
    (h : m.ram.service p.ramDelay who = (g, ram')) (hwait : g = .wait → r = .wait ∧ m' = { m with ram := ram' })
    (hready : g = .ready → ∃ v, r = .success v ∧ m'.ram.req = ram'.req) : m.Called p who r m' := by
  have owner (m : MemSys) : m.owner p = m.ram.req := by simp [MemSys.owner, hc]
  cases Ram.service_served h with
  | refused other hreq hne eq hg =>
    obtain ⟨hr, rfl⟩ := hwait hg
    exact .refused other ((owner _).trans hreq) hne (by rw [eq]) hr
  | counts hfree hg hreq hneed =>
    obtain ⟨hr, rfl⟩ := hwait hg
    exact .counts (by rwa [owner]) (.inl hr) ((owner _).trans hreq) (Nat.add_lt_add_left hneed _)
  | done hfree hg hreq =>
    obtain ⟨v, hr, e⟩ := hready hg
    exact .done (by rwa [owner]) v hr ((owner _).trans (e.trans hreq))

/-- A call of the cache: its own countdown, then the RAM's if the line is not there (R79, R80). -/
theorem MemSys.Called.of_cachedCall (hc : p.cached = true) (hinv : m.ram.Inv p)
    {call through : MemSys → Answer α × MemSys} (hcall : CachedCall p who call through)
    (hthrough : ∀ c, (∃ v m', through { m with cache := c } = (.success v, m') ∧ m'.cache.req = none) ∨
      ∃ lines ram, m.ram.service p.ramDelay .cache = (.wait, ram) ∧ through { m with cache := c } =
        (.waitNextLevel, { ram := ram, cache := { { c with lines := lines } with waitNext := true } }))
    (h : call m = (r, m')) : m.Called p who r m' := by
  have owner (m : MemSys) : m.owner p = m.cache.req := by simp [MemSys.owner, hc]
  rcases hs : m.cache.service p.cacheDelay who with ⟨_ | _, c⟩
  · have holder : (m.owner p = none ∨ m.owner p = some who) ∧ c.req = some who := by
      rw [owner]
      obtain ⟨hreq, _, rfl⟩ | ⟨hreq, _, _, rfl⟩ | ⟨hreq, _, _, rfl⟩ | ⟨_, _, e, _⟩ := Cache.service_cases hs
      · exact ⟨.inl hreq, rfl⟩
      · exact ⟨.inr hreq, hreq⟩
      · exact ⟨.inr hreq, hreq⟩
      · cases e
    have hthrough' := (hcall.ready hs).symm.trans h
    obtain ⟨v, m₁, e, hreq⟩ | ⟨lines, ram, hram, e⟩ := hthrough c
    · cases e.symm.trans hthrough'
      exact .done holder.1 v rfl ((owner _).trans hreq)
    · cases e.symm.trans hthrough'
      refine .counts holder.1 (.inr rfl) ((owner _).trans holder.2) ?_
      have settled : Cache.need p.cacheDelay { { c with lines := lines } with waitNext := true } = 0 := by
        simp [Cache.need, holder.2]
      cases Ram.service_served hram with
      | refused other hreq hne =>
        obtain e | e := hinv.2.2.2.2 hc
        · cases hreq.symm.trans e
        · cases hreq.symm.trans e
          exact absurd rfl hne
      | counts _ _ _ hneed =>
        show Cache.need _ _ + ram.need _ < _
        rw [settled, MemSys.need]
        omega
      | done _ hg => cases hg
  · cases (hcall.wait hs).symm.trans h
    obtain ⟨hreq, hg, rfl⟩ | ⟨_, _, e, _⟩ | ⟨hreq, hwait, hg, rfl⟩ | ⟨hreq, hne, _, rfl⟩ := Cache.service_cases hs
    · refine .counts (.inl ((owner _).trans hreq)) (.inl rfl) (owner _) (Nat.add_lt_add_right ?_ _)
      by_cases hn : m.cache.waitNext <;> simp [Cache.need, hreq, hn]
    · cases e
    · have hleft : 1 < m.cache.left := by
        by_contra hle
        rw [if_pos (by omega)] at hg
        cases hg
      refine .counts (.inr ((owner _).trans hreq)) (.inl rfl) ((owner _).trans hreq) (Nat.add_lt_add_right ?_ _)
      simp [Cache.need, hreq, hwait]
      omega
    · obtain ⟨other, ho⟩ := Option.ne_none_iff_exists'.1 hreq
      exact .refused other ((owner _).trans ho) (fun e => hne (by rw [ho, e])) rfl rfl

theorem MemSys.cacheRead_called (hinv : m.ram.Inv p) {r : Answer Word} (h : m.cacheRead p x who = (r, m')) :
    m.Called p who r m' := by
  cases hc : p.cached with
  | false =>
    rw [MemSys.cacheRead_bypass hc] at h
    rcases hs : m.ram.service p.ramDelay who with ⟨_ | _, ram⟩
    · rw [MemSys.ramRead_of_ready hs] at h
      cases h
      exact .of_ram hc hs (fun e => by cases e) fun _ => ⟨_, rfl, rfl⟩
    · rw [MemSys.ramRead_of_wait hs] at h
      cases h
      exact .of_ram hc hs (fun _ => ⟨rfl, rfl⟩) fun e => by cases e
  | true =>
    refine .of_cachedCall hc hinv (MemSys.cacheRead_cachedCall hc x who) (fun c => ?_) h
    cases hhit : hitWay (c.set (indexOf p (x.toNat % p.ramWords))) (tagOf p (x.toNat % p.ramWords)) with
    | some w => exact .inl ⟨_, _, MemSys.readThrough_of_hit (m := { m with cache := c }) hhit, rfl⟩
    | none =>
      rcases hs : m.ram.service p.ramDelay .cache with ⟨_ | _, ram⟩
      · exact .inl ⟨_, _, MemSys.readThrough_of_ready (m := { m with cache := c }) hhit hs, rfl⟩
      · exact .inr ⟨c.lines, ram, rfl, MemSys.readThrough_of_wait (m := { m with cache := c }) hhit hs⟩

theorem MemSys.cacheWrite_called (hinv : m.ram.Inv p) {r : Answer Unit} (h : m.cacheWrite p x who v = (r, m')) :
    m.Called p who r m' := by
  cases hc : p.cached with
  | false =>
    rw [MemSys.cacheWrite_bypass hc] at h
    rcases hs : m.ram.service p.ramDelay who with ⟨_ | _, ram⟩
    · rw [MemSys.ramWrite_of_ready hs] at h
      cases h
      exact .of_ram hc hs (fun e => by cases e) fun _ => ⟨_, rfl, rfl⟩
    · rw [MemSys.ramWrite_of_wait hs] at h
      cases h
      exact .of_ram hc hs (fun _ => ⟨rfl, rfl⟩) fun e => by cases e
  | true =>
    refine .of_cachedCall hc hinv (MemSys.cacheWrite_cachedCall hc x v who) (fun c => ?_) h
    rcases hs : m.ram.service p.ramDelay .cache with ⟨_ | _, ram⟩
    · exact .inl ⟨_, _, MemSys.writeThrough_of_ready (m := { m with cache := c }) hs, rfl⟩
    · exact .inr ⟨_, ram, rfl, MemSys.writeThrough_of_wait (m := { m with cache := c }) hs⟩

/-- More calls than any request takes (R68, R76). -/
def patience (p : Params) : Nat := p.cacheDelay + p.ramDelay + 3

theorem MemSys.Inv.need_lt (h : m.Inv p) : m.need p < patience p := by
  have ram : m.ram.need p.ramDelay ≤ p.ramDelay + 1 := by
    have := h.1.2.1
    unfold Ram.need
    split <;> omega
  have cache : m.cache.need p.cacheDelay ≤ p.cacheDelay + 1 := by
    have := h.2.2.2.1
    unfold Cache.need
    repeat' split
    all_goals omega
  rw [MemSys.need, patience]
  omega

end

end Sys2Proof.Machine
end

section
/-! SUPPORT. Whoever holds the memory's slot goes on calling until the request is granted (spec/20_memory.md R68,
R76, spec/40_pipeline.md R150, R176): Memory keeps the record that asks, and nothing holds Fetch back. -/

namespace Sys2Proof.Machine

/-- Memory holds a load or a store that asks for the slot again (R177, R178). -/
def State.Accessing (s : State) : Prop :=
  s.mDone = false ∧ s.mWaiting = true ∧ ∃ rec j, s.mRec = some rec ∧ rec.op = .instr j ∧
    (j.isLoad = true ∨ j.isStore = true) ∧ rec.fault = none

/-- Nothing holds Fetch back, nor will Decode in this tick (R150, R164). -/
structure State.FetchFree (s : State) : Prop where
  empty : s.fRec = none
  noHalt : s.haltPending = false
  notHeld : s.scalarHold = false
  waits : s.WaitsNoHalt

def State.owner (s : State) : Option Requester := s.mem.owner s.params
def State.need (s : State) : Nat := s.mem.need s.params

/-- Between two ticks the holder of the slot is at work on its request. -/
structure State.Owned (s : State) : Prop where
  waits : s.mWaiting = true → s.wRec = none
  memory : s.owner = some .memory → s.Accessing
  fetch : s.owner = some .fetch → s.FetchFree

section
variable {p : Params} {A : Nat → Arch} {i : Nat} {s s1 s2 s3 s4 t u : State} {rec : Record} {f : Form} {j : Instr}

theorem State.owner_congr (hmem : t.mem = s.mem) (hparams : t.params = s.params) : t.owner = s.owner := by
  rw [State.owner, State.owner, hmem, hparams]

theorem State.need_congr (hmem : t.mem = s.mem) (hparams : t.params = s.params) : t.need = s.need := by
  rw [State.need, State.need, hmem, hparams]

theorem State.owner_ne_cache (h : s.mem.Inv s.params) : s.owner ≠ some .cache := by
  obtain ⟨⟨_, _, _, hcache, _⟩, _, _, _, _, _, hreq, _⟩ := h
  unfold State.owner MemSys.owner
  split
  · exact hreq
  · next hc => exact fun e => hc (hcache e)

theorem State.Accessing.congr (h : s.Accessing) (hr : t.mRec = s.mRec) (hd : t.mDone = s.mDone)
    (hwait : t.mWaiting = s.mWaiting) : t.Accessing := by
  obtain ⟨done, waiting, rec, j, hrec, rest⟩ := h
  exact ⟨hd.trans done, hwait.trans waiting, rec, j, hr.trans hrec, rest⟩

/-! ## Memory's turn -/

/-- What Memory's part of a tick on a record makes of the slot. -/
inductive MemoryTurn (s t : State) : Prop where
  | passes (hr : t.mRec ≠ none) (hd : t.mDone = true) (hmem : t.mem = s.mem) (hidle : ¬s.Accessing)
  | finishes (hr : t.mRec ≠ none) (hd : t.mDone = true) (howner : t.owner = none)
  | refused (hacc : t.Accessing) (howner : s.owner = some .fetch) (hmem : t.mem = s.mem)
  | counts (hacc : t.Accessing) (howner : t.owner = some .memory) (hneed : t.need < s.need)

/-- Loads and stores are accesses. -/
theorem Form.OfWord.access_of_asks {signed : Bool} (hf : f.OfWord signed) (hop : f.op = .instr j)
    (hj : j.isLoad = true ∨ j.isStore = true) : ∃ acc, f = .access j acc := by
  obtain hj | hj := hj
  · have hform := (hf.of_op hop).1
    subst hform
    cases j with
    | ldw rd rm imm => exact ⟨_, rfl⟩
    | pop rd rm imm =>
      cases hop
      exact ⟨_, rfl⟩
    | _ => cases hj
  · obtain ⟨acc, hform, _⟩ := hf.access_of_store hop hj
    exact ⟨acc, hform⟩

theorem Form.OfWord.asks_of_access {signed : Bool} {acc : Access} (hf : f.OfWord signed)
    (hform : f = .access j acc) : j.isLoad = true ∨ j.isStore = true := by
  obtain ⟨hload, hstore, _⟩ := hf.access hform
  rw [hload, hstore]
  cases acc.loads <;> simp

theorem MemoryWork.turn (work : MemoryWork u f rec t) (hf : f.OfWord u.params.divSigned) (hop : rec.op = f.op)
    (hr : u.mRec = some rec) (hd : u.mDone = false) (hinv : u.mem.Inv u.params) : MemoryTurn u t := by
  have fetch {other : Requester} (howner : u.owner = some other) (hne : other ≠ .memory) :
      u.owner = some .fetch := by
    cases other with
    | memory => exact absurd rfl hne
    | fetch => exact howner
    | cache => exact absurd howner (State.owner_ne_cache hinv)
  have accessing {j : Instr} {acc : Access} (hform : f = .access j acc) (hfault : rec.fault = none) (m : MemSys) :
      State.Accessing { u with mem := m, mWaiting := true } :=
    ⟨hd, rfl, rec, j, hr, by rw [hop, hform]; rfl, hf.asks_of_access hform, hfault⟩
  cases work with
  | passes hasks eq =>
    subst eq
    refine .passes (by rw [hr]; exact Option.some_ne_none _) rfl rfl
      fun ⟨_, _, rec', j, hr', hj, hkind, hfault⟩ => ?_
    cases hr.symm.trans hr'
    obtain ⟨acc, rfl⟩ := hf.access_of_asks (hop.symm.trans hj) hkind
    simp [Form.asks, hfault] at hasks
  | reads j acc hform hloads hfault v m hm eq =>
    subst eq
    cases MemSys.cacheRead_called hinv.1 hm with
    | refused _ _ _ _ hr => cases hr
    | counts _ hr => obtain e | e := hr <;> cases e
    | done _ _ _ howner => exact .finishes (Option.some_ne_none _) rfl howner
  | readWaits j acc hform hloads hfault r hr' m hm eq =>
    subst eq
    cases MemSys.cacheRead_called hinv.1 hm with
    | refused other howner hne hmem => exact .refused (accessing hform hfault m) (fetch howner hne) hmem
    | counts _ _ howner hneed => exact .counts (accessing hform hfault m) howner hneed
    | done _ v e =>
      rw [e] at hr'
      obtain e | e := hr' <;> cases e
  | writes j acc hform hloads hfault m hm eq =>
    subst eq
    cases MemSys.cacheWrite_called hinv.1 hm with
    | refused _ _ _ _ hr => cases hr
    | counts _ hr => obtain e | e := hr <;> cases e
    | done _ _ _ howner => exact .finishes (Option.some_ne_none _) rfl howner
  | writeWaits j acc hform hloads hfault r hr' m hm eq =>
    subst eq
    cases MemSys.cacheWrite_called hinv.1 hm with
    | refused other howner hne hmem => exact .refused (accessing hform hfault m) (fetch howner hne) hmem
    | counts _ _ howner hneed => exact .counts (accessing hform hfault m) howner hneed
    | done _ v e =>
      rw [e] at hr'
      obtain e | e := hr' <;> cases e

/-- Memory's part of a tick on the machine in step with the run. -/
theorem Sim.memoryTurn (h : Sim p A i s) (hw : s.wRec = none) (hd : s.mDone = false) (hinv : s.mem.Inv s.params)
    (hr : s.mRec ≠ none) (ht : s.memoryExecute = .next t) : MemoryTurn s t := by
  obtain ⟨rec, hr⟩ := Option.ne_none_iff_exists'.1 hr
  obtain ⟨hop, work⟩ := h.memoryWork hw hd hr ht
  have turn := work.turn (by rw [show State.params { s with stage := .memory } = p from h.params]
                             exact Arch.form_ofWord p (A i)) hop hr hd hinv
  cases turn with
  | passes hr hd hmem hidle => exact .passes hr hd hmem hidle
  | finishes hr hd howner => exact .finishes hr hd howner
  | refused hacc howner hmem => exact .refused hacc howner hmem
  | counts hacc howner hneed => exact .counts hacc howner hneed

/-! ## Nothing holds Fetch back -/

theorem State.FetchFree.congr (h : s.FetchFree) (hparams : t.params = s.params) (hf : t.fRec = s.fRec)
    (hp : t.haltPending = s.haltPending) (hd : t.dRec.isSome = s.dRec.isSome) (hx : t.xRec.isSome = s.xRec.isSome)
    (hm : t.mRec.isSome = s.mRec.isSome) (hw : t.WaitsNoHalt) : t.FetchFree := by
  obtain ⟨empty, noHalt, notHeld, _⟩ := h
  refine ⟨hf.trans empty, hp.trans noHalt, ?_, hw⟩
  rw [State.scalarHold, hparams, hd, hx, hm]
  exact notHeld

theorem State.FetchFree.fetchHeld (h : s.FetchFree) : s.fetchHeld = false := by
  simp [State.fetchHeld, h.empty, h.noHalt, h.notHeld]

theorem State.FetchFree.of_squashAll (u : State) : u.squashAll.FetchFree :=
  ⟨rfl, rfl, by simp [State.scalarHold], fun rec hr => by cases hr⟩

theorem State.FetchFree.writeBack (h : s.FetchFree) (hw : s.writeBackExecute = .next s1) : s1.FetchFree := by
  obtain ⟨_, h'⟩ | ⟨rec, u, _, h', work⟩ := s.writeBackExecute_cases
  · cases hw.symm.trans h'
    exact h
  · cases hw.symm.trans h'
    cases work with
    | faults _ _ eq => subst eq; exact h.congr rfl rfl rfl rfl rfl rfl h.waits
    | commits _ _ _ eq => subst eq; exact h.congr rfl rfl rfl rfl rfl rfl h.waits
    | notTaken _ _ eq => subst eq; exact h.congr rfl rfl rfl rfl rfl rfl h.waits
    | jumps _ _ eq => subst eq; exact .of_squashAll _

/-- After Decode's part of a tick no HLT waits in Decode (R164). -/
theorem State.decodeExecute_waitsNoHalt (hd : s.decodeExecute = .next t) : t.WaitsNoHalt := by
  obtain ⟨hn, h'⟩ | ⟨rec, _, hr, hpending, _⟩ := s.decodeExecute_cases
  · cases hd.symm.trans h'
    intro rec hr hp
    obtain hn | hf := hn
    · cases hn.symm.trans hr
    · exact absurd hf hp
  · obtain ⟨u, hu, work⟩ := State.decodeExecute_form hr hpending
    cases hd.symm.trans hu
    cases work with
    | halts _ eq => subst eq; exact fun _ hr => by cases hr
    | finishes _ _ _ _ eq => subst eq; exact fun _ _ hp => absurd rfl hp
    | waits q hq _ _ eq =>
      subst eq
      rintro _ ⟨⟩ _
      show (wordForm s.params.divSigned rec.raw).isHalt = false
      cases hform : wordForm s.params.divSigned rec.raw with
      | halt => rw [hform] at hq; cases hq
      | _ => rfl

/-- What Decode keeps in a tick in which it does not meet HLT. -/
theorem State.WaitsNoHalt.decodeExecute (h : s.WaitsNoHalt) (hd : s.decodeExecute = .next t) :
    t.fRec = s.fRec ∧ t.fSquashed = s.fSquashed ∧ t.haltPending = s.haltPending ∧
      t.dRec.isSome = s.dRec.isSome ∧ t.xRec = s.xRec := by
  obtain ⟨_, h'⟩ | ⟨rec, _, hr, hpending, _⟩ := s.decodeExecute_cases
  · cases hd.symm.trans h'
    exact ⟨rfl, rfl, rfl, rfl, rfl⟩
  · obtain ⟨u, hu, work⟩ := State.decodeExecute_form hr hpending
    cases hd.symm.trans hu
    cases work with
    | halts hhalt =>
      rw [show (wordForm s.params.divSigned rec.raw).isHalt = false from h rec hr hpending] at hhalt
      cases hhalt
    | finishes _ _ _ _ eq => subst eq; exact ⟨rfl, rfl, rfl, by rw [hr]; rfl, rfl⟩
    | waits _ _ _ _ eq => subst eq; exact ⟨rfl, rfl, rfl, by rw [hr]; rfl, rfl⟩

theorem Ticks.fetchFree (ticks : Ticks s s1 s2 s3 s4 t) (h : s1.FetchFree) :
    s4.FetchFree ∧ s4.fSquashed = s1.fSquashed := by
  have free2 : s2.FetchFree ∧ s2.fSquashed = s1.fSquashed := by
    obtain ⟨_, h'⟩ | ⟨rec, u, hr, h', ⟨rfl, _⟩ | ⟨_, _, _, _, _, rfl, _⟩⟩ := s1.memoryExecute_cases
    all_goals cases ticks.memory.symm.trans h'
    · exact ⟨h, rfl⟩
    · exact ⟨h.congr rfl rfl rfl rfl rfl rfl h.waits, rfl⟩
    · exact ⟨h.congr rfl rfl rfl rfl rfl (by rw [hr]; rfl) h.waits, rfl⟩
  have free3 : s3.FetchFree ∧ s3.fSquashed = s2.fSquashed := by
    obtain ⟨_, h'⟩ | ⟨rec, u, hr, h', ⟨rfl, _⟩ | ⟨_, _, _, rfl, _⟩⟩ := s2.executeExecute_cases
    all_goals cases ticks.execute.symm.trans h'
    · exact ⟨free2.1, rfl⟩
    · exact ⟨free2.1.congr rfl rfl rfl rfl rfl rfl free2.1.waits, rfl⟩
    · exact ⟨free2.1.congr rfl rfl rfl rfl (by rw [hr]; rfl) rfl free2.1.waits, rfl⟩
  obtain ⟨hf, hsquash, hp, hd, hx⟩ := free3.1.waits.decodeExecute ticks.decode
  refine ⟨free3.1.congr (State.decodeExecute_keepsGlobals ticks.decode).params hf hp hd (by rw [hx])
    (by rw [(State.decodeExecute_keepsTail ticks.decode).mRec])
    (State.decodeExecute_waitsNoHalt ticks.decode), ?_⟩
  rw [hsquash, free3.2, free2.2]

theorem State.FetchFree.advance (h : s.FetchFree) : s.advance.FetchFree := by
  have keeps := s.advance_keeps
  have params := (State.advance_keepsGlobals s).params
  obtain ⟨empty, noHalt, notHeld, waits⟩ := h
  have whole : s.advance.fRec = none ∧
      (s.advance.dRec = none ∨ s.advance.dRec = s.dRec ∧ s.advance.dState = s.dState) := by
    have back : s.advanceMemory.advanceExecute.fRec = s.fRec ∧ s.advanceMemory.advanceExecute.dRec = s.dRec ∧
        s.advanceMemory.advanceExecute.dState = s.dState := by
      unfold State.advanceExecute State.advanceMemory
      repeat' split
      all_goals exact ⟨rfl, rfl, rfl⟩
    obtain ⟨hf, hd, hstate⟩ := back
    have decode (u : State) : u.advanceDecode.fRec = u.fRec ∧
        (u.advanceDecode.dRec = none ∨ u.advanceDecode.dRec = u.dRec ∧ u.advanceDecode.dState = u.dState) := by
      obtain eq | ⟨_, _, _, _, eq⟩ := u.advanceDecode_cases
      · rw [eq]; exact ⟨rfl, .inr ⟨rfl, rfl⟩⟩
      · rw [eq]; exact ⟨rfl, .inl rfl⟩
    obtain ⟨hf', hd'⟩ := decode s.advanceMemory.advanceExecute
    rw [hf, empty] at hf'
    have fetch : s.advance = s.advanceMemory.advanceExecute.advanceDecode := by
      simp [State.advance, State.advanceFetch, hf']
    rw [fetch]
    rw [hd, hstate] at hd'
    exact ⟨hf', hd'⟩
  refine ⟨whole.1, keeps.haltPending.trans noHalt, ?_, fun rec hr hp => ?_⟩
  · cases hscalar : s.params.scalar with
    | false => simp [State.scalarHold, params, hscalar]
    | true =>
      have none := notHeld
      simp only [State.scalarHold, hscalar, Bool.true_and, Bool.or_eq_false_iff, Option.isSome_eq_false_iff,
        Option.isNone_iff_eq_none] at none
      obtain ⟨⟨hd, hx⟩, hm⟩ := none
      rw [State.advance_of_none hm hx hd empty]
      exact notHeld
  · rw [params]
    obtain hd | ⟨hd, hstate⟩ := whole.2
    · cases hd.symm.trans hr
    · exact waits rec (hd.symm.trans hr) (by rw [← hstate]; exact hp)

/-! ## Fetch's turn -/

/-- What Fetch's part of a tick makes of the slot, with nothing to hold Fetch back or at rest. -/
inductive FetchTurn (s t : State) : Prop where
  | rests (hheld : s.fSquashed = true ∨ s.fetchHeld = true) (hmem : t.mem = s.mem)
  | refused (howner : s.owner ≠ none) (hne : s.owner ≠ some .fetch) (hmem : t.mem = s.mem)
  | counts (hfree : s.owner = none ∨ s.owner = some .fetch) (howner : t.owner = some .fetch)
      (hneed : t.need < s.need)
      (hcalls : s.fRec = none ∧ s.haltPending = false ∧ s.scalarHold = false) (eq : ∃ m, t = { s with mem := m })
  | done (hfree : s.owner = none ∨ s.owner = some .fetch) (howner : t.owner = none)

theorem State.fetchExecute_turn (hinv : s.mem.Inv s.params) : FetchTurn s s.fetchExecute := by
  have params := s.fetchExecute_keepsGlobals.params
  obtain ⟨hsquash, eq⟩ | ⟨_, hheld, eq⟩ | ⟨_, hf, hp, hscalar, r, m, hm, eq⟩ := s.fetchExecute_cases
  · exact .rests (.inl hsquash) (by rw [eq])
  · refine .rests (.inr ?_) (by rw [eq])
    simp only [State.fetchHeld, Bool.or_eq_true, Option.isSome_iff_ne_none, or_assoc]
    exact hheld
  · have mem : s.fetchExecute.mem = m := by
      obtain eq | ⟨v, _, _, eq⟩ := eq <;> rw [eq]
    have owner : s.fetchExecute.owner = m.owner s.params := by rw [State.owner, mem, params]
    have need : s.fetchExecute.need = m.need s.params := by rw [State.need, mem, params]
    cases MemSys.cacheRead_called hinv.1 hm with
    | refused other howner hne hmem =>
      have howner : s.owner = some other := howner
      exact .refused (by rw [howner]; exact Option.some_ne_none _)
        (by rw [howner]; exact fun e => hne (Option.some.inj e)) (mem.trans hmem)
    | counts hfree hr howner hneed =>
      refine .counts hfree (owner.trans howner) (by rw [need]; exact hneed) ⟨hf, hp, hscalar⟩ ⟨m, ?_⟩
      obtain eq | ⟨v, rfl, _⟩ := eq
      · exact eq
      · obtain e | e := hr <;> cases e
    | done hfree v hr howner => exact .done hfree (owner.trans howner)

/-! ## The tick -/

theorem State.Accessing.advance (h : s.Accessing) : s.advance.Accessing := by
  have h' := h
  obtain ⟨done, _, rec, j, hr, _⟩ := h'
  have working := State.advance_of_working hr done
  exact h.congr working.mRec working.mDone working.mWaiting

/-- Only Memory's and Fetch's parts of a tick have to do with the slot. -/
theorem Ticks.slot_before_fetch (ticks : Ticks s s1 s2 s3 s4 t) : s4.owner = s2.owner ∧ s4.need = s2.need :=
  have keeps := ticks.keepsMemory
  ⟨State.owner_congr keeps.mem keeps.params, State.need_congr keeps.mem keeps.params⟩

theorem Ticks.slot_after_fetch (ticks : Ticks s s1 s2 s3 s4 t) :
    t.owner = s4.fetchExecute.owner ∧ t.need = s4.fetchExecute.need := by
  rw [ticks.eq]
  exact ⟨State.owner_congr (State.advance_mem _) (State.advance_keepsGlobals _).params,
    State.need_congr (State.advance_mem _) (State.advance_keepsGlobals _).params⟩

theorem Ticks.accessing (ticks : Ticks s s1 s2 s3 s4 t) (h : s2.Accessing) : s4.Accessing :=
  have keeps := ticks.keepsMemory
  h.congr keeps.mRec keeps.mDone keeps.mWaiting

/-- Memory's part of a tick leaves the slot to whoever holds it, or to Memory with a record that asks. -/
theorem Sim.memoryOwner (h : Sim p A i s) (hw : s.wRec = none) (hd : s.mDone = false) (inv : s.TickInv)
    (hmemory : s.owner = some .memory → s.Accessing) (ht : s.memoryExecute = .next t) :
    (t.owner = some .memory → t.Accessing) ∧ (t.owner = some .fetch → s.owner = some .fetch) := by
  by_cases hr : s.mRec = none
  · cases (State.memoryExecute_of_none hr).symm.trans ht
    exact ⟨hmemory, id⟩
  · cases h.memoryTurn hw hd inv.mem hr ht with
    | passes _ _ hmem hidle =>
      rw [State.owner_congr hmem (State.memoryExecute_keepsGlobals ht).params]
      exact ⟨fun e => absurd (hmemory e) hidle, id⟩
    | finishes _ _ howner =>
      rw [howner]
      exact ⟨fun e => (by cases e), fun e => (by cases e)⟩
    | refused hacc howner => exact ⟨fun _ => hacc, fun _ => howner⟩
    | counts hacc howner =>
      rw [howner]
      exact ⟨fun _ => hacc, fun e => by cases e⟩

/-- Fetch's part of a tick does not give the slot to Memory. -/
theorem State.fetchExecute_memoryOwner (hinv : s.mem.Inv s.params) (h : s.owner = some .memory → s.Accessing)
    (e : s.fetchExecute.owner = some .memory) : s.fetchExecute.Accessing := by
  have tail := s.fetchExecute_keepsTail
  have same (hmem : s.fetchExecute.mem = s.mem) : s.fetchExecute.Accessing := by
    rw [State.owner_congr hmem s.fetchExecute_keepsGlobals.params] at e
    exact (h e).congr tail.mRec tail.mDone tail.mWaiting
  cases State.fetchExecute_turn hinv with
  | rests _ hmem => exact same hmem
  | refused _ _ hmem => exact same hmem
  | counts _ howner => cases e.symm.trans howner
  | done _ howner => cases e.symm.trans howner

/-- If Fetch holds the slot after its part of a tick, nothing holds it back. -/
theorem State.fetchExecute_fetchOwner (hinv : s.mem.Inv s.params) (waits : s.WaitsNoHalt)
    (h : s.owner = some .fetch → s.FetchFree) (e : s.fetchExecute.owner = some .fetch) :
    s.fetchExecute.FetchFree := by
  have before (hmem : s.fetchExecute.mem = s.mem) : s.owner = some .fetch := by
    rwa [State.owner_congr hmem s.fetchExecute_keepsGlobals.params] at e
  cases State.fetchExecute_turn hinv with
  | rests hheld hmem =>
    have free := h (before hmem)
    obtain ⟨_, eq⟩ | ⟨_, _, eq⟩ | ⟨hsquash, _⟩ := s.fetchExecute_cases
    · rw [eq]
      exact free.congr rfl rfl rfl rfl rfl rfl free.waits
    · rw [eq]
      exact free
    · simp [hsquash, free.fetchHeld] at hheld
  | refused _ hne hmem => exact absurd (before hmem) hne
  | counts _ _ _ hcalls eq =>
    obtain ⟨hf, hp, hscalar⟩ := hcalls
    obtain ⟨m, eq⟩ := eq
    have free : s.FetchFree := ⟨hf, hp, hscalar, waits⟩
    rw [eq]
    exact free.congr rfl rfl rfl rfl rfl rfl waits
  | done _ howner => cases e.symm.trans howner

theorem State.Owned.next (h : s.Owned) (sim : Sim p A i s) (sound : s.Sound) (running : s.stopped = false)
    (ht : step s = .next t) (hf : t.fault = none) : t.Owned := by
  obtain ⟨_, unfaulted⟩ := State.halted_fault_of_running running
  obtain ⟨_, hf'⟩ | ⟨s1, s2, s3, s4, ticks⟩ := step_stages running ht
  · exact absurd hf hf'
  obtain ⟨w1, _⟩ := ticks.wRec_none
  have keeps := ticks.keepsMemory
  have inv1 := sound.tickInv.writeBackExecute ticks.writeBack
  have inv4 : s4.mem.Inv s4.params := by
    rw [keeps.mem, keeps.params]
    exact (inv1.memoryExecute ticks.memory).mem
  obtain ⟨_, _, sim1⟩ :=
    (sim.writeBackExecute sound.mDone unfaulted ticks.writeBack).resolve_left fun e => e.2.faults ticks.unfaulted
  have owner1 : s1.owner = s.owner :=
    State.owner_congr (State.writeBackExecute_mem_mRec ticks.writeBack).1
      (State.writeBackExecute_params_clock ticks.writeBack).1
  have memory1 (e : s1.owner = some .memory) : s1.Accessing := by
    have accessing := h.memory (owner1.symm.trans e)
    cases (State.writeBackExecute_of_none (h.waits accessing.2.1)).symm.trans ticks.writeBack
    exact accessing
  obtain ⟨memory2, fetch2⟩ :=
    sim1.memoryOwner w1 (State.writeBackExecute_mDone sound.mDone ticks.writeBack) inv1 memory1 ticks.memory
  have owner4 := ticks.slot_before_fetch.1
  have memory4 (e : s4.owner = some .memory) : s4.Accessing := ticks.accessing (memory2 (owner4.symm.trans e))
  have fetch4 (e : s4.owner = some .fetch) : s4.FetchFree :=
    (ticks.fetchFree ((h.fetch (owner1.symm.trans (fetch2 (owner4.symm.trans e)))).writeBack ticks.writeBack)).1
  have owner := ticks.slot_after_fetch.1
  refine ⟨ticks.waits, fun e => ?_, fun e => ?_⟩
  · have accessing := State.fetchExecute_memoryOwner inv4 memory4 (owner.symm.trans e)
    rw [ticks.eq]
    exact accessing.advance
  · have free := State.fetchExecute_fetchOwner inv4 (State.decodeExecute_waitsNoHalt ticks.decode) fetch4
      (owner.symm.trans e)
    rw [ticks.eq]
    exact free.advance.congr rfl rfl rfl rfl rfl rfl free.advance.waits

end

end Sys2Proof.Machine
end

section
/-! SUPPORT. Every record in flight comes through the pipeline, and an empty pipeline fetches (spec/40_pipeline.md
R140 to R192): the machine in step with a run that ends commits its next instruction, or stops. -/

namespace Sys2Proof.Machine

section
variable {p : Params} {A : Nat → Arch} {i : Nat} {s s1 s2 s3 s4 t : State} {rec : Record}

/-! ## The machine in step with the run -/

/-- The running machine `s` has committed `i` instructions of the run `A`, and nothing will make it read a stale
word or wait for ever. -/
structure Lockstep (p : Params) (A : Nat → Arch) (i : Nat) (s : State) : Prop where
  running : s.stopped = false
  sim : Sim p A i s
  sound : s.Sound
  owned : s.Owned
  coherent : p.cached = true → s.Coherent

theorem Lockstep.readsRam (h : Lockstep p A i s) : s.ReadsRam := by
  cases hc : p.cached with
  | false => exact State.readsRam_of_bypass (by rw [h.sim.params, hc])
  | true => exact (h.coherent hc).readsRam h.sim h.sound h.running (by rw [h.sim.params, hc])

theorem Lockstep.step_cases (h : Lockstep p A i s) (rules : Rules p A) (ht : step s = .next t) :
    (t.stopped = true ∧ Ended p (A (i + s.wRec.toList.length)) t) ∨
      (s.wRec ≠ none → (A i).stops p = false) ∧ Lockstep p A (i + s.wRec.toList.length) t := by
  refine (h.sim.step_cases h.sound rules h.readsRam h.running ht).imp_right fun ⟨running, committed, sim⟩ => ?_
  have hf := (State.halted_fault_of_running running).2
  refine ⟨committed, running, sim, h.sound.next ht, h.owned.next h.sim h.sound h.running ht hf, fun hc => ?_⟩
  exact (h.coherent hc).next h.sim h.sound h.running (by rw [h.sim.params, hc]) ht hf

/-- The machine will stop, or commit the next instruction of the run. -/
def Advances (p : Params) (A : Nat → Arch) (i : Nat) (s : State) : Prop :=
  ∃ n t, Host.Core.run core n s = .next t ∧
    ((t.stopped = true ∧ ∃ j, Ended p (A j) t) ∨ (A i).stops p = false ∧ Lockstep p A (i + 1) t)

theorem Advances.of_run (ht : step s = .next t) (h : Advances p A i t) : Advances p A i s := by
  obtain ⟨n, u, hrun, h⟩ := h
  exact ⟨n + 1, u, (run_succ ht n).trans hrun, h⟩

/-- A record in Write-Back leaves it in this tick (R180). -/
theorem Lockstep.advances_of_wRec (h : Lockstep p A i s) (rules : Rules p A) (hw : s.wRec ≠ none) :
    Advances p A i s := by
  obtain ⟨t, ht, _⟩ := stepAnswersNext s
  refine ⟨1, t, run_succ ht 0, ?_⟩
  obtain ⟨rec, hr⟩ := Option.ne_none_iff_exists'.1 hw
  obtain ⟨stopped, ended⟩ | ⟨committed, next⟩ := h.step_cases rules ht
  · exact .inl ⟨stopped, _, ended⟩
  · rw [hr] at next
    exact .inr ⟨committed hw, next⟩

/-- With Write-Back empty a tick goes on to the other stages. -/
theorem Lockstep.advances_of_tick (h : Lockstep p A i s) (rules : Rules p A) (hw : s.wRec = none)
    (next : ∀ s2 s3 s4 t, step s = .next t → Ticks s s s2 s3 s4 t → Lockstep p A i t → Advances p A i t) :
    Advances p A i s := by
  obtain ⟨t, ht, _⟩ := stepAnswersNext s
  have lockstep := h.step_cases rules ht
  rw [hw] at lockstep
  obtain ⟨stopped, ended⟩ | ⟨_, after⟩ := lockstep
  · exact ⟨1, t, run_succ ht 0, .inl ⟨stopped, _, ended⟩⟩
  · refine .of_run ht ?_
    have stay := State.writeBackExecute_of_none hw
    obtain ⟨hw', hf⟩ | ⟨s1, s2, s3, s4, ticks⟩ := step_stages h.running ht
    · exact absurd (State.halted_fault_of_running after.running).2 hf
    · cases stay.symm.trans ticks.writeBack
      exact next s2 s3 s4 t ht ticks after

/-! ## Memory -/

/-- How long the record in Memory has to wait at most. -/
def State.delay (s : State) : Nat := (if s.owner = some .fetch then patience s.params else 0) + s.need

/-- A record whose memory work is done leaves Memory (R179). -/
theorem State.advance_of_done (hw : s.wRec = none) (hr : s.mRec ≠ none) (hd : s.mDone = true) :
    s.advance.wRec ≠ none := by
  rw [State.advance_wRec_eq]
  obtain ⟨_, e | e | e⟩ | ⟨rec, _, _, eq⟩ := s.advanceMemory_cases
  · exact absurd e hr
  · cases hd.symm.trans e
  · exact absurd hw e
  · rw [eq]
    exact Option.some_ne_none rec

theorem State.Accessing.mRec_ne_none (h : s.Accessing) : s.mRec ≠ none := by
  obtain ⟨_, _, rec, _, hr, _⟩ := h
  rw [hr]
  exact Option.some_ne_none rec

/-- While Fetch holds the slot it comes nearer to its own grant, after which Memory is next. -/
theorem Ticks.delay_of_refused (ticks : Ticks s s s2 s3 s4 t) (h : Lockstep p A i s)
    (howner : s.owner = some .fetch) (hmem : s2.mem = s.mem) (hinv4 : s4.mem.Inv s4.params) (hinv : t.mem.Inv t.params) : t.delay < s.delay := by
  have params := ticks.keepsGlobals.1
  have params2 := (State.memoryExecute_keepsGlobals ticks.memory).params
  obtain ⟨owner4, need4⟩ := ticks.slot_before_fetch
  obtain ⟨owner5, need5⟩ := ticks.slot_after_fetch
  rw [State.owner_congr hmem params2, howner] at owner4
  rw [State.need_congr hmem params2] at need4
  obtain ⟨free, hsquash⟩ := ticks.fetchFree (h.owned.fetch howner)
  have patient : t.need < patience s.params := by
    rw [← params]
    exact hinv.need_lt
  rw [State.delay, State.delay, if_pos howner]
  cases State.fetchExecute_turn hinv4 with
  | rests hheld =>
    obtain e | e := hheld
    · cases (hsquash.trans (State.inv_iff.1 h.sound.inv).2.2.1).symm.trans e
    · cases free.fetchHeld.symm.trans e
  | refused _ hne => exact absurd owner4 hne
  | counts _ howner' hneed =>
    rw [if_pos (owner5.trans howner'), params, need5, ← need4]
    exact Nat.add_lt_add_left hneed _
  | done _ howner' =>
    rw [if_neg (by rw [owner5, howner']; exact fun e => by cases e)]
    omega

/-- While Memory holds the slot it comes nearer to its grant. -/
theorem Ticks.delay_of_counts (ticks : Ticks s s s2 s3 s4 t) (howner : s2.owner = some .memory)
    (hneed : s2.need < s.need) (hinv4 : s4.mem.Inv s4.params) : t.delay < s.delay := by
  obtain ⟨owner4, need4⟩ := ticks.slot_before_fetch
  obtain ⟨owner5, need5⟩ := ticks.slot_after_fetch
  rw [howner] at owner4
  have same (hmem : s4.fetchExecute.mem = s4.mem) : t.delay < s.delay := by
    have params5 := s4.fetchExecute_keepsGlobals.params
    have owner : t.owner = some .memory := owner5.trans ((State.owner_congr hmem params5).trans owner4)
    have need : t.need = s2.need := need5.trans ((State.need_congr hmem params5).trans need4)
    rw [State.delay, State.delay, owner, need, if_neg (fun e => by cases e)]
    omega
  have held (hfree : s4.owner = none ∨ s4.owner = some .fetch) : t.delay < s.delay := by
    rw [owner4] at hfree
    obtain e | e := hfree <;> cases e
  cases State.fetchExecute_turn hinv4 with
  | rests _ hmem => exact same hmem
  | refused _ _ hmem => exact same hmem
  | counts hfree => exact held hfree
  | done hfree => exact held hfree

/-- The record in Memory leaves it, or comes nearer to its grant. -/
theorem Ticks.memory_progress (ticks : Ticks s s s2 s3 s4 t) (h : Lockstep p A i s) (hm : s.mRec ≠ none)
    (hinv : t.mem.Inv t.params) :
    t.wRec ≠ none ∨ t.wRec = none ∧ t.mRec ≠ none ∧ t.delay < s.delay := by
  obtain ⟨w1, _, _, w4⟩ := ticks.wRec_none
  have keeps := ticks.keepsMemory
  have tail := s4.fetchExecute_keepsTail
  have hinv4 : s4.mem.Inv s4.params := by
    rw [keeps.mem, keeps.params]
    exact (h.sound.tickInv.memoryExecute ticks.memory).mem
  have done (hr : s2.mRec ≠ none) (hd : s2.mDone = true) : t.wRec ≠ none := by
    rw [ticks.eq]
    exact State.advance_of_done (tail.wRec.trans w4) (by rw [tail.mRec, keeps.mRec]; exact hr)
      (by rw [tail.mDone, keeps.mDone]; exact hd)
  have waiting (hacc : s2.Accessing) : t.wRec = none ∧ t.mRec ≠ none := by
    have accessing : t.Accessing := by
      rw [ticks.eq]
      exact ((ticks.accessing hacc).congr tail.mRec tail.mDone tail.mWaiting).advance
    exact ⟨ticks.waits accessing.2.1, accessing.mRec_ne_none⟩
  cases h.sim.memoryTurn w1 h.sound.mDone h.sound.tickInv.mem hm ticks.memory with
  | passes hr hd => exact .inl (done hr hd)
  | finishes hr hd => exact .inl (done hr hd)
  | refused hacc howner hmem =>
    obtain ⟨hw, hm'⟩ := waiting hacc
    exact .inr ⟨hw, hm', ticks.delay_of_refused h howner hmem hinv4 hinv⟩
  | counts hacc howner hneed =>
    obtain ⟨hw, hm'⟩ := waiting hacc
    exact .inr ⟨hw, hm', ticks.delay_of_counts howner hneed hinv4⟩

/-- A record in Memory comes to Write-Back and is committed (R176 to R179). -/
theorem Lockstep.advances_of_mRec (h : Lockstep p A i s) (rules : Rules p A) (hw : s.wRec = none)
    (hm : s.mRec ≠ none) : Advances p A i s := by
  induction hn : s.delay using Nat.strong_induction_on generalizing s with
  | _ n ih =>
    refine h.advances_of_tick rules hw fun s2 s3 s4 t ht ticks next => ?_
    obtain hw' | ⟨hw', hm', hlt⟩ := ticks.memory_progress h hm next.sound.tickInv.mem
    · exact next.advances_of_wRec rules hw'
    · exact ih _ (hn ▸ hlt) next hw' hm' rfl

/-! ## Execute -/

/-- What Fetch's part of a tick leaves of the latches before it. -/
theorem State.fetchExecute_keepsFront (s : State) : s.fetchExecute.xRec = s.xRec ∧
    s.fetchExecute.xDone = s.xDone ∧ s.fetchExecute.dRec = s.dRec ∧ s.fetchExecute.dState = s.dState := by
  obtain ⟨_, eq⟩ | ⟨_, _, eq⟩ | ⟨_, _, _, _, r, m, _, eq | ⟨v, _, _, eq⟩⟩ := s.fetchExecute_cases <;> rw [eq] <;>
    exact ⟨rfl, rfl, rfl, rfl⟩

theorem State.decodeExecute_keepsExecute (hd : s.decodeExecute = .next t) :
    t.xRec = s.xRec ∧ t.xDone = s.xDone := by
  obtain ⟨_, h'⟩ | ⟨rec, _, hr, hpending, _⟩ := s.decodeExecute_cases
  · cases hd.symm.trans h'
    exact ⟨rfl, rfl⟩
  · obtain ⟨u, hu, work⟩ := State.decodeExecute_form hr hpending
    cases hd.symm.trans hu
    cases work with
    | halts _ eq => subst eq; exact ⟨rfl, rfl⟩
    | finishes _ _ _ _ eq => subst eq; exact ⟨rfl, rfl⟩
    | waits _ _ _ _ eq => subst eq; exact ⟨rfl, rfl⟩

/-- A record in Execute is executed (R170). -/
theorem State.executeExecute_done (hr : s.xRec ≠ none) (hx : s.executeExecute = .next t) :
    t.xRec ≠ none ∧ t.xDone = true := by
  obtain ⟨hn, _⟩ | ⟨rec, u, hr', h', ⟨rfl, hd⟩ | ⟨_, _, _, rfl, _⟩⟩ := s.executeExecute_cases
  · exact absurd hn hr
  · cases hx.symm.trans h'
    exact ⟨hr, hd⟩
  · cases hx.symm.trans h'
    exact ⟨Option.some_ne_none _, rfl⟩

/-- An executed record moves on when Memory is empty (R175). -/
theorem State.advance_executed (hw : s.wRec = none) (hm : s.mRec = none) (hr : s.xRec ≠ none)
    (hd : s.xDone = true) : s.advance.wRec = none ∧ s.advance.mRec ≠ none := by
  have memory : s.advanceMemory = s := by simp [State.advanceMemory, hm]
  obtain ⟨rec, hr⟩ := Option.ne_none_iff_exists'.1 hr
  have execute : s.advanceExecute =
      { s with mRec := some rec, xRec := none, xDone := false, mDone := false, mWaiting := false } := by
    simp [State.advanceExecute, hr, hd, hm]
  rw [State.advance, memory, execute]
  have keeps := State.advanceFront_keepsTail
    { s with mRec := some rec, xRec := none, xDone := false, mDone := false, mWaiting := false }
  exact ⟨keeps.wRec.trans hw, by rw [keeps.mRec]; exact Option.some_ne_none rec⟩

/-- The record in Execute comes to Memory. -/
theorem Lockstep.advances_of_xRec (h : Lockstep p A i s) (rules : Rules p A) (hw : s.wRec = none)
    (hm : s.mRec = none) (hx : s.xRec ≠ none) : Advances p A i s := by
  refine h.advances_of_tick rules hw fun s2 s3 s4 t ht ticks next => ?_
  cases (State.memoryExecute_of_none hm).symm.trans ticks.memory
  obtain ⟨hx3, hd3⟩ := State.executeExecute_done hx ticks.execute
  obtain ⟨hx4, hd4⟩ := State.decodeExecute_keepsExecute ticks.decode
  obtain ⟨hx5, hd5, _⟩ := s4.fetchExecute_keepsFront
  have keeps := ticks.keepsMemory
  have tail := s4.fetchExecute_keepsTail
  have moved := State.advance_executed (tail.wRec.trans (keeps.wRec.trans hw))
    (tail.mRec.trans (keeps.mRec.trans hm)) (by rw [hx5, hx4]; exact hx3) (hd5.trans (hd4.trans hd3))
  rw [← show t.wRec = s4.fetchExecute.advance.wRec by rw [ticks.eq]; rfl,
    ← show t.mRec = s4.fetchExecute.advance.mRec by rw [ticks.eq]; rfl] at moved
  exact next.advances_of_mRec rules moved.1 moved.2

/-! ## Decode -/

/-- With nothing before it in flight, Decode meets HLT or finishes its record: no register is claimed (R26,
R160). -/
theorem Lockstep.decodes (h : Lockstep p A i s) (hw : s.wRec = none) (hm : s.mRec = none) (hx : s.xRec = none)
    (hr : s.dRec ≠ none) (hd : s.decodeExecute = .next t) :
    s.MeetsHalt ∨ t.dRec ≠ none ∧ t.dState = .free := by
  obtain ⟨hn | hfree, h'⟩ | ⟨rec, _, hrec, hpending, _⟩ := s.decodeExecute_cases
  · exact absurd hn hr
  · cases hd.symm.trans h'
    exact .inr ⟨hr, hfree⟩
  · obtain ⟨u, hu, work⟩ := State.decodeExecute_form hrec hpending
    cases hd.symm.trans hu
    cases work with
    | halts hhalt => exact .inl ⟨rec, hrec, hpending, hhalt⟩
    | finishes _ _ _ _ eq => subst eq; exact .inr ⟨Option.some_ne_none _, rfl⟩
    | waits q _ hblocked =>
      obtain ⟨_, unfaulted⟩ := State.halted_fault_of_running h.running
      have claimed := ((h.sound.claims unfaulted).2 q).1 (RegFile.read_eq_none.1 hblocked).2
      rw [State.allClaims_eq, hw, hm, hx, hrec, claimsOf_some, (h.sound.tickInv.undecoded hrec hpending).1,
        claimsOf_of_undecoded h.sound.tickInv.fetched] at claimed
      cases claimed

/-- A decoded record moves on when Execute is empty (R168). -/
theorem State.advance_decoded (hw : s.wRec = none) (hm : s.mRec = none) (hx : s.xRec = none) (hr : s.dRec ≠ none)
    (hd : s.dState = .free) : s.advance.wRec = none ∧ s.advance.mRec = none ∧ s.advance.xRec ≠ none := by
  have memory : s.advanceMemory = s := by simp [State.advanceMemory, hm]
  have execute : s.advanceExecute = s := by simp [State.advanceExecute, hx]
  obtain ⟨rec, hr⟩ := Option.ne_none_iff_exists'.1 hr
  have keeps := s.advanceFront_keepsTail
  have fetch (u : State) : u.advanceFetch.xRec = u.xRec := by
    unfold State.advanceFetch
    split <;> rfl
  have decode : s.advanceDecode = { s with xRec := some rec, dRec := none, xDone := false } := by
    simp [State.advanceDecode, hr, hd, hx]
  rw [State.advance, memory, execute]
  exact ⟨keeps.wRec.trans hw, keeps.mRec.trans hm, by rw [fetch, decode]; exact Option.some_ne_none rec⟩

/-- The record in Decode comes to Execute, or halts the machine. -/
theorem Lockstep.advances_of_dRec (h : Lockstep p A i s) (rules : Rules p A) (hw : s.wRec = none)
    (hm : s.mRec = none) (hx : s.xRec = none) (hr : s.dRec ≠ none) : Advances p A i s := by
  refine h.advances_of_tick rules hw fun s2 s3 s4 t ht ticks next => ?_
  cases (State.memoryExecute_of_none hm).symm.trans ticks.memory
  cases (State.executeExecute_of_none hx).symm.trans ticks.execute
  obtain meets | ⟨hr4, hd4⟩ := h.decodes hw hm hx hr ticks.decode
  · have halted := meets.halts h.running hw hm hx ht
    cases (State.stopped_of (.inl halted)).symm.trans next.running
  · obtain ⟨hx4, _⟩ := State.decodeExecute_keepsExecute ticks.decode
    obtain ⟨hx5, _, hr5, hd5⟩ := s4.fetchExecute_keepsFront
    have keeps := ticks.keepsMemory
    have tail := s4.fetchExecute_keepsTail
    have moved := State.advance_decoded (tail.wRec.trans (keeps.wRec.trans hw))
      (tail.mRec.trans (keeps.mRec.trans hm)) (hx5.trans (hx4.trans hx)) (by rw [hr5]; exact hr4) (hd5.trans hd4)
    rw [← show t.wRec = s4.fetchExecute.advance.wRec by rw [ticks.eq]; rfl,
      ← show t.mRec = s4.fetchExecute.advance.mRec by rw [ticks.eq]; rfl,
      ← show t.xRec = s4.fetchExecute.advance.xRec by rw [ticks.eq]; rfl] at moved
    exact next.advances_of_xRec rules moved.1 moved.2.1 moved.2.2

/-! ## Fetch -/

/-- A fetched record moves on when Decode is empty (R153), the others being empty. -/
theorem State.advance_fetched (hw : s.wRec = none) (hm : s.mRec = none) (hx : s.xRec = none) (hd : s.dRec = none)
    (hr : s.fRec ≠ none) :
    s.advance.wRec = none ∧ s.advance.mRec = none ∧ s.advance.xRec = none ∧ s.advance.dRec ≠ none := by
  have memory : s.advanceMemory = s := by simp [State.advanceMemory, hm]
  have execute : s.advanceExecute = s := by simp [State.advanceExecute, hx]
  have decode : s.advanceDecode = s := by simp [State.advanceDecode, hd]
  obtain ⟨rec, hr⟩ := Option.ne_none_iff_exists'.1 hr
  have fetch : s.advanceFetch = { s with dRec := some rec, fRec := none, dState := .busy } := by
    simp [State.advanceFetch, hr, hd]
  rw [State.advance, memory, execute, decode, fetch]
  exact ⟨hw, hm, hx, Option.some_ne_none rec⟩

/-- With nothing in W, M, X and D a tick is Fetch's (R150). -/
theorem step_of_fetch (running : s.stopped = false) (hw : s.wRec = none) (hm : s.mRec = none) (hx : s.xRec = none)
    (hd : s.dRec = none) : step s = .next s.fetchExecute.advance.endTick :=
  step_of_decode running hw hm hx (State.decodeExecute_of_none hd)

/-- A record that Fetch has made in this tick, or before it, comes to Decode. -/
theorem Lockstep.advances_of_fetched (h : Lockstep p A i s) (rules : Rules p A) (hw : s.wRec = none)
    (hm : s.mRec = none) (hx : s.xRec = none) (hd : s.dRec = none) (hr : s.fetchExecute.fRec ≠ none) :
    Advances p A i s := by
  refine h.advances_of_tick rules hw fun s2 s3 s4 t ht ticks next => ?_
  cases (step_of_fetch h.running hw hm hx hd).symm.trans ht
  have tail := s.fetchExecute_keepsTail
  obtain ⟨hx5, _, hd5, _⟩ := s.fetchExecute_keepsFront
  obtain ⟨hw', hm', hx', hd'⟩ := State.advance_fetched (tail.wRec.trans hw) (tail.mRec.trans hm) (hx5.trans hx)
    (hd5.trans hd) hr
  exact next.advances_of_dRec rules hw' hm' hx' hd'

/-- With nothing in flight Fetch asks for the next word of the run. -/
theorem Lockstep.empty (h : Lockstep p A i s) (hw : s.wRec = none) (hm : s.mRec = none) (hx : s.xRec = none)
    (hd : s.dRec = none) (hf : s.fRec = none) :
    s.FetchFree ∧ s.fSquashed = false ∧ s.owner ≠ some .memory ∧ s.pc = (A i).pc ∧
      s.mem.ram.cells = (A i).cells := by
  have slots : s.slots = [] := by simp [State.slots, hw, hm, hx, hd, hf]
  have noHalt : s.haltPending = false := by
    by_contra hp
    have drained := h.sound.pending h.running (by simpa using hp)
    rw [State.drained_iff.2 ⟨hx, hm, hw⟩] at drained
    cases drained
  refine ⟨⟨hf, noHalt, by simp [State.scalarHold, hd, hx, hm], fun _ e => ?_⟩,
    (State.inv_iff.1 h.sound.inv).2.2.1, fun e => (h.owned.memory e).mRec_ne_none hm, ?_, ?_⟩
  · cases hd.symm.trans e
  · have path := h.sim.path
    rw [slots, follows_nil, Supplied, noHalt] at path
    simpa using path
  · have cells := h.sim.cells
    rw [slots] at cells
    exact cells

/-- An empty machine fetches the next instruction (R150, R151). -/
theorem Lockstep.advances_of_empty (h : Lockstep p A i s) (rules : Rules p A) (hword : (A i).word p ≠ 0#32)
    (hw : s.wRec = none) (hm : s.mRec = none) (hx : s.xRec = none) (hd : s.dRec = none) (hf : s.fRec = none) :
    Advances p A i s := by
  induction hn : s.need using Nat.strong_induction_on generalizing s with
  | _ n ih =>
    obtain ⟨free, hsquash, howner, hpc, hcells⟩ := h.empty hw hm hx hd hf
    have tick := step_of_fetch h.running hw hm hx hd
    have idle : s.owner = none ∨ s.owner = some .fetch := by
      cases ho : s.owner with
      | none => exact .inl rfl
      | some who =>
        cases who with
        | memory => exact absurd ho howner
        | fetch => exact .inr rfl
        | cache => exact absurd ho (State.owner_ne_cache h.sound.tickInv.mem)
    have fetched (v : Word) (m : MemSys) (hread : s.mem.cacheRead s.params s.pc .fetch = (.success v, m)) :
        s.fetchExecute.fRec ≠ none := by
      have fetches := h.readsRam.fetches s s (State.writeBackExecute_of_none hw)
        (State.halted_fault_of_running h.running).2 (by
          simp [State.middleExecute, andThen, State.memoryExecute_of_none hm, State.executeExecute_of_none hx,
            State.decodeExecute_of_none hd]) hsquash
          free.fetchHeld v m hread
      have word : v ≠ 0#32 := by
        rw [fetches, State.ramWord, hcells, hpc, h.sim.params]
        exact hword
      rw [State.fetchExecute_of_free hsquash free.fetchHeld, hread]
      simp [State.acceptFetch, word]
    rcases hread : s.mem.cacheRead s.params s.pc .fetch with ⟨r, m⟩
    cases MemSys.cacheRead_called h.sound.tickInv.mem.1 hread with
    | refused other ho hne =>
      obtain e | e := idle
      · cases e.symm.trans ho
      · cases e.symm.trans ho
        exact absurd rfl hne
    | done _ v hr =>
      rw [hr] at hread
      exact h.advances_of_fetched rules hw hm hx hd (fetched v m hread)
    | counts _ hr _ hneed =>
      refine h.advances_of_tick rules hw fun s2 s3 s4 t ht ticks next => ?_
      have asked : s.fetchExecute = { s with mem := m } := by
        rw [State.fetchExecute_of_free hsquash free.fetchHeld, hread]
        obtain rfl | rfl := hr <;> rfl
      rw [asked, State.advance_of_none (s := { s with mem := m }) hm hx hd hf] at tick
      cases tick.symm.trans ht
      exact ih (m.need s.params) (by rw [← hn]; exact hneed) next hw hm hx hd hf rfl

/-! ## The whole run -/

theorem Lockstep.advances (h : Lockstep p A i s) (rules : Rules p A) (hword : (A i).word p ≠ 0#32) :
    Advances p A i s := by
  by_cases hw : s.wRec = none
  · by_cases hm : s.mRec = none
    · by_cases hx : s.xRec = none
      · by_cases hd : s.dRec = none
        · by_cases hf : s.fRec = none
          · exact h.advances_of_empty rules hword hw hm hx hd hf
          · refine h.advances_of_fetched rules hw hm hx hd ?_
            have held : s.fetchHeld = true := by simp [State.fetchHeld, Option.isSome_iff_ne_none, hf]
            rw [State.fetchExecute_of_held (State.inv_iff.1 h.sound.inv).2.2.1 held]
            exact hf
        · exact h.advances_of_dRec rules hw hm hx hd
      · exact h.advances_of_xRec rules hw hm hx
    · exact h.advances_of_mRec rules hw hm
  · exact h.advances_of_wRec rules hw

/-- The words of a run that ends are those of instructions. -/
theorem Ended.word_ne_zero {a : Arch} (h : Ended p a t) : a.word p ≠ 0#32 := by
  cases h with
  | halted _ _ word => exact word
  | faulted _ at_fault => exact at_fault.issued.1

theorem run_append {n k : Nat} {u : State} (h : Host.Core.run core n s = .next t)
    (h' : Host.Core.run core k t = .next u) : Host.Core.run core (n + k) s = .next u := by
  induction n generalizing s with
  | zero =>
    cases h
    rw [Nat.zero_add]
    exact h'
  | succ n ih =>
    obtain ⟨s', hs, _⟩ := stepAnswersNext s
    rw [run_succ hs] at h
    rw [Nat.succ_add, run_succ hs]
    exact ih h

/-- The machine in step with a run that ends stops. -/
theorem Lockstep.stops (h : Lockstep p A i s) (rules : Rules p A) {d : Nat} {r : State}
    (last : Ended p (A (i + d)) r) :
    ∃ n t j, Host.Core.run core n s = .next t ∧ t.stopped = true ∧ Ended p (A j) t := by
  have word {i d : Nat} {s : State} (h : Lockstep p A i s) (last : Ended p (A (i + d)) r) :
      (A i).word p ≠ 0#32 := by
    cases hs : (A i).stops p with
    | false => exact (Arch.issued_of_running hs).1
    | true =>
      rw [← run_stays h.sim.run hs (Nat.le_add_right i d)]
      exact last.word_ne_zero
  induction d generalizing i s with
  | zero =>
    obtain ⟨n, t, hrun, ⟨stopped, j, ended⟩ | ⟨running, _⟩⟩ := h.advances rules (word h last)
    · exact ⟨n, t, j, hrun, stopped, ended⟩
    · cases running.symm.trans last.stops
  | succ d ih =>
    obtain ⟨n, t, hrun, ⟨stopped, j, ended⟩ | ⟨_, next⟩⟩ := h.advances rules (word h last)
    · exact ⟨n, t, j, hrun, stopped, ended⟩
    · obtain ⟨k, u, j, hrun', stopped, ended⟩ := ih next (by rw [Nat.add_assoc, Nat.add_comm 1]; exact last)
      exact ⟨n + k, u, j, run_append hrun hrun', stopped, ended⟩

end

end Sys2Proof.Machine
end

section
/-! SUPPORT. What a program commits does not depend on timing (spec/70_reset_and_hazards.md R360): a machine of
any parameters, and the one with no delay, no cache and one instruction in flight, both end where the sequential
run does. -/

namespace Sys2Proof.Machine

section
variable {p : Params} {A : Nat → Arch} {s t u : State} {cells : RamCells} {i j : Nat}

/-! ## Reset -/

/-- After reset the cache holds nothing (R45). -/
theorem freshAt_reset (b : Word) : (State.resetWith p cells).FreshAt b := by
  have missed (k tag : Nat) : hitWay ((resetCache p).set k) tag = none := by
    refine hitWay_none.2 fun l hl ⟨hvalid, _⟩ => ?_
    have invalid (ways : List Line) (hways : ways ∈ (resetCache p).lines) (l : Line) (hl : l ∈ ways) :
        l.valid = false := by
      unfold resetCache at hways
      split at hways
      · rw [(List.mem_replicate.1 hways).2] at hl
        obtain ⟨_, _, rfl⟩ := List.mem_map.1 hl
        rfl
      · cases hways
    rw [Cache.set, List.getD_eq_getElem?_getD] at hl
    cases hk : (resetCache p).lines[k]? with
    | none =>
      rw [hk] at hl
      cases hl
    | some ways =>
      rw [hk] at hl
      rw [invalid ways (List.mem_of_getElem? hk) l hl] at hvalid
      cases hvalid
  intro v hv
  cases hv.symm.trans (lookup_eq_none_iff.2 (missed _ _))

theorem coherent_reset (h : (State.resetWith p cells).KeepsLineRule) : (State.resetWith p cells).Coherent :=
  ⟨fun b => .inl (freshAt_reset b), fun _ _ hr => (by cases hr), h, fun _ => rfl⟩

theorem owned_reset (p : Params) (cells : RamCells) : (State.resetWith p cells).Owned := by
  have owner : (State.resetWith p cells).owner = none := by
    unfold State.owner MemSys.owner
    split <;> rfl
  refine ⟨fun _ => rfl, fun e => ?_, fun e => ?_⟩ <;> cases owner.symm.trans e

theorem lockstep_reset {image : List Word} (hload : State.load p image = some s) (hlines : s.KeepsLineRule) :
    Lockstep p ((Arch.start (RamCells.loadWords [] 0 image)).run p) 0 s := by
  have sound := sound_reset hload
  cases State.load_eq_some hload
  exact ⟨rfl, sim_reset _ _, sound, owned_reset _ _, fun _ => coherent_reset hlines⟩

/-! ## The end of a run -/

/-- A run ends in one place. -/
theorem Ended.unique (hA : ∀ n, A (n + 1) = (A n).next p) (h : Ended p (A i) s) (h' : Ended p (A j) t) :
    A i = A j := by
  obtain hij | hji := Nat.le_total i j
  · exact (run_stays hA h.stops hij).symm
  · exact run_stays hA h'.stops hji

end

/-- Settles O58: both machines end where the sequential run of the image does, the one with one instruction in
flight by `rules_of_reference`, the other by `Lockstep.stops`. -/
theorem timingIndependence : Obligations.TimingIndependence := by
  intro p image s r r' k hload hload' hrun hstop code lines
  obtain ⟨rules, m, reference⟩ := rules_of_reference hload' hrun hstop code
  have start := lockstep_reset hload lines
  obtain ⟨n, t, j, hrun', _, ended⟩ := start.stops rules (by rw [Nat.zero_add]; exact reference)
  rw [← Ended.unique start.sim.run reference ended] at ended
  exact ⟨n, t, hrun', reference.agree ended⟩

end Sys2Proof.Machine
end
